-- ==== Sys2Proof/Word.lean ====
section
/-!
DEFINITION. Word types and their plainest arithmetic: the byte, the register word, and the list of like parts that
every wider access is cut into.
-/
namespace Sys2Proof

/-- A byte of memory. -/
abbrev Byte := BitVec 8
/-- A half word of 16 bits. -/
abbrev Half := BitVec 16
/-- A word of 32 bits: a tile-register cell (R21). -/
abbrev Word := BitVec 32
/-- A double word of 64 bits: a register of the access core, an EC scalar, a record dword. -/
abbrev Dword := BitVec 64

end Sys2Proof
end

