-- ==== Sys2Proof/Syntax.lean ====
section
/-!
DEFINITION. The instruction set: RISC-V words of the A stream (14 R302), Xenxis words (14 R303 to R309), Enxis words
(14 R311), stage words (06 R133), chain entries (14 R319) and the events of the opcode table. `Instr` is the one
inductive, a constructor for each row of spec/opcode_table.json.
-/
namespace Sys2Proof

/-! ## RISC-V words -/

/-- Register-register operations on 64 bits: RV64I, M, Zba, Zbb, Zicond (14 R302). -/
inductive RvOp where
  | add | sub | sll | slt | sltu | xor | srl | sra | or | and
  | mul | mulh | mulhsu | mulhu | div | divu | rem | remu
  | sh1add | sh2add | sh3add | addUw | sh1addUw | sh2addUw | sh3addUw
  | andn | orn | xnor | max | maxu | min | minu | rol | ror
  | czeroEqz | czeroNez
deriving DecidableEq, Repr

/-- Register-register operations on 32 bits, result sign-extended. -/
inductive RvOpW where
  | addw | subw | sllw | srlw | sraw | mulw | divw | divuw | remw | remuw | rolw | rorw
deriving DecidableEq, Repr

/-- Register-immediate operations with a 12-bit immediate. -/
inductive RvImm where
  | addi | slti | sltiu | xori | ori | andi
deriving DecidableEq, Repr

/-- Shifts and rotations by a 6-bit amount; `slliUw` is the Zba form. -/
inductive RvShift where
  | slli | srli | srai | rori | slliUw
deriving DecidableEq, Repr

/-- Shifts and rotations of 32 bits by a 5-bit amount. -/
inductive RvShiftW where
  | slliw | srliw | sraiw | roriw
deriving DecidableEq, Repr

/-- One-source Zbb operations. -/
inductive RvUn where
  | clz | ctz | cpop | clzw | ctzw | cpopw | sextb | sexth | zexth | orcb | rev8
deriving DecidableEq, Repr

/-- Conditional branches. -/
inductive RvBr where
  | beq | bne | blt | bge | bltu | bgeu
deriving DecidableEq, Repr

/-- Load widths. -/
inductive RvLd where
  | lb | lh | lw | ld | lbu | lhu | lwu
deriving DecidableEq, Repr

/-- Store widths. -/
inductive RvSt where
  | sb | sh | sw | sd
deriving DecidableEq, Repr

/-- Atomic memory operations of the A extension. -/
inductive RvAmo where
  | swap | add | xor | and | or | min | max | minu | maxu
deriving DecidableEq, Repr

/-- CSR operations of Zicsr. -/
inductive RvCsr where
  | rw | rs | rc
deriving DecidableEq, Repr

/-- Single or double precision. -/
inductive RvFmt where
  | s | d
deriving DecidableEq, Repr

/-- The four fused multiply-add forms. -/
inductive RvFma where
  | madd | msub | nmsub | nmadd
deriving DecidableEq, Repr

/-- Rounded two-source operations. -/
inductive RvFop where
  | add | sub | mul | div
deriving DecidableEq, Repr

/-- Sign injection. -/
inductive RvFsgn where
  | inj | injn | injx
deriving DecidableEq, Repr

/-- Floating-point comparisons. -/
inductive RvFcmp where
  | eq | lt | le
deriving DecidableEq, Repr

/-- Integer kinds of conversions. -/
inductive RvInt where
  | w | wu | l | lu
deriving DecidableEq, Repr

/-- A 32-bit word of RV64GC, Zba, Zbb or Zicond. -/
inductive Rv where
  | lui (rd : BitVec 5) (imm : BitVec 20)
  | auipc (rd : BitVec 5) (imm : BitVec 20)
  /-- `off` is the byte offset divided by 2 -/
  | jal (rd : BitVec 5) (off : BitVec 20)
  | jalr (rd rs1 : BitVec 5) (imm : BitVec 12)
  /-- `off` is the byte offset divided by 2 -/
  | br (op : RvBr) (rs1 rs2 : BitVec 5) (off : BitVec 12)
  | load (w : RvLd) (rd rs1 : BitVec 5) (imm : BitVec 12)
  | store (w : RvSt) (rs1 rs2 : BitVec 5) (imm : BitVec 12)
  | opImm (op : RvImm) (rd rs1 : BitVec 5) (imm : BitVec 12)
  | addiw (rd rs1 : BitVec 5) (imm : BitVec 12)
  | shift (op : RvShift) (rd rs1 : BitVec 5) (sh : BitVec 6)
  | shiftW (op : RvShiftW) (rd rs1 : BitVec 5) (sh : BitVec 5)
  | op (op : RvOp) (rd rs1 rs2 : BitVec 5)
  | opW (op : RvOpW) (rd rs1 rs2 : BitVec 5)
  | un (op : RvUn) (rd rs1 : BitVec 5)
  | fence (rd rs1 : BitVec 5) (imm : BitVec 12)
  | fenceI (rd rs1 : BitVec 5) (imm : BitVec 12)
  | ecall
  | ebreak
  /-- `dw`: 1 for 64 bits, 0 for 32 bits; `ord`: aq and rl -/
  | lr (dw : BitVec 1) (ord : BitVec 2) (rd rs1 : BitVec 5)
  | sc (dw : BitVec 1) (ord : BitVec 2) (rd rs1 rs2 : BitVec 5)
  | amo (op : RvAmo) (dw : BitVec 1) (ord : BitVec 2) (rd rs1 rs2 : BitVec 5)
  | csr (op : RvCsr) (rd rs1 : BitVec 5) (n : BitVec 12)
  | csri (op : RvCsr) (rd imm : BitVec 5) (n : BitVec 12)
  | fload (f : RvFmt) (rd rs1 : BitVec 5) (imm : BitVec 12)
  | fstore (f : RvFmt) (rs1 rs2 : BitVec 5) (imm : BitVec 12)
  | fma (k : RvFma) (f : RvFmt) (rm : BitVec 3) (rd rs1 rs2 rs3 : BitVec 5)
  | farith (op : RvFop) (f : RvFmt) (rm : BitVec 3) (rd rs1 rs2 : BitVec 5)
  | fsqrt (f : RvFmt) (rm : BitVec 3) (rd rs1 : BitVec 5)
  | fsgn (k : RvFsgn) (f : RvFmt) (rd rs1 rs2 : BitVec 5)
  /-- `mx`: 1 for the maximum -/
  | fminmax (mx : BitVec 1) (f : RvFmt) (rd rs1 rs2 : BitVec 5)
  | fcmp (k : RvFcmp) (f : RvFmt) (rd rs1 rs2 : BitVec 5)
  | fclass (f : RvFmt) (rd rs1 : BitVec 5)
  | fcvtInt (f : RvFmt) (k : RvInt) (rm : BitVec 3) (rd rs1 : BitVec 5)
  | fcvtFrom (f : RvFmt) (k : RvInt) (rm : BitVec 3) (rd rs1 : BitVec 5)
  /-- to format `f` from the other one -/
  | fcvtF (f : RvFmt) (rm : BitVec 3) (rd rs1 : BitVec 5)
  | fmvX (f : RvFmt) (rd rs1 : BitVec 5)
  | fmvF (f : RvFmt) (rd rs1 : BitVec 5)
deriving DecidableEq, Repr

/-- The two-register compressed arithmetic operations of quadrant 1. -/
inductive RvCArith where
  | sub | xor | or | and | subw | addw
deriving DecidableEq, Repr

/-- A 16-bit word of the C extension. Three-bit registers name x8 to x15 or f8 to f15; an immediate carries only the
bits that the word holds, in ascending order of weight. -/
inductive RvC where
  | addi4spn (rd : BitVec 3) (imm : BitVec 8)
  | fld (rd rs1 : BitVec 3) (imm : BitVec 5)
  | lw (rd rs1 : BitVec 3) (imm : BitVec 5)
  | ld (rd rs1 : BitVec 3) (imm : BitVec 5)
  | fsd (rs1 rs2 : BitVec 3) (imm : BitVec 5)
  | sw (rs1 rs2 : BitVec 3) (imm : BitVec 5)
  | sd (rs1 rs2 : BitVec 3) (imm : BitVec 5)
  | addi (rd : BitVec 5) (imm : BitVec 6)
  | addiw (rd : BitVec 5) (imm : BitVec 6)
  | li (rd : BitVec 5) (imm : BitVec 6)
  | addi16sp (imm : BitVec 6)
  | lui (rd : BitVec 5) (imm : BitVec 6)
  | srli (rd : BitVec 3) (sh : BitVec 6)
  | srai (rd : BitVec 3) (sh : BitVec 6)
  | andi (rd : BitVec 3) (imm : BitVec 6)
  | arith (op : RvCArith) (rd rs2 : BitVec 3)
  | j (off : BitVec 11)
  | beqz (rs1 : BitVec 3) (off : BitVec 8)
  | bnez (rs1 : BitVec 3) (off : BitVec 8)
  | slli (rd : BitVec 5) (sh : BitVec 6)
  | fldsp (rd : BitVec 5) (imm : BitVec 6)
  | lwsp (rd : BitVec 5) (imm : BitVec 6)
  | ldsp (rd : BitVec 5) (imm : BitVec 6)
  | jr (rs1 : BitVec 5)
  | mv (rd rs2 : BitVec 5)
  | ebreak
  | jalr (rs1 : BitVec 5)
  | add (rd rs2 : BitVec 5)
  | fsdsp (rs2 : BitVec 5) (imm : BitVec 6)
  | swsp (rs2 : BitVec 5) (imm : BitVec 6)
  | sdsp (rs2 : BitVec 5) (imm : BitVec 6)
deriving DecidableEq, Repr

/-- A RISC-V word of either length. -/
inductive RvWord where
  | full (i : Rv)
  | comp (c : RvC)
deriving DecidableEq, Repr

/-! ## Enxis words, stage words, chain entries -/

/-- The fields of an E-stream word beside its opcode (14 R311). -/
structure EWord where
  fmt : BitVec 4
  pg : BitVec 4
  pn : BitVec 1
  d : BitVec 6
  a : BitVec 6
  b : BitVec 6
  c : BitVec 6
  tkw : BitVec 3
  tkp : BitVec 3
  i : BitVec 1
  imm : BitVec 16
deriving DecidableEq, Repr

/-- The fields of a stage word beside its opcode (06 R133). -/
structure BWord where
  tin : BitVec 8
  twt : BitVec 8
  tout : BitVec 8
  lvl : BitVec 1
  str : BitVec 5
  blk : BitVec 3
  ax : BitVec 1
  pos : BitVec 2
  ifmt : BitVec 3
  rnd : BitVec 3
  sat : BitVec 1
  trn : BitVec 1
  semi : BitVec 2
  acc : BitVec 2
  aov : BitVec 1
  spm : BitVec 2
  tkw : BitVec 3
  tkp : BitVec 3
  tile : BitVec 15
  woff : BitVec 16
deriving DecidableEq, Repr

/-- The fields of a chain entry beside its opcode (14 R319). -/
structure KWord where
  tkw : BitVec 3
  tkp : BitVec 3
  ba : BitVec 1
  cev : BitVec 1
  bid : BitVec 8
  ta : BitVec 8
  tb : BitVec 8
  tc : BitVec 8
  count : BitVec 16
  arg : BitVec 64
deriving DecidableEq, Repr

/-! ## Parameters of events -/

/-- The engines that walk chains: unit codes 4, 5 and 6 (01 R13). -/
inductive ChainUnit where
  | ce | ie | he
deriving DecidableEq, Repr, Inhabited

/-- A media engine: VDE d.n or CME d.n (01 R9). -/
structure MediaEng where
  cme : Bool
  die : BitVec 1
  n : BitVec 4
deriving DecidableEq, Repr, Inhabited

/-- A PCI Express port of the module (13 R285). -/
inductive Port where
  | host | peer
deriving DecidableEq, Repr

/-- Why a TP is asked to give up its task (11 R259). -/
inductive PreemptWhy where
  | frame | quota | supervisor
deriving DecidableEq, Repr

/-- Status of an ATS completion (10 R232, R237). -/
inductive AtsStatus where
  | success | unsupported | abort
deriving DecidableEq, Repr

/-- Response code of a PRI response (10 R237). -/
inductive PriCode where
  | success | invalid | failure | reserved
deriving DecidableEq, Repr

/-- Status of a completion for a request that is not an ATS request (13 R286). -/
inductive CplStatus where
  | success | unsupported | abort | poisoned
deriving DecidableEq, Repr

/-- Where an inbound request lands: BAR0 or BAR2 of a tenant's function, BAR0 of the physical function, or a peer's
window into this module (13 R289, R291, R293). -/
inductive InWindow where
  | bar0 (tenant : BitVec 4)
  | bar2 (tenant : BitVec 4)
  | physBar0
  | peerBar2 (window : BitVec 4)
deriving DecidableEq, Repr

/-- The AtomicOps that a port completes (13 R285). -/
inductive AtomicOp where
  | fetchAdd | swap | cas
deriving DecidableEq, Repr

/-- What a translation fault held (11 R248, R249). -/
inductive FaultAt where
  /-- the `k`th pawn held with a fault record -/
  | pawn (k : Nat)
  /-- the stalled A stream -/
  | aStream
  /-- the stalled E stream (a fetch) -/
  | eStream
  /-- the stalled B stream (a fetch) -/
  | bStream
  /-- the stalled command of a chain engine -/
  | chain (u : ChainUnit)
  /-- a faulted handle -/
  | handle (n : BitVec 4)
  /-- the stalled command of a media engine -/
  | media (e : MediaEng)
  /-- a launch whose start met a fault -/
  | launch (q : Nat)
deriving DecidableEq, Repr

/-- Why full service ends (13 R296). -/
inductive RecoveryWhy where
  /-- an uncorrectable error of the bridge, which this context has consumed: cause 0x63 (11 R246) -/
  | bridge (ctx : BitVec 8)
  | stack | supervisor
deriving DecidableEq, Repr

/-- The rails of the banker (12 R281). -/
inductive Rail where
  | butterfly | vector | sram | fabric
deriving DecidableEq, Repr

/-- A codec that a stream may use (07 R156). -/
inductive CodecId where
  | h264 | h265 | av1 | h266
deriving DecidableEq, Repr, Inhabited

/-- Requests through the supervisor's interfaces (12 R273, 10 R229, R234, 17 R405, 04 R77, 11 R247). -/
inductive SupRequest where
  /-- create a context of a tenant with a root frame, a PASID and a service entry (12 R267, 10 R227, 11 R254) -/
  | createContext (ctx : BitVec 8) (tenant : BitVec 4) (root : Dword) (pasid : BitVec 20) (svc : Dword)
  /-- set the service entry (11 R254) -/
  | setServiceEntry (ctx : BitVec 8) (svc : Dword)
  /-- write E0 of the energy block (12 R273) -/
  | setEnergy (ctx : BitVec 8) (e0 : Dword)
  /-- write V0 of the cap block (12 R271) -/
  | setCap (tenant : BitVec 4) (v0 : Dword)
  /-- set the fault vector (12 R269) -/
  | setFaultVector (tenant : BitVec 4) (v : BitVec 6)
  /-- set or clear the thermal vector (12 R269) -/
  | setThermalVector (tenant : BitVec 4) (v : Option (BitVec 6))
  /-- set the carve-out (12 R268) -/
  | setCarve (tenant : BitVec 4) (base limit : Nat)
  /-- write a peer window entry (10 R234, 13 R294) -/
  | setPeerWindow (ctx : BitVec 8) (k : BitVec 4) (w0 w1 : Dword)
  /-- set an inbound window of this member (13 R293): base and size in device memory -/
  | setInboundWindow (k : BitVec 4) (base size : Nat)
  /-- create a launch queue with its descriptor (04 R77) -/
  | createQueue (q : BitVec 12) (ctx : BitVec 8) (desc : Nat)
  /-- set RIDX and CIDX of a queue to WIDX (11 R253) -/
  | resetQueue (q : BitVec 12)
  /-- restart a stopped context (11 R253) -/
  | restartContext (ctx : BitVec 8)
  /-- create a stream store (07 R160) and bind it to a VDE with a codec (17 R405) -/
  | bindStream (ssid : BitVec 12) (ctx : BitVec 8) (record : Nat) (vde : MediaEng) (codec : CodecId)
  /-- retire a tracked frame (10 R229) -/
  | releaseFrame (frame : Nat)
  /-- read an event counter (11 R247) -/
  | readCounter (ctx : BitVec 8) (code : BitVec 8)
  /-- clear an event counter (11 R247) -/
  | clearCounter (ctx : BitVec 8) (code : BitVec 8)
  /-- read the energy block (12 R273) -/
  | readEnergy (ctx : BitVec 8)
  /-- read temperatures and steps (12 R284) -/
  | readTelemetry
  /-- re-key an IDE stream of a port after a failure (13 R288): 0 and 1 those of its links, 2 to 5 the selective ones -/
  | rekey (port : Port) (stream : Nat)
  /-- a service request to the running task of a TP (05 R128) -/
  | requestService (tp : BitVec 7)
  /-- set the highest point of a clock: 0 arithmetic, 1 fabric (12 R282) -/
  | setMaxPoint (clock : BitVec 1) (point : BitVec 2)
  /-- set the member number in the peer group (13 R293) -/
  | setMember (n : BitVec 4)
  /-- set the size of a pile's spill area (04 R94) -/
  | setSpill (entries : Nat)
deriving DecidableEq, Repr

/-- What a soft error hits (11 R266). -/
inductive SoftErr where
  /-- one bit of a SECDED word: corrected and counted -/
  | single
  /-- two bits of the 64-bit word of device memory at this place -/
  | hbm (place : Nat)
  /-- two bits of the 64-bit word of the banks at this window address -/
  | bank (addr : Nat)
  /-- two bits of a 64-bit word of a tile register, two cells from an even one -/
  | tile (reg : BitVec 5) (cell : Nat)
  /-- two bits of an accumulator cell -/
  | acc (reg : BitVec 2) (cell : Nat)
  /-- two bits of an entry of a queue, counted from the head -/
  | queue (q : BitVec 3) (entry : Nat)
  /-- parity of command, pile or control state of the TP -/
  | control
  /-- parity of a TLB entry or a cached walk entry -/
  | tlb (k : Nat)
  /-- a wrong sum: not detected -/
  | datapath (reg : BitVec 2) (cell : Nat) (bit : BitVec 6)
deriving DecidableEq, Repr

/-! ## The instruction type -/

/-- A read of a dword of a function's configuration space, or a write of it (R296). -/
structure ConfigAccess where
  reg : Nat
  data : Option (BitVec 32)
deriving DecidableEq, Repr

/-- An IDE stream of a port: 0 and 1 are those of its links, 2 to 5 the selective ones (R285). -/
structure IdeStream where
  port : Port
  stream : Nat
deriving DecidableEq, Repr

/-- Energy metered on the rails of a TP in the last 10 µs (R277). -/
structure RailEnergy where
  butterfly : Nat
  vector : Nat
  sram : Nat
  fabric : Nat
deriving DecidableEq, Repr

/-- Who makes a service core's access, 8 × die + number, whether it is a store (R198), and the SZ code of the leaf that maps it
(R228). -/
structure CoreAccess where
  core : BitVec 4
  store : Bool
  leaf : BitVec 2 := 1
deriving DecidableEq, Repr

/-- A link has settled at a rate and a width (R285). -/
structure LinkReport where
  link : BitVec 1
  gts : Nat
  width : Nat
deriving DecidableEq, Repr

/-- One constructor for each row of the opcode table, in the table's order. -/
inductive Instr where
  -- Xenxis words of the A stream
  | hld (hn : BitVec 4) (imm : BitVec 8) (rs1 : BitVec 5) (w : BitVec 3) (rd : BitVec 5)
  | hst (hn : BitVec 4) (imm : BitVec 8) (rs1 rs2 : BitVec 5) (w : BitVec 2)
  | hstRl (hn : BitVec 4) (imm : BitVec 8) (rs1 rs2 : BitVec 5) (w : BitVec 2)
  | hamo (op : BitVec 4) (ty : BitVec 2) (hn : BitVec 4) (rs2 rs1 rd : BitVec 5)
  | hcas (hn : BitVec 4) (w : BitVec 2) (rs2 rs1 rd : BitVec 5)
  | xlat (hn : BitVec 4) (rs1 rs2 : BitVec 5)
  | hrel (hn : BitVec 4)
  | ldq (hn : BitVec 4) (rs1 : BitVec 5) (q : BitVec 2)
  | stq (hn : BitVec 4) (rs1 : BitVec 5) (q : BitVec 2)
  | tldq (hn : BitVec 4) (rs1 rs2 : BitVec 5) (q : BitVec 2)
  | tstq (hn : BitVec 4) (rs1 rs2 : BitVec 5) (q : BitVec 2)
  | qput (rs1 : BitVec 5) (q : BitVec 2)
  | qget (rd : BitVec 5) (q : BitVec 2)
  | ldqLocal (rs1 : BitVec 5) (q : BitVec 2)
  | stqLocal (rs1 : BitVec 5) (q : BitVec 2)
  | tldqLocal (rs1 rs2 : BitVec 5) (q : BitVec 2)
  | tstqLocal (rs1 rs2 : BitVec 5) (q : BitVec 2)
  | chain (u : ChainUnit) (rs1 : BitVec 5)
  | renq (rs1 rs2 : BitVec 5)
  | spawn (rs1 : BitVec 5)
  | join (rs1 : BitVec 5)
  | park (rs1 : BitVec 5)
  | region (rs1 rs2 : BitVec 5)
  | commit
  | launch (rd rs1 rs2 : BitVec 5)
  | trig (rs1 : BitVec 5)
  | tend
  | xfence (src dst : BitVec 6) (scope : BitVec 4)
  | efence (um : BitVec 6)
  | tokp (u : BitVec 3) (n : BitVec 4)
  | tokw (u : BitVec 3) (n : BitVec 4)
  | bari (g : BitVec 1) (hn : BitVec 4) (rs1 rs2 : BitVec 5)
  | bara (g : BitVec 1) (hn : BitVec 4) (rs1 : BitVec 5)
  | barw (g : BitVec 1) (hn : BitVec 4) (rs1 : BitVec 5)
  | tidset (rs1 rs2 : BitVec 5)
  | tidget (rs1 rs2 : BitVec 5)
  | trap (n : BitVec 5)
  | tret (rs1 : BitVec 5)
  | svcw (rs1 : BitVec 5)
  | sret
  -- Enxis words of the E stream
  | eNop (w : EWord)
  | eAdd (w : EWord)
  | eSub (w : EWord)
  | eMul (w : EWord)
  | eAnd (w : EWord)
  | eOr (w : EWord)
  | eXor (w : EWord)
  | eShl (w : EWord)
  | eShr (w : EWord)
  | eSra (w : EWord)
  | eMin (w : EWord)
  | eMax (w : EWord)
  | eLi (w : EWord)
  | eSel (w : EWord)
  | eCmp (w : EWord)
  | eBr (w : EWord)
  | eBrN (w : EWord)
  | eJmp (w : EWord)
  | eJal (w : EWord)
  | eLoop (w : EWord)
  | eHalt (w : EWord)
  | ePset (w : EWord)
  | ePlog (w : EWord)
  | ePmov (w : EWord)
  | vadd (w : EWord)
  | vsub (w : EWord)
  | vmul (w : EWord)
  | vfma (w : EWord)
  | vmin (w : EWord)
  | vmax (w : EWord)
  | vabs (w : EWord)
  | vneg (w : EWord)
  | vbit (w : EWord)
  | vshf (w : EWord)
  | vcmp (w : EWord)
  | vsel (w : EWord)
  | vmov (w : EWord)
  | vli (w : EWord)
  | vcvt (w : EWord)
  | vrotr (w : EWord)
  | vrotc (w : EWord)
  | vbcr (w : EWord)
  | vbcc (w : EWord)
  | vredr (w : EWord)
  | vredc (w : EWord)
  | vscnr (w : EWord)
  | vscnc (w : EWord)
  | vxl (w : EWord)
  | vexp2 (w : EWord)
  | vlog2 (w : EWord)
  | vrcp (w : EWord)
  | vrsq (w : EWord)
  | vsig (w : EWord)
  | vpopc (w : EWord)
  | vclz (w : EWord)
  | visect (w : EWord)
  | vcmpr (w : EWord)
  | vexpd (w : EWord)
  | qin (w : EWord)
  | qout (w : EWord)
  | vqin (w : EWord)
  | vqout (w : EWord)
  | tokpE (w : EWord)
  | tokwE (w : EWord)
  | trapE (w : EWord)
  -- stage words of the B stream
  | bnop (w : BWord)
  | bstg (w : BWord)
  | bstgAcc (w : BWord)
  | bdns (w : BWord)
  | bdnsAcc (w : BWord)
  | bsem (w : BWord)
  | bsemAcc (w : BWord)
  | bspa (w : BWord)
  | bspaAcc (w : BWord)
  | bprm (w : BWord)
  | bacc (w : BWord)
  | bout (w : BWord)
  | bstr (w : BWord)
  | bcbk (w : BWord)
  | bloop (w : BWord)
  | bend (w : BWord)
  | tokpB (w : BWord)
  | tokwB (w : BWord)
  | bhalt (w : BWord)
  -- chain entries
  | knop (w : KWord)
  | kloop (w : KWord)
  | kend (w : KWord)
  | kjmp (w : KWord)
  | kif (w : KWord)
  | kstop (w : KWord)
  | tokpChain (w : KWord)
  | tokwChain (w : KWord)
  | baraChain (w : KWord)
  | ccpy (w : KWord)
  | cgrw (w : KWord)
  | cmcp (w : KWord)
  | cper (w : KWord)
  | cfil (w : KWord)
  | cxps (w : KWord)
  | igat (w : KWord)
  | isct (w : KWord)
  | isca (w : KWord)
  | ihac (w : KWord)
  | ihrd (w : KWord)
  | hprj (w : KWord)
  | hkey (w : KWord)
  | hgat (w : KWord)
  | hclr (w : KWord)
  | hsts (w : KWord)
  | hstsDrift (w : KWord)
  | msub (w : KWord)
  | mdec (w : KWord)
  | cmbl (w : KWord)
  | cmsm (w : KWord)
  | cmsmDrift (w : KWord)
  -- events
  | mediaCommandStart (e : MediaEng)
  | shadowToActive (u : ChainUnit)
  | commandCompletes (u : ChainUnit)
  | doorbell (tenant : BitVec 4) (data : BitVec 32)
  | launchStart
  | deal (die : BitVec 1)
  | launchCompletion (lid : BitVec 16)
  | taskStart
  | regionRelease (die : BitVec 1)
  | parkWake (k : Nat)
  | pileBinding (die : BitVec 1) (tile : BitVec 6) (cls : BitVec 1) (ctx : BitVec 8)
  | brrWrite (v : Dword)
  | roleChangeTimeout (u : ChainUnit)
  | roleChangeComplete
  | qdirWrite (v : Dword)
  | localWindowStore (addr v : Dword)
  | serviceEntry
  | preemptionRequest (why : PreemptWhy)
  | preemptionEngineTimeout (u : ChainUnit)
  | contextSaved
  | restore
  | walkComplete (hn : BitVec 4)
  | walkRetry (hn : BitVec 4)
  | atsCompletion (pasid : BitVec 20) (va : Dword) (st : AtsStatus) (size : Nat) (bus : Nat) (r w : Bool)
  | atsInvalidationRequest (pasid : BitVec 20) (lo hi : Dword)
  | invalidationCompletion
  | priResponse (pasid : BitVec 20) (va : Dword) (code : PriCode)
  | priTimeout (pasid : BitVec 20) (va : Dword)
  | faultResolved (f : FaultAt) (resolved : Bool)
  | completionTimeout (tag : Nat)
  | completion (tag : Nat) (st : CplStatus)
  | inboundWrite (w : InWindow) (off : Nat) (data : List Byte)
  | inboundRead (w : InWindow) (off len : Nat)
  | inboundAtomicop (w : InWindow) (off : Nat) (op : AtomicOp) (n : Nat) (v cmp : Nat)
  | configurationRequest (fn : Nat) (a : ConfigAccess)
  | ideIntegrityFailure (i : IdeStream)
  | spdmRequest (data : List Byte)
  | functionLevelReset (fn : BitVec 5)
  | msixUnmask (tenant : BitVec 4) (v : BitVec 6)
  | powerGood
  | perstAssert
  | powerLoss
  | perstDeassert
  /-- tiles of die 0 that passed, and its VDEs and CMEs that passed -/
  | bootTestComplete (passed vdes cmes : List Nat)
  /-- tiles of each die, and VDEs and CMEs by die and number, that passed -/
  | selfTestComplete (trained bridge : Bool) (die0 die1 : List Nat) (vdes cmes : List (Nat × Nat))
  | recoveryEntry (why : RecoveryWhy)
  /-- what each rail may draw, none where the banker sets no limit, and the TP on whose BE filler runs (R279, R280) -/
  | bankerGrant (butterfly vector sram fabric : Option Nat) (tile : BitVec 7)
  | operatingPointChange (clock : BitVec 1) (point : BitVec 2)
  | energyCorrection (tile : BitVec 7) (m : RailEnergy)
  | quotaPeriodEnd (ctx : BitVec 8)
  | capWindowEnd (tenant : BitVec 4)
  | logicalClockAdvance
  | hbmTemperatureReading (stack : BitVec 3) (celsius : Option Nat)
  | rv64gc (w : RvWord)
  /-- `tc`: through a mapping whose leaf has TC = 1 (R229) -/
  | serviceCoreLoadOrStore (a : CoreAccess) (tc : Bool) (place : Nat) (data : List Byte)
  | supervisorInterfaceRequest (r : SupRequest)
  | softError (e : SoftErr)
  | linkTraining (port : Port) (l : LinkReport)
  | specialFunctionWrite
deriving DecidableEq, Repr

end Sys2Proof
end

