-- ==== Sys2Proof/WellFormed.lean ====
section
/-!
DEFINITION. Which instruction terms the manual gives an encoding (14 R301 to R322, 06 R134, R139, R140, 08 R184,
17 R400). A term that fails its check is an illegal encoding: cause 0x20 on the A stream, cause 0x21 elsewhere.
-/
namespace Sys2Proof.WellFormed

/-- Bits `lo` to `lo + n - 1` of `v` are zero. -/
def zeroAt {k : Nat} (v : BitVec k) (lo n : Nat) : Bool := v.extractLsb' lo n == 0

/-- A token field: not 7, not the unit's own code (R112). -/
def tokOk (self : Nat) (t : BitVec 3) : Bool := t.toNat != 7 && t.toNat != self

/-! ## A stream -/

/-- Rounding fields of RISC-V words: 0 to 4, or 7 for the dynamic mode. -/
def rmOk (rm : BitVec 3) : Bool := rm.toNat != 5 && rm.toNat != 6

def rv : Rv → Bool
  | .fma _ _ rm _ _ _ _ => rmOk rm
  | .farith _ _ rm _ _ _ => rmOk rm
  | .fsqrt _ rm _ _ => rmOk rm
  | .fcvtInt _ _ rm _ _ => rmOk rm
  | .fcvtFrom _ _ rm _ _ => rmOk rm
  | .fcvtF _ rm _ _ => rmOk rm
  | _ => true

def rvc : RvC → Bool
  | .addi4spn _ imm => imm != 0
  | .addiw rd _ => rd != 0
  | .addi16sp imm => imm != 0
  | .lui rd imm => rd != 2 && imm != 0
  | .lwsp rd _ => rd != 0
  | .ldsp rd _ => rd != 0
  | .jr rs1 => rs1 != 0
  | .jalr rs1 => rs1 != 0
  | .mv _ rs2 => rs2 != 0
  | .add _ rs2 => rs2 != 0
  | _ => true

def rvWord : RvWord → Bool
  | .full i => rv i
  | .comp c => rvc c

/-! ## E stream (R312 to R316, R433) -/

/-- A scalar source: e0–e31, a pop or a peek of q0–q3. -/
def srcE (c : BitVec 6) : Bool := c < 0x24 || (0x28 ≤ c && c < 0x2C)
/-- A scalar destination: e0–e31. -/
def dstE (c : BitVec 6) : Bool := c < 0x20
/-- A tile source: w0–w31, a pop or a peek of q4–q7. -/
def srcW (c : BitVec 6) : Bool := c < 0x20 || (0x24 ≤ c && c < 0x28) || (0x2C ≤ c && c < 0x30)
/-- A tile destination: w0–w31. -/
def dstW (c : BitVec 6) : Bool := c < 0x20
/-- A predicate: p0–p15. -/
def isP (c : BitVec 6) : Bool := c < 0x10
/-- A pop or a peek of q0–q3. -/
def headE (c : BitVec 6) : Bool := (0x20 ≤ c && c < 0x24) || (0x28 ≤ c && c < 0x2C)
/-- A pop or a peek of q4–q7. -/
def headW (c : BitVec 6) : Bool := (0x24 ≤ c && c < 0x28) || (0x2C ≤ c && c < 0x30)

/-- Token fields of an EC word. -/
def eTok (w : EWord) : Bool := tokOk 2 w.tkw && tokOk 2 w.tkp
/-- Function byte of MOD16. -/
def fnOf (w : EWord) : Nat := (w.imm.extractLsb' 8 8).toNat
/-- PG = 0 and PN = 0. -/
def unguarded (w : EWord) : Bool := w.pg == 0 && w.pn == 0

/-- A scalar, control or predicate word with I = 0 and a function below `k` (`k = 1`: none). -/
def eReg (w : EWord) (k : Nat) : Bool := w.fmt == 0 && w.i == 0 && zeroAt w.imm 0 8 && fnOf w < k && eTok w

/-- The formats of a row of R433 as a list of codes. -/
def fmtIn (w : EWord) (l : List Nat) : Bool := l.contains w.fmt.toNat
/-- Formats 0 to 8. -/
def fmt08 : List Nat := [0, 1, 2, 3, 4, 5, 6, 7, 8]
/-- Formats 0 to 8 and BIT. -/
def fmtAll : List Nat := [0, 1, 2, 3, 4, 5, 6, 7, 8, 10]

/-- MOD16 of a tile word: reserved bits zero, the function below `k`, RND and SAT used or zero. -/
def mod16 (w : EWord) (k : Nat) (used : Bool) : Bool :=
  zeroAt w.imm 5 3 && fnOf w < k && (if used then w.imm.extractLsb' 0 3 < 5 else zeroAt w.imm 0 4)

/-- A tile word with optional immediate in place of its last source. -/
def tileOpt (w : EWord) (fmts : List Nat) (k : Nat) (used : Bool) (last : BitVec 6) : Bool :=
  fmtIn w fmts && eTok w && (if w.i == 1 then last == 0 else srcW last && mod16 w k used)
/-- A tile word without an immediate form. -/
def tileReg (w : EWord) (fmts : List Nat) (k : Nat) (used : Bool) : Bool :=
  fmtIn w fmts && eTok w && w.i == 0 && mod16 w k used

/-- Two tile sources, the second optionally an immediate. -/
def tile2 (w : EWord) (fmts : List Nat) (k : Nat) (used : Bool) : Bool :=
  tileOpt w fmts k used w.b && dstW w.d && srcW w.a && w.c == 0
/-- Two tile sources, no immediate. -/
def tile2r (w : EWord) (fmts : List Nat) (k : Nat) (used : Bool) : Bool :=
  tileReg w fmts k used && dstW w.d && srcW w.a && srcW w.b && w.c == 0
/-- One tile source. -/
def tile1 (w : EWord) (fmts : List Nat) (k : Nat) (used : Bool) : Bool :=
  tileReg w fmts k used && dstW w.d && srcW w.a && w.b == 0 && w.c == 0

/-- The scalar ALU form of R336. -/
def eAlu (w : EWord) : Bool :=
  w.fmt == 0 && eTok w && dstE w.d && srcE w.a && w.c == 0 &&
    (if w.i == 1 then w.b == 0 else srcE w.b && w.imm == 0)
/-- A branch BR or BR.n (R356). -/
def eBranch (w : EWord) : Bool :=
  w.fmt == 0 && eTok w && w.d == 0 && w.a == 0 && w.b == 0 && w.c == 0 && w.i == 1
/-- The operand fields of JMP and JAL beside D (R398). -/
def eJump (w : EWord) : Bool :=
  w.fmt == 0 && eTok w && unguarded w && w.b == 0 && w.c == 0 &&
    (if w.i == 1 then w.a == 0 else srcE w.a && w.imm == 0)
/-- The operand bits of PSET (R412). -/
def psetImm (imm : BitVec 16) : Bool :=
  match (imm.extractLsb' 14 2).toNat with
  | 0 => zeroAt imm 1 13
  | 1 => zeroAt imm 11 3 && (imm.extractLsb' 0 11).toNat ≤ 1024
  | 2 => zeroAt imm 7 7 && (imm.extractLsb' 0 7).toNat ≤ 64
  | _ => zeroAt imm 5 9 && (imm.extractLsb' 0 5).toNat ≤ 16
/-- Unit and count of an explicit token form, in a field laid out as IMM16 (R316, R426). -/
def tokArg (self : Nat) (imm : BitVec 16) : Bool :=
  let u := (imm.extractLsb' 0 3).toNat
  1 ≤ u && u ≤ 6 && u != self && zeroAt imm 3 1 && !zeroAt imm 4 4 && zeroAt imm 8 8
/-- The explicit token forms of the E stream. -/
def eTokForm (w : EWord) : Bool :=
  w.fmt == 0 && w.tkw == 0 && w.tkp == 0 && w.d == 0 && w.a == 0 && w.b == 0 && w.c == 0 && w.i == 1 &&
    tokArg 2 w.imm
/-- NOP and HALT: every field but the tokens zero. -/
def eBare (w : EWord) : Bool :=
  w.fmt == 0 && unguarded w && eTok w && w.d == 0 && w.a == 0 && w.b == 0 && w.c == 0 && w.i == 0 && w.imm == 0
/-- A reduction or scan (R447): RND and SAT are used for floats and zero for INT32. -/
def eReduce (w : EWord) : Bool :=
  tile1 w [0, 1, 2, 3, 4] 3 true || tile1 w [8] 3 false

/-! ## B stream (R134, R139, R140) -/

/-- Token fields of a B word. -/
def bTok (w : BWord) : Bool := tokOk 3 w.tkw && tokOk 3 w.tkp
/-- Geometry of an element-level stage: BLK ≤ STR, STR within the axis. -/
def bGeom (w : BWord) : Bool :=
  w.lvl == 0 && w.blk.toNat ≤ w.str.toNat && w.str.toNat ≤ (if w.ax == 1 then 3 else 5)
/-- Geometry fields all zero. -/
def bGeom0 (w : BWord) : Bool := w.lvl == 0 && w.str == 0 && w.blk == 0 && w.ax == 0
/-- The tile-level form: SD register in STR, single position, TILE zero (R134, R141); R134 limits BLK on an element-level stage
only. R141 names no cause for another TILE: the word is then no instruction of the table, cause 0x21 (note 84). -/
def bTileLevel (w : BWord) : Bool :=
  w.lvl == 1 && w.ax == 0 && w.pos == 0 && zeroAt w.str 3 2 && w.tile == 0
/-- The use of fields by position (R139): TOUT is ignored in a first or middle word, and an accumulator form, which does not use it,
has it 0 (R301). `accForm`: the word writes an accumulator. -/
def bPos (w : BWord) (accForm : Bool) : Bool :=
  match w.pos.toNat with
  | 1 => !accForm && w.rnd == 0 && w.sat == 0 && w.acc == 0 && w.aov == 0 && w.ifmt.toNat ≤ 1
  | 2 => !accForm && w.rnd == 0 && w.sat == 0 && w.acc == 0 && w.aov == 0 && w.ifmt.toNat ≤ 1 && w.tkw == 0
  | p => w.ifmt == 0 && (p == 0 || w.tkw == 0) &&
      (if accForm then w.rnd == 0 && w.sat == 0 && w.tout == 0 else w.rnd.toNat ≤ 4 && w.acc == 0 && w.aov == 0)
/-- A stage word with its geometry check. -/
def bStage (w : BWord) (accForm geom : Bool) : Bool := bTok w && bPos w accForm && geom
/-- The fields that BACC, BOUT, BSTR, BCBK, BLOOP, BEND, BHALT never use. -/
def bUnused (w : BWord) : Bool := w.twt == 0 && w.blk == 0 && w.ax == 0 && w.pos == 0 && w.ifmt == 0 && w.trn == 0
def bBacc (w : BWord) : Bool :=
  bTok w && bUnused w && w.tout == 0 && w.lvl == 0 && w.str == 0 && w.rnd == 0 && w.sat == 0 && w.aov == 0 &&
    w.woff == 0 && w.spm.toNat ≤ 2 && (w.spm.toNat != 2 || (w.tin == 0 && w.tile == 0))
def bBout (w : BWord) : Bool :=
  bTok w && bUnused w && w.tin == 0 && w.lvl == 0 && w.str == 0 && w.spm == 0 && w.woff == 0 && w.rnd.toNat ≤ 4
def bBstr (w : BWord) : Bool :=
  bTok w && bUnused w && w.tin == 0 && w.tout == 0 && w.lvl == 1 && zeroAt w.str 3 2 && w.rnd == 0 && w.sat == 0 &&
    w.semi == 0 && w.acc == 0 && w.aov == 0 && w.spm == 0 && w.tile == 0
def bBcbk (w : BWord) : Bool :=
  bTok w && bUnused w && w.tout == 0 && w.lvl == 0 && w.str == 0 && w.rnd == 0 && w.sat == 0 && w.semi == 0 &&
    w.aov == 0 && w.spm == 0 && w.woff == 0
/-- Every field zero but LVL, STR, TKW, TKP, TILE and WOFF. -/
def bLoopish (w : BWord) : Bool :=
  bUnused w && w.tin == 0 && w.tout == 0 && w.rnd == 0 && w.sat == 0 && w.semi == 0 && w.acc == 0 && w.aov == 0 &&
    w.spm == 0
def bBloop (w : BWord) : Bool :=
  bTok w && bLoopish w && (if w.lvl == 1 then zeroAt w.str 3 2 && w.woff == 0 else w.str == 0)
def bBend (w : BWord) : Bool := bTok w && bLoopish w && w.lvl == 0 && w.str == 0 && w.tile == 0 && w.woff == 0
def bTokForm (w : BWord) : Bool :=
  bLoopish w && w.tkw == 0 && w.tkp == 0 && w.lvl == 0 && w.str == 0 && w.tile == 0 && tokArg 3 w.woff
def bZero (w : BWord) : Bool := w.tkw == 0 && w.tkp == 0 && bBend w

/-! ## Chain entries (R184, R319 to R321, R360 to R374, R391 to R395, R400, R405 to R407, R426) -/

/-- Token fields of an entry of unit code `self` (0: the entry runs on all three engines; R112 is then checked by the
engine that walks it). -/
def kTok (self : Nat) (w : KWord) : Bool :=
  w.tkw.toNat != 7 && w.tkp.toNat != 7 && (self == 0 || (w.tkw.toNat != self && w.tkp.toNat != self))
/-- Barrier identifier zero without BA (R319). -/
def kBar (w : KWord) : Bool := w.ba == 1 || w.bid == 0
/-- A control entry: no barrier, no event, no tensors. -/
def kCtl (w : KWord) : Bool :=
  kTok 0 w && w.ba == 0 && w.cev == 0 && w.bid == 0 && w.ta == 0 && w.tb == 0 && w.tc == 0
def kNone (w : KWord) : Bool := kCtl w && w.count == 0 && w.arg == 0
/-- A target in ARG[20:0] with bits [3:0] zero. -/
def kTarget (w : KWord) : Bool := zeroAt w.arg 0 4
def kTokForm (w : KWord) : Bool :=
  kCtl w && w.tkw == 0 && w.tkp == 0 && w.count == 0 && zeroAt w.arg 16 48 && tokArg 0 (w.arg.extractLsb' 0 16)
def kCmd (self : Nat) (w : KWord) : Bool := kTok self w && kBar w
/-- The engine fields of a media command (R367): bits [79:69] zero; a CME has number 0 to 7. -/
def kMedia (w : KWord) (cme : Bool) : Bool :=
  kCmd 4 w && zeroAt w.count 5 11 && zeroAt w.arg 44 20 && (!cme || zeroAt w.count 3 1)
def kNoT (w : KWord) : Bool := w.ta == 0 && w.tb == 0 && w.tc == 0

/-! ## The whole instruction set -/

/-- The check of each constructor. Events carry no encoding and are always well formed. -/
def instr : Instr → Bool
  | .hld _ _ _ w _ => w != 7
  | .hamo op ty _ _ _ _ => op.toNat ≤ 8 && ty.toNat != 3 && (ty.toNat != 2 || op == 0)
  | .hcas _ w rs2 _ rd => w.toNat != 3 && (w.toNat != 2 || (zeroAt rs2 0 1 && zeroAt rd 0 1))
  | .xfence _ _ scope => scope.toNat < 10
  | .efence um => zeroAt um 0 1
  | .tokp u n => 2 ≤ u.toNat && u.toNat ≤ 6 && n != 0
  | .tokw u n => 2 ≤ u.toNat && u.toNat ≤ 6 && n != 0
  | .bari g hn _ _ => g == 1 || hn == 0
  | .bara g hn _ => g == 1 || hn == 0
  | .barw g hn _ => g == 1 || hn == 0
  | .rv64gc w => rvWord w
  | .eNop w => eBare w
  | .eAdd w | .eSub w | .eMul w | .eAnd w | .eOr w | .eXor w | .eShl w | .eShr w | .eSra w | .eMin w | .eMax w => eAlu w
  | .eLi w => w.fmt == 0 && eTok w && dstE w.d && srcE w.a && w.b == 0 && w.c == 0 && w.i == 1
  | .eSel w => eReg w 1 && dstE w.d && srcE w.a && srcE w.b && srcE w.c
  | .eCmp w => eReg w 6 && isP w.d && srcE w.a && srcE w.b && w.c == 0
  | .eBr w | .eBrN w => eBranch w
  | .eJmp w => eJump w && w.d == 0
  | .eJal w => eJump w && dstE w.d
  | .eLoop w => eTok w && unguarded w && w.d == 0 && srcE w.a && w.b == 0 && w.c == 0 && w.i == 1
  | .eHalt w => eBare w
  | .ePset w => w.fmt == 0 && eTok w && isP w.d && w.a == 0 && w.b == 0 && w.c == 0 && w.i == 1 && psetImm w.imm
  | .ePlog w => eReg w 8 && isP w.d && isP w.a && isP w.b && w.c == 0
  | .ePmov w => eReg w 1 && isP w.d && isP w.a && w.b == 0 && w.c == 0
  | .vadd w | .vsub w | .vmul w | .vmin w | .vmax w => tile2 w fmt08 1 true
  | .vfma w => tileOpt w fmt08 1 true w.c && dstW w.d && srcW w.a && srcW w.b
  | .vabs w | .vneg w => tile1 w fmt08 1 true
  | .vbit w => tile2r w fmtAll 8 false
  | .vshf w => tile2 w [5, 6, 7, 8] 3 false
  | .vcmp w => tileReg w fmt08 7 false && isP w.d && srcW w.a && srcW w.b && w.c == 0
  | .vsel w => tileReg w fmtAll 1 false && dstW w.d && srcW w.a && srcW w.b && isP w.c
  | .vmov w => tile1 w fmtAll 1 false
  | .vli w => fmtIn w fmtAll && eTok w && dstW w.d && w.a == 0 && w.b == 0 && w.c == 0 && w.i == 1
  | .vcvt w => tile1 w fmt08 9 true
  | .vrotr w | .vrotc w | .vbcr w | .vbcc w => tile2 w [8] 1 false
  | .vredr w | .vredc w | .vscnr w | .vscnc w => eReduce w
  | .vxl w | .visect w => tile2r w [8] 1 false
  | .vcmpr w | .vexpd w => tile2r w [8] 2 false
  | .vexp2 w | .vlog2 w | .vrcp w | .vrsq w | .vsig w => tile1 w [0, 1, 2, 3, 4] 1 true
  | .vpopc w | .vclz w => tile1 w [5, 6, 7, 8, 10] 1 false
  | .qin w => eReg w 1 && dstE w.d && headE w.a && w.b == 0 && w.c == 0
  | .qout w => eReg w 1 && 0x20 ≤ w.d && w.d < 0x24 && w.a < 0x20 && w.b == 0 && w.c == 0
  | .vqin w => tileReg w fmtAll 1 false && dstW w.d && headW w.a && w.b == 0 && w.c == 0
  | .vqout w => tileReg w fmtAll 1 false && zeroAt w.imm 4 1 && 0x24 ≤ w.d && w.d < 0x28 && srcW w.a && w.b == 0 && w.c == 0
  | .tokpE w | .tokwE w => eTokForm w
  | .trapE w =>
      w.fmt == 0 && eTok w && unguarded w && w.d == 0 && w.a == 0 && w.b == 0 && w.c == 0 && w.i == 1 && zeroAt w.imm 5 11
  | .bnop w => bZero w
  | .bstg w => bStage w false (bGeom w || bTileLevel w) && w.semi == 0 && w.spm == 0
  | .bstgAcc w => bStage w true (bGeom w) && w.semi == 0 && w.spm == 0
  | .bdns w => bStage w false (bGeom0 w) && w.semi == 0 && w.spm == 0
  | .bdnsAcc w => bStage w true (bGeom0 w) && w.semi == 0 && w.spm == 0
  | .bsem w => bStage w false (bGeom w) && w.semi != 0 && w.spm == 0 && (w.semi.toNat != 3 || w.ifmt == 0)
  | .bsemAcc w => bStage w true (bGeom w) && w.semi != 0 && w.spm == 0
  | .bspa w => bStage w false (bGeom0 w) && w.semi == 0 && w.spm != 0
  | .bspaAcc w => bStage w true (bGeom0 w) && w.semi == 0 && w.spm != 0
  | .bprm w =>
      bStage w false (if zeroAt w.woff 0 2 then bGeom w else bGeom0 w) &&
        w.semi == 0 && w.spm == 0 && w.twt == 0 && w.trn == 0 && zeroAt w.woff 2 14
  | .bacc w => bBacc w
  | .bout w => bBout w
  | .bstr w => bBstr w
  | .bcbk w => bBcbk w
  | .bloop w => bBloop w
  | .bend w => bBend w
  | .tokpB w | .tokwB w => bTokForm w
  | .bhalt w => bBend w
  | .knop w | .kend w | .kstop w => kNone w
  | .kloop w => kCtl w && zeroAt w.arg 21 43 && kTarget w
  | .kjmp w => kCtl w && w.count == 0 && zeroAt w.arg 21 43 && kTarget w
  | .kif w => kCtl w && w.count == 0 && zeroAt w.arg 21 11 && zeroAt w.arg 53 11 && kTarget w
  | .tokpChain w | .tokwChain w => kTokForm w
  | .baraChain w => kTok 0 w && w.ba == 1 && kNoT w && w.count == 0 && w.arg == 0
  | .ccpy w =>
      kCmd 4 w && w.tc == 0 && zeroAt w.arg 52 12 && zeroAt w.arg 47 1 && zeroAt w.arg 15 17 && w.arg.extractLsb' 48 3 < 5
  | .cper w => kCmd 4 w && w.tc == 0 && zeroAt w.arg 47 17 && zeroAt w.arg 15 17
  | .cfil w => kCmd 4 w && w.tb == 0 && w.tc == 0 && zeroAt w.arg 47 17
  | .cgrw w => kCmd 4 w && zeroAt w.arg 24 40
  | .cmcp w => kCmd 4 w && w.tc == 0 && w.count == 0
  | .cxps w => kCmd 4 w && w.tc == 0 && zeroAt w.arg 56 8 && zeroAt w.arg 24 8
  | .igat w | .isct w => kCmd 5 w && zeroAt w.arg 56 8
  | .isca w => kCmd 5 w && zeroAt w.arg 56 4
  | .ihac w => kCmd 5 w && zeroAt w.arg 57 7 && zeroAt w.arg 49 3
  | .ihrd w => kCmd 5 w && zeroAt w.arg 56 8 && zeroAt w.arg 49 6
  | .hprj w => kCmd 6 w && kNoT w && zeroAt w.count 3 13
  | .hkey w => kCmd 6 w && zeroAt w.arg 3 13 && (w.arg.getLsbD 2 || w.tc == 0)
  | .hgat w =>
      kCmd 6 w && w.tc == 0 && zeroAt w.arg 34 4 && (w.arg.getLsbD 39 || (zeroAt w.arg 56 8 && zeroAt w.arg 48 8)) &&
        (w.arg.getLsbD 38 || zeroAt w.arg 40 8)
  | .hclr w => kCmd 6 w && kNoT w && w.count == 0 && zeroAt w.arg 2 62
  | .hsts w => kCmd 6 w && kNoT w && w.count == 0 && zeroAt w.arg 8 24 && zeroAt w.arg 2 6
  | .hstsDrift w =>
      kCmd 6 w && kNoT w && w.count == 0 && zeroAt w.arg 8 24 && w.arg.extractLsb' 4 4 == 1 && zeroAt w.arg 2 2
  | .msub w => kMedia w false && w.tb == 0 && w.tc == 0
  | .mdec w => kMedia w false && kNoT w && zeroAt w.arg 24 8 && zeroAt w.arg 21 2
  | .cmbl w => kMedia w true && kNoT w && zeroAt w.arg 0 32
  | .cmsm w => kMedia w true && kNoT w && zeroAt w.arg 0 32
  | .cmsmDrift w => kMedia w true && kNoT w && w.arg.extractLsb' 28 4 == 1 && zeroAt w.arg 21 7
  | _ => true

/-- Whether an instruction is an event of the outside or of the device rather than a word of a stream or chain: only
these may stand in the list of inputs. -/
def isEvent : Instr → Bool
  | .mediaCommandStart .. | .shadowToActive .. | .commandCompletes .. | .doorbell .. | .launchStart | .deal ..
  | .launchCompletion .. | .taskStart | .regionRelease .. | .parkWake .. | .pileBinding .. | .brrWrite ..
  | .roleChangeTimeout .. | .roleChangeComplete | .qdirWrite .. | .localWindowStore .. | .serviceEntry
  | .preemptionRequest .. | .preemptionEngineTimeout .. | .contextSaved | .restore | .walkComplete .. | .walkRetry ..
  | .atsCompletion .. | .atsInvalidationRequest .. | .invalidationCompletion | .priResponse .. | .priTimeout ..
  | .faultResolved .. | .completionTimeout .. | .completion .. | .inboundWrite .. | .inboundRead ..
  | .inboundAtomicop .. | .configurationRequest .. | .ideIntegrityFailure .. | .spdmRequest ..
  | .functionLevelReset .. | .msixUnmask .. | .powerGood | .perstAssert | .powerLoss | .perstDeassert
  | .bootTestComplete .. | .selfTestComplete .. | .recoveryEntry .. | .bankerGrant .. | .operatingPointChange ..
  | .energyCorrection .. | .quotaPeriodEnd .. | .capWindowEnd .. | .logicalClockAdvance
  | .hbmTemperatureReading .. | .serviceCoreLoadOrStore .. | .supervisorInterfaceRequest .. | .softError ..
  | .linkTraining .. | .specialFunctionWrite => true
  | _ => false

end Sys2Proof.WellFormed
end

