-- ==== Sys2Proof/Decode.lean ====
section
/-!
DEFINITION. The decoder, total on any bytes, and the encoder beside it, both written from the encoding tables of 14 R300
to R322, 06 R133 and R134; RISC-V words are those of the standard that R302 names.
-/
namespace Sys2Proof.Decode

/-- `n` bits of `w` from bit `lo` up. -/
def fld {k : Nat} (w : BitVec k) (lo n : Nat) : BitVec n := w.extractLsb' lo n

/-- The little-endian value of a run of bytes (R1). -/
def ofBytes : List Byte → Nat
  | [] => 0
  | b :: bs => b.toNat + 256 * ofBytes bs

/-- The `n` little-endian bytes of a number (R1). -/
def toBytes : Nat → Nat → List Byte
  | 0, _ => []
  | n + 1, v => BitVec.ofNat 8 v :: toBytes n (v / 256)

/-! ## RISC-V words (R302) -/

/-- funct7 and funct3 of the register-register operations on 64 bits, major opcode 0x33. -/
def rOp : RvOp → Option (BitVec 7 × BitVec 3)
  | .add => some (0x00, 0) | .sub => some (0x20, 0) | .sll => some (0x00, 1) | .slt => some (0x00, 2)
  | .sltu => some (0x00, 3) | .xor => some (0x00, 4) | .srl => some (0x00, 5) | .sra => some (0x20, 5)
  | .or => some (0x00, 6) | .and => some (0x00, 7)
  | .mul => some (0x01, 0) | .mulh => some (0x01, 1) | .mulhsu => some (0x01, 2) | .mulhu => some (0x01, 3)
  | .div => some (0x01, 4) | .divu => some (0x01, 5) | .rem => some (0x01, 6) | .remu => some (0x01, 7)
  | .sh1add => some (0x10, 2) | .sh2add => some (0x10, 4) | .sh3add => some (0x10, 6)
  | .andn => some (0x20, 7) | .orn => some (0x20, 6) | .xnor => some (0x20, 4)
  | .min => some (0x05, 4) | .minu => some (0x05, 5) | .max => some (0x05, 6) | .maxu => some (0x05, 7)
  | .rol => some (0x30, 1) | .ror => some (0x30, 5) | .czeroEqz => some (0x07, 5) | .czeroNez => some (0x07, 7)
  | .addUw | .sh1addUw | .sh2addUw | .sh3addUw => none

/-- funct7 and funct3 of the `.uw` operations, major opcode 0x3B. -/
def rOpUw : RvOp → Option (BitVec 7 × BitVec 3)
  | .addUw => some (0x04, 0) | .sh1addUw => some (0x10, 2) | .sh2addUw => some (0x10, 4) | .sh3addUw => some (0x10, 6)
  | _ => none

/-- funct7 and funct3 of the operations on 32 bits, major opcode 0x3B. -/
def rOpW : RvOpW → BitVec 7 × BitVec 3
  | .addw => (0x00, 0) | .subw => (0x20, 0) | .sllw => (0x00, 1) | .srlw => (0x00, 5) | .sraw => (0x20, 5)
  | .mulw => (0x01, 0) | .divw => (0x01, 4) | .divuw => (0x01, 5) | .remw => (0x01, 6) | .remuw => (0x01, 7)
  | .rolw => (0x30, 1) | .rorw => (0x30, 5)

/-- Major opcode, bits [31:20] and funct3 of the one-source operations. -/
def rUn : RvUn → BitVec 7 × BitVec 12 × BitVec 3
  | .clz => (0x13, 0x600, 1) | .ctz => (0x13, 0x601, 1) | .cpop => (0x13, 0x602, 1)
  | .sextb => (0x13, 0x604, 1) | .sexth => (0x13, 0x605, 1)
  | .orcb => (0x13, 0x287, 5) | .rev8 => (0x13, 0x6B8, 5)
  | .clzw => (0x1B, 0x600, 1) | .ctzw => (0x1B, 0x601, 1) | .cpopw => (0x1B, 0x602, 1)
  | .zexth => (0x3B, 0x080, 4)

/-- Major opcode, bits [31:26] and funct3 of the shifts by a 6-bit amount. -/
def rShift : RvShift → BitVec 7 × BitVec 6 × BitVec 3
  | .slli => (0x13, 0x00, 1) | .srli => (0x13, 0x00, 5) | .srai => (0x13, 0x10, 5) | .rori => (0x13, 0x18, 5)
  | .slliUw => (0x1B, 0x02, 1)

/-- funct7 and funct3 of the shifts by a 5-bit amount, major opcode 0x1B. -/
def rShiftW : RvShiftW → BitVec 7 × BitVec 3
  | .slliw => (0x00, 1) | .srliw => (0x00, 5) | .sraiw => (0x20, 5) | .roriw => (0x30, 5)

def rImm : RvImm → BitVec 3
  | .addi => 0 | .slti => 2 | .sltiu => 3 | .xori => 4 | .ori => 6 | .andi => 7
def rBr : RvBr → BitVec 3
  | .beq => 0 | .bne => 1 | .blt => 4 | .bge => 5 | .bltu => 6 | .bgeu => 7
def rLd : RvLd → BitVec 3
  | .lb => 0 | .lh => 1 | .lw => 2 | .ld => 3 | .lbu => 4 | .lhu => 5 | .lwu => 6
def rSt : RvSt → BitVec 3
  | .sb => 0 | .sh => 1 | .sw => 2 | .sd => 3
def rAmo : RvAmo → BitVec 5
  | .swap => 0x01 | .add => 0x00 | .xor => 0x04 | .and => 0x0C | .or => 0x08 | .min => 0x10 | .max => 0x14
  | .minu => 0x18 | .maxu => 0x1C
/-- funct3 of the register forms; the immediate forms add 4. -/
def rCsr : RvCsr → BitVec 2
  | .rw => 1 | .rs => 2 | .rc => 3
def rFmt : RvFmt → BitVec 2
  | .s => 0 | .d => 1
def rFma : RvFma → BitVec 7
  | .madd => 0x43 | .msub => 0x47 | .nmsub => 0x4B | .nmadd => 0x4F
def rFop : RvFop → BitVec 5
  | .add => 0 | .sub => 1 | .mul => 2 | .div => 3
def rFsgn : RvFsgn → BitVec 3
  | .inj => 0 | .injn => 1 | .injx => 2
def rFcmp : RvFcmp → BitVec 3
  | .le => 0 | .lt => 1 | .eq => 2
def rInt : RvInt → BitVec 5
  | .w => 0 | .wu => 1 | .l => 2 | .lu => 3

def allOp : List RvOp :=
  [.add, .sub, .sll, .slt, .sltu, .xor, .srl, .sra, .or, .and, .mul, .mulh, .mulhsu, .mulhu, .div, .divu, .rem, .remu,
   .sh1add, .sh2add, .sh3add, .andn, .orn, .xnor, .max, .maxu, .min, .minu, .rol, .ror, .czeroEqz, .czeroNez]
def allOpUw : List RvOp := [.addUw, .sh1addUw, .sh2addUw, .sh3addUw]
def allOpW : List RvOpW :=
  [.addw, .subw, .sllw, .srlw, .sraw, .mulw, .divw, .divuw, .remw, .remuw, .rolw, .rorw]
def allUn : List RvUn := [.clz, .ctz, .cpop, .clzw, .ctzw, .cpopw, .sextb, .sexth, .zexth, .orcb, .rev8]
def allShift : List RvShift := [.slli, .srli, .srai, .rori, .slliUw]
def allShiftW : List RvShiftW := [.slliw, .srliw, .sraiw, .roriw]
def allImm : List RvImm := [.addi, .slti, .sltiu, .xori, .ori, .andi]
def allBr : List RvBr := [.beq, .bne, .blt, .bge, .bltu, .bgeu]
def allLd : List RvLd := [.lb, .lh, .lw, .ld, .lbu, .lhu, .lwu]
def allSt : List RvSt := [.sb, .sh, .sw, .sd]
def allAmo : List RvAmo := [.swap, .add, .xor, .and, .or, .min, .max, .minu, .maxu]
def allCsr : List RvCsr := [.rw, .rs, .rc]
def allFmt : List RvFmt := [.s, .d]
def allFma : List RvFma := [.madd, .msub, .nmsub, .nmadd]
def allFop : List RvFop := [.add, .sub, .mul, .div]
def allFsgn : List RvFsgn := [.inj, .injn, .injx]
def allFcmp : List RvFcmp := [.eq, .lt, .le]
def allInt : List RvInt := [.w, .wu, .l, .lu]

/-- The format field of a floating-point word. -/
def decodeFmt (c : BitVec 2) : Option RvFmt := allFmt.find? (fun f => rFmt f == c)

/-- Words of major opcode 0x53. -/
def decodeFp (w : BitVec 32) : Option Rv :=
  let rd := fld w 7 5
  let rm := fld w 12 3
  let rs1 := fld w 15 5
  let rs2 := fld w 20 5
  match decodeFmt (fld w 25 2) with
  | none => none
  | some f =>
    match (fld w 27 5).toNat with
    | 0x00 | 0x01 | 0x02 | 0x03 =>
      (allFop.find? (fun o => rFop o == fld w 27 5)).map (fun o => .farith o f rm rd rs1 rs2)
    | 0x0B => if rs2 == 0 then some (.fsqrt f rm rd rs1) else none
    | 0x04 => (allFsgn.find? (fun k => rFsgn k == rm)).map (fun k => .fsgn k f rd rs1 rs2)
    | 0x05 => if fld w 13 2 == 0 then some (.fminmax (fld w 12 1) f rd rs1 rs2) else none
    | 0x08 => if rs2 == (match f with | .s => 1 | .d => 0) then some (.fcvtF f rm rd rs1) else none
    | 0x14 => (allFcmp.find? (fun k => rFcmp k == rm)).map (fun k => .fcmp k f rd rs1 rs2)
    | 0x18 => (allInt.find? (fun k => rInt k == rs2)).map (fun k => .fcvtInt f k rm rd rs1)
    | 0x1A => (allInt.find? (fun k => rInt k == rs2)).map (fun k => .fcvtFrom f k rm rd rs1)
    | 0x1C =>
      if rs2 != 0 then none
      else if rm == 0 then some (.fmvX f rd rs1)
      else if rm == 1 then some (.fclass f rd rs1)
      else none
    | 0x1E => if rs2 == 0 && rm == 0 then some (.fmvF f rd rs1) else none
    | _ => none

/-- Words of major opcodes 0x13, 0x1B, 0x33 and 0x3B. -/
def decodeArith (w : BitVec 32) : Option Rv :=
  let op := fld w 0 7
  let rd := fld w 7 5
  let f3 := fld w 12 3
  let rs1 := fld w 15 5
  let rs2 := fld w 20 5
  let f7 := fld w 25 7
  match allUn.find? (fun u => rUn u == (op, fld w 20 12, f3)) with
  | some u => some (.un u rd rs1)
  | none =>
    match allShift.find? (fun u => rShift u == (op, fld w 26 6, f3)) with
    | some u => some (.shift u rd rs1 (fld w 20 6))
    | none =>
      if op == 0x13 then (allImm.find? (fun o => rImm o == f3)).map (fun o => .opImm o rd rs1 (fld w 20 12))
      else if op == 0x1B then
        if f3 == 0 then some (.addiw rd rs1 (fld w 20 12))
        else (allShiftW.find? (fun o => rShiftW o == (f7, f3))).map (fun o => .shiftW o rd rs1 rs2)
      else if op == 0x33 then (allOp.find? (fun o => rOp o == some (f7, f3))).map (fun o => .op o rd rs1 rs2)
      else
        match allOpW.find? (fun o => rOpW o == (f7, f3)) with
        | some o => some (.opW o rd rs1 rs2)
        | none => (allOpUw.find? (fun o => rOpUw o == some (f7, f3))).map (fun o => .op o rd rs1 rs2)

/-- Words of major opcode 0x2F. -/
def decodeAmo (w : BitVec 32) : Option Rv :=
  let rd := fld w 7 5
  let rs1 := fld w 15 5
  let rs2 := fld w 20 5
  let ord := fld w 25 2
  if fld w 13 2 != 1 then none
  else
    let dw := fld w 12 1
    match (fld w 27 5).toNat with
    | 2 => if rs2 == 0 then some (.lr dw ord rd rs1) else none
    | 3 => some (.sc dw ord rd rs1 rs2)
    | _ => (allAmo.find? (fun o => rAmo o == fld w 27 5)).map (fun o => .amo o dw ord rd rs1 rs2)

/-- Words of major opcode 0x73 other than SRET. -/
def decodeSystem (w : BitVec 32) : Option Rv :=
  if w == 0x00000073 then some .ecall
  else if w == 0x00100073 then some .ebreak
  else
    (allCsr.find? (fun o => rCsr o == fld w 12 2)).map
      (fun o => if fld w 14 1 == 1 then .csri o (fld w 7 5) (fld w 15 5) (fld w 20 12)
                else .csr o (fld w 7 5) (fld w 15 5) (fld w 20 12))

/-- The offset of a JAL, divided by 2. -/
def jalOff (w : BitVec 32) : BitVec 20 := fld w 31 1 ++ fld w 12 8 ++ fld w 20 1 ++ fld w 21 10
/-- The offset of a branch, divided by 2. -/
def brOff (w : BitVec 32) : BitVec 12 := fld w 31 1 ++ fld w 7 1 ++ fld w 25 6 ++ fld w 8 4
/-- The immediate of a store. -/
def stImm (w : BitVec 32) : BitVec 12 := fld w 25 7 ++ fld w 7 5

/-- A 32-bit RISC-V word. -/
def decodeRv (w : BitVec 32) : Option Rv :=
  let rd := fld w 7 5
  let f3 := fld w 12 3
  let rs1 := fld w 15 5
  let rs2 := fld w 20 5
  match (fld w 0 7).toNat with
  | 0x37 => some (.lui rd (fld w 12 20))
  | 0x17 => some (.auipc rd (fld w 12 20))
  | 0x6F => some (.jal rd (jalOff w))
  | 0x67 => if f3 == 0 then some (.jalr rd rs1 (fld w 20 12)) else none
  | 0x63 => (allBr.find? (fun o => rBr o == f3)).map (fun o => .br o rs1 rs2 (brOff w))
  | 0x03 => (allLd.find? (fun o => rLd o == f3)).map (fun o => .load o rd rs1 (fld w 20 12))
  | 0x23 => (allSt.find? (fun o => rSt o == f3)).map (fun o => .store o rs1 rs2 (stImm w))
  | 0x13 | 0x1B | 0x33 | 0x3B => decodeArith w
  | 0x0F =>
    if f3 == 0 then some (.fence rd rs1 (fld w 20 12))
    else if f3 == 1 then some (.fenceI rd rs1 (fld w 20 12))
    else none
  | 0x2F => decodeAmo w
  | 0x73 => decodeSystem w
  | 0x07 => if f3 == 2 then some (.fload .s rd rs1 (fld w 20 12))
            else if f3 == 3 then some (.fload .d rd rs1 (fld w 20 12)) else none
  | 0x27 => if f3 == 2 then some (.fstore .s rs1 rs2 (stImm w))
            else if f3 == 3 then some (.fstore .d rs1 rs2 (stImm w)) else none
  | 0x43 | 0x47 | 0x4B | 0x4F =>
    match allFma.find? (fun k => rFma k == fld w 0 7), decodeFmt (fld w 25 2) with
    | some k, some f => some (.fma k f f3 rd rs1 rs2 (fld w 27 5))
    | _, _ => none
  | 0x53 => decodeFp w
  | _ => none

/-- The word of a register-register operation. -/
def rType (op f7 : BitVec 7) (f3 : BitVec 3) (rd rs1 rs2 : BitVec 5) : BitVec 32 := f7 ++ rs2 ++ rs1 ++ f3 ++ rd ++ op
/-- The word of a register-immediate operation. -/
def iType (op : BitVec 7) (f3 : BitVec 3) (rd rs1 : BitVec 5) (imm : BitVec 12) : BitVec 32 := imm ++ rs1 ++ f3 ++ rd ++ op
/-- The word of a store. -/
def sType (op : BitVec 7) (f3 : BitVec 3) (rs1 rs2 : BitVec 5) (imm : BitVec 12) : BitVec 32 :=
  fld imm 5 7 ++ rs2 ++ rs1 ++ f3 ++ fld imm 0 5 ++ op
/-- The word of a floating-point operation. -/
def fType (f5 : BitVec 5) (f : RvFmt) (rm : BitVec 3) (rd rs1 rs2 : BitVec 5) : BitVec 32 :=
  f5 ++ rFmt f ++ rs2 ++ rs1 ++ rm ++ rd ++ (0x53 : BitVec 7)

/-- The word of a 32-bit RISC-V instruction. -/
def encodeRv : Rv → BitVec 32
  | .lui rd imm => imm ++ rd ++ (0x37 : BitVec 7)
  | .auipc rd imm => imm ++ rd ++ (0x17 : BitVec 7)
  | .jal rd off => fld off 19 1 ++ fld off 0 10 ++ fld off 10 1 ++ fld off 11 8 ++ rd ++ (0x6F : BitVec 7)
  | .jalr rd rs1 imm => iType 0x67 0 rd rs1 imm
  | .br o rs1 rs2 off =>
    fld off 11 1 ++ fld off 4 6 ++ rs2 ++ rs1 ++ rBr o ++ fld off 0 4 ++ fld off 10 1 ++ (0x63 : BitVec 7)
  | .load o rd rs1 imm => iType 0x03 (rLd o) rd rs1 imm
  | .store o rs1 rs2 imm => sType 0x23 (rSt o) rs1 rs2 imm
  | .opImm o rd rs1 imm => iType 0x13 (rImm o) rd rs1 imm
  | .addiw rd rs1 imm => iType 0x1B 0 rd rs1 imm
  | .shift o rd rs1 sh => iType (rShift o).1 (rShift o).2.2 rd rs1 ((rShift o).2.1 ++ sh)
  | .shiftW o rd rs1 sh => rType 0x1B (rShiftW o).1 (rShiftW o).2 rd rs1 sh
  | .op o rd rs1 rs2 =>
    match rOp o, rOpUw o with
    | some c, _ => rType 0x33 c.1 c.2 rd rs1 rs2
    | none, some c => rType 0x3B c.1 c.2 rd rs1 rs2
    | none, none => 0
  | .opW o rd rs1 rs2 => rType 0x3B (rOpW o).1 (rOpW o).2 rd rs1 rs2
  | .un o rd rs1 => iType (rUn o).1 (rUn o).2.2 rd rs1 (rUn o).2.1
  | .fence rd rs1 imm => iType 0x0F 0 rd rs1 imm
  | .fenceI rd rs1 imm => iType 0x0F 1 rd rs1 imm
  | .ecall => 0x00000073
  | .ebreak => 0x00100073
  | .lr dw ord rd rs1 => rType 0x2F ((2 : BitVec 5) ++ ord) ((1 : BitVec 2) ++ dw) rd rs1 0
  | .sc dw ord rd rs1 rs2 => rType 0x2F ((3 : BitVec 5) ++ ord) ((1 : BitVec 2) ++ dw) rd rs1 rs2
  | .amo o dw ord rd rs1 rs2 => rType 0x2F (rAmo o ++ ord) ((1 : BitVec 2) ++ dw) rd rs1 rs2
  | .csr o rd rs1 n => iType 0x73 ((0 : BitVec 1) ++ rCsr o) rd rs1 n
  | .csri o rd imm n => iType 0x73 ((1 : BitVec 1) ++ rCsr o) rd imm n
  | .fload f rd rs1 imm => iType 0x07 ((1 : BitVec 2) ++ fld (rFmt f) 0 1) rd rs1 imm
  | .fstore f rs1 rs2 imm => sType 0x27 ((1 : BitVec 2) ++ fld (rFmt f) 0 1) rs1 rs2 imm
  | .fma k f rm rd rs1 rs2 rs3 => rs3 ++ rFmt f ++ rs2 ++ rs1 ++ rm ++ rd ++ rFma k
  | .farith o f rm rd rs1 rs2 => fType (rFop o) f rm rd rs1 rs2
  | .fsqrt f rm rd rs1 => fType 0x0B f rm rd rs1 0
  | .fsgn k f rd rs1 rs2 => fType 0x04 f (rFsgn k) rd rs1 rs2
  | .fminmax mx f rd rs1 rs2 => fType 0x05 f ((0 : BitVec 2) ++ mx) rd rs1 rs2
  | .fcmp k f rd rs1 rs2 => fType 0x14 f (rFcmp k) rd rs1 rs2
  | .fclass f rd rs1 => fType 0x1C f 1 rd rs1 0
  | .fcvtInt f k rm rd rs1 => fType 0x18 f rm rd rs1 (rInt k)
  | .fcvtFrom f k rm rd rs1 => fType 0x1A f rm rd rs1 (rInt k)
  | .fcvtF f rm rd rs1 => fType 0x08 f rm rd rs1 (match f with | .s => 1 | .d => 0)
  | .fmvX f rd rs1 => fType 0x1C f 0 rd rs1 0
  | .fmvF f rd rs1 => fType 0x1E f 0 rd rs1 0

/-! ## Compressed words (R302: the C extension) -/

/-- The two-register operations: bit 12 and bits [6:5]. -/
def cArith : RvCArith → BitVec 1 × BitVec 2
  | .sub => (0, 0) | .xor => (0, 1) | .or => (0, 2) | .and => (0, 3) | .subw => (1, 0) | .addw => (1, 1)
def allCArith : List RvCArith := [.sub, .xor, .or, .and, .subw, .addw]

/-- Immediate of C.LW and C.SW, in words. -/
def cImmW (w : BitVec 16) : BitVec 5 := fld w 5 1 ++ fld w 10 3 ++ fld w 6 1
/-- Immediate of C.LD, C.SD, C.FLD and C.FSD, in double words. -/
def cImmD (w : BitVec 16) : BitVec 5 := fld w 5 2 ++ fld w 10 3
/-- The 6-bit immediate or shift amount of quadrants 1 and 2. -/
def cImm6 (w : BitVec 16) : BitVec 6 := fld w 12 1 ++ fld w 2 5
/-- Immediate of C.ADDI16SP, in units of 16. -/
def cImmSp (w : BitVec 16) : BitVec 6 := fld w 12 1 ++ fld w 3 2 ++ fld w 5 1 ++ fld w 2 1 ++ fld w 6 1
/-- Immediate of C.ADDI4SPN, in words. -/
def cImm4 (w : BitVec 16) : BitVec 8 := fld w 7 4 ++ fld w 11 2 ++ fld w 5 1 ++ fld w 6 1
/-- Offset of C.J, divided by 2. -/
def cOffJ (w : BitVec 16) : BitVec 11 :=
  fld w 12 1 ++ fld w 8 1 ++ fld w 9 2 ++ fld w 6 1 ++ fld w 7 1 ++ fld w 2 1 ++ fld w 11 1 ++ fld w 3 3
/-- Offset of C.BEQZ and C.BNEZ, divided by 2. -/
def cOffB (w : BitVec 16) : BitVec 8 := fld w 12 1 ++ fld w 5 2 ++ fld w 2 1 ++ fld w 10 2 ++ fld w 3 2
/-- Immediate of C.LWSP, in words. -/
def cImmLwsp (w : BitVec 16) : BitVec 6 := fld w 2 2 ++ fld w 12 1 ++ fld w 4 3
/-- Immediate of C.LDSP and C.FLDSP, in double words. -/
def cImmLdsp (w : BitVec 16) : BitVec 6 := fld w 2 3 ++ fld w 12 1 ++ fld w 5 2
/-- Immediate of C.SWSP, in words. -/
def cImmSwsp (w : BitVec 16) : BitVec 6 := fld w 7 2 ++ fld w 9 4
/-- Immediate of C.SDSP and C.FSDSP, in double words. -/
def cImmSdsp (w : BitVec 16) : BitVec 6 := fld w 7 3 ++ fld w 10 3

/-- Quadrant 0. -/
def decodeC0 (w : BitVec 16) : Option RvC :=
  let rd := fld w 2 3
  let rs1 := fld w 7 3
  match (fld w 13 3).toNat with
  | 0 => some (.addi4spn rd (cImm4 w))
  | 1 => some (.fld rd rs1 (cImmD w))
  | 2 => some (.lw rd rs1 (cImmW w))
  | 3 => some (.ld rd rs1 (cImmD w))
  | 5 => some (.fsd rs1 rd (cImmD w))
  | 6 => some (.sw rs1 rd (cImmW w))
  | 7 => some (.sd rs1 rd (cImmD w))
  | _ => none

/-- Quadrant 1. -/
def decodeC1 (w : BitVec 16) : Option RvC :=
  let rd := fld w 7 5
  let r := fld w 7 3
  match (fld w 13 3).toNat with
  | 0 => some (.addi rd (cImm6 w))
  | 1 => some (.addiw rd (cImm6 w))
  | 2 => some (.li rd (cImm6 w))
  | 3 => if rd == 2 then some (.addi16sp (cImmSp w)) else some (.lui rd (cImm6 w))
  | 4 =>
    match (fld w 10 2).toNat with
    | 0 => some (.srli r (cImm6 w))
    | 1 => some (.srai r (cImm6 w))
    | 2 => some (.andi r (cImm6 w))
    | _ => (allCArith.find? (fun o => cArith o == (fld w 12 1, fld w 5 2))).map (fun o => .arith o r (fld w 2 3))
  | 5 => some (.j (cOffJ w))
  | 6 => some (.beqz r (cOffB w))
  | _ => some (.bnez r (cOffB w))

/-- Quadrant 2. -/
def decodeC2 (w : BitVec 16) : Option RvC :=
  let rd := fld w 7 5
  let rs2 := fld w 2 5
  match (fld w 13 3).toNat with
  | 0 => some (.slli rd (cImm6 w))
  | 1 => some (.fldsp rd (cImmLdsp w))
  | 2 => some (.lwsp rd (cImmLwsp w))
  | 3 => some (.ldsp rd (cImmLdsp w))
  | 4 =>
    if fld w 12 1 == 0 then
      if rs2 == 0 then some (.jr rd) else some (.mv rd rs2)
    else if rs2 == 0 then
      if rd == 0 then some .ebreak else some (.jalr rd)
    else some (.add rd rs2)
  | 5 => some (.fsdsp rs2 (cImmSdsp w))
  | 6 => some (.swsp rs2 (cImmSwsp w))
  | _ => some (.sdsp rs2 (cImmSdsp w))

/-- A 16-bit word. -/
def decodeC (w : BitVec 16) : Option RvC :=
  match (fld w 0 2).toNat with
  | 0 => decodeC0 w
  | 1 => decodeC1 w
  | 2 => decodeC2 w
  | _ => none

/-- A quadrant 0 load or store: three immediate bits, two immediate bits. -/
def c0Word (f3 : BitVec 3) (hi : BitVec 3) (rs1 : BitVec 3) (lo : BitVec 2) (r : BitVec 3) : BitVec 16 :=
  f3 ++ hi ++ rs1 ++ lo ++ r ++ (0 : BitVec 2)
/-- A word with a 5-bit register and a 6-bit immediate. -/
def ciWord (f3 : BitVec 3) (imm : BitVec 6) (rd : BitVec 5) (q : BitVec 2) : BitVec 16 :=
  f3 ++ fld imm 5 1 ++ rd ++ fld imm 0 5 ++ q
/-- A quadrant 1 word with a 3-bit register and a 6-bit immediate. -/
def cbWord (f2 : BitVec 2) (imm : BitVec 6) (rd : BitVec 3) : BitVec 16 :=
  (4 : BitVec 3) ++ fld imm 5 1 ++ f2 ++ rd ++ fld imm 0 5 ++ (1 : BitVec 2)
/-- A compressed conditional branch. -/
def cBrWord (f3 : BitVec 3) (rs1 : BitVec 3) (o : BitVec 8) : BitVec 16 :=
  f3 ++ fld o 7 1 ++ fld o 2 2 ++ rs1 ++ fld o 5 2 ++ fld o 0 2 ++ fld o 4 1 ++ (1 : BitVec 2)
/-- C.LDSP and C.FLDSP. -/
def cLdspWord (f3 : BitVec 3) (rd : BitVec 5) (i : BitVec 6) : BitVec 16 :=
  f3 ++ fld i 2 1 ++ rd ++ fld i 0 2 ++ fld i 3 3 ++ (2 : BitVec 2)
/-- C.SDSP and C.FSDSP. -/
def cSdspWord (f3 : BitVec 3) (rs2 : BitVec 5) (i : BitVec 6) : BitVec 16 :=
  f3 ++ fld i 0 3 ++ fld i 3 3 ++ rs2 ++ (2 : BitVec 2)
/-- C.JR, C.MV, C.JALR, C.ADD. -/
def crWord (b : BitVec 1) (rd rs2 : BitVec 5) : BitVec 16 := (4 : BitVec 3) ++ b ++ rd ++ rs2 ++ (2 : BitVec 2)

/-- The word of a compressed instruction. -/
def encodeC : RvC → BitVec 16
  | .addi4spn rd i =>
    (0 : BitVec 3) ++ fld i 2 2 ++ fld i 4 4 ++ fld i 0 1 ++ fld i 1 1 ++ rd ++ (0 : BitVec 2)
  | .fld rd rs1 i => c0Word 1 (fld i 0 3) rs1 (fld i 3 2) rd
  | .lw rd rs1 i => c0Word 2 (fld i 1 3) rs1 (fld i 0 1 ++ fld i 4 1) rd
  | .ld rd rs1 i => c0Word 3 (fld i 0 3) rs1 (fld i 3 2) rd
  | .fsd rs1 rs2 i => c0Word 5 (fld i 0 3) rs1 (fld i 3 2) rs2
  | .sw rs1 rs2 i => c0Word 6 (fld i 1 3) rs1 (fld i 0 1 ++ fld i 4 1) rs2
  | .sd rs1 rs2 i => c0Word 7 (fld i 0 3) rs1 (fld i 3 2) rs2
  | .addi rd i => ciWord 0 i rd 1
  | .addiw rd i => ciWord 1 i rd 1
  | .li rd i => ciWord 2 i rd 1
  | .addi16sp i =>
    (3 : BitVec 3) ++ fld i 5 1 ++ (2 : BitVec 5) ++ fld i 0 1 ++ fld i 2 1 ++ fld i 3 2 ++ fld i 1 1 ++ (1 : BitVec 2)
  | .lui rd i => ciWord 3 i rd 1
  | .srli rd i => cbWord 0 i rd
  | .srai rd i => cbWord 1 i rd
  | .andi rd i => cbWord 2 i rd
  | .arith o rd rs2 => (4 : BitVec 3) ++ (cArith o).1 ++ (3 : BitVec 2) ++ rd ++ (cArith o).2 ++ rs2 ++ (1 : BitVec 2)
  | .j o =>
    (5 : BitVec 3) ++ fld o 10 1 ++ fld o 3 1 ++ fld o 7 2 ++ fld o 9 1 ++ fld o 5 1 ++ fld o 6 1 ++ fld o 0 3 ++
      fld o 4 1 ++ (1 : BitVec 2)
  | .beqz rs1 o => cBrWord 6 rs1 o
  | .bnez rs1 o => cBrWord 7 rs1 o
  | .slli rd i => ciWord 0 i rd 2
  | .fldsp rd i => cLdspWord 1 rd i
  | .lwsp rd i => (2 : BitVec 3) ++ fld i 3 1 ++ rd ++ fld i 0 3 ++ fld i 4 2 ++ (2 : BitVec 2)
  | .ldsp rd i => cLdspWord 3 rd i
  | .jr rs1 => crWord 0 rs1 0
  | .mv rd rs2 => crWord 0 rd rs2
  | .ebreak => crWord 1 0 0
  | .jalr rs1 => crWord 1 rs1 0
  | .add rd rs2 => crWord 1 rd rs2
  | .fsdsp rs2 i => cSdspWord 5 rs2 i
  | .swsp rs2 i => (6 : BitVec 3) ++ fld i 0 4 ++ fld i 4 2 ++ rs2 ++ (2 : BitVec 2)
  | .sdsp rs2 i => cSdspWord 7 rs2 i

/-! ## Xenxis words (R303 to R308) -/

/-- funct3 0 to 5 of custom-3 (R306, R307). -/
def decodeCustom3 (w : BitVec 32) : Option Instr :=
  let hn := fld w 28 4
  let sub := fld w 25 3
  let rs2 := fld w 20 5
  let rs1 := fld w 15 5
  let rd := fld w 7 5
  let q := fld w 7 2
  let z (b : Bool) (i : Instr) : Option Instr := if b then some i else none
  match (fld w 12 3).toNat with
  | 0 => z (fld w 25 1 == 0) (.hcas hn (fld w 26 2) rs2 rs1 rd)
  | 1 =>
    match sub.toNat with
    | 0 => z (rd == 0) (.xlat hn rs1 rs2)
    | 1 => z (rd == 0 && rs1 == 0 && rs2 == 0) (.hrel hn)
    | 2 => z (rs2 == 0 && rd.toNat < 4) (.ldq hn rs1 q)
    | 3 => z (rs2 == 0 && rd.toNat < 4) (.stq hn rs1 q)
    | 4 => z (4 ≤ rd.toNat && rd.toNat < 8) (.tldq hn rs1 rs2 q)
    | 5 => z (4 ≤ rd.toNat && rd.toNat < 8) (.tstq hn rs1 rs2 q)
    | 6 => z (hn == 0 && rs2 == 0 && rd.toNat < 4) (.qput rs1 q)
    | _ => z (hn == 0 && rs2 == 0 && rs1.toNat < 4) (.qget rd (fld w 15 2))
  | 5 =>
    match sub.toNat with
    | 2 => z (hn == 0 && rs2 == 0 && rd.toNat < 4) (.ldqLocal rs1 q)
    | 3 => z (hn == 0 && rs2 == 0 && rd.toNat < 4) (.stqLocal rs1 q)
    | 4 => z (hn == 0 && 4 ≤ rd.toNat && rd.toNat < 8) (.tldqLocal rs1 rs2 q)
    | 5 => z (hn == 0 && 4 ≤ rd.toNat && rd.toNat < 8) (.tstqLocal rs1 rs2 q)
    | _ => none
  | 2 =>
    let one := sub == 0 && rd == 0 && rs2 == 0
    match hn.toNat with
    | 0 =>
      if rd == 0 && rs2 == 0 then
        match sub.toNat with
        | 4 => some (.chain .ce rs1)
        | 5 => some (.chain .ie rs1)
        | 6 => some (.chain .he rs1)
        | _ => none
      else none
    | 1 => z (sub == 0 && rd == 0) (.renq rs1 rs2)
    | 2 => z one (.spawn rs1)
    | 3 => z one (.join rs1)
    | 4 => z one (.park rs1)
    | 5 => z (sub == 0 && rd == 0) (.region rs1 rs2)
    | 6 => z (one && rs1 == 0) .commit
    | 7 => z (sub == 0) (.launch rd rs1 rs2)
    | 8 => z one (.trig rs1)
    | 9 => z (one && rs1 == 0) .tend
    | _ => none
  | 3 =>
    let g := fld w 27 1
    match rd.toNat with
    | 0 => z (fld w 15 1 == 0) (.xfence (fld w 26 6) (fld w 20 6) (fld w 16 4))
    | 1 => z (fld w 15 11 == 0) (.efence (fld w 26 6))
    | 2 => z (fld w 15 10 == 0) (.tokp (fld w 29 3) (fld w 25 4))
    | 3 => z (fld w 15 10 == 0) (.tokw (fld w 29 3) (fld w 25 4))
    | 4 => z (fld w 25 2 == 0) (.bari g hn rs1 rs2)
    | 5 => z (fld w 25 2 == 0 && rs2 == 0) (.bara g hn rs1)
    | 6 => z (fld w 25 2 == 0 && rs2 == 0) (.barw g hn rs1)
    | _ => none
  | 4 =>
    match (fld w 25 7).toNat with
    | 0 => z (rd == 0) (.tidset rs1 rs2)
    | 1 => z (rd == 0) (.tidget rs1 rs2)
    | 2 => z (rd == 0 && rs1 == 0) (.trap rs2)
    | 3 => z (rd == 0 && rs2 == 0) (.tret rs1)
    | 4 => z (rd == 0 && rs2 == 0) (.svcw rs1)
    | _ => none
  | _ => none

/-- A word of 32 bits before its well-formedness check. -/
def decodeRaw32 (w : BitVec 32) : Option Instr :=
  match (fld w 0 7).toNat with
  | 0x0B => some (.hld (fld w 28 4) (fld w 20 8) (fld w 15 5) (fld w 12 3) (fld w 7 5))
  | 0x2B =>
    let imm : BitVec 8 := fld w 25 3 ++ fld w 7 5
    if fld w 14 1 == 1 then some (.hstRl (fld w 28 4) imm (fld w 15 5) (fld w 20 5) (fld w 12 2))
    else some (.hst (fld w 28 4) imm (fld w 15 5) (fld w 20 5) (fld w 12 2))
  | 0x5B => some (.hamo (fld w 28 4) (fld w 26 2) (fld w 22 4) (fld w 17 5) (fld w 12 5) (fld w 7 5))
  | 0x7B => decodeCustom3 w
  | _ => if w == 0x10200073 then some .sret else (decodeRv w).map (fun i => .rv64gc (.full i))

/-- Keep a term only when it is well formed (R301). -/
def checked (o : Option Instr) : Option Instr :=
  match o with
  | some i => if WellFormed.instr i then some i else none
  | none => none

/-- An A-stream word of 32 bits. -/
def decodeA32 (w : BitVec 32) : Option Instr := checked (decodeRaw32 w)
/-- An A-stream word of 16 bits. -/
def decodeA16 (w : BitVec 16) : Option Instr := checked ((decodeC w).map (fun c => .rv64gc (.comp c)))

/-- A word of group 1 or 5 of custom-3. -/
def c3Word (hn : BitVec 4) (sub : BitVec 3) (rs2 rs1 : BitVec 5) (f3 : BitVec 3) (rd : BitVec 5) : BitVec 32 :=
  hn ++ sub ++ rs2 ++ rs1 ++ f3 ++ rd ++ (0x7B : BitVec 7)
/-- The register field of a queue of the upper four. -/
def q4 (q : BitVec 2) : BitVec 5 := (1 : BitVec 3) ++ q
/-- The register field of a queue of the lower four. -/
def q0 (q : BitVec 2) : BitVec 5 := (0 : BitVec 3) ++ q
/-- A word of group 4 of custom-3. -/
def sysWord (sub : BitVec 7) (rs2 rs1 : BitVec 5) : BitVec 32 :=
  sub ++ rs2 ++ rs1 ++ (4 : BitVec 3) ++ (0 : BitVec 5) ++ (0x7B : BitVec 7)
/-- The unit codes of the chain engines (R13). -/
def unitCode : ChainUnit → BitVec 3
  | .ce => 4 | .ie => 5 | .he => 6

/-- The word of a 32-bit A-stream instruction. -/
def encode32 : Instr → Option (BitVec 32)
  | .hld hn imm rs1 w rd => some (hn ++ imm ++ rs1 ++ w ++ rd ++ (0x0B : BitVec 7))
  | .hst hn imm rs1 rs2 w =>
    some (hn ++ fld imm 5 3 ++ rs2 ++ rs1 ++ (0 : BitVec 1) ++ w ++ fld imm 0 5 ++ (0x2B : BitVec 7))
  | .hstRl hn imm rs1 rs2 w =>
    some (hn ++ fld imm 5 3 ++ rs2 ++ rs1 ++ (1 : BitVec 1) ++ w ++ fld imm 0 5 ++ (0x2B : BitVec 7))
  | .hamo op ty hn rs2 rs1 rd => some (op ++ ty ++ hn ++ rs2 ++ rs1 ++ rd ++ (0x5B : BitVec 7))
  | .hcas hn w rs2 rs1 rd => some (c3Word hn (w ++ (0 : BitVec 1)) rs2 rs1 0 rd)
  | .xlat hn rs1 rs2 => some (c3Word hn 0 rs2 rs1 1 0)
  | .hrel hn => some (c3Word hn 1 0 0 1 0)
  | .ldq hn rs1 q => some (c3Word hn 2 0 rs1 1 (q0 q))
  | .stq hn rs1 q => some (c3Word hn 3 0 rs1 1 (q0 q))
  | .tldq hn rs1 rs2 q => some (c3Word hn 4 rs2 rs1 1 (q4 q))
  | .tstq hn rs1 rs2 q => some (c3Word hn 5 rs2 rs1 1 (q4 q))
  | .qput rs1 q => some (c3Word 0 6 0 rs1 1 (q0 q))
  | .qget rd q => some (c3Word 0 7 0 (q0 q) 1 rd)
  | .ldqLocal rs1 q => some (c3Word 0 2 0 rs1 5 (q0 q))
  | .stqLocal rs1 q => some (c3Word 0 3 0 rs1 5 (q0 q))
  | .tldqLocal rs1 rs2 q => some (c3Word 0 4 rs2 rs1 5 (q4 q))
  | .tstqLocal rs1 rs2 q => some (c3Word 0 5 rs2 rs1 5 (q4 q))
  | .chain u rs1 => some (c3Word 0 (unitCode u) 0 rs1 2 0)
  | .renq rs1 rs2 => some (c3Word 1 0 rs2 rs1 2 0)
  | .spawn rs1 => some (c3Word 2 0 0 rs1 2 0)
  | .join rs1 => some (c3Word 3 0 0 rs1 2 0)
  | .park rs1 => some (c3Word 4 0 0 rs1 2 0)
  | .region rs1 rs2 => some (c3Word 5 0 rs2 rs1 2 0)
  | .commit => some (c3Word 6 0 0 0 2 0)
  | .launch rd rs1 rs2 => some (c3Word 7 0 rs2 rs1 2 rd)
  | .trig rs1 => some (c3Word 8 0 0 rs1 2 0)
  | .tend => some (c3Word 9 0 0 0 2 0)
  | .xfence src dst scope =>
    some (src ++ dst ++ scope ++ (0 : BitVec 1) ++ (3 : BitVec 3) ++ (0 : BitVec 5) ++ (0x7B : BitVec 7))
  | .efence um => some (um ++ (0 : BitVec 11) ++ (3 : BitVec 3) ++ (1 : BitVec 5) ++ (0x7B : BitVec 7))
  | .tokp u n => some (u ++ n ++ (0 : BitVec 10) ++ (3 : BitVec 3) ++ (2 : BitVec 5) ++ (0x7B : BitVec 7))
  | .tokw u n => some (u ++ n ++ (0 : BitVec 10) ++ (3 : BitVec 3) ++ (3 : BitVec 5) ++ (0x7B : BitVec 7))
  | .bari g hn rs1 rs2 => some (c3Word hn (g ++ (0 : BitVec 2)) rs2 rs1 3 4)
  | .bara g hn rs1 => some (c3Word hn (g ++ (0 : BitVec 2)) 0 rs1 3 5)
  | .barw g hn rs1 => some (c3Word hn (g ++ (0 : BitVec 2)) 0 rs1 3 6)
  | .tidset rs1 rs2 => some (sysWord 0 rs2 rs1)
  | .tidget rs1 rs2 => some (sysWord 1 rs2 rs1)
  | .trap n => some (sysWord 2 n 0)
  | .tret rs1 => some (sysWord 3 0 rs1)
  | .svcw rs1 => some (sysWord 4 0 rs1)
  | .sret => some 0x10200073
  | .rv64gc (.full i) => some (encodeRv i)
  | _ => none

/-! ## E stream (R311, R316) -/

/-- The fields of an E-stream word. -/
def eFields (w : BitVec 64) : EWord :=
  { fmt := fld w 52 4, pg := fld w 48 4, pn := fld w 47 1, d := fld w 41 6, a := fld w 35 6, b := fld w 29 6,
    c := fld w 23 6, tkw := fld w 20 3, tkp := fld w 17 3, i := fld w 16 1, imm := fld w 0 16 }
/-- The word with these fields. -/
def eWord (op : BitVec 8) (w : EWord) : BitVec 64 :=
  op ++ w.fmt ++ w.pg ++ w.pn ++ w.d ++ w.a ++ w.b ++ w.c ++ w.tkw ++ w.tkp ++ w.i ++ w.imm

/-- The opcode map of R316. -/
def eInstr (op : Nat) (w : EWord) : Option Instr :=
  match op with
  | 0x00 => some (.eNop w)
  | 0x01 => some (.eAdd w)
  | 0x02 => some (.eSub w)
  | 0x03 => some (.eMul w)
  | 0x04 => some (.eAnd w)
  | 0x05 => some (.eOr w)
  | 0x06 => some (.eXor w)
  | 0x07 => some (.eShl w)
  | 0x08 => some (.eShr w)
  | 0x09 => some (.eSra w)
  | 0x0A => some (.eMin w)
  | 0x0B => some (.eMax w)
  | 0x0C => some (.eLi w)
  | 0x0D => some (.eSel w)
  | 0x0E => some (.eCmp w)
  | 0x10 => some (.eBr w)
  | 0x11 => some (.eBrN w)
  | 0x12 => some (.eJmp w)
  | 0x13 => some (.eJal w)
  | 0x14 => some (.eLoop w)
  | 0x15 => some (.eHalt w)
  | 0x20 => some (.ePset w)
  | 0x21 => some (.ePlog w)
  | 0x22 => some (.ePmov w)
  | 0x40 => some (.vadd w)
  | 0x41 => some (.vsub w)
  | 0x42 => some (.vmul w)
  | 0x43 => some (.vfma w)
  | 0x44 => some (.vmin w)
  | 0x45 => some (.vmax w)
  | 0x46 => some (.vabs w)
  | 0x47 => some (.vneg w)
  | 0x48 => some (.vbit w)
  | 0x49 => some (.vshf w)
  | 0x4A => some (.vcmp w)
  | 0x4B => some (.vsel w)
  | 0x4C => some (.vmov w)
  | 0x4D => some (.vli w)
  | 0x4E => some (.vcvt w)
  | 0x80 => some (.vrotr w)
  | 0x81 => some (.vrotc w)
  | 0x82 => some (.vbcr w)
  | 0x83 => some (.vbcc w)
  | 0x84 => some (.vredr w)
  | 0x85 => some (.vredc w)
  | 0x86 => some (.vscnr w)
  | 0x87 => some (.vscnc w)
  | 0x88 => some (.vxl w)
  | 0xA0 => some (.vexp2 w)
  | 0xA1 => some (.vlog2 w)
  | 0xA2 => some (.vrcp w)
  | 0xA3 => some (.vrsq w)
  | 0xA4 => some (.vsig w)
  | 0xB0 => some (.vpopc w)
  | 0xB1 => some (.vclz w)
  | 0xB2 => some (.visect w)
  | 0xB3 => some (.vcmpr w)
  | 0xB4 => some (.vexpd w)
  | 0xC0 => some (.qin w)
  | 0xC1 => some (.qout w)
  | 0xC2 => some (.vqin w)
  | 0xC3 => some (.vqout w)
  | 0xC4 => some (.tokpE w)
  | 0xC5 => some (.tokwE w)
  | 0xC6 => some (.trapE w)
  | _ => none

/-- The opcode and fields of an E-stream instruction. -/
def eParts : Instr → Option (BitVec 8 × EWord)
  | .eNop w => some (0x00, w)
  | .eAdd w => some (0x01, w)
  | .eSub w => some (0x02, w)
  | .eMul w => some (0x03, w)
  | .eAnd w => some (0x04, w)
  | .eOr w => some (0x05, w)
  | .eXor w => some (0x06, w)
  | .eShl w => some (0x07, w)
  | .eShr w => some (0x08, w)
  | .eSra w => some (0x09, w)
  | .eMin w => some (0x0A, w)
  | .eMax w => some (0x0B, w)
  | .eLi w => some (0x0C, w)
  | .eSel w => some (0x0D, w)
  | .eCmp w => some (0x0E, w)
  | .eBr w => some (0x10, w)
  | .eBrN w => some (0x11, w)
  | .eJmp w => some (0x12, w)
  | .eJal w => some (0x13, w)
  | .eLoop w => some (0x14, w)
  | .eHalt w => some (0x15, w)
  | .ePset w => some (0x20, w)
  | .ePlog w => some (0x21, w)
  | .ePmov w => some (0x22, w)
  | .vadd w => some (0x40, w)
  | .vsub w => some (0x41, w)
  | .vmul w => some (0x42, w)
  | .vfma w => some (0x43, w)
  | .vmin w => some (0x44, w)
  | .vmax w => some (0x45, w)
  | .vabs w => some (0x46, w)
  | .vneg w => some (0x47, w)
  | .vbit w => some (0x48, w)
  | .vshf w => some (0x49, w)
  | .vcmp w => some (0x4A, w)
  | .vsel w => some (0x4B, w)
  | .vmov w => some (0x4C, w)
  | .vli w => some (0x4D, w)
  | .vcvt w => some (0x4E, w)
  | .vrotr w => some (0x80, w)
  | .vrotc w => some (0x81, w)
  | .vbcr w => some (0x82, w)
  | .vbcc w => some (0x83, w)
  | .vredr w => some (0x84, w)
  | .vredc w => some (0x85, w)
  | .vscnr w => some (0x86, w)
  | .vscnc w => some (0x87, w)
  | .vxl w => some (0x88, w)
  | .vexp2 w => some (0xA0, w)
  | .vlog2 w => some (0xA1, w)
  | .vrcp w => some (0xA2, w)
  | .vrsq w => some (0xA3, w)
  | .vsig w => some (0xA4, w)
  | .vpopc w => some (0xB0, w)
  | .vclz w => some (0xB1, w)
  | .visect w => some (0xB2, w)
  | .vcmpr w => some (0xB3, w)
  | .vexpd w => some (0xB4, w)
  | .qin w => some (0xC0, w)
  | .qout w => some (0xC1, w)
  | .vqin w => some (0xC2, w)
  | .vqout w => some (0xC3, w)
  | .tokpE w => some (0xC4, w)
  | .tokwE w => some (0xC5, w)
  | .trapE w => some (0xC6, w)
  | _ => none

/-- An E-stream word. -/
def decodeE (w : BitVec 64) : Option Instr := checked (eInstr (fld w 56 8).toNat (eFields w))

/-! ## B stream (R133, R134) -/

/-- The fields of a stage word. -/
def bFields (w : BitVec 96) : BWord :=
  { tin := fld w 80 8, twt := fld w 72 8, tout := fld w 64 8, lvl := fld w 63 1, str := fld w 58 5, blk := fld w 55 3,
    ax := fld w 54 1, pos := fld w 52 2, ifmt := fld w 49 3, rnd := fld w 46 3, sat := fld w 45 1, trn := fld w 44 1,
    semi := fld w 42 2, acc := fld w 40 2, aov := fld w 39 1, spm := fld w 37 2, tkw := fld w 34 3, tkp := fld w 31 3,
    tile := fld w 16 15, woff := fld w 0 16 }
/-- The word with these fields. -/
def bWord (op : BitVec 8) (w : BWord) : BitVec 96 :=
  op ++ w.tin ++ w.twt ++ w.tout ++ w.lvl ++ w.str ++ w.blk ++ w.ax ++ w.pos ++ w.ifmt ++ w.rnd ++ w.sat ++ w.trn ++
    w.semi ++ w.acc ++ w.aov ++ w.spm ++ w.tkw ++ w.tkp ++ w.tile ++ w.woff

/-- The opcode map of R134. -/
def bInstr (op : Nat) (w : BWord) : Option Instr :=
  match op with
  | 0x00 => some (.bnop w)
  | 0x10 => some (.bstg w)
  | 0x11 => some (.bstgAcc w)
  | 0x12 => some (.bdns w)
  | 0x13 => some (.bdnsAcc w)
  | 0x14 => some (.bsem w)
  | 0x15 => some (.bsemAcc w)
  | 0x16 => some (.bspa w)
  | 0x17 => some (.bspaAcc w)
  | 0x18 => some (.bprm w)
  | 0x20 => some (.bacc w)
  | 0x21 => some (.bout w)
  | 0x28 => some (.bstr w)
  | 0x29 => some (.bcbk w)
  | 0x30 => some (.bloop w)
  | 0x31 => some (.bend w)
  | 0x38 => some (.tokpB w)
  | 0x39 => some (.tokwB w)
  | 0x3F => some (.bhalt w)
  | _ => none

/-- The opcode and fields of a B-stream instruction. -/
def bParts : Instr → Option (BitVec 8 × BWord)
  | .bnop w => some (0x00, w)
  | .bstg w => some (0x10, w)
  | .bstgAcc w => some (0x11, w)
  | .bdns w => some (0x12, w)
  | .bdnsAcc w => some (0x13, w)
  | .bsem w => some (0x14, w)
  | .bsemAcc w => some (0x15, w)
  | .bspa w => some (0x16, w)
  | .bspaAcc w => some (0x17, w)
  | .bprm w => some (0x18, w)
  | .bacc w => some (0x20, w)
  | .bout w => some (0x21, w)
  | .bstr w => some (0x28, w)
  | .bcbk w => some (0x29, w)
  | .bloop w => some (0x30, w)
  | .bend w => some (0x31, w)
  | .tokpB w => some (0x38, w)
  | .tokwB w => some (0x39, w)
  | .bhalt w => some (0x3F, w)
  | _ => none

/-- A B-stream word. -/
def decodeB (w : BitVec 96) : Option Instr := checked (bInstr (fld w 88 8).toNat (bFields w))

/-! ## Chain entries (R319, R320) -/

/-- The fields of a chain entry. -/
def kFields (w : BitVec 128) : KWord :=
  { tkw := fld w 117 3, tkp := fld w 114 3, ba := fld w 113 1, cev := fld w 112 1, bid := fld w 104 8, ta := fld w 96 8,
    tb := fld w 88 8, tc := fld w 80 8, count := fld w 64 16, arg := fld w 0 64 }
/-- The entry with these fields. -/
def kWord (op : BitVec 8) (w : KWord) : BitVec 128 :=
  op ++ w.tkw ++ w.tkp ++ w.ba ++ w.cev ++ w.bid ++ w.ta ++ w.tb ++ w.tc ++ w.count ++ w.arg

/-- The opcode map of R320. HSTS and CMSM have a second form for the drift report (R388, R371). -/
def kInstr (op : Nat) (w : KWord) : Option Instr :=
  match op with
  | 0x00 => some (.knop w)
  | 0x01 => some (.kloop w)
  | 0x02 => some (.kend w)
  | 0x03 => some (.kjmp w)
  | 0x04 => some (.kif w)
  | 0x05 => some (.kstop w)
  | 0x08 => some (.tokpChain w)
  | 0x09 => some (.tokwChain w)
  | 0x0A => some (.baraChain w)
  | 0x20 => some (.ccpy w)
  | 0x21 => some (.cgrw w)
  | 0x22 => some (.cmcp w)
  | 0x23 => some (.cper w)
  | 0x24 => some (.cfil w)
  | 0x25 => some (.cxps w)
  | 0x40 => some (.igat w)
  | 0x41 => some (.isct w)
  | 0x42 => some (.isca w)
  | 0x43 => some (.ihac w)
  | 0x44 => some (.ihrd w)
  | 0x60 => some (.hprj w)
  | 0x61 => some (.hkey w)
  | 0x62 => some (.hgat w)
  | 0x63 => some (.hclr w)
  | 0x70 => some (.msub w)
  | 0x71 => some (.mdec w)
  | 0x72 => some (.cmbl w)
  | 0x64 => some (if fld w.arg 4 4 == 1 then .hstsDrift w else .hsts w)
  | 0x73 => some (if fld w.arg 28 4 == 1 then .cmsmDrift w else .cmsm w)
  | _ => none

/-- The opcode and fields of a chain entry. -/
def kParts : Instr → Option (BitVec 8 × KWord)
  | .knop w => some (0x00, w)
  | .kloop w => some (0x01, w)
  | .kend w => some (0x02, w)
  | .kjmp w => some (0x03, w)
  | .kif w => some (0x04, w)
  | .kstop w => some (0x05, w)
  | .tokpChain w => some (0x08, w)
  | .tokwChain w => some (0x09, w)
  | .baraChain w => some (0x0A, w)
  | .ccpy w => some (0x20, w)
  | .cgrw w => some (0x21, w)
  | .cmcp w => some (0x22, w)
  | .cper w => some (0x23, w)
  | .cfil w => some (0x24, w)
  | .cxps w => some (0x25, w)
  | .igat w => some (0x40, w)
  | .isct w => some (0x41, w)
  | .isca w => some (0x42, w)
  | .ihac w => some (0x43, w)
  | .ihrd w => some (0x44, w)
  | .hprj w => some (0x60, w)
  | .hkey w => some (0x61, w)
  | .hgat w => some (0x62, w)
  | .hclr w => some (0x63, w)
  | .msub w => some (0x70, w)
  | .mdec w => some (0x71, w)
  | .cmbl w => some (0x72, w)
  | .hsts w => some (0x64, w)
  | .hstsDrift w => some (0x64, w)
  | .cmsm w => some (0x73, w)
  | .cmsmDrift w => some (0x73, w)
  | _ => none

/-- Whether the entry runs on an engine (R320). -/
def runsOn (u : ChainUnit) : Instr → Bool
  | .knop _ | .kloop _ | .kend _ | .kjmp _ | .kif _ | .kstop _ | .tokpChain _ | .tokwChain _ | .baraChain _ => true
  | .ccpy _ | .cgrw _ | .cmcp _ | .cper _ | .cfil _ | .cxps _ | .msub _ | .mdec _ | .cmbl _ | .cmsm _ | .cmsmDrift _ =>
    u == .ce
  | .igat _ | .isct _ | .isca _ | .ihac _ | .ihrd _ => u == .ie
  | .hprj _ | .hkey _ | .hgat _ | .hclr _ | .hsts _ | .hstsDrift _ => u == .he
  | _ => false

/-- The unit that an explicit token form of a chain names (R426). -/
def tokSelf (u : ChainUnit) : Instr → Bool
  | .tokpChain w | .tokwChain w => fld w.arg 0 3 == unitCode u
  | _ => false

/-- A chain entry on any engine. -/
def decodeK (w : BitVec 128) : Option Instr := checked (kInstr (fld w 120 8).toNat (kFields w))

/-- A chain entry on engine `u`: the opcode runs there, and no token field names the engine itself (R112, R322). -/
def decodeChain (u : ChainUnit) (w : BitVec 128) : Option Instr :=
  match decodeK w with
  | some i =>
    if runsOn u i && !tokSelf u i && fld w 117 3 != unitCode u && fld w 114 3 != unitCode u then some i else none
  | none => none

/-! ## Bytes -/

/-- The streams and engines whose words a decoder reads (R300). -/
inductive Source where
  | a | e | b
  | chain (u : ChainUnit)
deriving DecidableEq, Repr

/-- Why bytes are no instruction. -/
inductive Reject where
  /-- the bytes end inside the word -/
  | short
  /-- no instruction of the A stream: cause 0x20 -/
  | illegalA
  /-- no instruction of the E stream, the B stream or a chain: cause 0x21 -/
  | illegalWord
deriving DecidableEq, Repr

/-- The decoded word and the bytes after it, or the name of the reason. -/
def named (r : Reject) (rest : List Byte) : Option Instr → Except Reject (Instr × List Byte)
  | some i => .ok (i, rest)
  | none => .error r

/-- Decode the word at the front of a run of bytes (R300). -/
def decode (src : Source) (bs : List Byte) : Except Reject (Instr × List Byte) :=
  let v (n : Nat) : Nat := ofBytes (bs.take n)
  match src with
  | .a =>
    if bs.length < 2 then .error .short
    else if v 2 % 4 != 3 then named .illegalA (bs.drop 2) (decodeA16 (BitVec.ofNat 16 (v 2)))
    else if bs.length < 4 then .error .short
    else named .illegalA (bs.drop 4) (decodeA32 (BitVec.ofNat 32 (v 4)))
  | .e => if bs.length < 8 then .error .short else named .illegalWord (bs.drop 8) (decodeE (BitVec.ofNat 64 (v 8)))
  | .b => if bs.length < 12 then .error .short else named .illegalWord (bs.drop 12) (decodeB (BitVec.ofNat 96 (v 12)))
  | .chain u =>
    if bs.length < 16 then .error .short
    else named .illegalWord (bs.drop 16) (decodeChain u (BitVec.ofNat 128 (v 16)))

/-- An encoded word of any stream: its length in bytes and its bits. -/
structure Encoded where
  bytes : Nat
  bits : Nat
deriving DecidableEq, Repr

/-- The words of an instruction; none for an event, which has no encoding. -/
def encode (i : Instr) : Option Encoded :=
  match i with
  | .rv64gc (.comp c) => some ⟨2, (encodeC c).toNat⟩
  | _ =>
    match encode32 i with
    | some w => some ⟨4, w.toNat⟩
    | none =>
      match eParts i with
      | some (op, w) => some ⟨8, (eWord op w).toNat⟩
      | none =>
        match bParts i with
        | some (op, w) => some ⟨12, (bWord op w).toNat⟩
        | none =>
          match kParts i with
          | some (op, w) => some ⟨16, (kWord op w).toNat⟩
          | none => none

/-- The engine that runs a chain opcode; control entries and the token and barrier forms are read for the CE. -/
def engineOf (op : Nat) : ChainUnit :=
  if 0x40 ≤ op && op < 0x60 then .ie else if 0x60 ≤ op && op < 0x70 then .he else .ce

/-- The stream or engine whose words have `nbits` bits (R300): 16 and 32 the A stream, 64 the E stream, 96 the B stream,
128 a chain. -/
def sourceOf (nbits w : Nat) : Source :=
  if nbits ≤ 32 then .a else if nbits ≤ 64 then .e else if nbits ≤ 96 then .b else .chain (engineOf (w / 2 ^ 120 % 256))

/-- The bytes of the instruction whose bits are `w`: the table gives every row in whole words, so `nbits` is its length,
and a row shorter than its stream's word continues with zeros. -/
def tableBytes (nbits w : Nat) : List Byte :=
  match sourceOf nbits w with
  | .a => toBytes (if w % 4 == 3 then 4 else 2) w
  | .e => toBytes 8 w
  | .b => toBytes 12 w
  | .chain _ => toBytes 16 w

end Sys2Proof.Decode

namespace Sys2Proof

/-- What the decoder reads from an instruction whose bits are `w`, numbered as the opcode table numbers them. -/
def decodeTableWord (nbits w : Nat) : Option Instr :=
  match Decode.decode (Decode.sourceOf nbits w) (Decode.tableBytes nbits w) with
  | .ok (i, _) => some i
  | .error _ => none

end Sys2Proof
end

