-- ==== Sys2Proof/Machine/Store.lean ====
section
/-!
DEFINITION. Sparse stores: lists of (key, value) pairs in one canonical form. Memory, banks, register files and tiles are
such lists. A key that is not listed reads as zero, keys rise strictly and no entry holds zero, so equal stores are equal
lists.
-/
namespace Sys2Proof.Machine

/-- A store of `w`-bit values by key. -/
abbrev Sparse (w : Nat) := List (Nat × BitVec w)

/-- Memory by place or window address: the canonical list of (address, byte) pairs of `Host.Cell`. -/
abbrev Memory := Sparse 8

namespace Sparse

/-- What an unlisted key reads as: zero. For memory that no reset contents are given for (13 R296), this is a DESIGN
CHOICE (note 2). -/
def unlisted {w : Nat} : BitVec w := 0

/-- The value at a key. -/
def get {w : Nat} : Sparse w → Nat → BitVec w
  | [], _ => unlisted
  | (k, v) :: r, a => if k = a then v else get r a

/-- The entries of keys `lo` to `lo + n - 1` with values `f 0` to `f (n - 1)`, before `tail`; values that an unlisted key
reads as are left out. -/
def runBefore {w : Nat} (lo : Nat) (f : Nat → BitVec w) : Nat → Sparse w → Sparse w
  | 0, tail => tail
  | n + 1, tail => runBefore lo f n (if f n = unlisted then tail else (lo + n, f n) :: tail)

/-- Write the `n` keys from `lo` up: key `lo + i` gets `f i`. -/
def putRun {w : Nat} (m : Sparse w) (lo n : Nat) (f : Nat → BitVec w) : Sparse w :=
  m.filter (fun e => e.1 < lo) ++ runBefore lo f n (m.filter (fun e => lo + n ≤ e.1))

/-- Write one key. -/
def set {w : Nat} (m : Sparse w) (a : Nat) (v : BitVec w) : Sparse w := putRun m a 1 (fun _ => v)

/-- The store whose keys 0 to `n - 1` hold `f`. -/
def ofFn {w : Nat} (n : Nat) (f : Nat → BitVec w) : Sparse w := runBefore 0 f n []

/-- The values of `n` keys from `lo` up. -/
def run {w : Nat} (m : Sparse w) (lo n : Nat) : List (BitVec w) :=
  let part := m.filter (fun e => lo ≤ e.1 && e.1 < lo + n)
  (List.range n).map (fun i => get part (lo + i))

/-- The canonical form: keys rise strictly and no entry holds what an unlisted key reads as. -/
def wf {w : Nat} : Sparse w → Bool
  | [] => true
  | (k, v) :: r => v != unlisted && r.all (fun e => k < e.1) && wf r

/-- The canonical store that reads as a list of entries does below a bound, a later entry before an earlier one. -/
def canonical {w : Nat} (bound : Nat) (l : List (Nat × BitVec w)) : Sparse w :=
  l.foldl (fun m e => if e.1 < bound then set m e.1 e.2 else m) []

end Sparse

/-- The canonical form of memory. -/
abbrev Memory.wf (m : Memory) : Bool := Sparse.wf m

/-! ## Maps of plain records -/

/-- A map from numbers to records, at most one entry a key. -/
abbrev Map (α : Type) := List (Nat × α)

namespace Map

def find {α : Type} : Map α → Nat → Option α
  | [], _ => none
  | (k, v) :: r, a => if k = a then some v else find r a

def del {α : Type} (m : Map α) (a : Nat) : Map α := m.filter (fun e => e.1 != a)

def put {α : Type} (m : Map α) (a : Nat) (v : α) : Map α := (a, v) :: del m a

/-- Change the entry of a key, when there is one. -/
def change {α : Type} (m : Map α) (a : Nat) (f : α → α) : Map α :=
  match find m a with
  | some v => put m a (f v)
  | none => m

end Map

/-! ## Bytes -/

/-- The little-endian value of bytes (R1). -/
def leValue : List Byte → Nat
  | [] => 0
  | b :: bs => b.toNat + 256 * leValue bs

/-- Byte `i` of a value (R1). -/
def byteOf (v i : Nat) : Byte := BitVec.ofNat 8 (v / 256 ^ i)

/-- The `n` little-endian bytes of a value (R1). -/
def leBytes (n v : Nat) : List Byte := (List.range n).map (byteOf v)

/-- The little-endian value of `n` bytes at an address. -/
def Memory.read (m : Memory) (a n : Nat) : Nat := leValue (Sparse.run m a n)

/-- Write the `n` little-endian bytes of a value. -/
def Memory.write (m : Memory) (a n v : Nat) : Memory := Sparse.putRun m a n (byteOf v)

/-- Write a list of bytes. -/
def Memory.writeBytes (m : Memory) (a : Nat) (bs : List Byte) : Memory :=
  Sparse.putRun m a bs.length (fun i => (bs[i]?).getD 0)

/-- Field of `n` bits from bit `lo` of a number. -/
def bits (v lo n : Nat) : Nat := v / 2 ^ lo % 2 ^ n

/-- Bit `i` of a number. -/
def bitAt (v i : Nat) : Bool := v / 2 ^ i % 2 == 1

/-- The two's complement value of the low `n` bits of a number. -/
def signedOf (v n : Nat) : Int :=
  let u := v % 2 ^ n
  if u < 2 ^ (n - 1) then (u : Int) else (u : Int) - (2 ^ n : Nat)

/-- The low `n` bits of an integer in two's complement. -/
def wrapTo (v : Int) (n : Nat) : Nat := (v % ((2 ^ n : Nat) : Int)).toNat

/-- `a` divided by `b`, rounded up. -/
def ceilDiv (a b : Nat) : Nat := (a + b - 1) / b

end Sys2Proof.Machine
end

