-- ==== Sys2Proof/Machine/Num.lean ====
section
/-!
DEFINITION. Numbers: exact values, the formats of R19 to R24, rounding and saturation (R28 to R31), block scales (R34,
R35), codebook weights (R36) and pairwise sums (R40).
-/
namespace Sys2Proof.Machine

/-- An exact floating value: NaN, an infinity, or (-1)^neg × m × 2^e; `m = 0` is a signed zero. A result that cannot be
written so (a quotient, a root, a special function) is carried with more bits than any format keeps and a last bit that
stands for the rest, which every rounding of R29 treats as the exact value. -/
inductive Val where
  | nan
  | inf (neg : Bool)
  | fin (neg : Bool) (m : Nat) (e : Int)
deriving DecidableEq, Repr, Inhabited

/-- Rounding modes (R29). -/
inductive Rnd where
  | rne | rtz | rdn | rup | rna
deriving DecidableEq, Repr, Inhabited

/-- The mode of a rounding code; codes 5 to 7 never reach it. -/
def Rnd.ofCode (c : Nat) : Rnd :=
  match c with
  | 0 => .rne
  | 1 => .rtz
  | 2 => .rdn
  | 3 => .rup
  | _ => .rna

/-- The element formats of R19, and binary64, the accumulator format of R22. -/
inductive Fmt where
  | e4m3 | e5m2 | fp16 | bf16 | fp32 | int8 | uint8 | int16 | int32 | cb2 | bit | f64
deriving DecidableEq, Repr, Inhabited

/-- The format of a code of R19; 11 to 15 are reserved. -/
def Fmt.ofCode (c : Nat) : Option Fmt :=
  match c with
  | 0 => some .e4m3
  | 1 => some .e5m2
  | 2 => some .fp16
  | 3 => some .bf16
  | 4 => some .fp32
  | 5 => some .int8
  | 6 => some .uint8
  | 7 => some .int16
  | 8 => some .int32
  | 9 => some .cb2
  | 10 => some .bit
  | _ => none

/-- Width in memory of one element, in bits (R19); CB2 takes 16 bits for eight elements. -/
def Fmt.width : Fmt → Nat
  | .e4m3 | .e5m2 | .int8 | .uint8 => 8
  | .fp16 | .bf16 | .int16 => 16
  | .fp32 | .int32 => 32
  | .cb2 => 2
  | .bit => 1
  | .f64 => 64

/-- Whether a format is a floating-point format. -/
def Fmt.isFloat : Fmt → Bool
  | .e4m3 | .e5m2 | .fp16 | .bf16 | .fp32 | .f64 => true
  | _ => false

/-- Exponent width, fraction width and bias of a floating-point format (R22). -/
structure FloatFmt where
  ebits : Nat
  fbits : Nat
  bias : Nat
deriving DecidableEq, Repr

def Fmt.float : Fmt → FloatFmt
  | .e4m3 => ⟨4, 3, 7⟩
  | .e5m2 => ⟨5, 2, 15⟩
  | .fp16 => ⟨5, 10, 15⟩
  | .bf16 => ⟨8, 7, 127⟩
  | .fp32 => ⟨8, 23, 127⟩
  | _ => ⟨11, 52, 1023⟩

/-- The bits of the largest finite magnitude (R22, R23). -/
def Fmt.maxMag (f : Fmt) : Nat :=
  if f = .e4m3 then 0x7E else (2 ^ f.float.ebits - 1) * 2 ^ f.float.fbits - 1

/-- The canonical NaN (R22). -/
def Fmt.nan (f : Fmt) : Nat :=
  if f = .e4m3 then 0x7F else (2 ^ f.float.ebits - 1) * 2 ^ f.float.fbits + 2 ^ (f.float.fbits - 1)

/-- The sign bit of a format. -/
def Fmt.signBit (f : Fmt) (neg : Bool) : Nat := if neg then 2 ^ (f.float.ebits + f.float.fbits) else 0

/-- Is the format E4M3, which has no infinity (R23). -/
def Fmt.infBits (f : Fmt) (neg : Bool) : Nat :=
  if f = .e4m3 then f.nan else f.signBit neg + (2 ^ f.float.ebits - 1) * 2 ^ f.float.fbits

/-- The value of a floating-point pattern (R22 to R24). -/
def decodeFloat (f : Fmt) (b : Nat) : Val :=
  let p := f.float
  let frac := b % 2 ^ p.fbits
  let ex := b / 2 ^ p.fbits % 2 ^ p.ebits
  let neg := bitAt b (p.ebits + p.fbits)
  if f = .e4m3 ∧ ex = 15 ∧ frac = 7 then .nan
  else if f ≠ .e4m3 ∧ ex = 2 ^ p.ebits - 1 then (if frac = 0 then .inf neg else .nan)
  else if ex = 0 then .fin neg frac (1 - (p.bias : Int) - (p.fbits : Int))
  else .fin neg (2 ^ p.fbits + frac) ((ex : Int) - (p.bias : Int) - (p.fbits : Int))

/-- Whether a discarded part rounds the kept magnitude up: `odd` is the last kept bit, `cmp` compares twice the discarded
part with one unit, `rest` says that the discarded part is not zero. -/
def roundsUp (r : Rnd) (neg odd rest : Bool) (cmp : Ordering) : Bool :=
  match r with
  | .rtz => false
  | .rdn => neg && rest
  | .rup => !neg && rest
  | .rna => cmp != .lt
  | .rne => cmp == .gt || (cmp == .eq && odd)

/-- A magnitude `m` divided by 2^`sh` and rounded to an integer. -/
def shiftRound (r : Rnd) (neg : Bool) (m sh : Nat) : Nat :=
  let kept := m / 2 ^ sh
  let rem := m % 2 ^ sh
  if roundsUp r neg (kept % 2 == 1) (rem != 0) (compare (2 * rem) (2 ^ sh)) then kept + 1 else kept

/-- Infinity under SAT and E4M3 (R30). -/
def encodeInf (f : Fmt) (sat neg : Bool) : Nat := if sat then f.signBit neg + f.maxMag else f.infBits neg

/-- The result of an overflow by mode (R30). -/
def encodeOverflow (f : Fmt) (r : Rnd) (sat neg : Bool) : Nat :=
  if sat then f.signBit neg + f.maxMag
  else
    match r, neg with
    | .rtz, _ => f.signBit neg + f.maxMag
    | .rdn, false => f.maxMag
    | .rup, true => f.signBit true + f.maxMag
    | _, _ => f.infBits neg

/-- The exponent of the last bit that a format keeps of a magnitude `m` × 2^`e`. -/
def quantum (f : Fmt) (m : Nat) (e : Int) : Int :=
  let p := f.float
  max ((m.log2 : Int) + e - (p.fbits : Int)) (1 - (p.bias : Int) - (p.fbits : Int))

/-- The pattern of an exact value rounded once to a floating-point format (R29 to R31). -/
def encodeFloat (f : Fmt) (r : Rnd) (sat : Bool) : Val → Nat
  | .nan => f.nan
  | .inf neg => encodeInf f sat neg
  | .fin neg m e =>
    if m = 0 then f.signBit neg
    else
      let p := f.float
      let q := quantum f m e
      let kept := if q ≤ e then m * 2 ^ (e - q).toNat else shiftRound r neg m (q - e).toNat
      let mag := (q - (1 - (p.bias : Int) - (p.fbits : Int))).toNat * 2 ^ p.fbits + kept
      if mag > f.maxMag then encodeOverflow f r sat neg else f.signBit neg + mag

/-- The exact value rounded once to a format. -/
def roundTo (f : Fmt) (r : Rnd) (sat : Bool) (v : Val) : Val := decodeFloat f (encodeFloat f r sat v)

/-- Round to binary64 with RNE, as a term enters a tree (R41). -/
def to64 (v : Val) : Val := roundTo .f64 .rne false v

/-! ## Integer formats -/

/-- The least and the greatest value of an integer format (R28). -/
def Fmt.range : Fmt → Int × Int
  | .int8 => (-128, 127)
  | .uint8 => (0, 255)
  | .int16 => (-32768, 32767)
  | .bit => (0, 1)
  | _ => (-2147483648, 2147483647)

/-- Fit an exact integer to a format: clamp with SAT, wrap without (R28). -/
def fitInt (f : Fmt) (sat : Bool) (v : Int) : Nat :=
  let lo := f.range.1
  let hi := f.range.2
  wrapTo (if sat then (if v < lo then lo else if v > hi then hi else v) else v) f.width

/-- The integer of a pattern of an integer or BIT format (R28). -/
def decodeInt (f : Fmt) (b : Nat) : Int :=
  match f with
  | .uint8 => (b % 256 : Nat)
  | .bit => (b % 2 : Nat)
  | .int8 => signedOf b 8
  | .int16 => signedOf b 16
  | _ => signedOf b 32

/-- An integer as an exact value. -/
def ofInt (v : Int) : Val := .fin (v < 0) v.natAbs 0

/-- The value of an element of any format but CB2, exact (R31). -/
def valueOf (f : Fmt) (b : Nat) : Val := if f.isFloat then decodeFloat f b else ofInt (decodeInt f b)

/-- A finite value rounded to an integer by a mode (R31). -/
def roundInt (r : Rnd) (neg : Bool) (m : Nat) (e : Int) : Int :=
  let mag := if 0 ≤ e then m * 2 ^ e.toNat else shiftRound r neg m (-e).toNat
  if neg then -(mag : Int) else (mag : Int)

/-- Convert an exact value to an integer format (R31). -/
def encodeInt (f : Fmt) (r : Rnd) (sat : Bool) : Val → Nat
  | .nan => 0
  | .inf neg => if sat then wrapTo (if neg then f.range.1 else f.range.2) f.width else 0
  | .fin neg m e => fitInt f sat (roundInt r neg m e)

/-- Convert an exact value to BIT (R31). -/
def encodeBit : Val → Nat
  | .fin _ 0 _ => 0
  | _ => 1

/-- Convert an exact value to any format but CB2 (R29 to R31). -/
def encode (f : Fmt) (r : Rnd) (sat : Bool) (v : Val) : Nat :=
  if f = .bit then encodeBit v else if f.isFloat then encodeFloat f r sat v else encodeInt f r sat v

/-- Convert an element from one format to another (R31): between integers by R28, with a pattern of the source. -/
def convert (src dst : Fmt) (r : Rnd) (sat : Bool) (b : Nat) : Nat :=
  if src.isFloat || dst.isFloat || dst = .bit then encode dst r sat (valueOf src b)
  else fitInt dst sat (decodeInt src b)

/-! ## Exact arithmetic -/

/-- The signed integer of a finite value at exponent `e0`, where `e0` is at most its own. -/
def scaled (neg : Bool) (m : Nat) (e e0 : Int) : Int :=
  let v : Int := (m * 2 ^ (e - e0).toNat : Nat)
  if neg then -v else v

/-- Exact sum; an exact zero takes its sign by the mode of the rounding that follows (R27). -/
def addV (r : Rnd) : Val → Val → Val
  | .nan, _ => .nan
  | _, .nan => .nan
  | .inf a, .inf b => if a = b then .inf a else .nan
  | .inf a, _ => .inf a
  | _, .inf b => .inf b
  | .fin sa ma ea, .fin sb mb eb =>
    let e0 := min ea eb
    let v := scaled sa ma ea e0 + scaled sb mb eb e0
    if v = 0 then
      .fin (if ma = 0 ∧ mb = 0 ∧ sa = sb then sa else r = .rdn) 0 0
    else .fin (v < 0) v.natAbs e0

def negV : Val → Val
  | .nan => .nan
  | .inf n => .inf (!n)
  | .fin n m e => .fin (!n) m e

def absV : Val → Val
  | .nan => .nan
  | .inf _ => .inf false
  | .fin _ m e => .fin false m e

/-- Exact product (R26: 0 × ∞ is NaN). -/
def mulV : Val → Val → Val
  | .nan, _ => .nan
  | _, .nan => .nan
  | .inf a, .inf b => .inf (a != b)
  | .inf a, .fin b m _ => if m = 0 then .nan else .inf (a != b)
  | .fin a m _, .inf b => if m = 0 then .nan else .inf (a != b)
  | .fin a ma ea, .fin b mb eb => .fin (a != b) (ma * mb) (ea + eb)

/-- Whether a value is zero. -/
def Val.isZero : Val → Bool
  | .fin _ 0 _ => true
  | _ => false

/-- Whether a value is NaN. -/
def Val.isNan : Val → Bool
  | .nan => true
  | _ => false

/-- Order of two values that are not NaN, with -0 below +0 when `signedZero` holds (R27). -/
def cmpV (signedZero : Bool) : Val → Val → Ordering
  | .inf a, .inf b => if a = b then .eq else if a then .lt else .gt
  | .inf a, _ => if a then .lt else .gt
  | _, .inf b => if b then .gt else .lt
  | .fin sa ma ea, .fin sb mb eb =>
    let e0 := min ea eb
    let c := compare (scaled sa ma ea e0) (scaled sb mb eb e0)
    if c = .eq ∧ ma = 0 ∧ signedZero ∧ sa ≠ sb then (if sa then .lt else .gt) else c
  | _, _ => .eq

/-- The lesser value; NaN with a NaN operand (R27). -/
def minV (a b : Val) : Val :=
  if a.isNan || b.isNan then .nan else if cmpV true b a = .lt then b else a

/-- The greater value; NaN with a NaN operand (R27). -/
def maxV (a b : Val) : Val :=
  if a.isNan || b.isNan then .nan else if cmpV true a b = .lt then b else a

/-- The integer square root by binary digits, `fuel` of them: the greatest `x` with x² ≤ n among x below 2^fuel. -/
def sqrtDigits (n : Nat) : Nat → Nat → Nat
  | 0, x => x
  | k + 1, x => sqrtDigits n k (if (x + 2 ^ k) * (x + 2 ^ k) ≤ n then x + 2 ^ k else x)

/-- The integer square root. -/
def natSqrt (n : Nat) : Nat := sqrtDigits n (n.log2 / 2 + 1) 0

/-- A quotient with 130 or more significant bits, the last one standing for the rest. -/
def divMag (ma : Nat) (ea : Int) (mb : Nat) (eb : Int) : Nat × Int :=
  let k := 130 + mb.log2
  let n := ma * 2 ^ k
  (2 * (n / mb) + (if n % mb = 0 then 0 else 1), ea - eb - (k : Int) - 1)

/-- Quotient by IEEE 754. -/
def divV : Val → Val → Val
  | .nan, _ => .nan
  | _, .nan => .nan
  | .inf _, .inf _ => .nan
  | .inf a, .fin b _ _ => .inf (a != b)
  | .fin a _ _, .inf b => .fin (a != b) 0 0
  | .fin a ma ea, .fin b mb eb =>
    if mb = 0 then (if ma = 0 then .nan else .inf (a != b))
    else if ma = 0 then .fin (a != b) 0 0
    else .fin (a != b) (divMag ma ea mb eb).1 (divMag ma ea mb eb).2

/-- Square root by IEEE 754. -/
def sqrtV : Val → Val
  | .nan => .nan
  | .inf neg => if neg then .nan else .inf false
  | .fin neg m e =>
    if m = 0 then .fin neg 0 0
    else if neg then .nan
    else
      let m1 := if e % 2 = 0 then m else 2 * m
      let e1 := if e % 2 = 0 then e else e - 1
      let n := m1 * 2 ^ 160
      let q := natSqrt n
      .fin false (2 * q + (if q * q = n then 0 else 1)) (e1 / 2 - 80 - 1)

/-! ## Scales and codebooks -/

/-- The factor of an E8M0 byte (R34). -/
def e8m0 (e : Nat) : Val := if e = 255 then .nan else .fin false 1 ((e : Int) - 127)

/-- x × scale × base, rounded once to binary64 (R35). -/
def scaleV (x scale base : Val) : Val := to64 (mulV (mulV x scale) base)

/-- The sign of element `e` of a CB2 index (R36). -/
def cb2Neg (idx e : Nat) : Bool :=
  if e < 7 then bitAt idx (e + 1)
  else ((List.range 7).countP (fun k => bitAt idx (k + 1))) % 2 == 1

/-- sign × (mag + h/2) of element `e` of a CB2 index with a pattern entry (R36). -/
def cb2V (pattern idx e : Nat) : Val := .fin (cb2Neg idx e) (2 * bits pattern (4 * e) 4 + idx % 2) (-1)

/-! ## Pairwise sums -/

/-- One level of a pairwise sum. -/
def pairLevel {α : Type} (f : α → α → α) : List α → List α
  | a :: b :: r => f a b :: pairLevel f r
  | l => l

/-- `k` levels. -/
def pairLevels {α : Type} (f : α → α → α) : Nat → List α → List α
  | 0, l => l
  | k + 1, l => pairLevels f k (pairLevel f l)

/-- PAIR over 2^k terms (R40): `f` is the exact operation followed by one rounding. -/
def pair {α : Type} (f : α → α → α) (k : Nat) (z : α) (l : List α) : α := (pairLevels f k l).headD z

/-- Binary64 addition with RNE (R39). -/
def add64 (a b : Val) : Val := to64 (addV .rne a b)

end Sys2Proof.Machine
end

