-- ==== Sys2Proof/Config.lean ====
section
/-!
DEFINITION. What an implementation fixes and what the manual leaves open. A free value is an opaque constant without a
body: no proof sees what it is. Notes 5, 6 and 7 of notes/assumptions name each.
-/
namespace Sys2Proof

/-- The agents that execute steps (01 R13, 07 R163, 09 R198). Which one moves next stands in the state. -/
inductive Agent where
  /-- the access core: the A stream -/
  | ac
  /-- the execute core: the E stream -/
  | ec
  /-- the butterfly engine: the B stream -/
  | be
  /-- the copy engine -/
  | ce
  /-- the index engine -/
  | ie
  /-- the hash engine -/
  | he
  /-- the media engines -/
  | media
  /-- the memory system, which performs weak writes -/
  | fabric
  /-- launch sequencers, dealers, matchers, watches, walkers -/
  | device
  /-- the outside: host, supervisor, pins, power -/
  | outside
deriving DecidableEq, Repr, Inhabited

/-- How a block is coded (07 R157). -/
inductive BlockMode where
  | skip | inter | intra | missing
deriving DecidableEq, Repr, Inhabited

/-- A motion vector of a prediction list: its components in the codec's native units, and the order of the picture that it
references (07 R158). -/
structure Motion where
  x : Int
  y : Int
  order : Int
deriving DecidableEq, Repr, Inhabited

/-- A prediction unit (07 R158): its mode, the vectors of list 0 and list 1 (of AV1, of the first and the second reference
frame), and whether it predicts from the current picture. -/
structure PredUnit where
  mode : BlockMode
  list0 : Option Motion
  list1 : Option Motion
  current : Bool
deriving DecidableEq, Repr, Inhabited

/-- What a codec's standard decoding process yields for one output picture (07 R156): samples, prediction units and
residuals, from which R157 to R159 form the exports. -/
structure Picture where
  /-- bytes of the stream parsed so far -/
  parsed : Nat
  /-- the decoding process finds an error in the frame (R159) -/
  undecodable : Bool
  /-- a key frame or an intra frame (R174) -/
  key : Bool
  /-- width and height of the cropped output picture in luma samples -/
  pw : Nat
  ph : Nat
  depth : Nat
  /-- 4:0:0; else 4:2:0 -/
  mono : Bool
  /-- luma samples, and chroma samples at chroma resolution -/
  luma : Nat → Nat → Nat
  cb : Nat → Nat → Nat
  cr : Nat → Nat → Nat
  /-- the prediction unit that covers a luma sample -/
  unitAt : Nat → Nat → PredUnit
  /-- picture order count; for AV1 OrderHint, and its number of bits -/
  order : Int
  orderBits : Nat
  /-- decoded luma residual samples -/
  residual : Nat → Nat → Int
deriving Inhabited

/-- A capability that a function's configuration space may hold (R269, R285): no other feature is there. -/
inductive Capability where
  | express
  | msix
  | sriov
  | ats
  | pri
  | pasid
  | doe
  | ide
deriving DecidableEq, Repr, Inhabited

namespace Config

/-- Who takes the step after step number `n`: a TP's number, the agent, and a number that picks among its choices. The
manual orders units only by tokens, queues, barriers and the task boundary (05 R108, 03 R62), so the choice is free. -/
opaque arbiter : Nat → Nat × Agent × Nat
/-- Nanoseconds of device time (R243) that step number `n` takes: no rule fixes it. -/
opaque elapsed : Nat → Nat
/-- Whether the `n`th byte question after a role change answers 'the old data of the same context' (03 R58); otherwise
the byte reads zero. -/
opaque bankKept : Nat → Bool
/-- What the banks hold after abort number `n` (09 R212 calls it undefined), from what they held. -/
opaque banksAfterAbort : Nat → List (Nat × Byte) → List (Nat × Byte)
/-- What an accumulator holds after abort number `n` (09 R212). -/
opaque accAfterAbort : Nat → Nat → List (Nat × Dword)
/-- What device memory holds after reset or power loss number `n`, from what it held (13 R296: undefined, or lost). -/
opaque memoryAfterReset : Nat → List (Nat × Byte) → List (Nat × Byte)
/-- The value of the `n`th byte the manual calls undefined (09 R212, 16 R359, 07 R168). -/
opaque freeByte : Nat → Byte
/-- The `n`th yes-or-no choice that the manual leaves to the device (04 R99, 11 R251). -/
opaque freeBool : Nat → Bool
/-- The `n`th number that the manual leaves to the device. -/
opaque freeNat : Nat → Nat
/-- The decoding processes of the external codec standards (07 R156): output picture number `idx` of a stream from all the
bytes submitted, the places of flushes in them, and whether this is a flush; none when no picture may be output. -/
opaque codec : (codec : Nat) → (data : List Byte) → (flushes : List Nat) → (idx : Nat) → (flush : Bool) → Option Picture
/-- How much of the submitted bytes a decoder has parsed when no picture comes out (17 R406). -/
opaque codecParsed : (codec : Nat) → (data : List Byte) → (idx : Nat) → Nat
/-- What the responder of SPDM answers to a request (13 R285): the standard's content, not the manual's. -/
opaque spdmAnswer : List Byte → List Byte
/-- What a configuration read answers once the function is ready (13 R285, R296): PCI Express content. -/
opaque configAnswer : Nat → Nat → Dword
/-- Dword of a virtual function's configuration space that holds the message control of its MSI-X capability (12 R269): PCI
Express content. -/
opaque msixCap : Nat
/-- The capabilities of a function in the order of their lists, with the dword that holds the header of each (13 R285): PCI
Express content. -/
opaque capabilities : Nat → List (Nat × Capability)
/-- The function and the dword where BAR0 or BAR2 of the tenants' functions is read (13 R289): PCI Express content. -/
opaque barAt : Nat → Nat × Nat
/-- The bifurcation strap of the peer port (13 R285): it runs as two x8 links. -/
opaque peerSplit : Bool
/-- Whether the trap record of a media engine carries the ITER of its command's task, as R367 says, or 0, as R243 says: the two rules
differ and nothing says which holds. -/
opaque mediaIter : Bool
/-- Which IDE stream carries a request of a context on the peer port (`true`) or the host port (13 R285, R288): 0 the link's own,
1 to 4 a selective one. -/
opaque ideStream : Bool → Nat → Nat → Nat

end Config
end Sys2Proof
end

