-- ==== Sys2Proof/Machine/State.lean ====
section
/-!
DEFINITION. The state of the machine: all that the manual gives it, as plain data, and its value after reset. Every field's
default is its reset value: where the manual gives one, that value; elsewhere the value of notes 1 to 4.
-/
namespace Sys2Proof.Machine

/-! ## Records -/

/-- A trap record: dwords Z0 to Z7 (R243). -/
abbrev TrapRec := List Dword

/-- A pawn: dwords P0 to P3 (R90). -/
structure Pawn where
  p0 : Dword := 0
  p1 : Dword := 0
  p2 : Dword := 0
  p3 : Dword := 0
deriving DecidableEq, Repr, Inhabited

/-- What a pawn's task runs under beside its context: what its launch fixed (R72, R77, R80, R87, R161). -/
structure Binding where
  titb : Nat := 0
  tcounts : List Dword := []
  tag : Nat := 0
  queue : Nat := 0
  strm : Option (Nat × Nat) := none
deriving DecidableEq, Repr, Inhabited

/-- A pawn in a pile, with the count of its aborts that the device keeps beside it (R212), and its context. -/
structure Entry where
  pawn : Pawn
  ctx : Nat
  aborts : Nat := 0
  /-- registration of the region matcher; 0: none (R102) -/
  region : Nat := 0
  /-- the continuation of a completed launch, or a pawn that comes of one: no launch waits for it (R84), and this is what
  its launch had fixed -/
  bind : Option Binding := none
  /-- the edge to the start of its task bridges every path: dealt by a launch, or a continuation that JOINs release (R221, R222) -/
  bridged : Bool := false
  /-- the place that a continuation's watch watched: what is known of it reaches the task that starts (R221) -/
  watched : Option Nat := none
deriving DecidableEq, Repr, Inhabited

/-- A region declaration (R100). -/
structure Decl where
  base : Nat
  stride : Nat
  extent : Nat
  count : Nat
  wr : Bool
deriving DecidableEq, Repr, Inhabited

/-- What work runs under: the task's context, launch and table of tensors. A RENQ block carries the sender's (R103). -/
structure Task where
  /-- instance number; 0 is no task -/
  id : Nat := 0
  ctx : Nat := 0
  entry : Entry := { pawn := {}, ctx := 0 }
  /-- task header H0 to H7 (R91) -/
  hdr : List Dword := []
  lid : Nat := 0
  queue : Nat := 0
  tag : Nat := 0
  /-- TIT base (R72) -/
  titb : Nat := 0
  /-- resolved T-level counts (R92) -/
  tcounts : List Dword := []
  /-- the task's copies of TIT entries: eight dwords each (R72, R423) -/
  tit : Map (List Dword) := []
  /-- stream store and frame bound to the launch (R161) -/
  strm : Option (Nat × Nat) := none
  /-- the task has executed TEND or PARK, or was aborted -/
  ended : Bool := false
  /-- a RENQ block's work -/
  block : Bool := false
  /-- memory as it stood when the task started: what its code reads as (R108); none: as it stands -/
  code : Option Memory := none
deriving DecidableEq, Repr, Inhabited

/-! ## Access core -/

/-- State of a handle (R71, R235). -/
inductive HState where
  | free | valid | pending
  | faulted (cause : Nat)
deriving DecidableEq, Repr, Inhabited

/-- A translation of one page: its virtual start and size, the place of its first byte, its permissions and the lines its
page-table entries came from (R224, R235). -/
structure Page where
  va : Nat := 0
  size : Nat := 0
  place : Nat := 0
  r : Bool := false
  w : Bool := false
  x : Bool := false
  d : Bool := false
  tags : List Nat := []
deriving DecidableEq, Repr, Inhabited

/-- A handle register (R71, R235). -/
structure Handle where
  st : HState := .free
  space : Nat := 0
  va : Nat := 0
  scope : Nat := 0
  page : Page := {}
deriving DecidableEq, Repr, Inhabited

/-- Phase of a task on path C (R209, R212). -/
inductive Phase where
  | replay | committed | direct
deriving DecidableEq, Repr, Inhabited

/-- Status of a stream (R108, R128, R249, R255). -/
inductive Status where
  /-- no stream of a task -/
  | off
  | running
  /-- has retired its ending instruction -/
  | ended
  /-- holds at a boundary: watermark or pre-emption -/
  | held
  | trapped
deriving DecidableEq, Repr, Inhabited

/-- A held BARI: the place of its object and the dwords to write (R344). -/
structure HeldBari where
  global : Bool
  place : Nat
  lo : Dword
  hi : Dword
deriving DecidableEq, Repr, Inhabited

/-- What a waiting A-stream word that orders earlier work waits for (R85, R98, R216): the number of the last command issued
when it issued; of the EC and the BE the number of the last push, of the EC also that of the last delayed write, and of the BE
the chain in progress. -/
structure Mark where
  cmd : Nat
  ePush : Nat
  eSpec : Nat
  bPush : Nat
  bChain : Option Nat
deriving DecidableEq, Repr, Inhabited

/-- A SPAWN held in the replayable phase, with its declarations (R97, R209). -/
structure HeldSpawn where
  pawn : Pawn
  decls : List Decl
deriving DecidableEq, Repr, Inhabited

/-- The access core. -/
structure Ac where
  x : Sparse 64 := []
  f : Sparse 64 := []
  fcsr : BitVec 32 := 0
  pc : Dword := 0
  sup : Bool := false
  sstatus : Dword := 0
  sepc : Dword := 0
  scause : Dword := 0
  stval : Dword := 0
  stvec : Dword := 0
  sscratch : Dword := 0
  handles : Map Handle := []
  /-- reservation of LR: address and width -/
  resv : Option (Nat × Nat) := none
  lc : Nat := 0
  /-- record of the resumable trap served (R245) -/
  trec : TrapRec := List.replicate 8 0
  pend : BitVec 7 := 0
  phase : Phase := .committed
  /-- buffered stores: bytes by place (R209), and which places are buffered -/
  cbuf : Memory := []
  cbufAt : List Nat := []
  /-- line and write timestamp (R209) -/
  readSet : List (Nat × Nat) := []
  heldSpawns : List HeldSpawn := []
  heldBaris : List HeldBari := []
  /-- pages through which stores are buffered and BARIs held, by space; a revocation of one makes the commit fail (R231, R238) -/
  bufPages : List (Nat × Page) := []
  doomed : Bool := false
  /-- declarations waiting for the next SPAWN (R101) -/
  decls : List Decl := []
  /-- the entry that a stalled STQ or TSTQ has popped and not stored (R420, R425) -/
  heldScalar : Option Dword := none
  heldTile : Option (Sparse 32) := none
  /-- rows that the present tile transfer has moved: of a load, their bytes (R425) -/
  rows : List (List Byte) := []
  /-- pushes left of an unretired TOKP (R427) -/
  tokpLeft : Nat := 0
  /-- what the present word waits for, once it has begun to wait (R85, R98, R216) -/
  mark : Option Mark := none
  status : Status := .off
  /-- a service request of the supervisor stands (R128) -/
  svcReq : Bool := false
deriving DecidableEq, Repr, Inhabited

/-! ## Execute core -/

/-- A tile: 16 × 64 cells of 32 bits, cell (i, j) at key 64i + j (R21). -/
abbrev Tile := Sparse 32

/-- A push that waits for retirement (R113, R66): a token or a queue entry, not before the clock reads `due`. -/
inductive Push where
  | token (due : Nat) (target : Nat)
  | scalar (due : Nat) (q : Nat) (v : Dword)
  | tile (due : Nat) (q : Nat) (v : Tile)
deriving DecidableEq, Repr, Inhabited

/-- A special function's write that is due at a later cycle (R124). -/
structure SpecWrite where
  due : Nat
  reg : Nat
  /-- the cells it writes -/
  on : BitVec 1024
  tile : Tile
deriving DecidableEq, Repr, Inhabited

/-- An active hardware loop (R126). -/
structure Loop where
  lc : Nat
  k : Nat
  n : Nat
  s : Nat
  start : Dword
  lend : Dword
deriving DecidableEq, Repr, Inhabited

/-- The execute core. -/
structure Ec where
  e : Sparse 64 := []
  w : Map Tile := []
  p : Sparse 1024 := []
  pc : Dword := 0
  npc : Dword := 0
  nnpc : Dword := 0
  a1 : Bool := false
  a2 : Bool := false
  /-- the words at pc and npc are delay slots of a taken branch (R127) -/
  slot1 : Bool := false
  slot2 : Bool := false
  loop : Option Loop := none
  rrb : BitVec 4 := 0
  prb : BitVec 3 := 0
  /-- issue cycle of the next word -/
  clock : Nat := 0
  /-- cycle at which a result is ready: key 0–31 e, 32–63 w, 64–79 p (R123) -/
  ready : List (Nat × Nat) := []
  spec : List SpecWrite := []
  pushes : List Push := []
  /-- pushes and delayed writes made so far (R375) -/
  pushed : Nat := 0
  written : Nat := 0
  status : Status := .off
  task : Nat := 0
  /-- words issued since the service entry (R128) -/
  since : Nat := 0
  trec : Option TrapRec := none
deriving DecidableEq, Repr, Inhabited

/-! ## Butterfly engine -/

/-- An open BLOOP (R353). -/
structure BLoop where
  cnt : Nat
  k : Nat
  inc : Nat
  body : Dword
deriving DecidableEq, Repr, Inhabited

/-- A chain in progress: the values that pass to the next word, and what the chain fixes (R138, R139). -/
structure BChain where
  count : Nat
  tile : Nat
  semi : Nat
  /-- a semiring has been named by a word other than BPRM -/
  named : Bool
  /-- a word so far has IFMT = 1 -/
  narrow : Bool
  /-- bank group of the first word's TIN, none when that word is a BPRM (R144), and those of the weights so far (R151) -/
  group : Option Nat
  groups : List Nat
  /-- binary64 patterns of the values, key 64i + j -/
  vals : Sparse 64
deriving DecidableEq, Repr, Inhabited

/-- The butterfly engine. -/
structure Be where
  pc : Dword := 0
  /-- accumulators: binary64 patterns, key 64i + j (R39) -/
  acc : Map (Sparse 64) := []
  sd : Sparse 16 := []
  cb : Map (Sparse 32) := []
  /-- open BLOOPs, the innermost first -/
  loops : List BLoop := []
  /-- a BLOOP with count 0 skips words: how many BENDs it still passes; 0 when it does not skip (R353) -/
  skip : Nat := 0
  chain : Option BChain := none
  /-- chains ended so far -/
  chains : Nat := 0
  pushes : List Push := []
  /-- pushes made so far (R375) -/
  pushed : Nat := 0
  status : Status := .off
  task : Nat := 0
  since : Nat := 0
  trec : Option TrapRec := none
  /-- context whose task last issued a B word here (R280) -/
  lastCtx : Option Nat := none
deriving DecidableEq, Repr, Inhabited

/-! ## Chain engines -/

/-- A command block sent by RENQ: its entries and the sender's binding (R103). -/
structure Block where
  entries : List (BitVec 128)
  task : Task
  /-- position of the next unevaluated entry, and the loop depth of the local chain at the block's start -/
  pos : Nat := 0
  base : Nat := 0
deriving DecidableEq, Repr, Inhabited

/-- A command in flight: what takes effect when it completes (R119). -/
structure InFlight where
  entry : BitVec 128
  addr : Nat
  task : Nat
  /-- the block's binding when the command came from a RENQ block -/
  block : Option Task := none
  /-- its number among the commands of the TP -/
  num : Nat := 0
  /-- passed to a media engine that has not reported completion (R367), and the number of that command -/
  media : Bool := false
  mid : Nat := 0
  /-- MDEC status block to write at completion: window address and two dwords (R406) -/
  status : Option (Nat × Dword × Dword) := none
  /-- held by its drift event (R255) -/
  trapped : Bool := false
  /-- the TIT entry of BID, read when the command issued (R321) -/
  bar : Option (List Dword) := none
  /-- tokens still to push, and to which unit (R112, R427) -/
  pushes : Nat := 0
  target : Nat := 0
deriving DecidableEq, Repr, Inhabited

/-- A chain engine: CE, IE or HE (R117 to R120). -/
structure Chain where
  act : BitVec 128 := 0
  actAddr : Nat := 0
  aprg : Dword := 0
  /-- instance number of the active and the shadow command's task -/
  actId : Nat := 0
  shdId : Nat := 0
  shd : BitVec 128 := 0
  shdAddr : Nat := 0
  sv : Bool := false
  av : Bool := false
  state : BitVec 3 := 0
  ldep : BitVec 3 := 0
  ent : BitVec 17 := 0
  /-- LSK0–LSK3: whole registers -/
  lsk : Sparse 64 := []
  /-- handed heads not yet finished: window address and task; the first one runs when `walking` -/
  heads : List (Nat × Nat) := []
  walking : Bool := false
  /-- the TKW of the entry at ENT has been honoured (R118) -/
  popped : Bool := false
  /-- the entry at ENT as it was read, and the test dword of a KIF (R119) -/
  ahead : Option (BitVec 128 × Option Dword) := none
  /-- the banks as they stood when the window closed in which the walk reads what follows the last command (R119) -/
  closed : Option Memory := none
  blocks : List Block := []
  /-- the block that runs now, with the entries left -/
  running : Option Block := none
  infl : List InFlight := []
  /-- TIT entries that the active command read when it issued (R72) -/
  tits : Map (List Dword) := []
  /-- binding of the active command when it came from a block -/
  actBlock : Option Task := none
  shdBlock : Option Task := none
  /-- number of the active command, and of the last command that had completed when it issued (R202) -/
  actNum : Nat := 0
  actBase : Nat := 0
  since : Nat := 0
  trec : Option TrapRec := none
deriving DecidableEq, Repr, Inhabited

/-- A projection slot of the HE (R179); signs by (t × b + i) × d + j, 1 for −1. -/
structure Slot where
  valid : Bool := false
  head : Nat := 0
  l : Nat := 0
  b : Nat := 0
  d : Nat := 0
  signs : Sparse 1 := []
deriving DecidableEq, Repr, Inhabited

/-! ## Tile processor -/

/-- A write of one unit that has not reached the device home of its location yet (R205, R217, R218). -/
structure WeakWrite where
  tp : Nat
  /-- 1 the access core; 4, 5, 6 the chain engines; from 8 media engines, from 72 service cores, whose die is the code's parity -/
  agent : Nat
  /-- 0–5: C, K, G, H, M, P -/
  path : Nat
  ctx : Nat
  lid : Nat
  place : Nat
  bytes : List Byte
  /-- the scope at which it is performed: 0 none yet, 1 tile, 2 quad, 3 cluster, 4 die (R217) -/
  scope : Nat := 0
  /-- number of its command, and of the last command of its engine that had completed when that one issued (R202) -/
  cmd : Nat := 0
  base : Nat := 0
  /-- written by an atomic, which reads and writes its location in one order with all others (R219) -/
  atom : Bool := false
  /-- space through which it was made (R226, R294) -/
  space : Nat := 0
deriving DecidableEq, Repr, Inhabited

/-- A copy of a line on path C (R207): the home's write timestamp and bytes when it was made, and the end of its lease. A
copy in a cache bank has the bank, the context that filled it and whether it is dirty (R54); a copy without a bank has not
been filled. -/
structure CLine where
  line : Nat
  wts : Nat
  rts : Nat
  bytes : Memory
  bank : Option Nat := none
  ctx : Nat := 0
  dirty : Bool := false
deriving DecidableEq, Repr, Inhabited

/-- An earlier value of an 8-byte unit that an engine may still read (R206): the engine's code and the unit. -/
structure Stale where
  agent : Nat
  unit : Nat
  bytes : List Byte
deriving DecidableEq, Repr, Inhabited

/-- A service core on path C: its logical clock and its copies (R207). -/
structure Core where
  lc : Nat := 0
  cache : List CLine := []
deriving DecidableEq, Repr, Inhabited

/-- A TLB entry (R235, R237). -/
structure TlbEntry where
  ctx : Nat
  space : Nat
  page : Page
deriving DecidableEq, Repr, Inhabited

/-- A draw pile (R94). -/
structure Pile where
  ctx : Option Nat := none
  /-- top first -/
  chip : List Entry := []
  /-- spill area, top first -/
  spill : List Entry := []
deriving DecidableEq, Repr, Inhabited

/-- A role change under way (R57): the value to take effect, and whether it is the load of a task start, which also waits
for commands of earlier tasks (R59). -/
structure RoleChange where
  brr : Dword
  start : Bool := false
deriving DecidableEq, Repr, Inhabited

/-- The eight queues: q0–q3 hold scalars, q4–q7 tiles; head first (R63). -/
structure Queues where
  scalar : Map (List Dword) := []
  tile : Map (List Tile) := []
deriving DecidableEq, Repr, Inhabited

/-- What the save image of a task holds (R263). -/
structure Image where
  ctx : Nat
  cls : Nat
  ac : Ac
  ec : Ec
  be : Be
  ce : Chain
  ie : Chain
  he : Chain
  slots : Map Slot
  queues : Queues
  tokens : Sparse 4
  banks : Memory
  brr : Dword
  qdir : Dword
  svwm : Dword
  svwmAt : Dword
  /-- poisoned words of what the image holds (R266) -/
  poison : List (Nat × Nat)
  /-- who had placed the bytes of the banks (R58) -/
  bankEra : Memory
  bankOwner : List (Nat × Nat)
  bankMixed : Bool
  late : List (Nat × Nat)
  tasks : List Task
  cur : Nat
  tokTask : Nat
deriving DecidableEq, Repr, Inhabited

/-- A tile processor (R13). -/
structure Tp where
  ac : Ac := {}
  ec : Ec := {}
  be : Be := {}
  ce : Chain := {}
  ie : Chain := {}
  he : Chain := {}
  slots : Map Slot := []
  queues : Queues := {}
  /-- token counts by FIFO index (R111) -/
  tokens : Sparse 4 := []
  /-- banks by window address (R50) -/
  banks : Memory := []
  brr : Dword := 0xAAAAAAAA55550000
  qdir : Dword := 0x88
  svwm : Dword := 0xFFFFFFFFFF
  /-- SVWM as it stood at the last service entry (R421) -/
  svwmAt : Dword := 0xFFFFFFFFFF
  /-- streams that wait for the end of earlier work on their unit, by unit and task (R109) -/
  late : List (Nat × Nat) := []
  /-- the running task and ended tasks whose work goes on -/
  tasks : List Task := []
  /-- instance number of the running task; 0 when the TP is idle -/
  cur : Nat := 0
  /-- instance number of the task whose tokens the FIFOs hold: the last one that started (R115) -/
  tokTask : Nat := 0
  role : Option RoleChange := none
  preempt : Option PreemptWhy := none
  /-- device time at which the units were asked to hold, and the engines whose active command has since been stopped at an
  access boundary (R57, R260) -/
  holdAt : Nat := 0
  stopNow : List Nat := []
  images : List Image := []
  frame : Pile := {}
  bulk : Pile := {}
  tlb : List TlbEntry := []
  cache : List CLine := []
  /-- earlier values that the engines may still read (R206) -/
  stale : List Stale := []
  /-- earlier values of aligned 8-byte units of the banks that units may still read (R62): `agent` is the unit's code -/
  bankStale : List Stale := []
  /-- window addresses of the bytes whose bit 0, bit 112 of an entry, a completion event has cleared (R366) -/
  events : List Nat := []
  /-- commands issued by the TP's engines so far, and the last one that completed by engine (R202) -/
  issued : Nat := 0
  doneCmd : Map Nat := []
  /-- poisoned words (R266): kind (0 bank, 1 tile register, 2 accumulator, 3 queue entry) and index; of a queue entry 16 times
  its queue plus its place from the head -/
  poison : List (Nat × Nat) := []
  /-- peers that path-P writes reached since the last fence (R295): the space and the place of the window -/
  peersReached : List (Nat × Nat) := []
  /-- context whose data the banks take (R58): that of the last task started; the banks as they stood when it came; which
  context had placed each byte before that; whether work of another context went on when it came -/
  lastCtx : Option Nat := none
  bankEra : Memory := []
  bankOwner : List (Nat × Nat) := []
  bankMixed : Bool := false
  /-- a parity error stands in command or control state (R266) -/
  parity : Bool := false
  /-- charges made for the TP's work since the last comparison, by context, the contexts whose tasks have run since, the latest
  first, and when that comparison was (R277) -/
  spent : Map Nat := []
  ran : List Nat := []
  meterAt : Nat := 0
deriving DecidableEq, Repr, Inhabited

/-! ## Memory system -/

/-- Timestamps of a line at its home (R207). -/
structure LineTs where
  wts : Nat := 0
  rts : Nat := 0
deriving DecidableEq, Repr, Inhabited

/-- An entry of the address translation cache (R237); `failed`: the completion had an error status (R232, cause 0x0D). -/
structure AtcEntry where
  pasid : Nat
  page : Page
  failed : Bool := false
deriving DecidableEq, Repr, Inhabited

/-- How a request leaves a port: untranslated without a PASID, under the requester ID of a virtual function (R226); translated
(R237); or on the peer port (R234). -/
inductive Attr where
  | untranslated (fn : Nat) | translated | peer
deriving DecidableEq, Repr, Inhabited

/-- An outstanding request of the ports: ATS, PRI with its needs of read and write, or non-posted with the IDE stream that
carries it (R237, R241, R286, R288). -/
inductive Request where
  /-- `stale`: completions still to come that an invalidation has made void (R238) -/
  | ats (pasid va ctx stale : Nat)
  | pri (pasid va ctx : Nat) (r w : Bool)
  | nonPosted (port : Port) (ctx place : Nat) (attr : Attr) (stream : Nat)
deriving DecidableEq, Repr, Inhabited

/-- PRI Successes for an access that a denial has followed so far (R237): the access by context, TP, unit, page and the access
kinds that it needs. -/
structure Denial where
  ctx : Nat
  tp : Nat
  unit : Nat
  page : Nat
  acck : Nat
  count : Nat
deriving DecidableEq, Repr, Inhabited

/-- A translation fault that waits for the supervisor (R248, R249). -/
structure FaultRec where
  tp : Nat
  record : TrapRec
  ctx : Nat
  cause : Nat
  space : Nat
  va : Nat
  /-- the pawn held with the record, after an abort (R248) -/
  pawn : Option Entry := none
  /-- 1–6 the stalled unit; 7 a media engine; 0 a launch -/
  unit : Nat := 0
  handle : Option Nat := none
  media : Option MediaEng := none
  queue : Option Nat := none
  /-- the access kinds that it needs, as ACCK codes them (R243) -/
  acck : Nat := 1
  /-- the completion of a chain command stalls, at its barrier arrive -/
  completing : Bool := false
deriving DecidableEq, Repr, Inhabited

/-! ## Work -/

/-- A launch queue: its context and the place of its descriptor (R77); the index up to which WIDX has been seen (R78). -/
structure LaunchQueue where
  ctx : Nat
  desc : Nat
  widx : Nat := 0
  stopped : Bool := false
  /-- a fault on its start waits for the supervisor -/
  faulted : Bool := false
deriving DecidableEq, Repr, Inhabited

/-- A launch that has started and not completed (R82 to R88). -/
structure Launch where
  lid : Nat
  ctx : Nat
  queue : Nat
  /-- index in its queue -/
  index : Nat
  /-- launch record D0 to D15 (R80) -/
  dwords : List Dword
  tcounts : List Dword
  hdr : List Dword
  /-- D levels exist, product of the D counts, product of the C counts, dies in use, HOME -/
  hasD : Bool
  dn : Nat
  cn : Nat
  nd : Nat
  home : Nat
  /-- next ITER to deal on each die -/
  next0 : Nat
  next1 : Nat
  /-- pawns that have not ended -/
  live : Nat
  trig : Nat := 0
  strm : Option (Nat × Nat) := none
  released : Bool := false
  /-- a fault on a completion action waits for the supervisor (R84, R248) -/
  faulted : Bool := false
  /-- completion actions done: 0 none, 1 CFLAG, 2 CJOIN (R84) -/
  done : Nat := 0
deriving DecidableEq, Repr, Inhabited

/-- A pawn registered by a region matcher (R102). -/
structure Region where
  die : Nat
  /-- LID of its launch; 65,536 and up after the launch has completed (R84) -/
  lid : Nat
  ctx : Nat
  /-- registration number, ascending -/
  seq : Nat
  decls : List Decl
  serial : Bool
  /-- the pawn while it is held, and its spawner's TP -/
  held : Option (Entry × Nat)
  /-- slots that its declarations take -/
  slots : List Nat
deriving DecidableEq, Repr, Inhabited

/-- A watch of PARK (R99). -/
structure Watch where
  die : Nat
  tp : Nat
  place : Nat
  value : Dword
  entry : Entry
  /-- its place among the registrations of the region matcher (R102) -/
  seq : Nat := 0
  /-- a write has changed the location (R99) -/
  fired : Bool := false
deriving DecidableEq, Repr, Inhabited

/-- Memory of the fair scheduler (R176, R270) for one class and level. -/
structure Turnstile where
  cls : Nat
  lvl : Nat
  /-- last round-robin queue served -/
  last : Nat := 0
  /-- the stream set takes the next start when both sets are eligible -/
  stream : Bool := true
deriving DecidableEq, Repr, Inhabited

/-! ## Contexts and tenants -/

/-- A context (R227, R234, R247, R254, R267, R273). -/
structure Ctx where
  tenant : Nat
  root : Nat
  pasid : Nat
  svc : Dword
  /-- counters of 0x70–0x7F and 0x80–0x9F by code (R247) -/
  counters : Sparse 32 := []
  /-- E0, and BAL, USED in units of 2^−16 pip, FILL units and NPER (R273) -/
  e0 : Dword := 0
  /-- E0 as the supervisor has written it, and when: QUOTA and PER take effect at a period boundary (R276) -/
  e0Next : Option (Dword × Nat) := none
  bal : Int := 0
  used : Dword := 0
  fill : Nat := 0
  nper : BitVec 32 := 0
  /-- device time of the last period boundary, in ns (R276) -/
  lastEnd : Nat := 0
  /-- peer window table: W0 and W1 (R294) -/
  windows : Map (Dword × Dword) := []
  stopped : Bool := false
  /-- record of the first fatal fault (R252) -/
  fatal : Option TrapRec := none
  /-- that record has not reached the supervisor yet: step 6 of R251 is still to be done (R252) -/
  owed : Bool := false
deriving DecidableEq, Repr, Inhabited

/-- A tenant (R268 to R271). -/
structure Tenant where
  base : Nat := 0
  limit : Nat := 0
  faultVec : Nat := 0
  thermalVec : Option Nat := none
  v0 : Dword := 0
  usedb : Nat := 0
  /-- device time of the last window boundary, in ns -/
  lastEnd : Nat := 0
  /-- event 0x75 has been counted in this window, by queue -/
  passed : List Nat := []
  /-- MSI-X table bytes and pending bits (R269, R289); every vector is masked at reset, as PCI Express has it (note 3) -/
  msix : Memory := Sparse.ofFn 1024 (fun i => if i % 16 = 12 then 1 else 0)
  pba : Dword := 0
  /-- MSI-X Enable and Function Mask of the capability (R269) -/
  msixOn : Bool := false
  msixMask : Bool := false
  /-- host-messaging mailbox bytes (R289) -/
  mailbox : Memory := []
deriving DecidableEq, Repr, Inhabited

/-! ## Media -/

/-- A stream bound to a VDE (R405): its store record, codec and decoder. -/
structure Stream where
  ctx : Nat
  record : Nat
  vde : MediaEng
  codec : CodecId
  /-- bytes submitted since the binding, what the decoder has parsed of them, and flushes: the decoder's history -/
  data : List Byte := []
  parsed : Nat := 0
  flushes : List Nat := []
  /-- output pictures so far, oldest first: bytes and flushes submitted when each was output, and whether at a flush -/
  shown : List (Nat × Nat × Bool) := []
  /-- the VDE held fewer than 48 bound streams when this one was bound (R405) -/
  held : Bool := true
  /-- output pictures before the last CMSM reset (R159) -/
  resetAt : Nat := 0
  /-- the stream lock is held (R163) -/
  locked : Bool := false
deriving DecidableEq, Repr, Inhabited

/-- A command passed to a media engine (R367). -/
structure MediaCmd where
  eng : MediaEng
  tp : Nat
  entry : BitVec 128
  addr : Nat
  task : Task
  id : Nat
  /-- the TIT entry of TA of an MSUB -/
  tensor : List Dword := []
  /-- report block read by the CE (R371) -/
  report : Dword × Dword := (0, 0)
  /-- its engine has begun it: it holds the stream lock -/
  begun : Bool := false
  stalled : Bool := false
  /-- waits for TRET (R255) -/
  trapped : Bool := false
  /-- its report has exceeded the budget; its event waits for the trap that its CE holds (R173) -/
  raised : Bool := false
  /-- what its accesses have read, oldest first (nothing for a write), and how many of them its present run has passed: a
  resumed command repeats none (R250) -/
  log : List (List Byte) := []
  passed : Nat := 0
deriving DecidableEq, Repr, Inhabited

/-! ## Module -/

/-- A port (R285, R288): rate and width of its link, or of link 0 of an x8 + x8 port, and of link 1; 0: not trained. The IDE
streams in the insecure state: 0 and 1 those of its links, 2 to 5 its selective ones. -/
structure Link where
  gts : Nat := 0
  width : Nat := 0
  gts1 : Nat := 0
  width1 : Nat := 0
  insecure : List Nat := []
deriving DecidableEq, Repr, Inhabited

/-- An HBM4 stack (R283, R284). -/
structure Stack where
  /-- row of the table, 0 to 3 -/
  row : Nat := 0
  /-- consecutive readings that allow a step down -/
  cool : Nat := 0
  reading : Option Int := none
deriving DecidableEq, Repr, Inhabited

/-- Power, links, banker (12, 13). -/
structure Module where
  /-- PST of DSTAT (R291): 1 off, 2 reset, 3 reduced, 4 full, 5 recovery -/
  pst : BitVec 3 := 2
  hbmok : BitVec 1 := 0
  ntp0 : BitVec 8 := 0
  ntp1 : BitVec 8 := 0
  ldeg : BitVec 1 := 0
  /-- PERST# is asserted -/
  perst : Bool := true
  /-- tiles of die 0 that passed the boot test (R297), and the units that a test has left out (R299): 0 TPs, 1 VDEs, 2 CMEs, with
  die and number -/
  bootTps : List Nat := []
  leftOut : List (Nat × Nat × Nat) := []
  tps : List Nat := []
  vdes : List (Nat × Nat) := []
  cmes : List (Nat × Nat) := []
  host : Link := {}
  peer : Link := {}
  /-- grants left of the banker on the rails, in units of 2^−16 pip; none: no limit (R279) -/
  grants : Map Nat := []
  /-- energy of work that has issued on the rails and that later steps draw (R279) -/
  owed : Map Nat := []
  /-- energy of the butterfly rail in the last step of the banker, and that of the work since (R279) -/
  drawn : Nat := 0
  work : Nat := 0
  /-- operating points of the arithmetic and the fabric clock, 0 the highest (R281) -/
  arith : Nat := 0
  fabric : Nat := 0
  /-- highest points that the supervisor allows (R282) -/
  maxArith : Nat := 0
  maxFabric : Nat := 0
  /-- when each clock last changed (R282) -/
  arithAt : Option Nat := none
  fabricAt : Option Nat := none
  /-- member number in its peer group (R293) -/
  member : BitVec 4 := 0
  hbmStacks : Map Stack := []
  corrected : Nat := 0
  /-- poisoned 64-bit words of HBM4 by place (R266) -/
  poison : List Nat := []
  /-- inbound peer windows: base and size in device memory (R293) -/
  inbound : Map (Nat × Nat) := []
  /-- entries of a pile's spill area (R94) -/
  spillCap : Nat := 4096
deriving DecidableEq, Repr, Inhabited

/-- What leaves the module or reaches the supervisor. -/
inductive Out where
  | msix (tenant vec : Nat) (addr data : Dword)
  /-- a posted write leaves a port: how, on which link, and where to (R226, R237, R294) -/
  | posted (attr : Attr) (link place n : Nat)
  | record (r : TrapRec)
  | atsRequest (pasid va : Nat)
  | priRequest (pasid va : Nat) (r w : Bool)
  | invalidationCompletion (pasid : Nat)
  | zeroLengthRead (bus : Nat)
  | completion (data : List Byte)
  | unsupported
  | poisoned
  | retryStatus
  | config (v : Dword)
  | spdm (answer : List Byte)
  | mailbox (tenant : Nat)
  | thermal (stack : Nat)
  | value (v : List Dword)
  | refusedRequest
  | saved (tp ctx : Nat)
deriving DecidableEq, Repr, Inhabited

/-- Whose step is next: a TP's agent or an agent of the device, and a number that picks among its choices. -/
structure Turn where
  tp : Nat := 0
  agent : Agent := .outside
  pick : Nat := 0
deriving DecidableEq, Repr, Inhabited

/-- The machine. `tp` is the TP in focus, number `cur`; a TP that `others` does not list stands as after reset. -/
structure State where
  cur : Nat := 0
  tp : Tp := {}
  others : Map Tp := []
  mem : Memory := []
  lines : Map LineTs := []
  weak : List WeakWrite := []
  /-- earlier values that media engines may still read (R206) -/
  mediaStale : List Stale := []
  /-- agents that have written a line: TP and agent, as a pending write names them (R206, R218) -/
  writers : Map (List (Nat × Nat)) := []
  /-- aligned 16-byte units that a 128-bit HCAS has written (R200) -/
  wide : List Nat := []
  /-- places of the completion flags written so far (R222) -/
  flags : List Nat := []
  /-- service cores by number (R207) -/
  cores : Map Core := []
  /-- tracked 64 KiB frames: first frame and count (R229) -/
  tracked : List (Nat × Nat) := []
  atc : List AtcEntry := []
  requests : Map Request := []
  /-- invalidations whose completion is still to be sent (R238): PASID and range -/
  invalidations : List (Nat × Nat × Nat) := []
  faults : List FaultRec := []
  denied : List Denial := []
  queues : Map LaunchQueue := []
  launches : List Launch := []
  nextTask : Nat := 1
  /-- number of the next command passed to a media engine -/
  nextMedia : Nat := 1
  /-- scheduler memory (R270) -/
  turnstiles : List Turnstile := []
  /-- last TP served by the dealer: key (die × 2 + class) × 256 + context (R89) -/
  dealt : Map Nat := []
  /-- pawns no pile may take yet (R94) -/
  homeless : List Entry := []
  regions : List Region := []
  nextRegion : Nat := 1
  watches : List Watch := []
  ctxs : Map Ctx := []
  tenants : Map Tenant := []
  streams : Map Stream := []
  media : List MediaCmd := []
  mod : Module := {}
  /-- device time in ns since the last module reset (R243) -/
  time : Nat := 0
  /-- device time of the last step of the logical clocks (R208) -/
  lcAt : Nat := 0
  turn : Turn := {}
  steps : Nat := 0
  /-- the model's own counter of free values -/
  free : Nat := 0
  inputs : List Instr := []
  out : List Out := []
deriving DecidableEq, Repr, Inhabited

/-- Why the machine stops with a fault. -/
inductive Fault where
  /-- raised by `step` when the list of inputs holds a word of a stream or chain instead of an event: the outside cannot
  send it; safe, because no step of the hardware answers to it -/
  | inputNotEvent
deriving DecidableEq, Repr, Inhabited

/-- Why an instruction has no meaning. -/
inductive Refusal where
  /-- raised by `exec` for an instruction whose meaning is not written: safe, the machine stops -/
  | notModelled (mnemonic : String)
deriving DecidableEq, Repr, Inhabited

/-- The machine right after reset (13 R296, R291: power state 2): every field at its default above. -/
def State.reset : State := {}

end Sys2Proof.Machine
end

