-- ==== Sys2Proof/Machine/Basic.lean ====
section
/-!
DEFINITION. The plainest operations on the state: the TP in focus, registers, tasks, free values, and how an operation
stops before its end.
-/
namespace Sys2Proof

/-- The unit code of a chain engine (R13). -/
def ChainUnit.code : ChainUnit → Nat
  | .ce => 4
  | .ie => 5
  | .he => 6

/-- The chain engine of a unit code. -/
def ChainUnit.ofCode (c : Nat) : Option ChainUnit :=
  match c with
  | 4 => some .ce
  | 5 => some .ie
  | 6 => some .he
  | _ => none

end Sys2Proof

namespace Sys2Proof.Machine

/-! ## Which TP is in focus -/

/-- The state of TP `n` (64 × die + tile). -/
def State.getTp (s : State) (n : Nat) : Tp := if n = s.cur then s.tp else (Map.find s.others n).getD {}

/-- Replace the state of TP `n`. -/
def State.setTp (s : State) (n : Nat) (t : Tp) : State :=
  if n = s.cur then { s with tp := t } else { s with others := Map.put s.others n t }

/-- Bring TP `n` into focus. -/
def State.focus (s : State) (n : Nat) : State :=
  if n = s.cur then s
  else { s with cur := n, tp := s.getTp n, others := Map.put (Map.del s.others n) s.cur s.tp }

/-- The TPs whose state differs from reset, the focus first. -/
def State.tpNumbers (s : State) : List Nat := s.cur :: s.others.map (fun e => e.1)

/-- Change every TP. -/
def State.mapTps (s : State) (f : Nat → Tp → Tp) : State :=
  { s with tp := f s.cur s.tp, others := s.others.map (fun e => (e.1, f e.1 e.2)) }

/-- Die and tile of a TP number (R4). -/
def dieOf (n : Nat) : Nat := n / 64
def tileOf (n : Nat) : Nat := n % 64

/-! ## Field updates -/

def State.setAc (s : State) (a : Ac) : State := { s with tp := { s.tp with ac := a } }
def State.setEc (s : State) (a : Ec) : State := { s with tp := { s.tp with ec := a } }
def State.setBe (s : State) (a : Be) : State := { s with tp := { s.tp with be := a } }
def State.setMod (s : State) (m : Module) : State := { s with mod := m }

/-- A chain engine of the TP in focus. -/
def State.eng (s : State) : ChainUnit → Chain
  | .ce => s.tp.ce
  | .ie => s.tp.ie
  | .he => s.tp.he

def State.setEng (s : State) (u : ChainUnit) (c : Chain) : State :=
  match u with
  | .ce => { s with tp := { s.tp with ce := c } }
  | .ie => { s with tp := { s.tp with ie := c } }
  | .he => { s with tp := { s.tp with he := c } }

/-! ## Registers of the access core -/

/-- An integer register: x0 reads zero. -/
def State.getX (s : State) (r : BitVec 5) : Dword := if r = 0 then 0 else Sparse.get s.tp.ac.x r.toNat

/-- Write an integer register: a write to x0 is discarded. -/
def State.setX (s : State) (r : BitVec 5) (v : Dword) : State :=
  if r = 0 then s else s.setAc { s.tp.ac with x := Sparse.set s.tp.ac.x r.toNat v }

def State.getF (s : State) (r : BitVec 5) : Dword := Sparse.get s.tp.ac.f r.toNat
def State.setF (s : State) (r : BitVec 5) (v : Dword) : State :=
  s.setAc { s.tp.ac with f := Sparse.set s.tp.ac.f r.toNat v }

def State.setPc (s : State) (v : Dword) : State := s.setAc { s.tp.ac with pc := v }

def State.getHandle (s : State) (n : BitVec 4) : Handle := (Map.find s.tp.ac.handles n.toNat).getD {}
def State.setHandle (s : State) (n : BitVec 4) (h : Handle) : State :=
  s.setAc { s.tp.ac with handles := Map.put s.tp.ac.handles n.toNat h }

/-! ## Registers of the execute core (R312, R313, R126) -/

/-- A scalar: e0 reads zero. -/
def State.getE (s : State) (r : Nat) : Dword := if r = 0 then 0 else Sparse.get s.tp.ec.e r

/-- Write a scalar: a write to e0 is discarded (R312). -/
def State.setE (s : State) (r : Nat) (v : Dword) : State :=
  if r = 0 then s else s.setEc { s.tp.ec with e := Sparse.set s.tp.ec.e r v }

/-- The physical tile register of a name, under rotation (R126). -/
def Ec.tileReg (ec : Ec) (n : Nat) : Nat := if n < 16 then n else 16 + (n - 16 + ec.rrb.toNat) % 16

/-- The physical predicate of a name, under rotation (R126). -/
def Ec.predReg (ec : Ec) (n : Nat) : Nat := if n < 8 then n else 8 + (n - 8 + ec.prb.toNat) % 8

/-- A tile register by its name. -/
def State.getW (s : State) (n : Nat) : Tile := (Map.find s.tp.ec.w (s.tp.ec.tileReg n)).getD []

/-- Write a physical tile register. -/
def State.putW (s : State) (phys : Nat) (t : Tile) : State :=
  s.setEc { s.tp.ec with w := Map.put s.tp.ec.w phys t }

/-- Write a physical tile register where `on` holds: a 64-bit word of two cells written whole loses its poison (R266). -/
def State.writeW (s : State) (phys : Nat) (on : Nat → Bool) (v : Nat → Word) : State :=
  let old := (Map.find s.tp.ec.w phys).getD []
  let s := s.putW phys (Sparse.ofFn 1024 (fun c => if on c then v c else Sparse.get old c))
  if s.tp.poison.isEmpty then s
  else { s with tp := { s.tp with poison := s.tp.poison.filter (fun q =>
    !(q.1 == 1 && q.2 / 512 == phys && on (2 * (q.2 % 512)) && on (2 * (q.2 % 512) + 1))) } }

/-- A predicate by its name: p0 reads as all ones (R312). -/
def State.getP (s : State) (n : Nat) : BitVec 1024 :=
  if n = 0 then BitVec.allOnes 1024 else Sparse.get s.tp.ec.p (s.tp.ec.predReg n)

/-- Write a predicate: a write to p0 is discarded (R312). -/
def State.setP (s : State) (n : Nat) (v : BitVec 1024) : State :=
  if n = 0 then s else s.setEc { s.tp.ec with p := Sparse.set s.tp.ec.p (s.tp.ec.predReg n) v }

/-- The cycle from which a push may be made. -/
def Push.due : Push → Nat
  | .token d _ => d
  | .scalar d _ _ => d
  | .tile d _ _ => d

/-! ## Butterfly registers -/

def State.getAcc (s : State) (n : Nat) : Sparse 64 := (Map.find s.tp.be.acc n).getD []
def State.setAcc (s : State) (n : Nat) (v : Sparse 64) : State := s.setBe { s.tp.be with acc := Map.put s.tp.be.acc n v }
def State.getSd (s : State) (n : Nat) : Half := Sparse.get s.tp.be.sd n
def State.setSd (s : State) (n : Nat) (v : Half) : State := s.setBe { s.tp.be with sd := Sparse.set s.tp.be.sd n v }
def State.getCb (s : State) (n : Nat) : Sparse 32 := (Map.find s.tp.be.cb n).getD []
def State.setCb (s : State) (n : Nat) (v : Sparse 32) : State := s.setBe { s.tp.be with cb := Map.put s.tp.be.cb n v }

/-! ## Banks -/

/-- The role of a bank: field [2n+1:2n] of BRR (R51). -/
def roleOf (brr : Dword) (bank : Nat) : Nat := bits brr.toNat (2 * bank) 2

/-- Whether every byte of a window range lies in the banks with one of the roles (R55). -/
def Tp.inRoles (t : Tp) (roles : List Nat) (addr n : Nat) : Bool :=
  n == 0 ||
    (addr + n ≤ 0x200000 &&
      (List.range ((addr + n - 1) / 0x10000 - addr / 0x10000 + 1)).all
        (fun i => roles.contains (roleOf t.brr (addr / 0x10000 + i))))

/-- Whether a window range lies in scratchpad or operand banks. -/
def Tp.usable (t : Tp) (addr n : Nat) : Bool := t.inRoles [1, 2] addr n

/-- Whether an earlier value belongs to an agent and to a unit of a range. -/
def Stale.within (x : Stale) (agent p n : Nat) : Bool := x.agent == agent && x.unit * 8 < p + n && p < x.unit * 8 + 8

/-- Bytes at an address as they show under earlier values of some of their units. -/
def overOld (old : List Stale) (addr : Nat) (bs : List Byte) : List Byte :=
  bs.mapIdx (fun i b => match old.find? (fun x => x.unit == (addr + i) / 8) with
    | some x => x.bytes.getD ((addr + i) % 8) b
    | none => b)

/-- The code of the unit that an agent is (R112); 0: no unit of a TP. -/
def unitOfAgent (a : Agent) : Nat :=
  match a with
  | .ac => 1
  | .ec => 2
  | .be => 3
  | .ce => 4
  | .ie => 5
  | .he => 6
  | .media | .fabric | .device | .outside => 0

/-- Earlier bank values that a unit holds are gone: it has taken a token, waited on a barrier or waited for commands, which
orders its later accesses after the earlier ones of other units (R62). -/
def Tp.dropBankStale (t : Tp) (unit : Nat) : Tp := { t with bankStale := t.bankStale.filter (fun x => x.agent != unit) }

def State.readBank (s : State) (addr n : Nat) : List Byte := Sparse.run s.tp.banks addr n
def State.bankValue (s : State) (addr n : Nat) : Nat := Memory.read s.tp.banks addr n

/-- Whether a range of the banks holds a poisoned word (R266). -/
def Tp.bankPoisoned (t : Tp) (addr n : Nat) : Bool := t.poison.any (fun q => q.1 == 0 && q.2 < addr + n && addr < q.2 + 8)

/-- What the unit that has the turn reads of a range of the banks: of an aligned 8-byte unit whose earlier value it still
holds, that value, whole (R62). -/
def State.shownBank (s : State) (addr n : Nat) : List Byte :=
  let old := s.tp.bankStale.filter (fun x => x.within (unitOfAgent s.turn.agent) addr n)
  if old.isEmpty then s.readBank addr n else overOld old addr (s.readBank addr n)

/-- A write of the unit that has the turn follows its earlier accesses (R62): it holds no earlier value of what it writes. -/
def State.ownBankWrite (s : State) (addr n : Nat) : State :=
  { s with tp := { s.tp with bankStale := s.tp.bankStale.filter (fun x => !x.within (unitOfAgent s.turn.agent) addr n) } }

/-- Words of the banks written whole lose their poison. -/
def Tp.bankWritten (t : Tp) (addr n : Nat) : Tp :=
  { t with poison := t.poison.filter (fun q => !(q.1 == 0 && addr ≤ q.2 && q.2 + 8 ≤ addr + n)) }

/-- A store to the banks takes effect at once; that a unit still sees the earlier value of an 8-byte unit, as R62 allows between
units without an order, is the value that it holds (`State.shownBank`, note 91). -/
def State.putBank (s : State) (addr n : Nat) (f : Nat → Byte) : State :=
  let s := s.ownBankWrite addr n
  { s with tp := { s.tp.bankWritten addr n with banks := Sparse.putRun s.tp.banks addr n f } }
def State.writeBank (s : State) (addr : Nat) (bs : List Byte) : State :=
  let s := s.ownBankWrite addr bs.length
  { s with tp := { s.tp.bankWritten addr bs.length with banks := Memory.writeBytes s.tp.banks addr bs } }

/-! ## Tasks -/

/-- The task with an instance number; the empty one when there is none. -/
def Tp.taskOf (t : Tp) (id : Nat) : Task := (t.tasks.find? (fun k => k.id == id)).getD {}

/-- The context whose handles the AC holds: that of the running task, or of the last one. -/
def Tp.acCtx (t : Tp) : Option Nat := if t.cur = 0 then t.lastCtx else some (t.taskOf t.cur).ctx

/-- The running task of the TP in focus. -/
def State.task (s : State) : Sys2Proof.Machine.Task := s.tp.taskOf s.tp.cur

/-- Whether the TP runs a task. -/
def State.hasTask (s : State) : Bool := s.tp.cur != 0

/-- Work of a context goes on at the TP: a bank byte it writes is no other context's (R58, note 81). -/
def Tp.mixedBy (t : Tp) (ctx : Nat) : Tp := { t with bankMixed := t.bankMixed || t.lastCtx != some ctx }

/-- Change the task with an instance number. -/
def State.changeTask (s : State) (id : Nat) (f : Task → Task) : State :=
  { s with tp := { s.tp with tasks := s.tp.tasks.map (fun k => if k.id == id then f k else k) } }

def State.ctx? (s : State) (c : Nat) : Option Ctx := Map.find s.ctxs c
def State.getCtx (s : State) (c : Nat) : Ctx := (s.ctx? c).getD default
def State.changeCtx (s : State) (c : Nat) (f : Ctx → Ctx) : State := { s with ctxs := Map.change s.ctxs c f }
def State.getTenant (s : State) (t : Nat) : Tenant := (Map.find s.tenants t).getD {}
def State.setTenant (s : State) (t : Nat) (v : Tenant) : State := { s with tenants := Map.put s.tenants t v }
def State.tenantOf (s : State) (c : Nat) : Tenant := s.getTenant (s.getCtx c).tenant

/-- Count an event of a context (R247). -/
def State.countEvent (s : State) (c code : Nat) : State :=
  s.changeCtx c (fun k => { k with counters := Sparse.set k.counters code (Sparse.get k.counters code + 1) })

/-- Something leaves the module or reaches the supervisor. -/
def State.emit (s : State) (o : Out) : State := { s with out := s.out ++ [o] }

/-! ## Charges (R273 to R278) -/

/-- Quota of a context in pips per period. -/
def Ctx.quota (c : Ctx) : Nat := bits c.e0.toNat 32 32

/-- Request pre-emption of the running task of a TP, unless one stands. -/
def Tp.request (t : Tp) (now : Nat) (why : PreemptWhy) : Tp :=
  if t.preempt.isSome then t
  else { t with preempt := some why, holdAt := if t.role.isSome then t.holdAt else now }

/-- Request pre-emption of every TP that runs a task of a context whose balance is at or below zero (R275). -/
def State.requestAll (s : State) (ctx : Nat) : State :=
  let hit (t : Tp) : Bool := t.cur != 0 && (t.taskOf t.cur).ctx == ctx && t.preempt.isNone
  let n := (s.tpNumbers.filter (fun i => hit (s.getTp i))).length
  let s := s.mapTps (fun _ t => if hit t then t.request s.time .quota else t)
  (List.range n).foldl (fun s _ => s.countEvent ctx 0x72) s

/-- Charge a context without a test: dropped when it has stopped or does not exist (R278). `always`: its balance changes without
a quota too (R277, R280). -/
def State.chargeBy (s : State) (always : Bool) (ctx : Nat) (cost : Int) : State :=
  let c := s.getCtx ctx
  if (s.ctx? ctx).isNone || c.stopped then s
  else
    let s := s.changeCtx ctx (fun c => { c with
      bal := if c.quota = 0 && !always then c.bal else c.bal - cost
      used := BitVec.ofNat 64 (wrapTo ((c.used.toNat : Int) + cost) 64) })
    if c.quota != 0 && (s.getCtx ctx).bal ≤ 0 then s.requestAll ctx else s

/-- The charge of R275 and R278. -/
def State.charge (s : State) (ctx : Nat) (cost : Int) : State := s.chargeBy false ctx cost

/-- A charge made for the work of the TP in focus, for a context (R277). -/
def State.spend (s : State) (ctx cost : Nat) : State :=
  { s with tp := { s.tp with spent := Map.put s.tp.spent ctx ((Map.find s.tp.spent ctx).getD 0 + cost) } }

/-! ## Pawn fields (R90) -/

def Pawn.taskh (p : Pawn) : Nat := bits p.p0.toNat 6 58 * 64
def Pawn.cls (p : Pawn) : Nat := bits p.p0.toNat 5 1
def Pawn.frame (p : Pawn) : Nat := p.p1.toNat
def Pawn.jrec (p : Pawn) : Nat := bits p.p2.toNat 4 60 * 16
def Pawn.iter (p : Pawn) : Nat := bits p.p3.toNat 32 32
def Pawn.lid (p : Pawn) : Nat := bits p.p3.toNat 0 16

/-- A pawn with CLS, CONT, LID and the region fields written (R84, R97, R98). -/
def Pawn.stamp (p : Pawn) (cls cont lid rgn rgnc : Nat) : Pawn :=
  { p with
    p0 := BitVec.ofNat 64 (p.p0.toNat / 64 * 64 + cls % 2 * 32 + cont % 2 * 16)
    p3 := BitVec.ofNat 64 (p.p3.toNat / 2 ^ 32 * 2 ^ 32 + rgn % 2048 * 2 ^ 21 + rgnc % 16 * 2 ^ 17 + lid % 65536) }

/-- A pawn made a continuation: CONT, CLS and LID written, the rest kept (R98). -/
def Pawn.continuation (p : Pawn) (cls lid : Nat) : Pawn :=
  { p with
    p0 := BitVec.ofNat 64 (p.p0.toNat / 64 * 64 + cls % 2 * 32 + 16 + p.p0.toNat % 16)
    p3 := BitVec.ofNat 64 (p.p3.toNat / 65536 * 65536 + lid % 65536) }

/-- The reserved fields of a pawn are zero (R90). -/
def Pawn.clean (p : Pawn) : Bool := bits p.p0.toNat 0 4 == 0 && bits p.p2.toNat 0 4 == 0 && !bitAt p.p3.toNat 16

/-- A pawn from its 32 bytes. -/
def Pawn.ofBytes (bs : List Byte) : Pawn :=
  let d (k : Nat) : Dword := BitVec.ofNat 64 (leValue ((bs.drop (8 * k)).take 8))
  ⟨d 0, d 1, d 2, d 3⟩

/-! ## Free values -/

/-- A free byte, and the state with the counter advanced (note 6). -/
def State.takeByte (s : State) : Byte × State := (Config.freeByte s.free, { s with free := s.free + 1 })
def State.takeBool (s : State) : Bool × State := (Config.freeBool s.free, { s with free := s.free + 1 })
def State.takeNat (s : State) : Nat × State := (Config.freeNat s.free, { s with free := s.free + 1 })

/-! ## How an operation stops -/

/-- A translation fault: cause, space and offset, and the access kinds of ACCK: 1 read, 2 write, 4 atomic, 8 fetch (R243). -/
structure TFault where
  cause : Nat
  space : Nat
  va : Nat
  acck : Nat
deriving DecidableEq, Repr, Inhabited

/-- Why an operation does not run to its end. -/
inductive Stop where
  /-- it waits and has had no effect: it is tried again -/
  | wait
  /-- it is over, with this state -/
  | done (s : State)
  /-- a fatal cause, its reason and its detail (R251) -/
  | fatal (cause reason detail : Nat)
  /-- a translation fault (R248, R249) -/
  | tfault (f : TFault)
  /-- it waits for an ATS translation of this host address, which is asked for (R237) -/
  | ats (ctx va : Nat)
  /-- a walk of it has set the tracking bits of some frames before it stops (R229) -/
  | tracked (frame n : Nat) (e : Stop)
deriving DecidableEq, Repr, Inhabited

/-- An operation that may stop. -/
abbrev Try (α : Type) := Except Stop α

/-- Stop with a fatal cause unless a condition holds. -/
def need (b : Bool) (cause : Nat) (reason : Nat := 0) : Try Unit :=
  if b then .ok () else .error (.fatal cause reason 0)

/-- Wait unless a condition holds. -/
def waitUnless (b : Bool) : Try Unit := if b then .ok () else .error .wait

/-- The bytes of a range of the banks that a unit consumes (R266). -/
def State.bankBytes (s : State) (addr n : Nat) : Try (List Byte) :=
  if s.tp.bankPoisoned addr n then .error (.fatal 0x61 0 0) else .ok (s.shownBank addr n)

/-- Fold an operation over a list. -/
def foldTry {α β : Type} (f : β → α → Try β) : β → List α → Try β
  | b, [] => .ok b
  | b, a :: l =>
    match f b a with
    | .ok b' => foldTry f b' l
    | .error e => .error e

end Sys2Proof.Machine
end

