-- ==== Sys2Proof/Machine/Memory.lean ====
section
/-!
DEFINITION. Global memory: places, walks and permissions (10), path C with its logical time (R207), and the weaker paths,
whose writes other agents see later (R205, R218).
-/
namespace Sys2Proof.Machine

/-! ## Places

A place names a byte of memory: device physical addresses as they are, host bus address a at 2^51 + a (R226), peer bus
address a at 2^66 + a (R234). -/

def hbmTop : Nat := 0x6000000000
def hostBase : Nat := 2 ^ 51
def peerBase : Nat := 2 ^ 66

def inHbm (p : Nat) : Bool := p < hbmTop
def inPeer (p : Nat) : Bool := peerBase ≤ p
def inHost (p : Nat) : Bool := hostBase ≤ p && !inPeer p

/-- Where a byte of the HBM4 lies (R11): die, stack of the module and channel of the stack. -/
structure HbmAt where
  die : Nat
  stack : Nat
  channel : Nat
deriving DecidableEq, Repr, Inhabited

/-- The die, stack and channel of a place in the HBM4 (R11): 192 GiB a die; blocks of 4 KiB rotate over the die's 128 channels,
32 to a stack, stack by stack. -/
def hbmAt (p : Nat) : HbmAt :=
  let die := p / 0x3000000000
  let ch := p % 0x3000000000 / 4096 % 128
  { die := die, stack := 4 * die + ch / 32, channel := ch % 32 }

/-- A line of 128 bytes (R207). -/
def lineOf (p : Nat) : Nat := p / 128
/-- A frame of 64 KiB (R229). -/
def frameOf (p : Nat) : Nat := p / 0x10000

/-- Whether the tracking bit of a frame is set (R229). -/
def State.isTracked (s : State) (frame : Nat) : Bool := s.tracked.any (fun r => r.1 ≤ frame && frame < r.1 + r.2)

/-- Set the tracking bits of `n` frames (R229). -/
def State.track (s : State) (frame n : Nat) : State :=
  if n = 0 || s.tracked.contains (frame, n) then s else { s with tracked := (frame, n) :: s.tracked }

/-- Clear the tracking bit of a frame (R229). -/
def State.untrack (s : State) (frame : Nat) : State :=
  { s with tracked := s.tracked.flatMap (fun r =>
      if r.1 ≤ frame && frame < r.1 + r.2 then
        [(r.1, frame - r.1), (frame + 1, r.1 + r.2 - frame - 1)].filter (fun q => q.2 != 0)
      else [r]) }

/-! ## Revocation (R224, R234, R238) -/

/-- A handle revoked: valid and pending handles read as faulted with cause 0x0B (R235). -/
def Handle.revoke (h : Handle) : Handle :=
  match h.st with
  | .valid | .pending => { h with st := .faulted 0x0B }
  | _ => h

/-- Revoke the handles and drop the TLB entries of a TP that meet a test on their page and their space. A task that has
buffered a store through such a page cannot commit it any more (R231, R238; note 73). -/
def Tp.revoke (t : Tp) (hit : Nat → Nat → Page → Bool) : Tp :=
  let own (space : Nat) (p : Page) : Bool := t.acCtx.any (fun ctx => hit ctx space p)
  { t with
    tlb := t.tlb.filter (fun e => !hit e.ctx e.space e.page)
    ac := { t.ac with
      handles := t.ac.handles.map (fun e => if own e.2.space e.2.page then (e.1, e.2.revoke) else e)
      doomed := t.ac.doomed || t.ac.bufPages.any (fun b => own b.1 b.2) } }

/-- Revoke every translation that read a page-table entry from a line (R224). -/
def State.revokeLine (s : State) (line : Nat) : State :=
  s.mapTps (fun _ t => t.revoke (fun _ _ p => p.tags.contains line))

/-! ## Writes performed at their home -/

/-- Timestamps of a line (R207). -/
def State.ts (s : State) (line : Nat) : LineTs := (Map.find s.lines line).getD {}

/-- The lines that a range touches. -/
def linesOf (p n : Nat) : List Nat :=
  if n = 0 then [] else (List.range (lineOf (p + n - 1) - lineOf p + 1)).map (fun i => lineOf p + i)

/-- Watches whose location a write has changed (R99). -/
def State.fireWatches (s : State) (p n : Nat) : State :=
  { s with watches := s.watches.map (fun w =>
      if w.place < p + n && p < w.place + 8 && Memory.read s.mem w.place 8 != w.value.toNat then { w with fired := true }
      else w) }

/-- Put bytes into memory: words written whole lose their poison (R266), watches see the write. -/
def State.putBytes (s : State) (p : Nat) (bs : List Byte) : State :=
  let n := bs.length
  let s := { s with
    mem := Memory.writeBytes s.mem p bs
    mod := { s.mod with poison := s.mod.poison.filter (fun q => !(p ≤ q && q + 8 ≤ p + n)) } }
  if s.watches.isEmpty then s else s.fireWatches p n

/-- New timestamps for lines (R207). -/
def State.stampLines (s : State) (ls : List Nat) (ts : LineTs → LineTs) : State :=
  { s with lines := ls.foldl (fun m l => Map.put m l (ts ((Map.find m l).getD {}))) s.lines }

/-- Agents that have written some lines (R206, R218). -/
def State.wrote (s : State) (tp agent : Nat) (ls : List Nat) : State :=
  { s with writers := ls.foldl (fun m l =>
      let old := (Map.find m l).getD []
      if old.contains (tp, agent) then m else Map.put m l ((tp, agent) :: old)) s.writers }

/-- A write by a path other than C performed at its home: the lines it changes take new timestamps, above every lease (R207,
note 10). Copies on path C stay readable while their leases last (R206). -/
def State.performWeak (s : State) (p : Nat) (bs : List Byte) : State :=
  (s.putBytes p bs).stampLines (linesOf p bs.length) (fun t => ⟨t.rts + 1, t.rts + 1⟩)

/-- The copy with its lease at an end; its place in a cache bank stays. -/
def CLine.expire (c : CLine) : CLine := { c with rts := 0 }

/-- Every lease on some lines ends (R295). -/
def State.dropLeases (s : State) (ls : List Nat) : State :=
  let cut (l : List CLine) : List CLine := l.map (fun c => if ls.contains c.line then c.expire else c)
  { s.mapTps (fun _ t => { t with cache := cut t.cache }) with
    cores := s.cores.map (fun e => (e.1, { e.2 with cache := cut e.2.cache })) }

/-! ## Ports (R226, R234, R285, R288, R294) -/

/-- How a request of a context for a place behind a port leaves it (R226, R234, R237): a place of space 0 lies in the host bus
aperture. -/
def State.attrOf (s : State) (ctx space place : Nat) : Attr :=
  if inPeer place then .peer else if space = 1 then .translated else .untranslated ((s.getCtx ctx).tenant + 1)

/-- The link of the peer port that a window names (R294): LNK, on a port of two links. -/
def State.linkOf (s : State) (ctx space : Nat) : Nat :=
  match (if Config.peerSplit && 2 ≤ space then Map.find (s.getCtx ctx).windows (space - 2) else none) with
  | some (w0, _) => bits w0.toNat 1 1
  | none => 0

/-- The IDE stream that carries a request (R285, R288): that of its link, or a selective one. -/
def State.ideStreamOf (s : State) (ctx space place : Nat) : Nat :=
  let k := Config.ideStream (inPeer place) ctx place % 5
  if k = 0 then s.linkOf ctx space else k + 1

def State.port (s : State) (place : Nat) : Link := if inPeer place then s.mod.peer else s.mod.host

/-- Whether traffic to a place goes: its stream is secure (R288), and its port's die works (R9, R15). -/
def State.portOpen (s : State) (ctx place : Nat) (space : Nat := 0) : Bool :=
  inHbm place || (!(s.port place).insecure.contains (s.ideStreamOf ctx space place) &&
    !(inPeer place && (s.mod.pst == 3 || s.mod.pst == 5)))

/-- A posted write to a place behind a port leaves it (R226, R237). -/
def State.sendPosted (s : State) (ctx space place n : Nat) : State :=
  if inHbm place then s else s.emit (.posted (s.attrOf ctx space place) (s.linkOf ctx space) place n)

/-! ## Scopes (R217) -/

/-- The codes of a media engine, of a service core and of a launch sequencer as agents: from 8, 72 and 200; the die is the code's
parity. -/
def mediaCode (e : MediaEng) : Nat := 8 + 2 * ((if e.cme then 16 else 0) + e.n.toNat) + e.die.toNat
def coreCode (n : Nat) : Nat := 72 + 2 * n + n / 8
def deviceCode (die : Nat) : Nat := 200 + die

/-- The die of an agent of a TP, or of the device. -/
def agentDie (tp agent : Nat) : Nat := if agent < 8 then dieOf tp else agent % 2

/-- Whether the scope around an agent contains another one (R217): tile, quad, cluster, die; a wider one contains every agent of
the device. -/
def inScope (scope tp agent tp' agent' : Nat) : Bool :=
  let tps := agent < 8 && agent' < 8
  match scope with
  | 0 => false
  | 1 => tps && tp == tp'
  | 2 => tps && tp / 4 == tp' / 4
  | 3 => tps && tp / 16 == tp' / 16
  | 4 => agentDie tp agent == agentDie tp' agent'
  | _ => true

/-- Whether an agent has made a pending write. -/
def WeakWrite.own (w : WeakWrite) (tp agent : Nat) : Bool := w.agent == agent && (8 ≤ agent || w.tp == tp)

/-- Whether a pending write is seen by an agent: by its own agent, and by the agents in the scope at which it is performed (R202,
R205, R218). -/
def WeakWrite.seen (w : WeakWrite) (tp agent : Nat) : Bool := w.own tp agent || inScope w.scope w.tp w.agent tp agent

/-- Whether an agent in a scope around the TP in focus has written a line (R218), also where the write is still pending. -/
def State.writtenIn (s : State) (scope line : Nat) : Bool :=
  5 ≤ scope || ((Map.find s.writers line).getD []).any (fun e => inScope scope e.1 e.2 s.cur 1) ||
    s.weak.any (fun w => inScope scope w.tp w.agent s.cur 1 && (linesOf w.place w.bytes.length).contains line)

/-- Whether two writes touch one unit (R200). -/
def WeakWrite.meets (w y : WeakWrite) : Bool :=
  w.place / 8 ≤ (y.place + y.bytes.length - 1) / 8 && y.place / 8 ≤ (w.place + w.bytes.length - 1) / 8

/-- Whether two writes are plain writes of one command of an engine: they have no order, even to one byte (R202). -/
def WeakWrite.loose (w y : WeakWrite) : Bool :=
  w.tp == y.tp && w.agent == y.agent && w.cmd == y.cmd && w.agent != 1 && w.agent < 72 && !w.atom && !y.atom

/-- Whether `w` comes before a pending write `y` that stands after it: both write one unit (R201), or `w`'s command had
completed when `y`'s issued (R202). -/
def WeakWrite.precedes (w y : WeakWrite) : Bool :=
  (w.meets y && !w.loose y) || (w.tp == y.tp && w.agent == y.agent && w.cmd ≤ y.base)

/-- The pending writes that meet a test with those that come before them, and the others, both oldest first. -/
def splitWeak (f : WeakWrite → Bool) (l : List WeakWrite) : List WeakWrite × List WeakWrite :=
  l.foldr (fun w acc => if f w || acc.1.any w.precedes then (w :: acc.1, acc.2) else (acc.1, w :: acc.2)) ([], [])

/-- Whether a pending write overlaps a range. -/
def WeakWrite.overlaps (w : WeakWrite) (p n : Nat) : Bool := w.place < p + n && p < w.place + w.bytes.length

/-- The place of an atomic's write among the pending ones (R219): after those to its bytes that it has read, and before those
that it has not, so that each of them falls before or after it. -/
def placeAtomic (w : WeakWrite) (read : WeakWrite → Bool) (l : List WeakWrite) : List WeakWrite :=
  let meets (y : WeakWrite) : Bool := y.overlaps w.place w.bytes.length
  let late := (l.reverse.takeWhile (fun y => !(meets y && read y))).reverse
  l.take (l.length - late.length) ++ late.takeWhile (fun y => !meets y) ++ w :: late.dropWhile (fun y => !meets y)

/-! ## The cache banks of path C (R53, R54, R278) -/

/-- Banks of a TP in cache role, and how many lines one holds (R53). -/
def Tp.cacheBanks (t : Tp) : List Nat := (List.range 32).filter (fun b => roleOf t.brr b == 0)
def bankLines (bank : Nat) : Nat := if bank = 0 then 256 else 512

/-- A line leaves the cache: a dirty one is written back, which is charged to the context tagged on it (R278). -/
def State.evict (s : State) (c : CLine) : State :=
  let s := { s with tp := { s.tp with cache := s.tp.cache.filter (fun x => x.line != c.line) } }
  if c.dirty then (s.charge c.ctx 160).spend c.ctx 160 else s

/-- A line is filled for a context (R54, R278): charged to it, in a cache bank and in the place of a line that the device
chooses. -/
def State.fillLine (s : State) (ctx : Nat) (c : CLine) : State :=
  let s := (s.charge ctx 160).spend ctx 160
  let r := s.takeNat
  let banks := r.2.tp.cacheBanks
  let b := banks.getD (r.1 % max 1 banks.length) 0
  let held := r.2.tp.cache.filter (fun x => x.bank == some b && x.line != c.line)
  let s :=
    if held.length < bankLines b then r.2
    else
      let v := r.2.takeNat
      match held[v.1 % held.length]? with
      | some x => v.2.evict x
      | none => v.2
  { s with tp := { s.tp with
      cache := { c with bank := some b, ctx := ctx } :: s.tp.cache.filter (fun x => x.line != c.line) } }

/-- A copy of a line takes the place of an older one: a hit keeps its bank, tag and state; a miss fills it (R278). A line that the
cache holds is a hit also when its lease has ended (note 94). -/
def State.keepLine (s : State) (ctx : Nat) (c : CLine) : State :=
  match s.tp.cache.find? (fun x => x.line == c.line && x.bank.isSome) with
  | some x =>
    { s with tp := { s.tp with
        cache := { c with bank := x.bank, ctx := x.ctx, dirty := x.dirty || c.dirty } ::
          s.tp.cache.filter (fun x => x.line != c.line) } }
  | none => s.fillLine ctx c

/-! ## Stores performed on path C (R207) -/

/-- The tracked lines of a range (R229). -/
def State.trackedLines (s : State) (p n : Nat) : List Nat := (linesOf p n).filter (fun l => s.isTracked (frameOf (l * 128)))

/-- The timestamp of a store of an access core or a service core to some lines: greater than the leases (R207). -/
def State.storeTs (s : State) (lc : Nat) (ls : List Nat) : Nat :=
  ls.foldl (fun t l => max t ((s.ts l).rts + 1)) lc

/-- The access core of the TP in focus stores runs of bytes at one timestamp (R207, R211): a write of a line not in the cache
fills it for the context, and leaves it dirty (R54). -/
def State.storeRuns (s : State) (ctx : Nat) (runs : List (Nat × List Byte)) : State :=
  let ls := (runs.flatMap (fun r => linesOf r.1 r.2.length)).eraseDups
  let ts := s.storeTs s.tp.ac.lc ls
  let s := (runs.foldl (fun s r => s.putBytes r.1 r.2) s).stampLines ls (fun _ => ⟨ts, ts⟩)
  let s := (s.setAc { s.tp.ac with lc := ts }).wrote s.cur 1 ls
  ls.foldl (fun s l => s.keepLine ctx
    { line := l, wts := ts, rts := ts, bytes := s.mem.filter (fun e => lineOf e.1 == l), dirty := true }) s

/-- A path-C store of an access core that has waited is performed: it takes its place in S (R207). -/
def State.performC (s : State) (tp ctx p : Nat) (bs : List Byte) : State :=
  ((s.focus tp).storeRuns ctx [(p, bs)]).focus s.cur

/-- A service core on path C (R207). -/
def State.core (s : State) (n : Nat) : Core := (Map.find s.cores n).getD {}
def State.setCore (s : State) (n : Nat) (c : Core) : State := { s with cores := Map.put s.cores n c }

/-- A service core's store is performed (R207): above every lease. -/
def State.performCore (s : State) (n p : Nat) (bs : List Byte) : State :=
  let c := s.core n
  let ls := linesOf p bs.length
  let ts := s.storeTs c.lc ls
  ((s.putBytes p bs).stampLines ls (fun _ => ⟨ts, ts⟩)).setCore n
    { lc := ts, cache := c.cache.filter (fun x => !ls.contains x.line) }

/-- A pending write is performed at its device home; before a tracked line changes, the translations that read it are
revoked (R224). One to a place behind a port leaves it (R226). -/
def State.performOne (s : State) (w : WeakWrite) : State :=
  let ls := linesOf w.place w.bytes.length
  let s := ((s.trackedLines w.place w.bytes.length).foldl State.revokeLine s).wrote w.tp w.agent ls
  let s :=
    if w.path != 0 then s.performWeak w.place w.bytes
    else if w.agent = 1 then s.performC w.tp w.ctx w.place w.bytes
    else s.performCore ((w.agent - 72) / 2) w.place w.bytes
  s.sendPosted w.ctx w.space w.place w.bytes.length

/-- Perform the pending writes that meet a test and those that come before them, oldest first. Where one of them writes a
tracked line, every access already translated is performed with it (R224). -/
def State.drain (s : State) (f : WeakWrite → Bool) : State :=
  let r := splitWeak f s.weak
  if r.1.isEmpty then s
  else if r.1.any (fun w => !(s.trackedLines w.place w.bytes.length).isEmpty) then
    s.weak.foldl State.performOne { s with weak := [] }
  else r.1.foldl State.performOne { s with weak := r.2 }

/-- The pending writes that meet a test are performed at a scope (R217): at the device home from scope 5 on. -/
def State.widen (s : State) (f : WeakWrite → Bool) (scope : Nat) : State :=
  if 5 ≤ scope then s.drain f
  else { s with weak := s.weak.map (fun w => if f w then { w with scope := max w.scope scope } else w) }

/-- Before a write to a tracked line takes its place, every access already translated is performed and the translations
that read the line are revoked (R224). -/
def State.beforeTracked (s : State) (p n : Nat) : State :=
  let ls := s.trackedLines p n
  if ls.isEmpty then s else ls.foldl State.revokeLine (s.drain (fun _ => true))

/-- A write from outside the ACs performed at its home. -/
def State.writeHome (s : State) (p : Nat) (bs : List Byte) : State :=
  (s.beforeTracked p bs.length).performWeak p bs

/-- A write that arrives through a port, at the device home: the lines it changes lose every lease (R199, R295). -/
def State.writeInbound (s : State) (p : Nat) (bs : List Byte) : State :=
  (s.writeHome p bs).dropLeases (linesOf p bs.length)

/-- A timestamp not below any of a line: what the model takes for the clock of a launch sequencer (R207, note 74). -/
def State.topTs (s : State) : Nat := s.lines.foldl (fun t e => max t e.2.rts) 0

/-- A path-C store by a launch sequencer or another unit of the device itself (R198, R222): after every store and lease, and
after the pending writes to its bytes that a die's agents see (R201). -/
def State.writeDevice (s : State) (p : Nat) (bs : List Byte) : State :=
  let s := (s.drain (fun w => 4 ≤ w.scope && w.overlaps p bs.length)).beforeTracked p bs.length
  let ls := linesOf p bs.length
  let ts := s.topTs + 1
  (((s.putBytes p bs).stampLines ls (fun _ => ⟨ts, ts⟩)).wrote 0 (deviceCode 0) ls).wrote 0 (deviceCode 1) ls

/-! ## Reading memory -/

/-- Whether a place lies on a die that is not in service (R297). -/
def State.offDie (s : State) (p n : Nat) : Bool :=
  (s.mod.pst == 3 || s.mod.pst == 5) && inHbm p && 0 < n && (hbmAt (p + n - 1)).die != 0

/-- Whether a range holds a poisoned word, or lies on die 1 while only die 0 is in service (R266, R297). -/
def State.unreadable (s : State) (p n : Nat) : Bool := s.mod.poison.any (fun q => q < p + n && p < q + 8) || s.offDie p n

/-- Memory with some pending writes over it. -/
def State.viewOf (s : State) (f : WeakWrite → Bool) : Memory :=
  (s.weak.filter f).foldl (fun m w => Memory.writeBytes m w.place w.bytes) s.mem

/-- Memory as an agent of a TP sees it: with the pending writes over it that it sees, so its own commands' earlier writes
(R202) and those performed at a scope around it (R205). -/
def State.view (s : State) (tp agent : Nat) : Memory := s.viewOf (fun w => w.seen tp agent)

/-! ## Walks (R227 to R231) -/

/-- How a walk ends. -/
inductive Walk where
  | page (p : Page)
  | fault (cause : Nat)
  /-- cause 0x64 with its reason -/
  | config (reason : Nat)
  /-- an entry has M = 1: the walk reads it again (R231) -/
  | again
  /-- an entry lies in a poisoned word: cause 0x60 -/
  | poisoned
deriving DecidableEq, Repr, Inhabited

/-- Levels 5 to 1: lowest offset bit, number of index bits, legal leaf size code, log2 of the leaf size (R227, R228). -/
def walkLevels : List (Nat × Nat × Nat × Nat) :=
  [(60, 4, 0, 0), (55, 5, 0, 0), (42, 13, 3, 42), (29, 13, 2, 29), (16, 13, 1, 16)]

/-- The outcome of one entry: the next node, or the end of the walk (R228, R230). -/
def walkEntry (e lo leaf log : Nat) (va : Nat) (tags : List Nat) : Nat ⊕ Walk :=
  let sz := bits e 8 2
  let frame := bits e 16 36 * 0x10000
  if bitAt e 6 then .inr .again
  else if !bitAt e 0 then
    .inr (.fault (if leaf = 0 || (lo != 16 && sz = 0) then 0x01 else 0x00))
  else if bits e 52 12 != 0 || bits e 10 6 != 0 || (sz = 0 && (bits e 1 5 != 0 || bitAt e 7)) then .inr (.config 1)
  else if !(sz = leaf || (sz = 0 && lo != 16)) then .inr (.config 2)
  else if sz != 0 && frame % 2 ^ log != 0 then .inr (.config 3)
  else if sz = 0 && !inHbm frame then .inr (.config 4)
  else if sz != 0 && !inHbm frame && !(hostBase ≤ frame) then .inr (.config 5)
  else if sz = 0 then .inl frame
  else
    .inr (.page { va := va / 2 ^ log * 2 ^ log, size := 2 ^ log, place := frame, r := bitAt e 1, w := bitAt e 2,
                  x := bitAt e 3, d := bitAt e 5, tags := tags })

/-- The rest of a walk from a node, with the carve-out of the tenant; also the TC bit of the leaf (R229, R230). -/
def walkFrom (s : State) (t : Tenant) (va : Nat) : List (Nat × Nat × Nat × Nat) → Nat → List Nat → Walk × Bool
  | [], _, _ => (.config 2, false)
  | (lo, k, leaf, log) :: rest, node, tags =>
    let a := node + 8 * bits va lo k
    if !s.isTracked (frameOf a) then (.config 6, false)
    else if !(t.base ≤ a && a < t.limit) then (.config 7, false)
    else if s.unreadable a 8 then (.poisoned, false)
    else
      let e := Memory.read s.mem a 8
      match walkEntry e lo leaf log va (lineOf a :: tags) with
      | .inl next => walkFrom s t va rest next (lineOf a :: tags)
      | .inr w => (w, bitAt e 4)

/-- A walk of a context's table, and the state with the tracking bits that a TC leaf sets. -/
def walk (s : State) (ctx va : Nat) : Walk × State :=
  let c := s.getCtx ctx
  if !inHbm c.root then (.config 4, s)
  else
    match walkFrom s (s.getTenant c.tenant) va walkLevels c.root [] with
    | (.page p, tc) =>
      (.page p, if tc && inHbm p.place then s.track (frameOf p.place) (min p.size (hbmTop - p.place) / 0x10000) else s)
    | (w, _) => (w, s)

/-! ## Translation (R225, R234 to R237) -/

def Page.holds (p : Page) (va : Nat) : Bool := p.va ≤ va && va < p.va + p.size

/-- The page of a peer window address (R234). -/
def peerPage (c : Ctx) (space va : Nat) : Option Page :=
  match Map.find c.windows (space - 2) with
  | some (w0, w1) =>
    if bitAt w0.toNat 0 && va < bits w1.toNat 0 32 * 0x10000 then
      some { va := va / 0x10000 * 0x10000, size := 0x10000,
             place := peerBase + bits w0.toNat 16 48 * 0x10000 + va / 0x10000 * 0x10000, r := true, w := true }
    else none
  | none => none

/-- The TLB entry of a TP for an address. -/
def Tp.tlbFind (t : Tp) (ctx space va : Nat) : Option Page :=
  (t.tlb.find? (fun e => e.ctx == ctx && e.space == space && e.page.holds va)).map (fun e => e.page)

def Tp.tlbAdd (t : Tp) (ctx space : Nat) (p : Page) : Tp := { t with tlb := ⟨ctx, space, p⟩ :: t.tlb }

/-- The ATC entry of a PASID for an address (R237). -/
def State.atcFind (s : State) (pasid va : Nat) : Option Page :=
  (s.atc.find? (fun e => e.pasid == pasid && e.page.holds va && !e.failed)).map (fun e => e.page)

/-- Whether the last ATS completion for an address had an error status (R232, cause 0x0D). -/
def State.atcFailed (s : State) (pasid va : Nat) : Bool :=
  s.atc.any (fun e => e.pasid == pasid && e.page.holds va && e.failed)

/-- A translation fault as a stop. -/
def tfault {α : Type} (cause space va acck : Nat) : Try α := .error (.tfault ⟨cause, space, va, acck⟩)

/-- The page of an address for a unit that translates for itself (R236): the TLB, then a walk or the ATC. `keep`: the TLB
of the TP in focus takes the translation. -/
def State.pageOf (s : State) (keep : Bool) (ctx space va acck : Nat) : Try (Page × State) :=
  match s.tp.tlbFind ctx space va with
  | some p => .ok (p, s)
  | none =>
    if space = 0 then
      match walk s ctx va with
      | (.page p, s') => .ok (p, if keep then { s' with tp := s'.tp.tlbAdd ctx 0 p } else s')
      | (.fault c, _) => tfault c 0 va acck
      | (.config r, _) => .error (.fatal 0x64 r 0)
      | (.again, _) => .error .wait
      | (.poisoned, _) => .error (.fatal 0x60 0 0)
    else if space = 1 then
      match s.atcFind (s.getCtx ctx).pasid va with
      | some p => .ok (p, if keep then { s with tp := s.tp.tlbAdd ctx 1 p } else s)
      | none => if s.atcFailed (s.getCtx ctx).pasid va then tfault 0x0D 1 va acck else .error (.ats ctx va)
    else if space < 18 then
      match peerPage (s.getCtx ctx) space va with
      | some p => .ok (p, s)
      | none => tfault 0x08 space va acck
    else tfault 0x07 space va acck

/-- The permission and physical checks of an access of `n` bytes within one page (R232, R233, R236, R268, R297). -/
def State.permit (s : State) (ctx space : Nat) (p : Page) (va n acck : Nat) : Try Unit :=
  let reads := bitAt acck 0 || bitAt acck 2
  let writes := bitAt acck 1 || bitAt acck 2
  let place := p.place + (va - p.va)
  let t := s.tenantOf ctx
  if reads && !p.r then tfault (if space = 1 then 0x09 else 0x02) space va acck
  else if writes && !p.w then tfault (if space = 1 then 0x09 else 0x03) space va acck
  else if bitAt acck 3 && !p.x then tfault 0x04 space va acck
  else if writes && p.d then tfault 0x05 space va acck
  else if !inHbm (place + n - 1) && place < hostBase then .error (.fatal 0x64 5 0)
  else if inHbm place && !(t.base ≤ place && place + n ≤ t.limit) then .error (.fatal 0x64 7 0)
  else if writes && s.offDie place n then .error (.fatal 0x60 0 0)
  else .ok ()

/-- A run of bytes of one page: its place, its length, whether the page is discarded and reads as zeros (R233), and its space. -/
structure Piece where
  place : Nat
  len : Nat
  zero : Bool
  space : Nat := 0
deriving DecidableEq, Repr, Inhabited

/-- A fault keeps the tracking bits that walks have set before it (R229). -/
def keepTracks {α : Type} (s s' : State) (r : Try α) : Try α :=
  match r with
  | .error (.tfault f) => .error ((s'.tracked.filter (fun t => !s.tracked.contains t)).foldl (fun e t => .tracked t.1 t.2 e) (.tfault f))
  | .error (.fatal c x d) =>
    .error ((s'.tracked.filter (fun t => !s.tracked.contains t)).foldl (fun e t => .tracked t.1 t.2 e) (.fatal c x d))
  | r => r

/-- The pieces of an access, split at page bounds (R236); `fuel` bounds their number. -/
def State.pieces (s : State) (keep : Bool) (ctx space acck : Nat) : Nat → Nat → Nat → Try (List Piece × State)
  | 0, _, _ => .ok ([], s)
  | fuel + 1, va, n =>
    if n = 0 then .ok ([], s)
    else
      match s.pageOf keep ctx space va acck with
      | .error e => .error e
      | .ok (p, s') => keepTracks s s'
        (let k := min n (p.va + p.size - va)
        match s'.permit ctx space p va k acck with
        | .error e => .error e
        | .ok () =>
          match State.pieces s' keep ctx space acck fuel ((va + k) % 2 ^ 64) (n - k) with
          | .error e => .error e
          | .ok (l, s) => .ok (⟨p.place + (va - p.va), k, p.d, space⟩ :: l, s))

/-- A new key of a map. -/
def Map.fresh {α : Type} (m : Map α) : Nat := m.foldl (fun k e => max k (e.1 + 1)) 0

/-- Whether an outstanding request holds one of the tags of a port (R285): reads, AtomicOps and, on the host port, translation
requests. -/
def Request.tagged (r : Request) (port : Port) : Bool :=
  match r with
  | .nonPosted p _ _ _ _ => p == port
  | .ats _ _ _ _ => port == .host
  | .pri _ _ _ _ _ => false

/-- A non-posted request leaves a port: it stays outstanding until its completion (R286). A port holds 8,192 (R285). On a port
that carries no traffic it waits; where its die does not work it stays without an answer (note 87). -/
def State.sendNonPosted (s : State) (ctx place : Nat) (space : Nat := 0) : Try State :=
  if inHbm place then .ok s
  else
    let port := if inPeer place then Port.peer else Port.host
    let k := s.ideStreamOf ctx space place
    let r : Request := .nonPosted port ctx place (s.attrOf ctx space place) k
    let out := s.requests.filter (fun e => e.2.tagged port)
    let sent : State := { s with requests := Map.put s.requests (Map.fresh s.requests) r }
    if 8192 ≤ out.length then .error .wait
    else if s.portOpen ctx place space then .ok sent
    else if (s.port place).insecure.contains k || out.any (fun e => e.2 == r) then .error .wait
    else .error (.done sent)

/-! ## Paths K, G, H, M and P -/

/-- Who makes an access: TP, agent (4 to 6 a chain engine, from 8 a media engine), path, context and launch; the number of
the command and of the last one of its engine that had completed when it issued (R202). -/
structure Who where
  tp : Nat
  agent : Nat
  path : Nat
  ctx : Nat
  lid : Nat
  cmd : Nat := 0
  base : Nat := 0
deriving DecidableEq, Repr, Inhabited

/-- The earlier values that an engine of the TP in focus, or a media engine, may still read (R206). -/
def State.staleOf (s : State) (agent : Nat) : List Stale := if agent < 8 then s.tp.stale else s.mediaStale
def State.setStale (s : State) (agent : Nat) (l : List Stale) : State :=
  if agent < 8 then { s with tp := { s.tp with stale := l } } else { s with mediaStale := l }

/-- An engine holds no earlier value of what it writes. -/
def State.forgetStale (s : State) (agent p n : Nat) : State :=
  s.setStale agent ((s.staleOf agent).filter (fun x => !x.within agent p n))

/-- What an engine reads of a range that holds `bs`: any unit of it may still show the earlier value that the engine holds (R206),
but for units of 16 bytes that an HCAS has written, which are read whole (R200); a unit read new stays new, since two reads of one
engine never go back (R206). -/
def State.staleRead (s : State) (agent p : Nat) (bs : List Byte) : List Byte × State :=
  let old := (s.staleOf agent).filter (fun x => x.within agent p bs.length)
  if old.isEmpty then (bs, s)
  else
    let r := s.takeNat
    let kept := old.filter (fun x => bitAt r.1 (x.unit % 64) && !s.wide.contains (x.unit / 2))
    (overOld kept p bs, r.2.setStale agent ((s.staleOf agent).filter (fun x => !old.contains x || kept.contains x)))

/-- Earlier values that units of a TP hold are gone: a bridge, or the start of work, has made later writes visible to them
(R205, R215, R220 to R222). -/
def Tp.dropStale (t : Tp) (gone : Stale → Bool) : Tp := { t with stale := t.stale.filter (fun x => !gone x) }

/-- The edges that reach every path at a scope (R220 to R222): no unit reads any more an earlier value that an agent in the scope
around the TP in focus has overwritten, and the access core no such copy. -/
def State.bridge (s : State) (scope : Nat) : State :=
  let gone (x : Stale) : Bool := s.writtenIn scope (lineOf (8 * x.unit))
  { s with
    mediaStale := s.mediaStale.filter (fun x => !(4 ≤ scope && gone x))
    tp := { s.tp.dropStale gone with cache := s.tp.cache.map (fun c => if s.writtenIn scope c.line then c.expire else c) } }

/-- Read the bytes of a piece by an agent of a weak path. -/
def State.readPiece (s : State) (w : Who) (p : Piece) : Try (List Byte × State) :=
  if p.zero then .ok (List.replicate p.len 0, s)
  else if s.unreadable p.place p.len then .error (.fatal 0x60 0 0)
  else
    match s.sendNonPosted w.ctx p.place p.space with
    | .error e => .error e
    | .ok s => .ok (s.staleRead w.agent p.place (Sparse.run (s.view w.tp w.agent) p.place p.len))

/-- Read `n` bytes of a space by an agent of a weak path (R236). -/
def State.gRead (s : State) (w : Who) (space va n : Nat) : Try (List Byte × State) :=
  match s.pieces (w.agent < 8) w.ctx space 1 (n + 1) (va % 2 ^ 64) n with
  | .error e => .error e
  | .ok (ps, s') => keepTracks s s'
    (foldTry (fun (acc : List Byte × State) p =>
      match acc.2.readPiece w p with
      | .ok (bs, s) => .ok (acc.1 ++ bs, s)
      | .error e => .error e) ([], s') ps)

/-- The 8-byte units of a run of bytes at a place (R200). -/
def unitsOf (p : Nat) (bs : List Byte) : List (Nat × List Byte) :=
  if bs.isEmpty then []
  else
    (List.range ((p + bs.length - 1) / 8 - p / 8 + 1)).map (fun i =>
      let lo := max p ((p / 8 + i) * 8)
      let hi := min (p + bs.length) ((p / 8 + i + 1) * 8)
      (lo, (bs.drop (lo - p)).take (hi - lo)))

/-- A write of a weak path enters the pending writes of its agent, one per unit (R200, R205); its engine sees it from now on. -/
def State.weakWrite (s : State) (w : Who) (p : Nat) (bs : List Byte) (space : Nat := 0) : State :=
  ({ s with
    weak := s.weak ++ (unitsOf p bs).map (fun u => { tp := w.tp, agent := w.agent, path := w.path, ctx := w.ctx, lid := w.lid,
                                                     place := u.1, bytes := u.2, cmd := w.cmd, base := w.base, space := space })
  } : State).forgetStale w.agent p bs.length

/-- Write bytes of a space by an agent of a weak path (R236). -/
def State.gWrite (s : State) (w : Who) (space va : Nat) (bs : List Byte) : Try State :=
  match s.pieces (w.agent < 8) w.ctx space 2 (bs.length + 1) (va % 2 ^ 64) bs.length with
  | .error e => .error e
  | .ok (ps, s) =>
    if ps.all (fun p => s.portOpen w.ctx p.place p.space) then
      .ok (ps.foldl (fun (acc : State × List Byte) p => (acc.1.weakWrite w p.place (acc.2.take p.len) p.space, acc.2.drop p.len))
        (s, bs)).1
    else .error .wait

/-- The scope at which an atomic on a place is performed (R219): at least tile, and host or peer scope for a place behind a
port. -/
def atomicScope (scope place : Nat) : Nat := if inHbm place then max 1 scope else max 6 scope

/-- The home of a scope for an agent's path (R217): at tile scope the cache banks of path C, and the device home of every other
path. -/
def homeScope (path scope place : Nat) : Nat :=
  if path != 0 && scope ≤ 1 then max 5 (atomicScope scope place) else atomicScope scope place

/-- A write of an engine at the home of a scope (R193, R217, R219), never split: from device scope on at the device home,
after the pending writes to the bytes that the agent sees; at a narrower scope among the writes that this scope sees. -/
def State.scopePut (s : State) (w : Who) (scope place : Nat) (bs : List Byte) : State :=
  let s := s.forgetStale w.agent place bs.length
  let home := homeScope w.path scope place
  if home < 5 then
    let x : WeakWrite := { tp := w.tp, agent := w.agent, path := w.path, ctx := w.ctx, lid := w.lid, place := place, bytes := bs
                           scope := home, cmd := w.cmd, base := w.base, atom := true }
    { s with weak := placeAtomic x (fun y => y.seen w.tp w.agent) s.weak }
  else
    (((s.drain (fun x => x.seen w.tp w.agent && x.overlaps place bs.length)).writeHome place bs).wrote w.tp w.agent
      (linesOf place bs.length)).sendPosted w.ctx 0 place bs.length

/-- An atomic of an engine on `n` bytes at the home of a scope (R217, R219). -/
def State.homeAtomic (s : State) (w : Who) (scope place n : Nat) (f : Nat → Nat) : Try (Nat × State) :=
  if s.unreadable place n then .error (.fatal 0x60 0 0)
  else
    let old := Memory.read (s.view w.tp w.agent) place n
    .ok (old, s.scopePut w scope place (leBytes n (f old)))

/-! ## Path C (R207, R209) -/

/-- A line and its timestamp enter the read set of a task in its replayable phase (R209). -/
def Ac.note (a : Ac) (line wts : Nat) : Ac :=
  if a.phase = .replay then { a with readSet := a.readSet ++ [(line, wts)] } else a

/-- A lease on a line at its home for a load at a clock (R207): the load's clock, and the copy with its own lease. -/
def State.leaseLine (s : State) (clock l : Nat) (mem : Memory) : Nat × CLine × State :=
  let t := s.ts l
  let lc := max clock t.wts
  (lc, { line := l, wts := t.wts, rts := lc + 4096, bytes := mem.filter (fun e => lineOf e.1 == l) },
    { s with lines := Map.put s.lines l ⟨t.wts, max t.rts (lc + 4096)⟩ })

/-- The bytes of a range, unit by unit from a copy or from the home, as a mask says (R200): the 16 bytes of an HCAS from one. -/
def mixUnits (mask : Nat) (wide : List Nat) (p : Nat) (old new : List Byte) : List Byte :=
  new.mapIdx (fun i b =>
    let u := (p + i) / 8
    if bitAt mask (1 + (if wide.contains (u / 2) then u / 2 * 2 else u) % 16) then old.getD i b else b)

/-- A path-C load of a piece within one line (R207): of a copy while its lease lasts, or of the home with a new lease. Which
of the two each unit takes is free when both are allowed. -/
def State.cLoadLine (s : State) (ctx p n : Nat) : Try (List Byte × State) :=
  if s.unreadable p n then .error (.fatal 0x60 0 0)
  else
    let l := lineOf p
    let clock := s.tp.ac.lc + 1
    let mem := s.view s.cur 1
    match s.tp.cache.find? (fun c => c.line == l && clock ≤ c.rts) with
    | none =>
      let r := s.leaseLine clock l mem
      let s := r.2.2.keepLine ctx r.2.1
      .ok (Sparse.run mem p n, s.setAc ({ s.tp.ac with lc := r.1 }.note l r.2.1.wts))
    | some c =>
      let m := s.takeNat
      let old := Sparse.run c.bytes p n
      if m.1 % 2 = 1 then
        let s := m.2.keepLine ctx c
        .ok (old, s.setAc ({ s.tp.ac with lc := max clock c.wts }.note l c.wts))
      else
        let r := m.2.leaseLine clock l mem
        let s := r.2.2.keepLine ctx r.2.1
        let new := Sparse.run mem p n
        let bs := mixUnits m.1 s.wide p old new
        let a := { s.tp.ac with lc := r.1 }.note l r.2.1.wts
        .ok (bs, s.setAc (if bs = new then a else a.note l c.wts))

/-- The bytes of a run with the task's buffered bytes over them (R209). -/
def overlay (ac : Ac) (p : Nat) (bs : List Byte) : List Byte :=
  bs.mapIdx (fun i b => if ac.cbufAt.contains (p + i) then Sparse.get ac.cbuf (p + i) else b)

/-- Whether every byte of a range is buffered (R209): such a load is not performed. -/
def Ac.ownBytes (ac : Ac) (p n : Nat) : Bool := (List.range n).all (fun i => ac.cbufAt.contains (p + i))

/-- A path-C load of `n` bytes at a place, line by line (R200): the task's own buffered bytes first (R209). -/
def State.cLoad (s : State) (ctx p n : Nat) (space : Nat := 0) : Try (List Byte × State) :=
  if s.tp.ac.ownBytes p n then .ok (overlay s.tp.ac p (List.replicate n 0), s)
  else
    match s.sendNonPosted ctx p space with
    | .error e => .error e
    | .ok s =>
      match foldTry (fun (acc : List Byte × State) l =>
          let lo := max p (l * 128)
          let k := min (p + n) (l * 128 + 128) - lo
          if acc.2.tp.ac.ownBytes lo k then .ok (acc.1 ++ List.replicate k 0, acc.2)
          else
            match acc.2.cLoadLine ctx lo k with
            | .error e => .error e
            | .ok (bs, s) => .ok (acc.1 ++ bs, s)) ([], s) (linesOf p n) with
      | .error e => .error e
      | .ok (bs, s) => .ok (overlay s.tp.ac p bs, s)

/-- The pending writes that a path-C store of an agent to some runs comes after: its own, path-C writes that it sees, which stand
before it in S (R207), and those to the same units that it sees (R201). -/
def State.beforeStoreOf (s : State) (tp agent : Nat) (runs : List (Nat × List Byte)) : State :=
  s.drain (fun w => w.own tp agent ||
    (w.seen tp agent && (w.path == 0 || runs.any (fun r => w.overlaps (r.1 / 8 * 8) (r.2.length + 8)))))

def State.beforeStore (s : State) (runs : List (Nat × List Byte)) : State := s.beforeStoreOf s.cur 1 runs

/-- Path-C stores of runs of bytes performed at one timestamp (R207, R211). -/
def State.cPerform (s : State) (runs : List (Nat × List Byte)) : State :=
  let s := s.beforeStore runs
  (runs.foldl (fun s r => s.beforeTracked r.1 r.2.length) s).storeRuns s.task.ctx runs

/-- A path-C store: buffered in the replayable phase, performed after it (R209, R212). One of several units leaves them to be
performed one by one, in any order, before the A stream goes on (R200). -/
def State.cStore (s : State) (p : Nat) (bs : List Byte) (space : Nat := 0) : State :=
  if s.tp.ac.phase = .replay then
    s.setAc { s.tp.ac with
      cbuf := Memory.writeBytes s.tp.ac.cbuf p bs
      cbufAt := s.tp.ac.cbufAt ++ ((List.range bs.length).map (fun i => p + i)).filter (fun a => !s.tp.ac.cbufAt.contains a) }
  else if (unitsOf p bs).length ≤ 1 then (s.cPerform [(p, bs)]).sendPosted s.task.ctx space p bs.length
  else
    { s with weak := s.weak ++ (unitsOf p bs).map (fun u =>
        { tp := s.cur, agent := 1, path := 0, ctx := s.task.ctx, lid := s.task.lid, place := u.1, bytes := u.2, space := space }) }

/-- A store is buffered through a page (R231, R238): a revocation of it makes the commit fail. -/
def State.bufferThrough (s : State) (space : Nat) (p : Page) : State :=
  if s.tp.ac.phase = .replay && !s.tp.ac.bufPages.contains (space, p) then
    s.setAc { s.tp.ac with bufPages := s.tp.ac.bufPages ++ [(space, p)] }
  else s

/-- The leases of lines reach at least a timestamp (R207). -/
def State.lease (s : State) (ls : List Nat) (ts : Nat) : State := s.stampLines ls (fun t => ⟨t.wts, max t.rts ts⟩)

/-- What a path-C atomic at a scope comes after (R207, R219): from device scope on, what a store comes after; at a narrower one
the path-C writes that it sees are performed at that scope. -/
def State.beforeAtomic (s : State) (scope p n : Nat) : State :=
  if scope < 5 then s.widen (fun w => w.path == 0 && w.seen s.cur 1) scope else s.beforeStore [(p, List.replicate n 0)]

/-- The copy that a path-C atomic at a narrow scope leaves in the cache (R54). -/
def State.keepAtomic (s : State) (ctx p wts rts : Nat) (dirty : Bool) : State :=
  s.keepLine ctx { line := lineOf p, wts := wts, rts := rts, dirty := dirty
                   bytes := (s.view s.cur 1).filter (fun e => lineOf e.1 == lineOf p) }

/-- A 128-bit HCAS has written an aligned unit of 16 bytes (R200). -/
def State.noteWide (s : State) (p n : Nat) : State :=
  if n = 16 && !s.wide.contains (p / 16) then { s with wide := p / 16 :: s.wide } else s

/-- The write of a path-C atomic at a scope narrower than the device (R217, R219): it takes its place in S and among the pending
writes. -/
def State.narrowPut (s : State) (scope ctx p : Nat) (bs : List Byte) : State :=
  let ls := linesOf p bs.length
  let ts := s.storeTs s.tp.ac.lc ls
  let s := (s.stampLines ls (fun _ => ⟨ts, ts⟩)).setAc { s.tp.ac with lc := ts }
  let x : WeakWrite := { tp := s.cur, agent := 1, path := 0, ctx := ctx, lid := s.task.lid, place := p, bytes := bs
                         scope := scope, atom := true }
  ({ s with weak := placeAtomic x (fun y => y.seen s.cur 1) s.weak } : State).keepAtomic ctx p ts ts true

/-- A path-C atomic on `n` bytes at a scope: one element of S (R207, R219). Without a new value it is the load alone. At a
scope narrower than the device it is performed at that scope's home (R217). -/
def State.cAtomic (s : State) (ctx space scope p n : Nat) (f : Nat → Option Nat) : Try (Nat × State) :=
  match s.sendNonPosted ctx p space with
  | .error e => .error e
  | .ok s =>
    if s.unreadable p n then .error (.fatal 0x60 0 0)
    else
      let home := atomicScope scope p
      let s := s.beforeAtomic home p n
      let old := Memory.read (s.view s.cur 1) p n
      match f old with
      | some v =>
        let s := s.noteWide p n
        .ok (old, if home < 5 then s.narrowPut home ctx p (leBytes n v) else s.cPerform [(p, leBytes n v)])
      | none =>
        let t := s.ts (lineOf p)
        let lc := max (s.tp.ac.lc + 1) t.wts
        .ok (old, ((s.lease [lineOf p] lc).setAc { s.tp.ac with lc := lc }).keepAtomic ctx p t.wts lc false)

/-- The lines that hold buffered stores (R209). -/
def Ac.bufferedLines (a : Ac) : List Nat := (a.cbufAt.map lineOf).eraseDups
/-- The lines of the read set (R209). -/
def Ac.readLines (a : Ac) : List Nat := (a.readSet.map (fun e => e.1)).eraseDups

/-- A read at the device home by the device itself or by a unit (R83, R341): a place behind a port is read by a request
(R286), as its space has it (R226, R237). -/
def State.homeRead (s : State) (ctx p n : Nat) (space : Nat := 0) : Try (Nat × State) :=
  if s.unreadable p n then .error (.fatal 0x60 0 0)
  else
    match s.sendNonPosted ctx p space with
    | .error e => .error e
    | .ok s => .ok (Memory.read s.mem p n, s)

/-- A path-C load of the device itself (R83, R198): it takes its place in S after every store so far, and sees what agents of a
die see (R217). -/
def State.deviceLoad (s : State) (ctx p n : Nat) : Try (Nat × State) :=
  match s.homeRead ctx p n with
  | .error e => .error e
  | .ok (_, s) => .ok (Memory.read (s.viewOf (fun w => 4 ≤ w.scope)) p n, s.lease (linesOf p n) s.topTs)

/-- The bytes of code of a task at an address whose piece is `p` (R108): as the task found them when it started; of a page
that was not mapped then, as they are. -/
def State.codeBytes (s : State) (k : Task) (va : Nat) (p : Piece) : List Byte :=
  match k.code with
  | none => Sparse.run s.mem p.place p.len
  | some m =>
    match walk { s with mem := m } k.ctx va with
    | (.page q, _) => if q.d then List.replicate p.len 0 else Sparse.run m (q.place + (va - q.va)) p.len
    | _ => Sparse.run s.mem p.place p.len

/-- The `n` bytes of a task's code at an address (R108): pages with X = 1 of space 0 of its context. -/
def State.fetch (s : State) (k : Task) (va n : Nat) : Try (List Byte × State) :=
  match s.pieces true k.ctx 0 8 (n + 1) (va % 2 ^ 64) n with
  | .error e => .error e
  | .ok (ps, s) =>
    foldTry (fun (acc : List Byte × State) p =>
      if p.zero then .ok (acc.1 ++ List.replicate p.len 0, acc.2)
      else if acc.2.unreadable p.place p.len then .error (.fatal 0x60 0 0)
      else
        match acc.2.sendNonPosted k.ctx p.place p.space with
        | .error e => .error e
        | .ok s => .ok (acc.1 ++ s.codeBytes k ((va + acc.1.length) % 2 ^ 64) p, s)) ([], s) ps

/-- The piece of an access of the device in space 0 that lies within one page, without a TLB. -/
def State.devPlace (s : State) (ctx va n acck : Nat) : Try (Piece × State) :=
  match s.pieces false ctx 0 acck 2 (va % 2 ^ 64) n with
  | .error e => .error e
  | .ok (p :: _, s) => .ok (p, s)
  | .ok ([], s) => .ok ({ place := 0, len := 0, zero := true }, s)

/-- The device reads `n` bytes in space 0 (R83, R84, R98). -/
def State.devRead (s : State) (ctx va n : Nat) : Try (Nat × State) :=
  match s.devPlace ctx va n 1 with
  | .error e => .error e
  | .ok (p, s) => if p.zero then .ok (0, s) else s.deviceLoad ctx p.place n

/-- The device writes bytes in space 0 at device scope. -/
def State.devWrite (s : State) (ctx va : Nat) (bs : List Byte) : Try State :=
  match s.devPlace ctx va bs.length 2 with
  | .error e => .error e
  | .ok (p, s) =>
    if s.portOpen ctx p.place then .ok ((s.writeDevice p.place bs).sendPosted ctx 0 p.place bs.length) else .error .wait

end Sys2Proof.Machine
end

