-- ==== Sys2Proof/Machine/Ops.lean ====
section
/-!
DEFINITION. The named operations that instructions share: tokens, queues, energy, piles, the commit point and the abort,
taking an exception (fatal faults R251, translation faults R248 and R249, service entry R254) and the return from one.
-/
namespace Sys2Proof.Machine

/-! ## Tokens (R111 to R115) -/

/-- Index of the FIFO from unit `p` to unit `c`. -/
def tokenIndex (p c : Nat) : Nat := 5 * (p - 1) + (c - 1) - (if c > p then 1 else 0)

def State.tokens (s : State) (p c : Nat) : Nat := (Sparse.get s.tp.tokens (tokenIndex p c)).toNat

def State.setTokens (s : State) (p c n : Nat) : State :=
  { s with tp := { s.tp with tokens := Sparse.set s.tp.tokens (tokenIndex p c) (BitVec.ofNat 4 n) } }

/-- Unit `c` takes `n` tokens of unit `p`: what it reads from the banks from now on is ordered after the pushes (R62, R114). -/
def State.takeTokens (s : State) (p c n : Nat) : State :=
  let s := s.setTokens p c (s.tokens p c - n)
  { s with tp := s.tp.dropBankStale c }

/-- Whether a stream's work is a task's. -/
def Tp.streamOf (t : Tp) (unit id : Nat) : Bool :=
  match unit with
  | 2 => t.ec.task == id
  | 3 => t.be.task == id
  | _ => true

/-- Whether a stream's work may take tokens: they are matched within one task, the last one that started (R115). -/
def Tp.ownStream (t : Tp) (unit : Nat) : Bool := t.streamOf unit t.tokTask

/-- Pop `n` tokens from the FIFO from `p` to `c`, or wait. -/
def State.popTokens (s : State) (p c n : Nat) : Try State :=
  if n ≤ s.tokens p c && s.tp.ownStream c then .ok (s.takeTokens p c n) else .error .wait

/-- Push a token into the FIFO from `p` to `c`, unless it holds 15. -/
def State.pushToken (s : State) (p c : Nat) : Option State :=
  if s.tokens p c < 15 then some (s.setTokens p c (s.tokens p c + 1)) else none

/-- The wait of a TKW field (R112). -/
def State.tokenWait (s : State) (unit : Nat) (tkw : BitVec 3) : Try State :=
  if tkw = 0 then .ok s else s.popTokens tkw.toNat unit 1

/-! ## Queues (R63 to R69) -/

/-- Whether a queue runs from E to A. -/
def State.eToA (s : State) (q : Nat) : Bool := bitAt s.tp.qdir.toNat q

def State.scalarQ (s : State) (q : Nat) : List Dword := (Map.find s.tp.queues.scalar q).getD []
def State.tileQ (s : State) (q : Nat) : List Tile := (Map.find s.tp.queues.tile q).getD []
/-- The first `n` entries of a queue are gone: the places of its poisoned entries move on (R266). -/
def State.movePoison (s : State) (q n : Nat) : State :=
  if n = 0 || s.tp.poison.isEmpty then s
  else
    { s with tp := { s.tp with poison := s.tp.poison.filterMap (fun x =>
        if x.1 = 3 && x.2 / 16 = q then (if x.2 % 16 < n then none else some (3, x.2 - n)) else some x) } }

def State.setScalarQ (s : State) (q : Nat) (l : List Dword) : State :=
  { s with tp := { s.tp with queues := { s.tp.queues with scalar := Map.put s.tp.queues.scalar q l } } }
def State.setTileQ (s : State) (q : Nat) (l : List Tile) : State :=
  { s with tp := { s.tp with queues := { s.tp.queues with tile := Map.put s.tp.queues.tile q l } } }

/-- Entries of a queue. -/
def State.queueLen (s : State) (q : Nat) : Nat := if q < 4 then (s.scalarQ q).length else (s.tileQ q).length

/-- QSTAT (R69). -/
def State.qstat (s : State) : Dword :=
  BitVec.ofNat 64 ((List.range 8).foldl (fun v q =>
    v + s.queueLen q % 32 * 2 ^ (if q < 4 then 5 * q else 20 + 3 * (q - 4))) 0)

/-- HSTAT (R71). -/
def Handle.code (h : Handle) : Nat :=
  match h.st with
  | .free => 0
  | .valid => 1
  | .pending => 2
  | .faulted _ => 3

def State.hstat (s : State) : Dword :=
  BitVec.ofNat 64 ((List.range 16).foldl (fun v n => v + (s.getHandle (BitVec.ofNat 4 n)).code * 4 ^ n) 0)

/-! ## Interrupts of the host (R269) -/

/-- Whether a vector is masked: in its entry, by Function Mask, or with MSI-X off. -/
def Tenant.masked (t : Tenant) (v : Nat) : Bool := !t.msixOn || t.msixMask || bitAt (Memory.read t.msix (16 * v + 12) 4) 0

/-- Raise a vector: its message leaves, or its pending bit is set while it is masked or the link carries no traffic (R288). -/
def State.raiseVector (s : State) (tenant vec : Nat) : State :=
  let t := s.getTenant tenant
  if t.masked vec || s.mod.host.insecure.contains 0 then
    s.setTenant tenant { t with pba := t.pba ||| BitVec.ofNat 64 (2 ^ vec) }
  else
    s.emit (.msix tenant vec (BitVec.ofNat 64 (Memory.read t.msix (16 * vec) 8))
      (BitVec.ofNat 64 (Memory.read t.msix (16 * vec + 8) 4)))

/-! ## Trap records (R243, R244) -/

/-- What a trap record is written from. -/
structure RecordOf where
  ctx : Nat
  unit : Nat
  die : Nat
  tile : Nat
  prec : Bool := false
  res : Bool := false
  cause : Nat
  reason : Nat := 0
  detail : Nat := 0
  cidx : Nat := 0
  upcs : Nat := 0
  fault : Option TFault := none
  aux : Nat := 0
  tag : Nat := 0
  iter : Nat := 0
  queue : Nat := 0
  lid : Nat := 0

def b2n (b : Bool) : Nat := if b then 1 else 0

/-- The internal status word (R244). -/
def statusWord (detail cause unit reason : Nat) : Nat :=
  detail % 2 ^ 16 * 2 ^ 16 + cause % 256 * 256 + unit % 8 * 16 + reason % 16

/-- The eight dwords of a record (R243). SKID is zero: the model's units issue nothing after a fault (note 9). -/
def mkRecord (r : RecordOf) (time : Nat) : TrapRec :=
  let f := r.fault.getD ⟨0, 0, 0, 0⟩
  [ BitVec.ofNat 64 (r.ctx % 256 * 2 ^ 56 + r.die % 2 * 2 ^ 32 + r.tile % 64 * 2 ^ 26 + r.unit % 8 * 2 ^ 23 +
      b2n r.prec * 2 ^ 22 + b2n r.res * 2 ^ 21 + b2n r.fault.isSome * 2 ^ 20 + f.acck % 16 * 2 ^ 16 + r.cause % 256),
    BitVec.ofNat 64 r.cidx,
    BitVec.ofNat 64 (r.upcs % 2 ^ 24 * 2 ^ 32 + statusWord r.detail r.cause r.unit r.reason),
    BitVec.ofNat 64 f.va,
    BitVec.ofNat 64 (f.space % 256 * 2 ^ 56 + r.tag % 2 ^ 16 * 2 ^ 32 + r.iter % 2 ^ 32),
    BitVec.ofNat 64 r.aux,
    BitVec.ofNat 64 time,
    BitVec.ofNat 64 (r.queue % 4096 * 2 ^ 16 + r.lid % 2 ^ 16) ]

/-- A record with another cause (R232, R237). -/
def recause (r : TrapRec) (cause : Nat) : TrapRec :=
  r.mapIdx (fun i d => if i = 0 then BitVec.ofNat 64 (d.toNat / 256 * 256 + cause % 256)
    else if i = 2 then BitVec.ofNat 64 (d.toNat - bits d.toNat 8 8 * 256 + cause % 256 * 256) else d)

/-- The fields of a record that come from a task (R243). -/
def RecordOf.ofTask (k : Task) (tp unit cause : Nat) : RecordOf :=
  { ctx := k.ctx, unit := unit, die := dieOf tp, tile := tileOf tp, cause := cause, tag := k.tag, iter := k.entry.pawn.iter,
    queue := k.queue, lid := k.lid }

/-! ## Stopping a context (R251) -/

/-- The task a chain engine's work runs under: a block's own, or the task with the instance number. -/
def Tp.workTask (t : Tp) (id : Nat) (b : Option Task) : Task :=
  match b with
  | some k => k
  | none => t.taskOf id

/-- The task whose entries an engine walks: the running block's, or that of the first handed head. -/
def Tp.walkTask (t : Tp) (c : Chain) : Task :=
  match c.running with
  | some b => b.task
  | none =>
    match c.heads with
    | (_, id) :: _ => t.taskOf id
    | [] => {}

/-- The task of the active command, or of the walk when there is none. -/
def Tp.activeTask (t : Tp) (c : Chain) : Task := if c.av then t.workTask c.actId c.actBlock else t.walkTask c

/-- What the active command leaves for its completion (R119): its barrier's entry, and its tokens (R112, R427). -/
def Chain.flight (c : Chain) : InFlight :=
  let w := Decode.kFields c.act
  let tokp := bits c.act.toNat 120 8 == 8
  { entry := c.act, addr := c.actAddr, task := c.actId, block := c.actBlock, num := c.actNum
    bar := if w.ba = 1 then Map.find c.tits w.bid.toNat else none
    pushes := if tokp then bits w.arg.toNat 4 4 else if w.tkp = 0 then 0 else 1
    target := if tokp then bits w.arg.toNat 0 3 else w.tkp.toNat }

/-- Whether an engine has anything to do but its commands in flight. -/
def Chain.hasWork (c : Chain) : Bool := c.av || c.sv || !c.heads.isEmpty || !c.blocks.isEmpty || c.running.isSome

/-- STATE of an engine that neither waits nor holds (R120): 1 issuing, 0 idle. -/
def Chain.rest (c : Chain) : Chain := { c with state := if c.hasWork then 1 else 0 }

/-- The active command has generated its accesses: it is in flight (R119). -/
def Chain.retireActive (c : Chain) : Chain :=
  { c with av := false, aprg := 0, actBlock := none, tits := [], trec := none, infl := c.infl ++ [c.flight] }.rest

/-- The entry at ENT and the test dword of a KIF, as the walk of a chain reads them (R118, R119): in the banks as they are, or
as they stood when the window of the read closed; none where it does not lie in readable banks. -/
def State.entryAhead (s : State) (c : Chain) : Option (BitVec 128 × Option Dword) :=
  let a := c.ent.toNat * 16
  let value (a n : Nat) : Nat := Memory.read (c.closed.getD s.tp.banks) a n
  if !s.tp.usable a 16 || s.tp.bankPoisoned a 16 then none
  else
    let w := BitVec.ofNat 128 (value a 16)
    let test := bits w.toNat 32 21
    let reads : Bool := bits w.toNat 120 8 == 4 && test % 8 == 0 && s.tp.usable test 8 && !s.tp.bankPoisoned test 8
    some (w, if reads then some (BitVec.ofNat 64 (value test 8)) else none)

/-- The window closes in which the walk of a chain reads what follows its last command, which has generated its accesses (R119):
it reads no later banks, up to the next command. A command of a block closes none. -/
def Chain.closeWindow (c : Chain) (banks : Memory) : Chain :=
  if c.walking && c.actBlock.isNone && !(c.sv && c.shdBlock.isNone) then { c with closed := some banks } else c

/-- The walk of a chain has taken a token: what it reads after it comes after what the token orders (R119). -/
def Chain.reopen (c : Chain) : Chain := if c.running.isNone then { c with closed := none } else c

/-- The active command retires (R119). -/
def State.retire (s : State) (u : ChainUnit) : State := s.setEng u ((s.eng u).closeWindow s.tp.banks).retireActive

/-- Drop the work of some tasks from a chain engine: `keep` says which tasks stay. `issued`: a command that has issued
stays as well, and commands in flight. A trap goes with its command; STATE says what is left (R120). -/
def Tp.filterChain (t : Tp) (c : Chain) (keep : Task → Bool) (issued : Bool) : Chain :=
  let actGone := c.av && !keep (t.workTask c.actId c.actBlock) && !(issued && c.aprg != 0)
  let shdGone := c.sv && !keep (t.workTask c.shdId c.shdBlock)
  let headGone := match c.heads with
    | (_, id) :: _ => !keep (t.taskOf id)
    | [] => false
  let blockGone := match c.running with
    | some b => !keep b.task
    | none => false
  let base := match c.running with
    | some b => BitVec.ofNat 3 b.base
    | none => 0
  let stays (f : InFlight) : Bool := issued || keep (t.workTask f.task f.block)
  let trapGone := if c.infl.any (fun f => f.trapped) then c.infl.any (fun f => f.trapped && !stays f) else actGone
  let d : Chain := { c with
    av := c.av && !actGone
    aprg := if actGone then 0 else c.aprg
    trec := if trapGone then none else c.trec
    sv := c.sv && !shdGone
    walking := c.walking && !headGone
    popped := c.popped && !blockGone && !(c.running.isNone && headGone)
    ldep := if blockGone then base else if headGone && c.running.isNone then 0 else c.ldep
    heads := c.heads.filter (fun h => keep (t.taskOf h.2))
    blocks := c.blocks.filter (fun b => keep b.task)
    running := if blockGone then none else c.running
    infl := c.infl.filter stays }
  if !d.hasWork || (c.state = 5 && d.trec.isNone) || (c.state = 2 && (blockGone || headGone)) then
    (if d.trec.isSome then d else d.rest)
  else d

/-- The E stream stops. -/
def Tp.stopE (t : Tp) : Tp :=
  { t with ec := { t.ec with status := .off, pushes := [], spec := [], loop := none, trec := none } }

/-- The B stream stops. -/
def Tp.stopB (t : Tp) : Tp :=
  { t with be := { t.be with status := .off, pushes := [], chain := none, loops := [], skip := 0, trec := none } }

/-- Stop the streams of a TP's running task and discard what it buffers. -/
def Tp.stopStreams (t : Tp) : Tp :=
  let t := if t.ec.task = t.cur then t.stopE else t
  let t := if t.be.task = t.cur then t.stopB else t
  { t with
    ac := { t.ac with status := .off, sup := false, phase := .committed, cbuf := [], cbufAt := [], readSet := [],
                      heldSpawns := [], heldBaris := [], bufPages := [], doomed := false, decls := [], heldScalar := none,
                      heldTile := none, rows := [], tokpLeft := 0, mark := none, pend := 0, resv := none, svcReq := false }
    late := t.late.filter (fun l => l.2 != t.cur)
    role := none, preempt := none, stopNow := [], cur := 0 }

/-- A pile without a context's pawns. -/
def Pile.dropCtx (p : Pile) (ctx : Nat) : Pile := if p.ctx = some ctx then { p with chip := [], spill := [] } else p

/-- The units of a TP without the work of a context: its streams and their starts to come, its commands, its tasks (R251, R103). -/
def Tp.dropWork (t : Tp) (ctx : Nat) : Tp :=
  let keep (k : Task) : Bool := k.ctx != ctx || k.id == 0
  let ce := t.filterChain t.ce keep false
  let ie := t.filterChain t.ie keep false
  let he := t.filterChain t.he keep false
  let t1 := if t.ec.task != 0 && (t.taskOf t.ec.task).ctx = ctx then t.stopE else t
  let t1 := if t.be.task != 0 && (t.taskOf t.be.task).ctx = ctx then t1.stopB else t1
  { t1 with
    late := t1.late.filter (fun l => (t.taskOf l.2).ctx != ctx)
    ce := ce, ie := ie, he := he
    tasks := t.tasks.filter (fun k => k.ctx != ctx) }

/-- The units of a TP as a save image holds them. -/
def Tp.ofImage (t : Tp) (i : Image) : Tp :=
  { t with ec := i.ec, be := i.be, ce := i.ce, ie := i.ie, he := i.he, late := i.late, tasks := i.tasks, cur := i.cur }

/-- A save image without the work of another context that its units hold (R251, R103). -/
def Image.dropCtx (i : Image) (t : Tp) (ctx : Nat) : Image :=
  let own := (t.ofImage i).dropWork ctx
  { i with ec := own.ec, be := own.be, ce := own.ce, ie := own.ie, he := own.he, late := own.late, tasks := own.tasks }

/-- Stop the work of a context on a TP (R251, steps 1 to 3). -/
def Tp.dropCtx (t : Tp) (ctx : Nat) : Tp :=
  let own : Bool := t.acCtx == some ctx
  let t1 := (if t.cur != 0 && own then t.stopStreams else t).dropWork ctx
  let t1 := if own then { t1 with ac := { t1.ac with handles := [] } } else t1
  { t1 with
    images := (t.images.filter (fun i => i.ctx != ctx)).map (fun i => i.dropCtx t ctx)
    frame := t.frame.dropCtx ctx, bulk := t.bulk.dropCtx ctx }

/-- Stop a context (R251, steps 1 to 5). -/
def State.stopContext (s : State) (ctx : Nat) : State :=
  let s := s.mapTps (fun _ t => t.dropCtx ctx)
  let locks := (s.media.filter (fun m => m.task.ctx == ctx && m.begun)).map (fun m => bits m.entry.toNat 32 12)
  { s with
    faults := s.faults.filter (fun f => f.ctx != ctx)
    queues := s.queues.map (fun e => if e.2.ctx = ctx then (e.1, { e.2 with stopped := true }) else e)
    launches := s.launches.filter (fun l => l.ctx != ctx)
    homeless := s.homeless.filter (fun e => e.ctx != ctx)
    regions := s.regions.filter (fun r => r.ctx != ctx)
    watches := s.watches.filter (fun w => w.entry.ctx != ctx)
    atc := s.atc.filter (fun e => !(e.failed && e.pasid == (s.getCtx ctx).pasid))
    denied := s.denied.filter (fun d => d.ctx != ctx)
    media := s.media.filter (fun m => m.task.ctx != ctx)
    streams := s.streams.map (fun e => if locks.contains e.1 then (e.1, { e.2 with locked := false }) else e)
    ctxs := Map.change s.ctxs ctx (fun c => { c with stopped := true }) }

/-- A record that counts one more fatal fault of its context in SECN, up to 255 (R243, R252). -/
def countLater (r : TrapRec) : TrapRec :=
  r.mapIdx (fun i d => if i = 0 && bits d.toNat 40 8 < 255 then d + BitVec.ofNat 64 (2 ^ 40) else d)

/-- A fatal fault of a context (R251, steps 1 to 5, R252): the context stops and keeps the first record; a later fault counts in it
until the supervisor has it. -/
def State.fatal (s : State) (ctx : Nat) (r : TrapRec) : State :=
  let c := s.getCtx ctx
  if c.stopped then (if c.owed then s.changeCtx ctx (fun c => { c with fatal := c.fatal.map countLater }) else s)
  else (s.stopContext ctx).changeCtx ctx (fun c => { c with fatal := some r, owed := true })

/-- Step 6 of R251: the supervisor gets the record of a context's first fatal fault, and the tenant's fault vector is raised. -/
def State.reportStop (s : State) (ctx : Nat) : State :=
  let c := s.getCtx ctx
  match (if c.owed then c.fatal else none) with
  | none => s
  | some r =>
    let s := (s.changeCtx ctx (fun c => { c with owed := false })).emit (.record r)
    s.raiseVector c.tenant (s.getTenant c.tenant).faultVec

/-- The contexts whose record the supervisor is still to get. -/
def State.owing (s : State) : List Nat := (s.ctxs.filter (fun e => e.2.owed)).map (fun e => e.1)

/-! ## Piles (R94 to R96) -/

def Tp.pile (t : Tp) (cls : Nat) : Pile := if cls = 0 then t.bulk else t.frame
def Tp.setPile (t : Tp) (cls : Nat) (p : Pile) : Tp := if cls = 0 then { t with bulk := p } else { t with frame := p }

/-- The TPs of a die bound to a context in a class, in tile order after the dealer's last one (R89). -/
def State.walkOrder (s : State) (die cls ctx : Nat) : List Nat :=
  let all := (List.range 64).map (fun i => 64 * die + i)
  let bound := all.filter (fun n => ((s.getTp n).pile cls).ctx = some ctx)
  match Map.find s.dealt ((die * 2 + cls) * 256 + ctx) with
  | some last => bound.filter (fun n => last < n) ++ bound.filter (fun n => n ≤ last)
  | none => bound

/-- The top push on a bound pile: a full one moves its bottom 32 entries to the spill area; none when that is full. -/
def Pile.push (p : Pile) (cap : Nat) (e : Entry) : Option Pile :=
  if p.chip.length < 64 then some { p with chip := e :: p.chip }
  else if p.spill.length + 32 ≤ cap then
    some { p with chip := e :: p.chip.take 32, spill := p.chip.drop 32 ++ p.spill }
  else none

/-- Refill the on-chip part when it is empty (R94). -/
def Pile.refill (p : Pile) : Pile :=
  if p.chip.isEmpty then { p with chip := p.spill.take 32, spill := p.spill.drop 32 } else p

/-- The word at the A stream's pc, for AUX (R243). -/
def State.aWord (s : State) : Nat :=
  match s.fetch s.task s.tp.ac.pc.toNat 4 with
  | .ok (bs, _) => if leValue bs % 4 = 3 then leValue bs else leValue bs % 65536
  | .error _ => 0

/-- The record of a fault of the A stream (R243). -/
def State.aRecord (s : State) (cause : Nat) : RecordOf :=
  { RecordOf.ofTask s.task s.cur 1 cause with cidx := s.tp.ac.pc.toNat, aux := s.aWord }

/-- What a pawn's task runs under (R72, R80, R87). -/
def State.bindingOf (s : State) (e : Entry) : Binding :=
  match e.bind with
  | some b => b
  | none =>
    match s.launches.find? (fun l => l.lid == e.pawn.lid) with
    | some l => { titb := (l.dwords.getD 4 0).toNat, tcounts := l.tcounts, tag := bits (l.dwords.getD 0 0).toNat 16 16
                  queue := l.queue, strm := l.strm }
    | none => {}

/-- Cause 0x4A, against the pawn's context (R94): the AC raises it for a push of its own instruction, the device for every
other push. -/
def State.pileOverflow (s : State) (tp : Nat) (e : Entry) : State :=
  if s.turn.agent = .ac && s.hasTask then s.fatal e.ctx (mkRecord (s.aRecord 0x4A) s.time)
  else
    let b := s.bindingOf e
    s.fatal e.ctx (mkRecord { ctx := e.ctx, unit := 0, die := dieOf tp, tile := 0, cause := 0x4A, tag := b.tag, queue := b.queue
                              lid := e.pawn.lid } s.time)

/-- Push on one TP's pile of the pawn's class. -/
def State.pushOn (s : State) (tp : Nat) (e : Entry) : State :=
  let t := s.getTp tp
  match (t.pile e.pawn.cls).push s.mod.spillCap e with
  | some p => s.setTp tp (t.setPile e.pawn.cls p)
  | none => s.pileOverflow tp e

/-- The dealer of a die places a pawn (R94): none when no TP of the die is bound. -/
def State.place (s : State) (die : Nat) (e : Entry) : Option State :=
  match s.walkOrder die e.pawn.cls e.ctx with
  | n :: _ => some ({ s with dealt := Map.put s.dealt ((die * 2 + e.pawn.cls) * 256 + e.ctx) n }.pushOn n e)
  | [] => none

/-- Push a pawn that is not dealt at the top of a TP's pile, or place it (R94). -/
def State.pushPawn (s : State) (tp : Nat) (e : Entry) : State :=
  if ((s.getTp tp).pile e.pawn.cls).ctx = some e.ctx then s.pushOn tp e
  else
    match s.place (dieOf tp) e with
    | some s' => s'
    | none =>
      match s.place (1 - dieOf tp) e with
      | some s' => s'
      | none => { s with homeless := s.homeless ++ [e] }

/-- Change the launch with an instance number. -/
def State.changeLaunch (s : State) (lid : Nat) (f : Launch → Launch) : State :=
  { s with launches := s.launches.map (fun l => if l.lid = lid then f l else l) }

/-- One more pawn of a launch (R84). -/
def State.pawnBorn (s : State) (e : Entry) : State :=
  if e.bind.isSome then s else s.changeLaunch e.pawn.lid (fun l => { l with live := l.live + 1 })
/-- One pawn less. -/
def State.pawnGone (s : State) (e : Entry) : State :=
  if e.bind.isSome then s else s.changeLaunch e.pawn.lid (fun l => { l with live := l.live - 1 })
/-- The launch of a pawn as the region matcher tells launches apart. -/
def Entry.launchKey (e : Entry) : Nat := e.pawn.lid + (if e.bind.isSome then 65536 else 0)

/-! ## Launch queues and their deficits (R77, R176) -/

/-- Fields of a queue's descriptor. -/
def State.ring (s : State) (q : LaunchQueue) : Nat := Memory.read s.mem q.desc 8
def State.q1 (s : State) (q : LaunchQueue) : Nat := Memory.read s.mem (q.desc + 8) 8
def State.ridx (s : State) (q : LaunchQueue) : Nat := Memory.read s.mem (q.desc + 24) 4
/-- Ring size N (R77). LOG2N outside 4 to 16 and reserved fields of a descriptor have no check there: the field is taken as it
stands (note 92). -/
def State.ringSize (s : State) (q : LaunchQueue) : Nat := 2 ^ bits (s.q1 q) 8 5
def State.homeDie (s : State) (q : LaunchQueue) : Nat := bits (s.q1 q) 18 1

/-- The stream store of a queue with STRM = 1. -/
def State.queueStream (s : State) (q : LaunchQueue) : Option Nat := if bitAt (s.q1 q) 19 then some (bits (s.q1 q) 20 12) else none

/-- Whether a queue has a launch that has not started (R176). -/
def State.backlogged (s : State) (q : LaunchQueue) : Bool := !q.stopped && q.widx != s.ridx q

/-- DEF of a store, and its weight; a store that is not bound has weight 0. -/
def State.deficit (s : State) (ssid : Nat) : Int :=
  match Map.find s.streams ssid with
  | some st => signedOf (Memory.read s.mem (st.record + 56) 4) 32
  | none => 0
def State.weight (s : State) (ssid : Nat) : Nat :=
  match Map.find s.streams ssid with
  | some st => Memory.read s.mem (st.record + 23) 1
  | none => 0

/-- Set DEF, saturating. -/
def State.setDeficit (s : State) (ssid : Nat) (v : Int) : State :=
  match Map.find s.streams ssid with
  | some st => s.writeDevice (st.record + 56) (leBytes 4 (wrapTo (max (-2147483648) (min v 2147483647)) 32))
  | none => s

/-- Whether the device can read a queue's descriptor, and the record of its stream (R266, R297). -/
def State.queueReadable (s : State) (q : LaunchQueue) : Bool :=
  !s.unreadable q.desc 40 && (match s.queueStream q with
    | none => true
    | some n =>
      match Map.find s.streams n with
      | some st => !s.unreadable st.record 64
      | none => true)

/-- A queue that is neither backlogged nor running a launch holds a deficit above 0 (R176). -/
def State.idleCredit (s : State) (qn : Nat) (q : LaunchQueue) : Bool :=
  match s.queueStream q with
  | none => false
  | some n => s.queueReadable q && 0 < s.deficit n && !s.backlogged q && !s.launches.any (fun k => k.queue == qn)

/-- The deficit of such a queue falls to 0 (R176, R462): a step of the scheduler's, or of the queue's next doorbell. -/
def State.cutIdle (s : State) (qn : Nat) : State :=
  match Map.find s.queues qn with
  | none => s
  | some q =>
    match s.queueStream q with
    | none => s
    | some n => if s.idleCredit qn q then s.setDeficit n 0 else s

/-! ## Work left on a TP -/

/-- Whether a chain engine still has chains, blocks or commands of a task (R110, R216). -/
def Tp.engineBusy (t : Tp) (c : Chain) (id : Nat) : Bool :=
  c.heads.any (fun h => h.2 == id) || c.blocks.any (fun b => b.task.id == id) ||
    (match c.running with
      | some b => b.task.id == id
      | none => false) ||
    (c.av && (t.workTask c.actId c.actBlock).id == id) || (c.sv && (t.workTask c.shdId c.shdBlock).id == id) ||
    c.infl.any (fun f => (t.workTask f.task f.block).id == id)

/-- Whether a stream has retired its ending instruction, or there is none. -/
def Ec.idle (c : Ec) : Bool := c.status = .off || (c.status = .ended && c.pushes.isEmpty && c.spec.isEmpty)
def Be.idle (c : Be) : Bool := c.status = .off || (c.status = .ended && c.pushes.isEmpty)

/-- The accumulators, strides and pattern tables of a BE as a task finds them (R37, R140, R142). -/
def Be.fresh (c : Be) : Be := { c with acc := [], sd := [], cb := [] }

/-- Whether an engine still has commands to execute from its own chains of tasks before a task. -/
def Chain.earlierWork (c : Chain) (id : Nat) : Bool :=
  (c.av && c.actBlock.isNone && c.actId < id) || (c.sv && c.shdBlock.isNone && c.shdId < id) || c.heads.any (fun h => h.2 < id)

/-- Whether a unit has finished a task's work (R110): a stream that never started counts as finished. -/
def Tp.finished (t : Tp) (unit id : Nat) : Bool :=
  match unit with
  | 2 => !t.late.contains (2, id) && (t.ec.task != id || t.ec.idle)
  | 3 => !t.late.contains (3, id) && (t.be.task != id || t.be.idle)
  | 4 => !t.engineBusy t.ce id
  | 5 => !t.engineBusy t.ie id
  | 6 => !t.engineBusy t.he id
  | _ => true

/-- Whether a unit of the trailer mask (or of any unit mask) still works for a task. -/
def Tp.maskDone (t : Tp) (mask id : Nat) : Bool :=
  [2, 3, 4, 5, 6].all (fun u => !bitAt mask (u - 1) || t.finished u id)

/-- Forget ended tasks that no unit works for. -/
def Tp.reap (t : Tp) : Tp :=
  { t with tasks := t.tasks.filter (fun k => k.id == t.cur || !k.ended || !t.maskDone 0x3E k.id) }

/-! ## What still works (R84, R102) -/

/-- The tasks that a chain engine works for: blocks of RENQ and their commands. -/
def Chain.blockTasks (c : Chain) : List Task :=
  c.blocks.map (fun b => b.task) ++ (match c.running with
    | some b => [b.task]
    | none => []) ++
  (if c.av then c.actBlock.toList else []) ++ (if c.sv then c.shdBlock.toList else []) ++ c.infl.filterMap (fun f => f.block)

/-- The tasks that a TP runs or works for, those of its save images among them. -/
def Tp.liveTasks (t : Tp) : List Task :=
  t.reap.tasks ++ t.ce.blockTasks ++ t.ie.blockTasks ++ t.he.blockTasks ++
    t.images.flatMap (fun i => i.tasks ++ i.ce.blockTasks ++ i.ie.blockTasks ++ i.he.blockTasks)

/-- Every task that some unit works for. -/
def State.liveTasks (s : State) : List Task :=
  s.tpNumbers.flatMap (fun n => (s.getTp n).liveTasks) ++ s.media.map (fun m => m.task)

/-- Every pawn that waits. -/
def State.waitingPawns (s : State) : List Entry :=
  s.tpNumbers.flatMap (fun n =>
    let t := s.getTp n
    t.frame.chip ++ t.frame.spill ++ t.bulk.chip ++ t.bulk.spill) ++
  s.homeless ++ s.faults.filterMap (fun f => f.pawn) ++ s.regions.filterMap (fun r => r.held.map (fun h => h.1))

/-! ## Region matcher (R100 to R102) -/

/-- The span of a declaration: first byte and the byte after it. -/
def Decl.span (d : Decl) : Nat × Nat := (d.base, d.base + (d.count - 1) * d.stride + d.extent)

/-- Two declarations conflict. -/
def Decl.conflicts (a b : Decl) : Bool :=
  (a.wr || b.wr) && a.span.1 < b.span.2 && b.span.1 < a.span.2

/-- Whether region `r` holds back a pawn registered later with these declarations. -/
def Region.holdsBack (r : Region) (serial : Bool) (decls : List Decl) : Bool :=
  serial || r.serial || r.decls.any (fun a => decls.any (fun b => a.conflicts b))

/-- Slots of a die's matcher in use. -/
def State.slotsUsed (s : State) (die : Nat) : List Nat := (s.regions.filter (fun r => r.die == die)).flatMap (fun r => r.slots)

/-- The slots for `n` declarations: the first free run of slots, or else the first free ones; none when too few are free (R102,
note 75). -/
def freeSlots (used : List Nat) (n : Nat) : Option (List Nat) :=
  let free := (List.range 2048).filter (fun k => !used.contains k)
  if free.length < n then none
  else
    let runAt (k : Nat) : List Nat := (List.range n).map (fun i => k + i)
    match free.find? (fun k => (runAt k).all (fun i => i < 2048 && !used.contains i)) with
    | some k => some (runAt k)
    | none => some (free.take n)

/-- Whether a serial pawn of a launch is registered on a die before a place among the registrations: every later pawn of the
launch there is then held (R102). -/
def State.serialStands (s : State) (die lid seq : Nat) : Bool :=
  s.regions.any (fun r => r.die == die && r.lid == lid && r.serial && r.seq < seq)

/-- Registrations whose pawn has ended are dropped (R102). -/
def State.dropEnded (s : State) (die : Nat) : State :=
  let live := s.waitingPawns.map (fun e => e.region) ++ s.liveTasks.map (fun k => k.entry.region)
  { s with regions := s.regions.filter (fun r => r.die != die || live.contains r.seq) }

/-- The next place among the registrations. -/
def State.takeSeq (s : State) : Nat × State := (s.nextRegion, { s with nextRegion := s.nextRegion + 1 })

/-- A pawn is registered by a die's matcher at its place: held, or pushed on the pile of a TP of that die (R102). -/
def State.register (s : State) (seq tp : Nat) (e : Entry) (decls : List Decl) (slots : Option (List Nat)) (held : Bool) : State :=
  let e := { e with region := seq }
  let reg : Region := { die := dieOf tp, lid := e.launchKey, ctx := e.ctx, seq := seq, decls := decls
                        serial := slots.isNone, held := if held then some (e, tp) else none, slots := slots.getD [] }
  let s := { s with regions := s.regions ++ [reg] }
  if held then s else s.pushPawn tp e

/-- A pawn without declarations that came at a place among the registrations reaches a TP's pile, unless an earlier serial pawn of
its launch stands on the die, which holds it (R102). `push` places it. -/
def State.letInAt (s : State) (seq tp : Nat) (e : Entry) (push : State → State) : State :=
  let s := if s.regions.isEmpty then s else s.dropEnded (dieOf tp)
  if s.serialStands (dieOf tp) e.launchKey seq then s.register seq tp e [] (some []) true else push s

/-- A new pawn without declarations (R102). -/
def State.letIn (s : State) (tp : Nat) (e : Entry) (push : State → State) : State := s.takeSeq.2.letInAt s.takeSeq.1 tp e push

/-- The pawn of a SPAWN with its declarations: registered, then held or pushed (R97, R102). `par`: the spawner's pawn. The
edge to the start of its task bridges path C at device scope (R221). -/
def State.spawnPawn (s : State) (tp : Nat) (par : Entry) (p : Pawn) (decls : List Decl) : State :=
  let die := dieOf tp
  let s := (s.drain (fun w => w.path == 0 && w.seen tp 1)).pawnBorn par
  let entry (rgn : Nat) : Entry :=
    { pawn := p.stamp par.pawn.cls 0 par.pawn.lid rgn decls.length, ctx := par.ctx, bind := par.bind }
  if decls.isEmpty then s.letIn tp (entry 0) (fun s => s.pushPawn tp (entry 0))
  else
    let s := s.dropEnded die
    let slots := freeSlots (s.slotsUsed die) decls.length
    let held := s.regions.any (fun r => r.die == die && r.lid == par.launchKey && r.holdsBack slots.isNone decls)
    s.takeSeq.2.register s.takeSeq.1 tp (entry ((slots.getD []).headD 0)) decls slots held

/-! ## The abort (R212) -/

/-- What an abort leaves in a TP: streams stopped, issued commands complete, unissued work of the task discarded, bank and
accumulator contents free, which no context has placed (R58). -/
def Tp.abort (t : Tp) (n : Nat) : Tp :=
  let id := t.cur
  let drop (c : Chain) : Chain := t.filterChain c (fun k => k.id != id || k.block) true
  let t1 := { t with ce := drop t.ce, ie := drop t.ie, he := drop t.he }.stopStreams
  let banks := Sparse.canonical 0x200000 (Config.banksAfterAbort n t.banks)
  let t2 := { t1 with
    tasks := t.tasks.map (fun (k : Task) => if k.id == id then { k with ended := true } else k)
    banks := banks, bankEra := banks, bankOwner := [], bankStale := []
    be := { t1.be with acc := (List.range 4).map (fun k => (k, Sparse.canonical 1024 (Config.accAfterAbort n k))) } }
  t2.reap

/-- Cause of a trap record (R243). -/
def causeOf (r : TrapRec) : Nat := (r.getD 0 0).toNat % 256

/-- The held command of a chain engine completes (R256): it goes in flight, and completes in its turn; a media command
leaves its engine. -/
def State.releaseCommand (s : State) (u : ChainUnit) : State :=
  let c := s.eng u
  match c.infl.find? (fun f => f.trapped) with
  | some g =>
    let done (m : MediaCmd) : Bool := m.trapped && m.id == g.mid
    let locks := (s.media.filter done).map (fun m => bits m.entry.toNat 32 12)
    let s := s.setEng u { c with
      trec := none
      infl := c.infl.map (fun (f : InFlight) => if f.trapped then { f with media := false, trapped := false } else f) }.rest
    { s with
      media := s.media.filter (fun m => !done m)
      streams := s.streams.map (fun e => if locks.contains e.1 then (e.1, { e.2 with locked := false }) else e) }
  | none => s.retire u

/-- A task's run ends while an engine holds a trap that has not been delivered: the event is counted, and the command
completes (R212, R255). -/
def State.releaseHeld (s : State) (u : ChainUnit) : State :=
  match (s.eng u).trec with
  | some r => (s.countEvent s.task.ctx (causeOf r)).releaseCommand u
  | none => s

/-- End the running task's run without a commit: the state of the TP after it. -/
def State.dropRun (s : State) : State :=
  let s := [ChainUnit.ce, .ie, .he].foldl State.releaseHeld s
  { s with tp := s.tp.abort s.free, free := s.free + 1 }

/-- The abort at a commit point (R212): event 0x70, the pawn back on top of its pile; the second one puts its next run
into direct mode and counts event 0x74. -/
def State.abortCommit (s : State) : State :=
  let k : Task := s.task
  let e : Entry := { k.entry with aborts := k.entry.aborts + 1 }
  let s := s.countEvent k.ctx 0x70
  let s := if e.aborts = 2 then s.countEvent k.ctx 0x74 else s
  s.dropRun.pushPawn s.cur e

/-- Pre-emption by replay (R223, R262): event 0x73, no count toward direct mode. -/
def State.abortReplay (s : State) : State :=
  let k : Task := s.task
  (s.countEvent k.ctx 0x73).dropRun.pushPawn s.cur k.entry

/-! ## The commit point (R210, R211) -/

/-- Whether every line of the read set is unchanged, and no translation that a buffered store was made through has been
revoked (note 73). -/
def State.readsValid (s : State) : Bool := !s.tp.ac.doomed && s.tp.ac.readSet.all (fun e => (s.ts e.1).wts == e.2)

/-- The buffered stores as runs of bytes. -/
def Ac.buffered (a : Ac) : List (Nat × List Byte) := a.cbufAt.map (fun p => (p, [Sparse.get a.cbuf p]))

/-- The space of a buffered place: that of the page through which it was buffered (R226, R294). -/
def Ac.bufSpace (a : Ac) (p : Nat) : Nat :=
  ((a.bufPages.find? (fun e => e.2.place ≤ p && p < e.2.place + e.2.size)).map (fun e => e.1)).getD 0

/-- The buffered stores to places behind ports leave them, one 8-byte unit at a time (R226). -/
def State.sendBuffered (s : State) (ctx : Nat) (a : Ac) : State :=
  let out := a.cbufAt.filter (fun p => !inHbm p)
  ((out.map (· / 8)).eraseDups).foldl (fun s u =>
    let mine := out.filter (fun p => p / 8 == u)
    let p := mine.foldl min (8 * u + 7)
    s.sendPosted ctx (a.bufSpace p) p mine.length) s

/-- Write a barrier object (R344): in a bank, or at its home. -/
def State.putBarrier (s : State) (ctx space : Nat) (h : HeldBari) : State :=
  let bs := leBytes 8 h.lo.toNat ++ leBytes 8 h.hi.toNat
  if h.global then (s.writeHome h.place bs).sendPosted ctx space h.place 16 else s.writeBank h.place bs

/-- The commit of the running task: the buffered stores are performed at one timestamp, above lc and every rts + 1, and the
lines read are leased to it: loads and stores stand together in S (R211). Then the held work takes effect. A task past its commit point is as it is. -/
def State.commit (s : State) : Try State :=
  if s.tp.ac.phase != .replay then .ok s
  else if !s.readsValid then .error (.done s.abortCommit)
  else if !(s.tp.ac.cbufAt ++ (s.tp.ac.heldBaris.filter (fun h => h.global)).map (fun h => h.place)).all (fun p =>
      s.portOpen s.task.ctx p (s.tp.ac.bufSpace p)) then
    .error .wait
  else
    let k := s.task
    let a := s.tp.ac
    let spawns := s.tp.ac.heldSpawns
    let baris := s.tp.ac.heldBaris
    let read := s.tp.ac.readLines
    let s := if s.tp.ac.cbufAt.isEmpty then s else (s.setAc { s.tp.ac with lc := s.storeTs s.tp.ac.lc s.tp.ac.bufferedLines + 1 }).cPerform s.tp.ac.buffered
    let s := (s.lease read s.tp.ac.lc).sendBuffered k.ctx a
    let s := s.setAc { s.tp.ac with phase := .committed, cbuf := [], cbufAt := [], readSet := [], heldSpawns := [],
                                    heldBaris := [], bufPages := [] }
    let s := spawns.foldl (fun s h => s.spawnPawn s.cur k.entry h.pawn h.decls) s
    .ok (baris.foldl (fun s h => s.putBarrier k.ctx (a.bufSpace h.place) h) s)

/-- The commit point as a step of its own (R210): an instruction that is one commits, and runs when it comes again. -/
def State.commitFirst (s : State) : Try Unit :=
  if s.tp.ac.phase != .replay then .ok ()
  else
    match s.commit with
    | .error e => .error e
    | .ok s' => .error (.done s')

/-! ## Energy (R273 to R275) -/

/-- The rails that a unit's work draws on (R279, note 12): 0 butterfly, 1 vector, 2 SRAM, 3 fabric. -/
def railsOf (unit : Nat) : List Nat := if unit = 3 then [0] else if unit = 2 then [1] else [2, 3]

/-- The test and the charge against the balance of a context (R275): what cannot be paid asks for pre-emption on its TP, which saves
the unit's work also where no task runs any more. -/
def State.gateBalance (s : State) (ctx cost : Nat) : Try State :=
  let c := s.getCtx ctx
  if c.quota != 0 && (c.bal ≤ 0 || c.bal < (cost : Int)) then
    if s.tp.preempt.isSome then .error .wait
    else .error (.done ({ s with tp := s.tp.request s.time .quota }.countEvent ctx 0x72))
  else .ok (s.charge ctx cost)

/-- Whether the banker's grants cover work of a unit (R279): each of its rails has something left in this step, and owes nothing
for earlier work. What a long word draws goes on into later steps (note 12). -/
def State.granted (s : State) (unit : Nat) : Bool :=
  (railsOf unit).all (fun r => match Map.find s.mod.grants r with
    | some g => 0 < g && (Map.find s.mod.owed r).getD 0 = 0
    | none => true)

/-- What a rail draws for work in this step, and what it owes for later ones (R279). -/
def Module.drawOn (m : Module) (cost r : Nat) : Module :=
  match Map.find m.grants r with
  | some g => { m with
      grants := Map.put m.grants r (g - cost)
      owed := Map.put m.owed r ((Map.find m.owed r).getD 0 + (cost - g))
      work := if r = 0 then m.work + min cost g else m.work }
  | none => { m with work := if r = 0 then m.work + cost else m.work }

/-- Work of a unit for a context draws on its rails (R277, R279). -/
def State.draw (s : State) (ctx unit cost : Nat) : State :=
  { s with mod := (railsOf unit).foldl (fun m r => m.drawOn cost r) s.mod }.spend ctx cost

/-- The gate of R275 for a word or command of a task: the banker's grants, the balance, the charge. -/
def State.gate (s : State) (ctx unit cost : Nat) : Try State :=
  if cost = 0 then .ok s
  else if !s.granted unit then .error .wait
  else
    match s.gateBalance ctx cost with
    | .error e => .error e
    | .ok s => .ok (s.draw ctx unit cost)

/-! ## Taking an exception -/

/-- The 12 bytes of the B stream's word, and 8 of the E stream's. -/
def State.bWord (s : State) : Nat :=
  match s.fetch (s.tp.taskOf s.tp.be.task) s.tp.be.pc.toNat 12 with
  | .ok (bs, _) => leValue bs
  | .error _ => 0

/-- UPC as a register (R120). -/
def Chain.upc (c : Chain) : Dword := BitVec.ofNat 64 (c.ldep.toNat * 2 ^ 21 + c.ent.toNat * 16)

/-- A record about an entry of a chain engine: its window address, 0 for an entry of a RENQ block. -/
def State.entryRecord (s : State) (u : ChainUnit) (k : Task) (w : BitVec 128) (addr cause : Nat) : RecordOf :=
  { RecordOf.ofTask k s.cur u.code cause with
    cidx := addr, aux := w.toNat % 2 ^ 64, upcs := (s.eng u).upc.toNat }

/-- A record about the entry that an engine walks to. -/
def State.walkRecord (s : State) (u : ChainUnit) (cause : Nat) : RecordOf :=
  let c := s.eng u
  let k := s.tp.walkTask c
  match c.running with
  | some b => s.entryRecord u k (b.entries.getD b.pos 0) 0 cause
  | none =>
    let a := c.ent.toNat * 16
    s.entryRecord u k (BitVec.ofNat 128 (s.bankValue a 16)) a cause

/-- What a record says of the unit that raises it (R243): address of the word or entry, UPC and AUX. -/
def State.unitRecord (s : State) (unit cause : Nat) : RecordOf :=
  match unit with
  | 1 => s.aRecord cause
  | 2 => { RecordOf.ofTask (s.tp.taskOf s.tp.ec.task) s.cur 2 cause with cidx := s.tp.ec.pc.toNat, aux := s.tp.ec.npc.toNat }
  | 3 =>
    { RecordOf.ofTask (s.tp.taskOf s.tp.be.task) s.cur 3 cause with
      cidx := s.tp.be.pc.toNat, aux := s.bWord % 2 ^ 64 }
  | _ =>
    match ChainUnit.ofCode unit with
    | some u => if (s.eng u).av then s.entryRecord u (s.tp.activeTask (s.eng u)) (s.eng u).act (s.eng u).actAddr cause
        else s.walkRecord u cause
    | none => { RecordOf.ofTask s.task s.cur unit cause with cidx := 0 }

/-- A fatal fault of a unit of the TP in focus: its record, and the context stops (R251). -/
def State.takeFatal (s : State) (unit cause reason detail : Nat) : State :=
  let r := { s.unitRecord unit cause with reason := reason, detail := detail }
  s.fatal r.ctx (mkRecord r s.time)

/-- A fatal fault of the walk of a chain engine. -/
def State.walkFatal (s : State) (u : ChainUnit) (cause : Nat) : State :=
  let r := s.walkRecord u cause
  s.fatal r.ctx (mkRecord r s.time)

/-- The task a unit's work runs under. -/
def State.unitTask (s : State) (unit : Nat) : Task :=
  match unit with
  | 1 => s.task
  | 2 => s.tp.taskOf s.tp.ec.task
  | 3 => s.tp.taskOf s.tp.be.task
  | _ =>
    match ChainUnit.ofCode unit with
    | some u => s.tp.activeTask (s.eng u)
    | none => {}

/-- The needs of an access, as a page request names them: read and write (R237). -/
def priNeeds (acck : Nat) : Bool × Bool := (bitAt acck 0 || bitAt acck 2, bitAt acck 1 || bitAt acck 2)

/-- The page of space 1 that a fault of cause 0x09 asks for, to the host: a PRI page request with the needs of the access leaves,
unless one for the page with these needs is outstanding (R237), or the port has 512 (R285). -/
def State.askPri (s : State) (ctx va acck : Nat) : State :=
  let pasid := (s.getCtx ctx).pasid
  let page := va / 4096 * 4096
  let (r, w) := priNeeds acck
  let out := s.requests.filterMap (fun e => match e.2 with
    | .pri p v c r w => some (p, v, c, r, w)
    | _ => none)
  if out.contains (pasid, page, ctx, r, w) || 512 ≤ out.length || s.mod.host.insecure.contains 0 then s
  else { s with requests := Map.put s.requests (Map.fresh s.requests) (.pri pasid page ctx r w) }.emit (.priRequest pasid page r w)

/-- Page requests that had to wait leave (R285, R288). -/
def State.askWaiting (s : State) : State :=
  (s.faults.filter (fun f => f.cause == 0x09)).foldl (fun s f => s.askPri f.ctx f.va f.acck) s

/-- The supervisor gets the record of a translation fault. A host page that is absent is asked for; after the third Success
that a denial of the same access follows, the context ends with cause 0x0A (R237). The answer says whether the context
goes on. -/
def State.reportFault (s : State) (fr : FaultRec) : Bool × State :=
  let s := s.emit (.record fr.record)
  let page := fr.va / 4096 * 4096
  if fr.cause != 0x09 then (true, s)
  else if s.denied.contains ⟨fr.ctx, fr.tp, fr.unit, page, fr.acck, 3⟩ then
    (false, s.fatal fr.ctx (recause fr.record 0x0A))
  else (true, s.askPri fr.ctx fr.va fr.acck)

/-- A translation fault before its task's commit point aborts the task; the pawn is held with the record (R248). -/
def State.abortTranslation (s : State) (k : Task) (fr : FaultRec) : State :=
  match s.reportFault fr with
  | (false, s) => s
  | (true, s) =>
    let s := (s.countEvent k.ctx 0x77).dropRun
    { s with faults := s.faults ++ [{ fr with pawn := some k.entry, handle := none }] }

/-- A translation fault that stalls its unit (R249). -/
def State.stallTranslation (s : State) (fr : FaultRec) : State :=
  match s.reportFault fr with
  | (false, s) => s
  | (true, s) => { s with faults := s.faults ++ [fr] }

/-- A translation fault of a unit (R248, R249): before the commit point of the running task it aborts the task and holds
the pawn with the record; otherwise it stalls the unit. `handle`: the handle whose cause the access took. -/
def State.takeTranslation (s : State) (unit : Nat) (f : TFault) (handle : Option Nat) : State :=
  let k := s.unitTask unit
  let r := mkRecord { s.unitRecord unit f.cause with prec := true, fault := some f } s.time
  let fr : FaultRec := { tp := s.cur, record := r, ctx := k.ctx, cause := f.cause, space := f.space, va := f.va, unit := unit,
                         handle := handle, acck := f.acck }
  let s' := match ChainUnit.ofCode unit with
    | some u => s.setEng u { s.eng u with av := false, aprg := 0 }
    | none => s
  if s.tp.ac.phase = .replay && k.id = s.tp.cur && !k.block then s'.abortTranslation k fr
  else s.stallTranslation fr

/-- Whether a unit is stalled by a translation fault. -/
def State.isStalled (s : State) (unit : Nat) : Bool :=
  s.faults.any (fun f => f.tp == s.cur && f.unit == unit && f.pawn.isNone && !f.completing)

/-- Ask the host for a translation, unless a request for it is outstanding (R237), or the port's tags are all in use (R285). -/
def State.askAts (s : State) (ctx va : Nat) : State :=
  let pasid := (s.getCtx ctx).pasid
  let page := va / 4096 * 4096
  let out : Bool := s.requests.any (fun e => match e.2 with
    | .ats p v _ _ => p == pasid && v == page
    | _ => false)
  if out || s.mod.host.insecure.contains 0 || 8192 ≤ (s.requests.filter (fun e => e.2.tagged .host)).length then s
  else { s with requests := Map.put s.requests (Map.fresh s.requests) (.ats pasid page ctx 0) }.emit (.atsRequest pasid page)

/-- How a stopped operation of a unit ends. -/
def State.stopUnit (s : State) (unit : Nat) (handle : Option Nat) : Stop → State
  | .wait => s
  | .done s' => s'
  | .fatal c r d => s.takeFatal unit c r d
  | .tfault f => s.takeTranslation unit f handle
  | .ats ctx va => s.askAts ctx va
  | .tracked f n e => State.stopUnit (s.track f n) unit handle e

/-- Entry into service code (R254): saved pc, cause, status and mode; the pc at the handler. -/
def State.enterService (s : State) (scause : Dword) (sepc : Dword) : State :=
  let a := s.tp.ac
  let st := a.sstatus.toNat
  let spp := if a.sup then 256 else 0
  let spie := if bitAt st 1 then 32 else 0
  let st' := st - bits st 8 1 * 256 - bits st 5 1 * 32 - bits st 1 1 * 2 + spp + spie
  let base := a.stvec.toNat / 4 * 4
  let pc := if a.stvec.toNat % 4 = 1 && scause.toNat ≥ 2 ^ 63 then base + 4 * (scause.toNat - 2 ^ 63) else base
  let a' := { a with sepc := sepc, scause := scause, stval := 0, sstatus := BitVec.ofNat 64 st', sup := true,
                     pc := BitVec.ofNat 64 pc, resv := none, mark := none }
  let s := s.setAc a'
  { s with tp := { s.tp with
      svwmAt := s.tp.svwm
      ec := { s.tp.ec with since := 0 }, be := { s.tp.be with since := 0 }
      ce := { s.tp.ce with since := 0 }, ie := { s.tp.ie with since := 0 }, he := { s.tp.he with since := 0 } } }

/-- The A stream's own exception enters service code, past the commit point (R210, R254). -/
def State.takeOwn (s : State) (scause : Nat) (record : Option TrapRec) : Try State :=
  if s.tp.ac.sup then .error (.fatal 0x24 0 0)
  else
    match s.commit with
    | .error e => .error e
    | .ok s =>
      let s := s.enterService (BitVec.ofNat 64 scause) s.tp.ac.pc
      match record with
      | some r => .ok (s.setAc { s.tp.ac with trec := r })
      | none => .ok s

/-- Return from service code (R257): the saved mode and pc; units held by their watermark go on. -/
def State.leaveService (s : State) : State :=
  let a := s.tp.ac
  let st := a.sstatus.toNat
  let sie := if bitAt st 5 then 2 else 0
  let st' := st - bits st 8 1 * 256 - bits st 5 1 * 32 - bits st 1 1 * 2 + 32 + sie
  let s := s.setAc { a with pc := a.sepc, sup := bitAt st 8, sstatus := BitVec.ofNat 64 st' }
  let free (c : Chain) : Chain := if c.state = 4 then { c with since := 0 }.rest else { c with since := 0 }
  { s with tp := { s.tp with
      ec := { s.tp.ec with since := 0, status := if s.tp.ec.status = .held then .running else s.tp.ec.status }
      be := { s.tp.be with since := 0, status := if s.tp.be.status = .held then .running else s.tp.be.status }
      ce := free s.tp.ce, ie := free s.tp.ie, he := free s.tp.he } }

/-- A unit raises a resumable trap (R255): it is trapped, its record waits, PEND shows it. -/
def State.trapUnit (s : State) (unit : Nat) (r : TrapRec) : State :=
  let a := s.tp.ac
  let s := s.setAc { a with pend := a.pend ||| BitVec.ofNat 7 (2 ^ unit) }
  match unit with
  | 2 => s.setEc { s.tp.ec with status := .trapped, trec := some r }
  | 3 => s.setBe { s.tp.be with status := .trapped, trec := some r }
  | _ =>
    match ChainUnit.ofCode unit with
    | some u => s.setEng u { s.eng u with state := 5, trec := some r }
    | none => s

/-- The record of a unit that holds an undelivered trap. -/
def State.unitTrap (s : State) (unit : Nat) : Option TrapRec :=
  match unit with
  | 2 => s.tp.ec.trec
  | 3 => s.tp.be.trec
  | _ =>
    match ChainUnit.ofCode unit with
    | some u => (s.eng u).trec
    | none => none

/-- The oldest pending unit trap, ties to the lower unit code (R257). -/
def State.oldestTrap (s : State) : Option (Nat × TrapRec) :=
  ([2, 3, 4, 5, 6].filterMap (fun u => (s.unitTrap u).map (fun r => (u, r)))).foldl
    (fun best e => match best with
      | none => some e
      | some b => if (e.2.getD 6 0).toNat < (b.2.getD 6 0).toNat then some e else some b) none

/-- A trap of another unit, or a request of the supervisor, enters service code at the AC's instruction boundary (R254); PEND
shows the traps that have not been delivered (R245). -/
def State.takeInterrupt (s : State) (trap : Option (Nat × TrapRec)) : Try State :=
  match s.commit with
  | .error e => .error e
  | .ok s =>
    let s := s.enterService (BitVec.ofNat 64 (2 ^ 63 + 24)) s.tp.ac.pc
    match trap with
    | some (u, r) =>
      .ok (s.setAc { s.tp.ac with trec := r, svcReq := false, pend := s.tp.ac.pend &&& ~~~(BitVec.ofNat 7 (2 ^ u)) })
    | none => .ok (s.setAc { s.tp.ac with svcReq := false })

/-! ## Running an instruction of a stream -/

/-- An A-stream instruction whose operation leaves the pc to this: on success it moves past the word. -/
def acStep (len : Nat) (s : State) (f : State → Try State) : Host.Outcome State Fault Refusal :=
  match f s with
  | .ok s' => .next (s'.setPc (s'.tp.ac.pc + BitVec.ofNat 64 len))
  | .error e => .next (s.stopUnit 1 none e)

/-- An A-stream instruction that sets the pc itself. -/
def acJump (s : State) (f : State → Try State) : Host.Outcome State Fault Refusal :=
  match f s with
  | .ok s' => .next s'
  | .error e => .next (s.stopUnit 1 none e)

/-- An A-stream instruction that accesses through a handle (R236), on a state in which it has issued; a wait leaves the
first state. -/
def acIssued (hn : Option (BitVec 4)) (s : State) (issue : State → Try State) (f : State → Try State) :
    Host.Outcome State Fault Refusal :=
  match issue s with
  | .error e => .next (s.stopUnit 1 none e)
  | .ok s1 =>
    match f s1 with
    | .ok s' => .next (s'.setPc (s'.tp.ac.pc + 4))
    | .error .wait => .next s
    | .error e => .next (s1.stopUnit 1 (hn.map BitVec.toNat) e)

/-- An A-stream instruction that accesses through a handle (R236). -/
def acHandle (hn : BitVec 4) (s : State) (f : State → Try State) : Host.Outcome State Fault Refusal :=
  match f s with
  | .ok s' => .next (s'.setPc (s'.tp.ac.pc + 4))
  | .error e => .next (s.stopUnit 1 (some hn.toNat) e)

end Sys2Proof.Machine
end

