-- ==== Sys2Proof/Machine/Run.lean ====
section
/-!
DEFINITION. What each agent does next: which word a stream fetches and decodes, which entry an engine walks to, which
event the device has ready. `step` runs the instruction that a plan names.
-/
namespace Sys2Proof.Machine

/-- What an agent does with its step. -/
inductive Plan where
  /-- run this instruction -/
  | run (i : Instr) (s : State)
  /-- nothing to run: the state after -/
  | still (s : State)
  /-- the input list holds no event -/
  | notEvent
deriving DecidableEq, Repr

/-- Whether the device runs work (R296): power states 3, 4 and 5. -/
def State.powered (s : State) : Bool := s.mod.pst == 3 || s.mod.pst == 4 || s.mod.pst == 5

/-- Whether a TP is in service in this power state (R296, R297, R299): one that is left out takes no more work, and ends what it has
(note 90). -/
def State.inService (s : State) (tp : Nat) : Bool := s.powered && s.mod.tps.contains tp

/-- The service watermark of a unit (R128, R129); none: no limit. -/
def Tp.watermark (t : Tp) (unit : Nat) : Option Nat :=
  let v := bits t.svwmAt.toNat (8 * (unit - 2)) 8
  if t.ac.sup && v != 255 then some v else none

/-- Whether a unit has issued all that its watermark allows. -/
def Tp.atWatermark (t : Tp) (unit since : Nat) : Bool :=
  match t.watermark unit with
  | some v => v ≤ since
  | none => false

/-- Whether units of the TP hold at their boundaries: a role change or a pre-emption request (R57, R130). -/
def Tp.holding (t : Tp) : Bool := t.role.isSome || t.preempt.isSome

/-- The A stream fetches a word of 16 or 32 bits and decodes it. -/
def State.fetchA (s : State) : Plan :=
  let pc := s.tp.ac.pc.toNat
  match s.fetch s.task pc 2 with
  | .error e => .still (s.stopUnit 1 none e)
  | .ok (b2, s) =>
    if leValue b2 % 4 != 3 then
      match Decode.decode .a b2 with
      | .ok (i, _) => .run i s
      | .error _ => .still (s.takeFatal 1 0x20 0 0)
    else
      match s.fetch s.task (pc + 2) 2 with
      | .error e => .still (s.stopUnit 1 none e)
      | .ok (b3, s) =>
        match Decode.decode .a (b2 ++ b3) with
        | .ok (i, _) => .run i s
        | .error _ => .still (s.takeFatal 1 0x20 0 0)

/-- Whether a context may start work: it is not held for want of energy (R275). -/
def State.mayRun (s : State) (ctx : Nat) : Bool :=
  match s.ctx? ctx with
  | some c => !c.stopped && (c.quota = 0 || 0 < c.bal)
  | none => false

/-- The image of a class to restore on the TP (R264). -/
def State.imageOf (s : State) (cls : Nat) : Option Image :=
  s.tp.images.find? (fun i => i.cls == cls && (s.tp.pile cls).ctx == some i.ctx && s.mayRun i.ctx)

/-- The TPs that a TP steals from, in order (R95): quad, cluster, die, other die. -/
def stealOrder (n : Nat) : List Nat :=
  let t := tileOf n
  let d := dieOf n
  let after := (List.range 63).map (fun i => (t + 1 + i) % 64)
  let own (f : Nat → Bool) : List Nat := (after.filter f).map (fun x => 64 * d + x)
  own (fun x => x / 4 == t / 4) ++ own (fun x => x / 16 == t / 16 && x / 4 != t / 4) ++ own (fun x => x / 16 != t / 16) ++
    ((List.range 64).map (fun i => 64 * (1 - d) + (t + 1 + i) % 64))

/-- The next pawn of a class for the TP, and the state without it: the top of its own pile, or the bottom of the on-chip
part of another one of the same context (R94, R95). -/
def State.takeClass (s : State) (cls : Nat) : Option (Entry × State) :=
  let p := s.tp.pile cls
  match p.ctx with
  | none => none
  | some ctx =>
    if !s.mayRun ctx then none
    else
      match p.chip with
      | e :: rest => some (e, { s with tp := s.tp.setPile cls ({ p with chip := rest }.refill) })
      | [] =>
        match (stealOrder s.cur).find? (fun n => ((s.getTp n).pile cls).ctx == some ctx && !((s.getTp n).pile cls).chip.isEmpty) with
        | none => none
        | some n =>
          let t := s.getTp n
          let q := t.pile cls
          match q.chip.getLast? with
          | some e => some (e, s.setTp n (t.setPile cls ({ q with chip := q.chip.dropLast }.refill)))
          | none => none

/-- The image that the TP restores before it takes a pawn: frame class first (R95, R264). -/
def State.imageNext (s : State) : Option Image :=
  match s.imageOf 1 with
  | some i => some i
  | none => if (s.takeClass 1).isSome then none else s.imageOf 0

/-- The units of the A stream's last store that have not been performed (R200). -/
def State.ownUnits (s : State) : List WeakWrite := s.weak.filter (fun w => w.tp == s.cur && w.agent == 1 && w.scope == 0)

/-- One of them is performed, the others still wait; before a tracked line changes, all are performed (R224). -/
def State.storeUnit (s : State) : State :=
  let own := s.ownUnits
  match own[s.turn.pick % max 1 own.length]? with
  | some w =>
    if (s.trackedLines w.place w.bytes.length).isEmpty then
      let t := ({ s with weak := s.weak.filter (fun x => !own.contains x) }.cPerform [(w.place, w.bytes)]).sendPosted w.ctx w.space
        w.place w.bytes.length
      { t with weak := t.weak ++ own.erase w }
    else s.drain (fun _ => true)
  | none => s

/-- Whether the AC stands between two instructions for service code: what an instruction has taken from a queue, pushed or moved of
a tile stays its own (R254, R420, R425, R427). -/
def Ac.atBoundary (a : Ac) : Bool := a.tokpLeft == 0 && a.heldScalar.isNone && a.heldTile.isNone && a.rows.isEmpty

/-- The access core: the rest of a store of several units, the next task, a save, a pending service entry, or the word at pc. -/
def State.planA (s : State) : Plan :=
  if !s.powered then .still s
  else if s.tp.parity && s.hasTask then
    .still ({ s with tp := { s.tp with parity := false } }.takeFatal 1 0x62 0 0)
  else if !s.ownUnits.isEmpty then .still s.storeUnit
  else if !s.hasTask then
    .run (if s.tp.preempt.isSome then .contextSaved else if s.imageNext.isSome then .restore else .taskStart) s
  else if s.tp.role.isSome then .run .roleChangeComplete s
  else if s.tp.preempt.isSome then .run .contextSaved s
  else if s.isStalled 1 || s.tp.ac.status != .running then .still s
  else if !s.tp.ac.sup && s.tp.ac.atBoundary && (s.oldestTrap.isSome || s.tp.ac.svcReq) then .run .serviceEntry s
  else s.fetchA

/-- Push what waits at retire, in order; the state after, and whether everything due has gone (R113, R66). Tokens and queue
entries of a stream whose task has ended are discarded once a later task runs: tokens and queues are its own (R70, R115). -/
def State.flush (s : State) (unit now : Nat) : List Push → State × List Push
  | [] => (s, [])
  | p :: l =>
    if now < p.due then (s, p :: l)
    else
      let own := s.tp.streamOf unit s.tp.cur
      match p with
      | .token _ u =>
        if !own then State.flush s unit now l
        else
          match s.pushToken unit u with
          | some s' => State.flush s' unit now l
          | none => (s, p :: l)
      | .scalar _ q v =>
        if !own && s.hasTask then State.flush s unit now l
        else if 16 ≤ (s.scalarQ q).length then (s, p :: l)
        else State.flush (s.setScalarQ q (s.scalarQ q ++ [v])) unit now l
      | .tile _ q v =>
        if !own && s.hasTask then State.flush s unit now l
        else if 4 ≤ (s.tileQ q).length then (s, p :: l)
        else State.flush (s.setTileQ q (s.tileQ q ++ [v])) unit now l

/-- Both streams of the last task have ended and none runs: what the queues hold is discarded (R70). -/
def State.clearQueues (s : State) : State :=
  if !s.hasTask && s.tp.ec.idle then
    { s with tp := { s.tp with queues := {}, poison := s.tp.poison.filter (fun q => q.1 != 3) } }
  else s

/-- Retire what can retire on the EC; special-function writes whose cycle has come are made (R124). -/
def State.settleE (s : State) : State :=
  let now := s.tp.ec.clock
  let go := s.tp.ec.spec.filter (fun w => w.due ≤ now)
  let s := go.foldl (fun s w => s.writeW w.reg w.on.getLsbD (Sparse.get w.tile)) s
  let s := s.setEc { s.tp.ec with spec := s.tp.ec.spec.filter (fun w => !(w.due ≤ now)), written := s.tp.ec.written + go.length }
  let r := s.flush 2 now s.tp.ec.pushes
  (r.1.setEc { r.1.tp.ec with
    pushes := r.2, pushed := s.tp.ec.pushed + (s.tp.ec.pushes.length - r.2.length) }).clearQueues

/-- A cycle passes on the EC without an issue. -/
def State.idleE (s : State) : State := s.setEc { s.tp.ec with clock := s.tp.ec.clock + 1 }

/-- Whether a push that is due cannot be made: the stream issues nothing until it can (note 11). -/
def blocked (now : Nat) : List Push → Bool
  | [] => false
  | p :: _ => p.due ≤ now

/-- The advance of the triple past a word that is no taken branch (R121). -/
def Ec.advance (ec : Ec) : Ec :=
  { ec with pc := ec.npc, npc := ec.nnpc, nnpc := ec.nnpc + 8, a1 := ec.a2, a2 := false, slot1 := ec.slot2, slot2 := false }

/-- After the word at LEND of an active loop: the counts and the rotation, then back to the start or out (R126). -/
def Ec.loopEnd (ec : Ec) (out : Ec → Ec) : Ec :=
  match ec.loop with
  | some l =>
    if ec.pc = l.lend then
      let l' := { l with lc := l.lc - 1, k := l.k + 1 }
      let prb := ec.prb + 7
      let p := Sparse.set ec.p (8 + prb.toNat) (if l'.k < l.n then BitVec.allOnes 1024 else 0)
      let ec' := { ec with rrb := ec.rrb + 15, prb := prb, p := p }
      if 0 < l'.lc then
        { ec' with loop := some l', pc := l.start, npc := l.start + 8, nnpc := l.start + 16, a1 := false, a2 := false,
                   slot1 := false, slot2 := false }
      else { out ec' with loop := none }
    else out ec
  | none => out ec

/-- The registers of a task's first instruction (R92): ITER at 1, the T-level counts from 16. -/
def Task.counts (k : Task) (r : Nat) : Dword :=
  if r = 1 then BitVec.ofNat 64 k.entry.pawn.iter else if 16 ≤ r && r < 24 then k.tcounts.getD (r - 16) 0 else 0

/-- The E stream of a task starts (R92, R109); its words count for the watermark from the service entry on (R128). Predicates, tile registers, RRB and PRB keep what the task before left: no rule
gives them a value at the start of a task (note 44). -/
def State.startE (s : State) (k : Task) : State :=
  let pc := k.hdr.getD 1 0
  let s := s.setEc { s.tp.ec with
    e := Sparse.ofFn 32 k.counts, pc := pc, npc := pc + 8, nnpc := pc + 16, a1 := false, a2 := false, slot1 := false
    slot2 := false, loop := none, pushes := [], spec := [], status := .running, task := k.id, trec := none }
  { s with tp := { s.tp with late := s.tp.late.filter (fun l => l != (2, k.id)) } }

/-- The B stream of a task starts (R109). -/
def State.startB (s : State) (k : Task) : State :=
  let s := s.setBe { s.tp.be.fresh with
    pc := k.hdr.getD 2 0, loops := [], skip := 0, chain := none, pushes := [], status := .running, task := k.id, trec := none }
  { s with tp := { s.tp with late := s.tp.late.filter (fun l => l != (3, k.id)), poison := s.tp.poison.filter (fun q => q.1 != 2) } }

/-- The task whose stream a unit starts next, once its earlier work has ended (R109). -/
def State.lateTask (s : State) (unit : Nat) (idle : Bool) : Option Task :=
  if idle then (s.tp.late.find? (fun l => l.1 == unit)).map (fun l => s.tp.taskOf l.2) else none

/-- The execute core: a waiting stream starts; an annulled slot passes, or the word at pc is fetched and decoded. -/
def State.planE (s : State) : Plan :=
  if !s.powered then .still s
  else
    let s := s.settleE
    if s.isStalled 2 || s.tp.holding then .still s.idleE
    else if let some k := s.lateTask 2 s.tp.ec.idle then .still (s.startE k)
    else if s.tp.ec.status != .running then .still s.idleE
    else if s.tp.atWatermark 2 s.tp.ec.since then .still (s.setEc { s.tp.ec with status := .held })
    else if blocked s.tp.ec.clock s.tp.ec.pushes then .still s.idleE
    else if s.tp.ec.a1 then .still (s.setEc { s.tp.ec.loopEnd Ec.advance with clock := s.tp.ec.clock + 1 })
    else if s.tp.ec.pc.toNat % 8 != 0 then .still (s.takeFatal 2 0x23 0 0)
    else
      match s.fetch (s.tp.taskOf s.tp.ec.task) s.tp.ec.pc.toNat 8 with
      | .error e => .still (s.stopUnit 2 none e)
      | .ok (bs, s) =>
        match Decode.decode .e bs with
        | .ok (i, _) => .run i s
        | .error _ => .still (s.takeFatal 2 0x21 0 0)

/-- A BLOOP with count 0 passes a word (R353): nested BLOOP and BEND pair up. -/
def State.skipB (s : State) (op : Nat) : State :=
  let be := s.tp.be
  if op = 0x3F then s.takeFatal 3 0x25 0 0
  else
    s.setBe { be with pc := be.pc + 12
                      skip := if op = 0x30 then be.skip + 1 else if op = 0x31 then be.skip - 1 else be.skip }

/-- The butterfly engine: the word at its pc. A chain in progress runs to its end before a hold (R139). -/
def State.planB (s : State) : Plan :=
  if !s.powered then .still s
  else
    let r := s.flush 3 0 s.tp.be.pushes
    let s := r.1.setBe { r.1.tp.be with
      pushes := r.2, pushed := s.tp.be.pushed + (s.tp.be.pushes.length - r.2.length) }
    let free := s.tp.be.chain.isNone
    if s.isStalled 3 || (free && s.tp.holding) then .still s
    else if let some k := s.lateTask 3 s.tp.be.idle then .still (s.startB k)
    else if s.tp.be.status != .running then .still s
    else if free && s.tp.atWatermark 3 s.tp.be.since then .still (s.setBe { s.tp.be with status := .held })
    else if blocked 0 s.tp.be.pushes then .still s
    else
      match s.fetch (s.tp.taskOf s.tp.be.task) s.tp.be.pc.toNat 12 with
      | .error e => .still (s.stopUnit 3 none e)
      | .ok (bs, s) =>
        if s.tp.be.skip != 0 then .still (s.skipB (leValue bs / 2 ^ 88))
        else match Decode.decode .b bs with
        | .ok (i, _) => .run i s
        | .error _ => .still (s.takeFatal 3 0x21 0 0)

/-- An entry becomes a command: it moves into the shadow set (R118, R119). -/
def Chain.shadow (c : Chain) (w : BitVec 128) (addr : Nat) (k : Task) : Chain :=
  { c with shd := w, shdAddr := addr, sv := true, shdId := k.id, shdBlock := if k.block then some k else none
           popped := false, state := 1, ahead := if k.block then c.ahead else none
           closed := if k.block then c.closed else none }

/-- Whether an opcode is evaluated by the walk: the control entries (R320), and TOKW, which is like a KNOP (R427). -/
def isControl (w : BitVec 128) : Bool := bits w.toNat 120 8 < 6 || bits w.toNat 120 8 == 9

/-- Whether a token field names another unit: no other code is waited on or pushed to (R112). -/
def tokenCode (u : ChainUnit) (t : BitVec 3) : Bool := t != 0 && t != 7 && t.toNat != u.code

/-- Whether the FIFO from a unit holds `n` tokens for work of a task: they are matched within the last task started
(R115). -/
def State.tokensFor (s : State) (u : ChainUnit) (k : Task) (p n : Nat) : Bool :=
  k.id == s.tp.tokTask && n ≤ s.tokens p u.code

/-- Whether every command of an engine's own chain before a KSTOP has completed (R118). -/
def Chain.drained (c : Chain) : Bool :=
  !(c.av && c.actBlock.isNone) && !(c.sv && c.shdBlock.isNone) && c.infl.all (fun f => f.block.isSome)

/-- Whether the tokens that an entry of the walk waits for are there: its TKW, and those of TOKW (R118, R427). -/
def State.walkTokens (s : State) (u : ChainUnit) (k : Task) (w : BitVec 128) : Bool :=
  let f := Decode.kFields w
  let p := bits f.arg.toNat 0 3
  ((s.eng u).popped || !tokenCode u f.tkw || s.tokensFor u k f.tkw.toNat 1) &&
    (bits w.toNat 120 8 != 9 || !tokenCode u (BitVec.ofNat 3 p) || s.tokensFor u k p (bits f.arg.toNat 4 4))

/-- Whether what an entry of the walk pushes has room, and a KSTOP finds its commands completed (R118). -/
def State.walkRoom (s : State) (u : ChainUnit) (k : Task) (w : BitVec 128) : Bool :=
  let f := Decode.kFields w
  let op := bits w.toNat 120 8
  (!(op < 6) || !tokenCode u f.tkp || k.id != s.tp.cur || s.tokens u.code f.tkp.toNat < 15) && (op != 5 || (s.eng u).drained)

/-- An engine evaluates an entry of its block or its chain, once it can: its TKW is honoured first (R118). While it waits for a
token its STATE is 2, unless a command is active. -/
def State.walkEntry (s : State) (u : ChainUnit) (k : Task) (w : BitVec 128) (addr : Nat) : Option Plan :=
  if !s.walkTokens u k w then
    if (s.eng u).av || (s.eng u).state = 2 then none else some (.still (s.setEng u { s.eng u with state := 2 }))
  else if !s.walkRoom u k w then
    if (s.eng u).state = 2 then some (.still (s.setEng u { s.eng u with state := 1 })) else none
  else
    let t := (Decode.kFields w).tkw
    let pops : Bool := !(s.eng u).popped && tokenCode u t
    let s := if pops then s.takeTokens t.toNat u.code 1 else s
    let c := { s.eng u with popped := true }
    let c := if pops then c.reopen else c
    if isControl w then
      match Decode.decodeChain u w with
      | some i => some (.run i (s.setEng u c))
      | none => some (.still ((s.setEng u c).walkFatal u 0x21))
    else
      match c.running with
      | some b => some (.still (s.setEng u ({ c with running := some { b with pos := b.pos + 1 } }.shadow w 0 k)))
      | none => some (.still (s.setEng u ({ c with ent := c.ent + 1 }.shadow w addr k)))

/-- The chain of the first handed head: the walk reads the entry at ENT, and then evaluates what it read (R119). -/
def State.walkHead (s : State) (u : ChainUnit) : Option Plan :=
  let c := s.eng u
  match c.heads with
  | [] => none
  | (a, id) :: _ =>
    if !c.walking then
      some (.still (s.setEng u { c with walking := true, ent := BitVec.ofNat 17 (a / 16), ldep := 0, popped := false
                                        ahead := none, closed := none, state := 1 }))
    else
      let addr := c.ent.toNat * 16
      match c.ahead with
      | some (w, _) => s.walkEntry u (s.tp.taskOf id) w addr
      | none =>
        if !s.tp.usable addr 16 then some (.still (s.walkFatal u 0x4D))
        else if s.tp.bankPoisoned addr 16 then some (.still (s.walkFatal u 0x61))
        else some (.still (s.setEng u { c with ahead := s.entryAhead c }))

/-- An engine walks: the running block, a new block between two commands, or the chain of its first head (R103, R117). None
when there is nothing to walk, or the next entry cannot be evaluated yet. A block that starts comes after what its sender
knew (R203). -/
def State.walkPlan (s : State) (u : ChainUnit) : Option Plan :=
  let c := s.eng u
  match c.running with
  | some b =>
    match b.entries[b.pos]? with
    | some w => s.walkEntry u b.task w 0
    | none => some (.still (s.setEng u { c with running := none, ldep := BitVec.ofNat 3 b.base, popped := false }.rest))
  | none =>
    match c.blocks with
    | b :: rest =>
      if !c.popped && (c.heads.isEmpty || s.turn.pick / 2 % 2 = 1) then
        let s := { s with tp := s.tp.dropStale (fun x => x.agent == u.code) }
        some (.still (s.setEng u { c with running := some { b with base := c.ldep.toNat }, blocks := rest, state := 1 }))
      else s.walkHead u
    | [] => s.walkHead u

/-- The active command of an engine: its fields are checked when it issues (R119). -/
def State.activePlan (s : State) (u : ChainUnit) : Plan :=
  match Decode.decodeChain u (s.eng u).act with
  | some i => .run i s
  | none => .still (s.takeFatal u.code 0x21 0 0)

/-- What a chain engine may do next (R117 to R119): a completion, the next accesses of the active command, its issue, the
move of the shadow set, the walk. A hold stops all but what has issued (R57, R130). -/
def State.chainPlans (s : State) (u : ChainUnit) : List Plan :=
  let c := s.eng u
  let going := !s.isStalled u.code && c.state != 5
  let free := going && !s.tp.holding
  let wm := s.tp.atWatermark u.code c.since
  let done := (match c.infl with
    | f :: _ => !f.media
    | [] => false) && !s.faults.any (fun f => f.tp == s.cur && f.unit == u.code && f.completing)
  (if done then [.run (.commandCompletes u) s] else []) ++
    (if going && c.av && c.aprg != 0 && !s.tp.stopNow.contains u.code then [s.activePlan u] else []) ++
    (if free && wm then (if c.hasWork && c.state != 4 && !(c.av && c.aprg != 0) then [.still (s.setEng u { c with state := 4 })] else [])
    else if free then
      (if c.av && c.aprg = 0 then [s.activePlan u] else []) ++
        (if !c.av && c.sv then [.run (.shadowToActive u) s] else []) ++
        (if !c.sv then (s.walkPlan u).toList else [])
    else [])

/-- The HE has executed what an earlier task left to it: the slots are invalid, as they are at a task's start (R109, R179). -/
def State.settleHe (s : State) : State :=
  let go (l : Nat × Nat) : Bool := l.1 == 6 && !s.tp.he.earlierWork l.2
  if s.tp.late.any go then { s with tp := { s.tp with late := s.tp.late.filter (fun l => !go l), slots := [] } } else s

/-- A chain engine's step: one of its choices. -/
def State.planChain (s : State) (u : ChainUnit) : Plan :=
  if !s.powered then .still s
  else
    let s := s.settleHe
    let l := s.chainPlans u
    (l[s.turn.pick % max 1 l.length]?).getD (.still s)

/-! ## The device and the outside -/

/-- Whether a boundary of a period of `per` ns has passed since `last`. -/
def boundaryPassed (per last now : Nat) : Bool := per != 0 && last / per < now / per

/-- Period of a context in ns (R273) and window of a tenant in ns (R271). -/
def Ctx.period (c : Ctx) : Nat := bits c.e0.toNat 0 20 * 1000
def Tenant.window (t : Tenant) : Nat := bits t.v0.toNat 0 20 * 1000

/-- 10,400 cycles of the arithmetic clock at its operating point, in ns (R3, R57, R281): the time of a role change after which
an active command stops. -/
def State.roleLimit (s : State) : Nat := ceilDiv (10400 * 10) ([26, 22, 18, 13].getD s.mod.arith 26)

/-- The time of a pre-emption after which an active command stops (R260): 4.0 µs, at every operating point. -/
def saveLimit : Nat := 4000

/-- Whether the units of the TP have been asked to hold a time ago (R57, R260). -/
def State.timeUp (s : State) (limit : Nat) : Bool := s.tp.holdAt + limit ≤ s.time

/-- Whether frame pawns are ready, no bound TP is idle, and this TP runs a bulk task of the context (R104, R259). -/
def State.frameWaits (s : State) : Bool :=
  match s.tp.frame.ctx with
  | none => false
  | some ctx =>
    let bound := s.tpNumbers.filter (fun n => (s.getTp n).frame.ctx == some ctx)
    s.hasTask && s.task.entry.pawn.cls == 0 && s.tp.preempt.isNone && s.mayRun ctx &&
      bound.any (fun n => !(s.getTp n).frame.chip.isEmpty) && bound.all (fun n => (s.getTp n).cur != 0)

/-- The events that the device may run now: those whose own test fails leave the state as it is. -/
def State.deviceEvents (s : State) : List Instr :=
  List.flatten [
    (if s.queues.any (fun e => (!e.2.faulted && s.backlogged e.2) || s.idleCredit e.1 e.2) then
      [.launchStart] else []),
    (if s.launches.isEmpty then [] else [.deal 0, .deal 1]),
    (s.launches.filter (fun l => l.live = 0)).map (fun l => .launchCompletion (BitVec.ofNat 16 l.lid)),
    (if s.regions.isEmpty then [] else [.regionRelease 0, .regionRelease 1]),
    ((List.range s.watches.length).map .parkWake),
    ((s.tp.ac.handles.filter (fun h => h.2.st = .pending)).map (fun h => .walkComplete (BitVec.ofNat 4 h.1))),
    (if s.frameWaits then [.preemptionRequest .frame] else []),
    (if s.tp.role.isSome && s.timeUp s.roleLimit then [.roleChangeTimeout .ce, .roleChangeTimeout .ie, .roleChangeTimeout .he] else []),
    (if s.tp.preempt.isSome && s.timeUp saveLimit then
      [.preemptionEngineTimeout .ce, .preemptionEngineTimeout .ie, .preemptionEngineTimeout .he] else []),
    (if s.invalidations.isEmpty then [] else [.invalidationCompletion]),
    (if s.tp.ec.spec.isEmpty then [] else [.specialFunctionWrite]),
    (if s.mod.arith < s.mod.maxArith then [.operatingPointChange 0 (BitVec.ofNat 2 s.mod.maxArith)] else []),
    (if s.mod.fabric < s.mod.maxFabric then [.operatingPointChange 1 (BitVec.ofNat 2 s.mod.maxFabric)] else []),
    (if boundaryPassed 20000 s.lcAt s.time then [.logicalClockAdvance] else []),
    ((s.ctxs.filter (fun e => e.2.e0Next.isSome || (e.2.quota != 0 && boundaryPassed e.2.period e.2.lastEnd s.time))).map
      (fun e => .quotaPeriodEnd (BitVec.ofNat 8 e.1))),
    ((s.tenants.filter (fun e => boundaryPassed e.2.window e.2.lastEnd s.time)).map (fun e => .capWindowEnd (BitVec.ofNat 4 e.1)))]

/-- The device runs one of its events, or sends the record of a context that has stopped (R251, step 6). -/
def State.planDevice (s : State) : Plan :=
  let l := s.owing.map (fun c => .still (s.reportStop c)) ++ s.deviceEvents.map (fun i => .run i s)
  (l[s.turn.pick % (max 1 l.length)]?).getD (.still s)

/-- The media engines begin or go on with a command (R163). -/
def State.planMedia (s : State) : Plan :=
  match s.media[s.turn.pick % (max 1 s.media.length)]? with
  | some m => .run (.mediaCommandStart m.eng) s
  | none => .still s

/-- The agent of an engine of the TP in focus, or of a media engine, that holds on to a value: 1 to 3 the chain engines, 4 a media
engine. -/
def State.holderOf (s : State) (k : Nat) : Nat :=
  if k % 6 = 4 then 8 + s.turn.tp / 128 % 64 else 3 + k % 6

/-- An agent of the TP in focus, a media engine or a service core holds on to the present value of a unit or a line, which it may
still read later (R206, R207): `k` says whose, and where. -/
def State.takeStale (s : State) (k : Nat) : State :=
  let unit := k / 6
  if s.unreadable (unit * 8) 8 then s
  else if k % 6 = 0 then
    let l := lineOf (unit * 8)
    let r := s.leaseLine s.tp.ac.lc l (s.view s.cur 1)
    if s.tp.ac.lc < (s.ts l).wts then s
    else
      let old := s.tp.cache.find? (fun c => c.line == l)
      let c : CLine := { r.2.1 with bank := old.bind CLine.bank, ctx := (old.map CLine.ctx).getD 0
                                    dirty := (old.map CLine.dirty).getD false }
      { r.2.2 with tp := { s.tp with cache := c :: s.tp.cache.filter (fun c => c.line != l) } }
  else if k % 6 = 5 then
    let n := s.turn.tp / 128 % 16
    let l := lineOf (unit * 8)
    let c := s.core n
    let r := s.leaseLine c.lc l (s.view (64 * (n / 8)) (coreCode n))
    if c.lc < (s.ts l).wts then s
    else r.2.2.setCore n { c with cache := r.2.1 :: c.cache.filter (fun x => x.line != l) }
  else
    let agent := s.holderOf k
    let x : Stale := { agent := agent, unit := unit, bytes := Sparse.run (s.view (if agent < 8 then s.cur else 0) agent) (unit * 8) 8 }
    s.setStale agent (x :: (s.staleOf agent).filter (fun x => !(x.agent == agent && x.unit == unit)))

/-- A unit of the TP in focus holds on to the present value of an aligned 8-byte unit of the banks, or lets go of the one it
holds (R62): `k` says which. -/
def State.holdBank (s : State) (k : Nat) : State :=
  let unit := k / 16
  let who := 1 + k % 8 % 6
  let x : Stale := { agent := who, unit := unit, bytes := s.readBank (unit * 8) 8 }
  let rest := s.tp.bankStale.filter (fun x => !(x.agent == who && x.unit == unit))
  { s with tp := { s.tp with bankStale := if k / 8 % 2 = 0 && 8 * unit < 0x200000 then x :: rest else rest } }

/-- The memory system performs one pending write that no other one comes before (R201, R202, R218), or an agent holds on to a
value. -/
def State.planFabric (s : State) : Plan :=
  let k := s.turn.pick / 4
  if s.turn.pick % 4 = 1 then .still (s.takeStale k)
  else if s.turn.pick % 4 = 3 then .still (s.holdBank k)
  else
    match s.weak[k % (max 1 s.weak.length)]? with
    | some w =>
      match (splitWeak (fun x => x == w) s.weak).1 with
      | x :: _ =>
        if (s.trackedLines x.place x.bytes.length).isEmpty then .still ({ s with weak := s.weak.erase x }.performOne x)
        else .still (s.drain (fun y => y == x))
      | [] => .still s
    | none => .still s

/-- The outside: the next input. -/
def State.planOutside (s : State) : Plan :=
  match s.inputs with
  | [] => .still s
  | i :: rest => if WellFormed.isEvent i then .run i { s with inputs := rest } else .notEvent

/-- The plan of whoever has the turn. -/
def State.plan (s : State) : Plan :=
  let s := s.focus (s.turn.tp % 128)
  match s.turn.agent with
  | .ac => s.planA
  | .ec => s.planE
  | .be => s.planB
  | .ce => s.planChain .ce
  | .ie => s.planChain .ie
  | .he => s.planChain .he
  | .media => s.planMedia
  | .fabric => s.planFabric
  | .device => s.planDevice
  | .outside => s.planOutside

/-- What passes with every step: the step count, device time, and whose turn is next. -/
def State.tick (s : State) : State :=
  let t := Config.arbiter s.steps
  { s with steps := s.steps + 1, time := s.time + Config.elapsed s.steps, turn := ⟨t.1, t.2.1, t.2.2⟩ }

/-! ## Placing an instruction for a fetch -/

/-- The page of code that `stage` uses: virtual and physical address, in a tenant's carve-out. -/
def codeAt : Nat := 0x10000

/-- A task ready to run instructions on the TP in focus: power, service, context, tenant and the code page (note 8). -/
def State.ready (s : State) (bs : List Byte) : State :=
  let t := s.tp
  let id := if t.cur = 0 then s.nextTask else t.cur
  let ctx := if t.cur = 0 then 0 else (t.taskOf t.cur).ctx
  let quiet (c : Chain) : Chain := { c with trec := none }
  let page : Page := { va := codeAt, size := 0x10000, place := codeAt, r := true, w := true, x := true }
  let c := s.getCtx ctx
  let ten := s.getTenant c.tenant
  { s with
    mem := Memory.writeBytes s.mem codeAt bs
    nextTask := if t.cur = 0 then s.nextTask + 1 else s.nextTask
    faults := s.faults.filter (fun f => f.tp != s.cur)
    ctxs := Map.put s.ctxs ctx c
    tenants := Map.put s.tenants c.tenant { ten with base := 0, limit := max ten.limit 0x100000 }
    mod := { s.mod with pst := 4, tps := if s.mod.tps.contains s.cur then s.mod.tps else s.cur :: s.mod.tps,
                        poison := s.mod.poison.filter (fun q => !(codeAt - 8 < q && q < codeAt + 16)) }
    tp := { t with
      parity := false, role := none, preempt := none, stopNow := [], cur := id, tokTask := id, svwmAt := 0xFFFFFFFFFF
      tasks := if t.cur = 0 then { id := id, ctx := ctx : Task } :: t.tasks
               else t.tasks.map (fun k => if k.id == id then { k with code := none } else k)
      tlb := ⟨ctx, 0, page⟩ :: t.tlb
      ac := { t.ac with svcReq := false }
      ec := { t.ec with trec := none }
      be := { t.be with trec := none }
      ce := quiet t.ce, ie := quiet t.ie, he := quiet t.he } }

/-- Place an instruction's bytes where its stream or engine takes its next one, and give it the turn. -/
def State.stage (s : State) (src : Decode.Source) (bs : List Byte) : State :=
  let s := (s.drain (fun w => w.tp == s.cur && w.agent == 1 && w.scope == 0)).ready bs
  let pc := BitVec.ofNat 64 codeAt
  let turn (a : Agent) : Turn := { tp := s.cur, agent := a, pick := 0 }
  match src with
  | .a => { s.setAc { s.tp.ac with pc := pc, status := .running, mark := none } with turn := turn .ac }
  | .e =>
    { s.setEc { s.tp.ec with pc := pc, npc := pc + 8, nnpc := pc + 16, a1 := false, a2 := false, slot1 := false,
                             slot2 := false, loop := none, status := .running, task := s.tp.cur, since := 0, pushes := [] }
      with turn := turn .ec }
  | .b =>
    { s.setBe { s.tp.be with pc := pc, status := .running, task := s.tp.cur, since := 0, skip := 0, pushes := [] }
      with turn := turn .be }
  | .chain u =>
    let w := BitVec.ofNat 128 (leValue bs)
    let head : Nat × Nat := (0x80000, s.tp.cur)
    let c := { s.eng u with state := 1, heads := [head], walking := true, popped := true, ent := 0x8000, blocks := [],
                            running := none, infl := [], sv := false, ahead := none, closed := none, actBlock := none, actId := s.tp.cur, actAddr := 0x80000,
                            act := w, aprg := 0, tits := [], since := 0 }
    let s := s.writeBank 0x80000 bs
    let s := { s with tp := { s.tp with brr := 0xAAAAAAAA55550000 } }
    { s.setEng u (if isControl w then { c with av := false, ahead := some (w, some (BitVec.ofNat 64 (s.bankValue (bits w.toNat 32 21) 8))) }
                  else { c with av := true })
      with turn := turn (match u with
        | .ce => .ce
        | .ie => .ie
        | .he => .he) }

end Sys2Proof.Machine
end

