-- ==== Sys2Proof/Machine/Window.lean ====
section
/-!
DEFINITION. The TP-local window that AC loads, stores, LR, SC and AMOs address (03 R47 to R49, 05 R116, R120, R129,
11 R245), and the writes of its control registers (03 R57, R64).
-/
namespace Sys2Proof.Machine

/-! ## Registers of the window -/

/-- CSTAT (R120). -/
def Chain.cstat (c : Chain) : Dword :=
  BitVec.ofNat 64 (c.infl.length * 256 + b2n c.sv * 128 + b2n c.av * 64 + c.state.toNat)

/-- A register of an engine's sets at offset `o` from its base (R120). -/
def Chain.readReg (c : Chain) (o : Nat) : Dword :=
  match o with
  | 0x00 => c.act.setWidth 64
  | 0x08 => (c.act >>> 64).setWidth 64
  | 0x10 => c.aprg
  | 0x18 => c.shd.setWidth 64
  | 0x20 => (c.shd >>> 64).setWidth 64
  | 0x28 => c.cstat
  | 0x30 => c.upc
  | 0x38 => Sparse.get c.lsk 0
  | 0x40 => Sparse.get c.lsk 1
  | 0x48 => Sparse.get c.lsk 2
  | 0x50 => Sparse.get c.lsk 3
  | _ => 0

/-- The low or the high half of an entry replaced. -/
def setLow (w : BitVec 128) (v : Dword) : BitVec 128 := BitVec.ofNat 128 (w.toNat / 2 ^ 64 * 2 ^ 64 + v.toNat)
def setHigh (w : BitVec 128) (v : Dword) : BitVec 128 := BitVec.ofNat 128 (v.toNat * 2 ^ 64 + w.toNat % 2 ^ 64)

/-- The writable bits of LSKk (R120): CNT and BODY. -/
def lskMask (v : Dword) : Dword := BitVec.ofNat 64 (bits v.toNat 32 16 * 2 ^ 32 + bits v.toNat 4 17 * 16)

/-- A supervisor's store to a register of an engine's sets (R120); none for a reserved address. INFL counts the commands
in flight, which no store makes: a store leaves it (note 13). A command that the store puts into a set is the task's, `id`. -/
def Chain.writeReg (c : Chain) (id o : Nat) (v : Dword) : Option Chain :=
  match o with
  | 0x00 => some { c with act := setLow c.act v }
  | 0x08 => some { c with act := setHigh c.act v }
  | 0x10 => some { c with aprg := v }
  | 0x18 => some { c with shd := setLow c.shd v }
  | 0x20 => some { c with shd := setHigh c.shd v }
  | 0x28 => some { c with sv := bitAt v.toNat 7, av := bitAt v.toNat 6, state := BitVec.ofNat 3 v.toNat,
                             actId := if c.av then c.actId else id, shdId := if c.sv then c.shdId else id }
  | 0x30 => some { c with ldep := BitVec.ofNat 3 (v.toNat / 2 ^ 21), ent := BitVec.ofNat 17 (v.toNat / 16), ahead := none, closed := none }
  | 0x38 => some { c with lsk := Sparse.set c.lsk 0 (lskMask v) }
  | 0x40 => some { c with lsk := Sparse.set c.lsk 1 (lskMask v) }
  | 0x48 => some { c with lsk := Sparse.set c.lsk 2 (lskMask v) }
  | 0x50 => some { c with lsk := Sparse.set c.lsk 3 (lskMask v) }
  | _ => none

/-- Token counts `n` of them from FIFO `f0` (R116). -/
def State.tks (s : State) (f0 n : Nat) : Dword :=
  BitVec.ofNat 64 ((List.range n).foldl (fun v i => v + (Sparse.get s.tp.tokens (f0 + i)).toNat * 16 ^ i) 0)

/-- A register of the control and command-set regions (R49, R116, R120, R129, R245); reserved ones read zero. -/
def State.readControl (s : State) (a : Nat) : Dword :=
  if a = 0x1000000 then s.tp.brr
  else if a = 0x1000008 then s.tp.qdir
  else if a = 0x1000010 then s.qstat
  else if a = 0x1000018 then s.hstat
  else if a < 0x1001000 then 0
  else if a < 0x1001300 then
    (s.eng (if a < 0x1001100 then .ce else if a < 0x1001200 then .ie else .he)).readReg (a % 256)
  else if a = 0x1001400 then s.tks 0 16
  else if a = 0x1001408 then s.tks 16 14
  else if a = 0x1001410 then s.tp.svwm
  else if 0x1001500 ≤ a && a < 0x1001540 then s.tp.ac.trec.getD ((a - 0x1001500) / 8) 0
  else if a = 0x1001540 then BitVec.ofNat 64 s.tp.ac.pend.toNat
  else 0

/-- Whether a BRR value breaks R52. -/
def badBrr (v : Dword) : Bool := bits v.toNat 0 2 != 0 || (List.range 32).any (fun b => roleOf v b == 3)

/-- Write BRR (R52, R57): a new value starts a role change, which the A stream waits for. -/
def State.writeBrr (s : State) (v : Dword) : Try State :=
  if badBrr v then .error (.fatal 0x45 0 0)
  else if v = s.tp.brr then .ok s
  else .ok { s with tp := { s.tp with role := some { brr := v }, holdAt := s.time } }

/-- Write QDIR (R64). -/
def State.writeQdir (s : State) (v : Dword) : Try State :=
  if v.toNat ≥ 256 then .error (.fatal 0x47 0 0)
  else if (List.range 8).any (fun q => s.eToA q != bitAt v.toNat q && s.queueLen q != 0) then .error (.fatal 0x47 0 0)
  else .ok { s with tp := { s.tp with qdir := v } }

/-- A store to a register of the command-set region (R120, R129, R245). -/
def State.writeSets (s : State) (a : Nat) (v : Dword) : Try State :=
  if 0x1001000 ≤ a && a < 0x1001300 then
    let u : ChainUnit := if a < 0x1001100 then .ce else if a < 0x1001200 then .ie else .he
    let c := s.eng u
    if !s.tp.ac.sup || c.state = 1 || c.state = 2 || c.state = 3 || (a % 256 = 0x30 && 4 < bits v.toNat 21 3) then
      .error (.fatal 0x44 0 0)
    else
      match c.writeReg s.tp.cur (a % 256) v with
      | some c' => .ok (s.setEng u c')
      | none => .error (.fatal 0x44 0 0)
  else .error (.fatal 0x44 0 0)

/-! ## Accesses -/

/-- The checks of an access of `n` bytes to the banks (R48, R55). -/
def State.bankAccess (s : State) (a n : Nat) : Try Unit :=
  if a / 0x10000 != (a + n - 1) / 0x10000 then .error (.fatal 0x44 0 0)
  else if !s.tp.usable a n then .error (.fatal 0x43 0 0)
  else .ok ()

/-- Whether an address lies in the control or the command-set region. -/
def inControl (a : Nat) : Bool := 0x1000000 ≤ a && a < 0x1002000

/-- A load of `n` bytes from the window (R47, R48). -/
def State.windowLoad (s : State) (a n : Nat) : Try Nat :=
  if a < 0x200000 then
    match s.bankAccess a n with
    | .error e => .error e
    | .ok () =>
      match s.bankBytes a n with
      | .error e => .error e
      | .ok bs => .ok (leValue bs)
  else if inControl a && n = 8 && a % 8 = 0 then .ok (s.readControl a).toNat
  else .error (.fatal 0x44 0 0)

/-- A load of the access core that finds the bit of a completion event clear comes after the command's completion, as a pop of its
token would (R366). -/
def State.heed (s : State) (a n : Nat) : State :=
  if s.tp.events.any (fun e => a ≤ e && e < a + n && !bitAt (leValue (s.shownBank e 1)) 0) then
    { s with tp := s.tp.dropBankStale 1 }
  else s

/-- The checks of a store to the window that do not look at its value (R48, R55, R120): step 4 of R473. -/
def State.storeCheck (s : State) (a n : Nat) : Try Unit :=
  if a < 0x200000 then s.bankAccess a n
  else if inControl a && n = 8 && a % 8 = 0 then
    if a = 0x1000000 || a = 0x1000008 then .ok () else (s.writeSets a 0).map (fun _ => ())
  else .error (.fatal 0x44 0 0)

/-- A store of `n` bytes to the window (R47, R48). -/
def State.windowStore (s : State) (a n v : Nat) : Try State :=
  if a < 0x200000 then
    match s.bankAccess a n with
    | .error e => .error e
    | .ok () => .ok (s.putBank a n (byteOf v))
  else if inControl a && n = 8 && a % 8 = 0 then
    if a = 0x1000000 then s.writeBrr (BitVec.ofNat 64 v)
    else if a = 0x1000008 then s.writeQdir (BitVec.ofNat 64 v)
    else s.writeSets a (BitVec.ofNat 64 v)
  else .error (.fatal 0x44 0 0)

/-- The checks of an LR, SC or AMO of `n` bytes (R48): naturally aligned, in the banks. -/
def State.atomicAccess (s : State) (a n : Nat) : Try Unit :=
  if a % n != 0 || 0x200000 ≤ a then .error (.fatal 0x44 0 0) else s.bankAccess a n

/-! ## The events of R57, R64 and R120 -/

/-- The A stream's write of BRR, before its SD retires (R57). -/
def execBrrWrite (v : Dword) (s : State) : Host.Outcome State Fault Refusal := acJump s (fun s => s.writeBrr v)

/-- The A stream's write of QDIR (R64). -/
def execQdirWrite (v : Dword) (s : State) : Host.Outcome State Fault Refusal := acJump s (fun s => s.writeQdir v)

/-- The A stream's store to a register without a row of its own (R120): `addr` is a window address. -/
def execLocalWindowStore (addr v : Dword) (s : State) : Host.Outcome State Fault Refusal :=
  acJump s (fun s => s.windowStore addr.toNat 8 v.toNat)

end Sys2Proof.Machine
end

