-- ==== Sys2Proof/Machine/RiscV.lean ====
section
/-!
DEFINITION. RISC-V words of the A stream: RV64GC, Zba, Zbb, Zicond (14 R302), whose loads, stores and atomics address the
TP-local window (03 R47).
-/
namespace Sys2Proof.Machine

/-! ## Integer operations -/

/-- A 32-bit result, sign-extended. -/
def sext32 (v : Word) : Dword := v.signExtend 64

/-- A condition as a register value. -/
def flag (b : Bool) : Dword := if b then 1 else 0

/-- Signed quotient by RISC-V: -1 for a zero divisor. -/
def divS {w : Nat} (a b : BitVec w) : BitVec w := if b = 0 then BitVec.allOnes w else a.sdiv b
/-- Unsigned quotient by RISC-V: all ones for a zero divisor. -/
def divU {w : Nat} (a b : BitVec w) : BitVec w := if b = 0 then BitVec.allOnes w else a / b
/-- Signed remainder by RISC-V: the dividend for a zero divisor. -/
def remS {w : Nat} (a b : BitVec w) : BitVec w := if b = 0 then a else a.srem b
/-- Unsigned remainder by RISC-V. -/
def remU {w : Nat} (a b : BitVec w) : BitVec w := if b = 0 then a else a % b

/-- The high 64 bits of an exact product. -/
def mulHigh (a b : Int) : Dword := BitVec.ofInt 64 (a * b / ((2 ^ 64 : Nat) : Int))

/-- Register-register operations on 64 bits. -/
def rvOp (o : RvOp) (a b : Dword) : Dword :=
  let sh := b.toNat % 64
  let uw : Dword := BitVec.ofNat 64 (a.toNat % 2 ^ 32)
  match o with
  | .add => a + b
  | .sub => a - b
  | .sll => a <<< sh
  | .slt => flag (a.slt b)
  | .sltu => flag (a.ult b)
  | .xor => a ^^^ b
  | .srl => a >>> sh
  | .sra => a.sshiftRight sh
  | .or => a ||| b
  | .and => a &&& b
  | .mul => a * b
  | .mulh => mulHigh a.toInt b.toInt
  | .mulhsu => mulHigh a.toInt (b.toNat : Int)
  | .mulhu => mulHigh (a.toNat : Int) (b.toNat : Int)
  | .div => divS a b
  | .divu => divU a b
  | .rem => remS a b
  | .remu => remU a b
  | .sh1add => (a <<< 1) + b
  | .sh2add => (a <<< 2) + b
  | .sh3add => (a <<< 3) + b
  | .addUw => uw + b
  | .sh1addUw => (uw <<< 1) + b
  | .sh2addUw => (uw <<< 2) + b
  | .sh3addUw => (uw <<< 3) + b
  | .andn => a &&& ~~~b
  | .orn => a ||| ~~~b
  | .xnor => ~~~(a ^^^ b)
  | .max => if a.slt b then b else a
  | .maxu => if a.ult b then b else a
  | .min => if a.slt b then a else b
  | .minu => if a.ult b then a else b
  | .rol => a.rotateLeft sh
  | .ror => a.rotateRight sh
  | .czeroEqz => if b = 0 then 0 else a
  | .czeroNez => if b = 0 then a else 0

/-- Register-register operations on the low 32 bits. -/
def rvOpW (o : RvOpW) (x y : Dword) : Dword :=
  let a : Word := x.setWidth 32
  let b : Word := y.setWidth 32
  let sh := y.toNat % 32
  sext32 (match o with
    | .addw => a + b
    | .subw => a - b
    | .sllw => a <<< sh
    | .srlw => a >>> sh
    | .sraw => a.sshiftRight sh
    | .mulw => a * b
    | .divw => divS a b
    | .divuw => divU a b
    | .remw => remS a b
    | .remuw => remU a b
    | .rolw => a.rotateLeft sh
    | .rorw => a.rotateRight sh)

/-- Register-immediate operations; the immediate is sign-extended. -/
def rvImm (o : RvImm) (a b : Dword) : Dword :=
  match o with
  | .addi => a + b
  | .slti => flag (a.slt b)
  | .sltiu => flag (a.ult b)
  | .xori => a ^^^ b
  | .ori => a ||| b
  | .andi => a &&& b

def rvShift (o : RvShift) (a : Dword) (sh : Nat) : Dword :=
  match o with
  | .slli => a <<< sh
  | .srli => a >>> sh
  | .srai => a.sshiftRight sh
  | .rori => a.rotateRight sh
  | .slliUw => BitVec.ofNat 64 (a.toNat % 2 ^ 32) <<< sh

def rvShiftW (o : RvShiftW) (x : Dword) (sh : Nat) : Dword :=
  let a : Word := x.setWidth 32
  sext32 (match o with
    | .slliw => a <<< sh
    | .srliw => a >>> sh
    | .sraiw => a.sshiftRight sh
    | .roriw => a.rotateRight sh)

/-- Zero bits above the highest set bit of the low `n` bits. -/
def clzOf (v n : Nat) : Nat := if v = 0 then n else n - 1 - v.log2

/-- Zero bits below the lowest set bit of the low `n` bits. -/
def ctzOf (v : Nat) : Nat → Nat
  | 0 => 0
  | n + 1 => if v % 2 = 1 then 0 else 1 + ctzOf (v / 2) n

/-- Set bits among the low `n`. -/
def popOf (v n : Nat) : Nat := (List.range n).countP (fun i => bitAt v i)

/-- One-source Zbb operations. -/
def rvUn (o : RvUn) (a : Dword) : Dword :=
  let v := a.toNat
  let byte (i : Nat) : Nat := bits v (8 * i) 8
  match o with
  | .clz => BitVec.ofNat 64 (clzOf v 64)
  | .ctz => BitVec.ofNat 64 (ctzOf v 64)
  | .cpop => BitVec.ofNat 64 (popOf v 64)
  | .clzw => BitVec.ofNat 64 (clzOf (v % 2 ^ 32) 32)
  | .ctzw => BitVec.ofNat 64 (ctzOf (v % 2 ^ 32) 32)
  | .cpopw => BitVec.ofNat 64 (popOf v 32)
  | .sextb => (a.setWidth 8).signExtend 64
  | .sexth => (a.setWidth 16).signExtend 64
  | .zexth => BitVec.ofNat 64 (v % 65536)
  | .orcb => BitVec.ofNat 64 (leValue ((List.range 8).map (fun i => if byte i = 0 then 0 else 255)))
  | .rev8 => BitVec.ofNat 64 (leValue ((List.range 8).map (fun i => BitVec.ofNat 8 (byte (7 - i)))))

/-- Branch conditions. -/
def rvBranch (o : RvBr) (a b : Dword) : Bool :=
  match o with
  | .beq => a == b
  | .bne => a != b
  | .blt => a.slt b
  | .bge => !a.slt b
  | .bltu => a.ult b
  | .bgeu => !a.ult b

/-- Width in bytes of a load, and whether it extends the sign. -/
def rvLoad (w : RvLd) : Nat × Bool :=
  match w with
  | .lb => (1, true)
  | .lh => (2, true)
  | .lw => (4, true)
  | .ld => (8, false)
  | .lbu => (1, false)
  | .lhu => (2, false)
  | .lwu => (4, false)

def rvStore (w : RvSt) : Nat :=
  match w with
  | .sb => 1
  | .sh => 2
  | .sw => 4
  | .sd => 8

/-- `n` bytes as a register value. -/
def extend (n : Nat) (signed : Bool) (v : Nat) : Dword :=
  if signed then BitVec.ofInt 64 (signedOf v (8 * n)) else BitVec.ofNat 64 v

/-- The value that an AMO writes, from the old one and its operand, on `n` bytes. -/
def rvAmo (o : RvAmo) (n : Nat) (old v : Nat) : Nat :=
  let m := 2 ^ (8 * n)
  let b := v % m
  match o with
  | .swap => b
  | .add => (old + b) % m
  | .xor => old ^^^ b
  | .and => old &&& b
  | .or => old ||| b
  | .min => if signedOf old (8 * n) ≤ signedOf b (8 * n) then old else b
  | .max => if signedOf old (8 * n) ≤ signedOf b (8 * n) then b else old
  | .minu => min old b
  | .maxu => max old b

/-! ## Control and status registers (11 R254, R263; notes 14 and 15) -/

/-- The writable bits of sstatus: SIE, SPIE, SPP. -/
def sstatusMask : Dword := 0x122

/-- A CSR's value; none when there is no such register or the mode may not read it. -/
def State.readCsr (s : State) (n : Nat) : Option Dword :=
  let a := s.tp.ac
  match n with
  | 0x001 => some (BitVec.ofNat 64 (a.fcsr.toNat % 32))
  | 0x002 => some (BitVec.ofNat 64 (bits a.fcsr.toNat 5 3))
  | 0x003 => some (BitVec.ofNat 64 (a.fcsr.toNat % 256))
  | 0x100 => if a.sup then some (a.sstatus ||| 0x200000000) else none
  | 0x105 => if a.sup then some a.stvec else none
  | 0x140 => if a.sup then some a.sscratch else none
  | 0x141 => if a.sup then some a.sepc else none
  | 0x142 => if a.sup then some a.scause else none
  | 0x143 => if a.sup then some a.stval else none
  | _ => none

/-- Write a CSR that `readCsr` answers for. -/
def State.writeCsr (s : State) (n : Nat) (v : Dword) : State :=
  let a := s.tp.ac
  match n with
  | 0x001 => s.setAc { a with fcsr := BitVec.ofNat 32 (a.fcsr.toNat / 32 * 32 + v.toNat % 32) }
  | 0x002 => s.setAc { a with fcsr := BitVec.ofNat 32 (v.toNat % 8 * 32 + a.fcsr.toNat % 32) }
  | 0x003 => s.setAc { a with fcsr := BitVec.ofNat 32 (v.toNat % 256) }
  | 0x100 => s.setAc { a with sstatus := v &&& sstatusMask }
  | 0x105 => s.setAc { a with stvec := v &&& ~~~2 }
  | 0x140 => s.setAc { a with sscratch := v }
  | 0x141 => s.setAc { a with sepc := v &&& ~~~1 }
  | 0x142 => s.setAc { a with scause := v }
  | 0x143 => s.setAc { a with stval := v }
  | _ => s

/-- A CSR instruction: the old value to rd, the new one when the form writes. -/
def State.csrOp (s : State) (op : RvCsr) (rd : BitVec 5) (n : Nat) (src : Dword) (writes : Bool) : Try State :=
  match s.readCsr n with
  | none => .error (.fatal 0x20 0 0)
  | some old =>
    let new := match op with
      | .rw => src
      | .rs => old ||| src
      | .rc => old &&& ~~~src
    .ok ((if writes then s.writeCsr n new else s).setX rd old)

/-! ## F and D -/

def RvFmt.fmt : RvFmt → Fmt
  | .s => .fp32
  | .d => .f64

/-- The pattern in a floating-point register; a binary32 that is not boxed reads as the canonical NaN. -/
def State.getFp (s : State) (f : RvFmt) (r : BitVec 5) : Nat :=
  let v := (s.getF r).toNat
  match f with
  | .d => v
  | .s => if v / 2 ^ 32 = 2 ^ 32 - 1 then v % 2 ^ 32 else 0x7FC00000

/-- Write a pattern: a binary32 is boxed. -/
def State.setFp (s : State) (f : RvFmt) (r : BitVec 5) (v : Nat) : State :=
  match f with
  | .d => s.setF r (BitVec.ofNat 64 v)
  | .s => s.setF r (BitVec.ofNat 64 ((2 ^ 32 - 1) * 2 ^ 32 + v % 2 ^ 32))

def State.fpVal (s : State) (f : RvFmt) (r : BitVec 5) : Val := decodeFloat (RvFmt.fmt f) (s.getFp f r)

/-- The rounding mode of a word: codes 5 to 7 are illegal (R29, note 17). -/
def rounding (rm : BitVec 3) : Try Rnd :=
  match rm.toNat with
  | 0 => .ok .rne
  | 1 => .ok .rtz
  | 2 => .ok .rdn
  | 3 => .ok .rup
  | 4 => .ok .rna
  | _ => .error (.fatal 0x20 0 0)

/-- Write a value rounded to a format; no flag is set (02 R26, note 17). -/
def State.putFp (s : State) (f : RvFmt) (r : BitVec 5) (m : Rnd) (v : Val) : State :=
  s.setFp f r (encodeFloat (RvFmt.fmt f) m false v)

/-- A sign with a pattern's magnitude. -/
def withSign (f : RvFmt) (neg : Bool) (b : Nat) : Nat :=
  match f with
  | .s => b % 2 ^ 31 + (if neg then 2 ^ 31 else 0)
  | .d => b % 2 ^ 63 + (if neg then 2 ^ 63 else 0)

/-- The sign of a pattern. -/
def signIn (f : RvFmt) (b : Nat) : Bool :=
  match f with
  | .s => bitAt b 31
  | .d => bitAt b 63

def fpSgn (k : RvFsgn) (f : RvFmt) (a b : Nat) : Nat :=
  match k with
  | .inj => withSign f (signIn f b) a
  | .injn => withSign f (!signIn f b) a
  | .injx => withSign f (signIn f a != signIn f b) a

/-- FMIN and FMAX: a NaN operand yields the canonical NaN, and −0 is less than +0 (R27, note 17). -/
def fpMinMax (mx : Bool) (f : RvFmt) (a b : Nat) : Nat :=
  let x := decodeFloat (RvFmt.fmt f) a
  let y := decodeFloat (RvFmt.fmt f) b
  if x.isNan || y.isNan then (RvFmt.fmt f).nan
  else if mx then (if cmpV true x y = .lt then b else a)
  else (if cmpV true y x = .lt then b else a)

def fpCmp (k : RvFcmp) (x y : Val) : Bool :=
  if x.isNan || y.isNan then false
  else
    match k with
    | .eq => cmpV false x y == .eq
    | .lt => cmpV false x y == .lt
    | .le => cmpV false x y != .gt

/-- FCLASS: bits 0 to 9 as RISC-V numbers them. -/
def fpClass (f : RvFmt) (b : Nat) : Nat :=
  let p := (RvFmt.fmt f).float
  let neg := signIn f b
  let sub := b / 2 ^ p.fbits % 2 ^ p.ebits = 0
  match decodeFloat (RvFmt.fmt f) b with
  | .nan => if bitAt b (p.fbits - 1) then 512 else 256
  | .inf _ => if neg then 1 else 128
  | .fin _ m _ =>
    if m = 0 then (if neg then 8 else 16)
    else if sub then (if neg then 4 else 32)
    else if neg then 2 else 64

/-- Range of an integer kind. -/
def rvRange (k : RvInt) : Int × Int :=
  match k with
  | .w => (-2147483648, 2147483647)
  | .wu => (0, 4294967295)
  | .l => (-9223372036854775808, 9223372036854775807)
  | .lu => (0, 18446744073709551615)

/-- A value converted to an integer kind with RISC-V's bounds (R302), NaN as the greatest value, and not by R31, whose results depend on a
SAT bit that these words do not have (PRESUMED, note 17), as a register value. -/
def fpToInt (k : RvInt) (m : Rnd) (v : Val) : Dword :=
  let lo := (rvRange k).1
  let hi := (rvRange k).2
  let i := match v with
    | .nan => hi
    | .inf neg => if neg then lo else hi
    | .fin neg mag e => let x := roundInt m neg mag e; if x < lo then lo else if hi < x then hi else x
  match k with
  | .w | .wu => sext32 (BitVec.ofInt 32 i)
  | .l | .lu => BitVec.ofInt 64 i

/-- The integer of a register for a kind. -/
def intOf (k : RvInt) (v : Dword) : Int :=
  match k with
  | .w => (v.setWidth 32 : Word).toInt
  | .wu => ((v.setWidth 32 : Word).toNat : Int)
  | .l => v.toInt
  | .lu => (v.toNat : Int)

/-- Product and sum of a fused form, with the one rounding to come. -/
def fmaV (k : RvFma) (m : Rnd) (a b c : Val) : Val :=
  match k with
  | .madd => addV m (mulV a b) c
  | .msub => addV m (mulV a b) (negV c)
  | .nmsub => addV m (negV (mulV a b)) c
  | .nmadd => addV m (negV (mulV a b)) (negV c)

def fpArith (o : RvFop) (m : Rnd) (a b : Val) : Val :=
  match o with
  | .add => addV m a b
  | .sub => addV m a (negV b)
  | .mul => mulV a b
  | .div => divV a b

/-! ## The words -/

/-- Move past a word. -/
def State.pass (s : State) (len : Nat) : State := s.setPc (s.tp.ac.pc + BitVec.ofNat 64 len)

/-- Bytes of a width code: 1 for 64 bits. -/
def amoBytes (dw : BitVec 1) : Nat := if dw = 1 then 8 else 4

/-- Address of a base and a 12-bit offset. -/
def State.ea (s : State) (rs1 : BitVec 5) (imm : BitVec 12) : Nat := (s.getX rs1 + imm.signExtend 64).toNat

/-- LR: the loaded value, sign-extended, and the reservation (R47). -/
def State.loadReserved (s : State) (n : Nat) (rd rs1 : BitVec 5) : Try State :=
  let a := (s.getX rs1).toNat
  match s.atomicAccess a n with
  | .error e => .error e
  | .ok () =>
    match s.bankBytes a n with
    | .error e => .error e
    | .ok bs =>
      let s := s.heed a n
      .ok ((s.setAc { s.tp.ac with resv := some (a, n) }).setX rd (extend n true (leValue bs)))

/-- SC: it stores under the reservation of its address and width and gives 0, otherwise 1; the reservation ends. -/
def State.storeConditional (s : State) (n : Nat) (rd rs1 rs2 : BitVec 5) : Try State :=
  let a := (s.getX rs1).toNat
  match s.atomicAccess a n with
  | .error e => .error e
  | .ok () =>
    let ok : Bool := s.tp.ac.resv == some (a, n)
    let v := (s.getX rs2).toNat
    let t := s.setAc { s.tp.ac with resv := none }
    .ok ((if ok then t.putBank a n (byteOf v) else t).setX rd (flag (!ok)))

/-- AMO: the old value, sign-extended, to rd. -/
def State.amo (s : State) (op : RvAmo) (n : Nat) (rd rs1 rs2 : BitVec 5) : Try State :=
  let a := (s.getX rs1).toNat
  match s.atomicAccess a n with
  | .error e => .error e
  | .ok () =>
    match s.bankBytes a n with
    | .error e => .error e
    | .ok bs =>
      let old := leValue bs
      let v := (s.getX rs2).toNat
      .ok (((s.heed a n).putBank a n (byteOf (rvAmo op n old v))).setX rd (extend n true old))

/-- A 32-bit word, or the expansion of a 16-bit one, `len` bytes long. -/
def State.runRv (s : State) (len : Nat) (i : Rv) : Try State :=
  let pc := s.tp.ac.pc
  let put (rd : BitVec 5) (v : Dword) : Try State := .ok ((s.setX rd v).pass len)
  let rounded (rm : BitVec 3) (k : Rnd → State) : Try State :=
    match rounding rm with
    | .error e => .error e
    | .ok m => .ok ((k m).pass len)
  match i with
  | .lui rd imm => put rd (sext32 (imm ++ (0 : BitVec 12)))
  | .auipc rd imm => put rd (pc + sext32 (imm ++ (0 : BitVec 12)))
  | .jal rd off => .ok ((s.setX rd (pc + BitVec.ofNat 64 len)).setPc (pc + (off ++ (0 : BitVec 1)).signExtend 64))
  | .jalr rd rs1 imm =>
    .ok ((s.setX rd (pc + BitVec.ofNat 64 len)).setPc ((s.getX rs1 + imm.signExtend 64) &&& ~~~1))
  | .br op rs1 rs2 off =>
    if rvBranch op (s.getX rs1) (s.getX rs2) then .ok (s.setPc (pc + (off ++ (0 : BitVec 1)).signExtend 64))
    else .ok (s.pass len)
  | .load w rd rs1 imm =>
    match s.windowLoad (s.ea rs1 imm) (rvLoad w).1 with
    | .error e => .error e
    | .ok v => .ok (((s.heed (s.ea rs1 imm) (rvLoad w).1).setX rd (extend (rvLoad w).1 (rvLoad w).2 v)).pass len)
  | .store w rs1 rs2 imm =>
    match s.windowStore (s.ea rs1 imm) (rvStore w) (s.getX rs2).toNat with
    | .error e => .error e
    | .ok t => .ok (t.pass len)
  | .opImm op rd rs1 imm => put rd (rvImm op (s.getX rs1) (imm.signExtend 64))
  | .addiw rd rs1 imm => put rd (sext32 ((s.getX rs1 + imm.signExtend 64).setWidth 32))
  | .shift op rd rs1 sh => put rd (rvShift op (s.getX rs1) sh.toNat)
  | .shiftW op rd rs1 sh => put rd (rvShiftW op (s.getX rs1) sh.toNat)
  | .op o rd rs1 rs2 => put rd (rvOp o (s.getX rs1) (s.getX rs2))
  | .opW o rd rs1 rs2 => put rd (rvOpW o (s.getX rs1) (s.getX rs2))
  | .un o rd rs1 => put rd (rvUn o (s.getX rs1))
  | .fence _ _ _ => .ok (s.pass len)
  | .fenceI _ _ _ => .ok (s.pass len)
  | .ecall => s.takeOwn 8 none
  | .ebreak => s.takeOwn 3 none
  | .lr dw _ rd rs1 =>
    match s.loadReserved (amoBytes dw) rd rs1 with
    | .error e => .error e
    | .ok t => .ok (t.pass len)
  | .sc dw _ rd rs1 rs2 =>
    match s.storeConditional (amoBytes dw) rd rs1 rs2 with
    | .error e => .error e
    | .ok t => .ok (t.pass len)
  | .amo op dw _ rd rs1 rs2 =>
    match s.amo op (amoBytes dw) rd rs1 rs2 with
    | .error e => .error e
    | .ok t => .ok (t.pass len)
  | .csr op rd rs1 n =>
    match s.csrOp op rd n.toNat (s.getX rs1) (op = .rw || rs1 != 0) with
    | .error e => .error e
    | .ok t => .ok (t.pass len)
  | .csri op rd imm n =>
    match s.csrOp op rd n.toNat (imm.setWidth 64) (op = .rw || imm != 0) with
    | .error e => .error e
    | .ok t => .ok (t.pass len)
  | .fload f rd rs1 imm =>
    match (if inControl (s.ea rs1 imm) then .error (.fatal 0x44 0 0)
        else s.windowLoad (s.ea rs1 imm) (match f with | .s => 4 | .d => 8)) with
    | .error e => .error e
    | .ok v => .ok (((s.heed (s.ea rs1 imm) 8).setFp f rd v).pass len)
  | .fstore f rs1 rs2 imm =>
    match (if inControl (s.ea rs1 imm) then .error (.fatal 0x44 0 0)
        else s.windowStore (s.ea rs1 imm) (match f with | .s => 4 | .d => 8) (s.getF rs2).toNat) with
    | .error e => .error e
    | .ok t => .ok (t.pass len)
  | .fma k f rm rd rs1 rs2 rs3 =>
    rounded rm (fun m => s.putFp f rd m (fmaV k m (s.fpVal f rs1) (s.fpVal f rs2) (s.fpVal f rs3)))
  | .farith op f rm rd rs1 rs2 => rounded rm (fun m => s.putFp f rd m (fpArith op m (s.fpVal f rs1) (s.fpVal f rs2)))
  | .fsqrt f rm rd rs1 => rounded rm (fun m => s.putFp f rd m (sqrtV (s.fpVal f rs1)))
  | .fsgn k f rd rs1 rs2 => .ok ((s.setFp f rd (fpSgn k f (s.getFp f rs1) (s.getFp f rs2))).pass len)
  | .fminmax mx f rd rs1 rs2 => .ok ((s.setFp f rd (fpMinMax (mx = 1) f (s.getFp f rs1) (s.getFp f rs2))).pass len)
  | .fcmp k f rd rs1 rs2 => put rd (flag (fpCmp k (s.fpVal f rs1) (s.fpVal f rs2)))
  | .fclass f rd rs1 => put rd (BitVec.ofNat 64 (fpClass f (s.getFp f rs1)))
  | .fcvtInt f k rm rd rs1 => rounded rm (fun m => s.setX rd (fpToInt k m (s.fpVal f rs1)))
  | .fcvtFrom f k rm rd rs1 => rounded rm (fun m => s.putFp f rd m (ofInt (intOf k (s.getX rs1))))
  | .fcvtF f rm rd rs1 =>
    rounded rm (fun m => s.putFp f rd m (s.fpVal (match f with | .s => .d | .d => .s) rs1))
  | .fmvX f rd rs1 =>
    put rd (match f with | .s => sext32 ((s.getF rs1).setWidth 32) | .d => s.getF rs1)
  | .fmvF f rd rs1 => .ok ((s.setFp f rd (s.getX rs1).toNat).pass len)

/-! ## Compressed words -/

/-- Register x8 to x15 or f8 to f15 of a three-bit name. -/
def cReg (r : BitVec 3) : BitVec 5 := (1 : BitVec 2) ++ r

/-- The word that a 16-bit word stands for. -/
def expand (c : RvC) : Rv :=
  let z (n : Nat) : BitVec 12 := BitVec.ofNat 12 n
  match c with
  | .addi4spn rd imm => .opImm .addi (cReg rd) 2 (z (imm.toNat * 4))
  | .fld rd rs1 imm => .fload .d (cReg rd) (cReg rs1) (z (imm.toNat * 8))
  | .lw rd rs1 imm => .load .lw (cReg rd) (cReg rs1) (z (imm.toNat * 4))
  | .ld rd rs1 imm => .load .ld (cReg rd) (cReg rs1) (z (imm.toNat * 8))
  | .fsd rs1 rs2 imm => .fstore .d (cReg rs1) (cReg rs2) (z (imm.toNat * 8))
  | .sw rs1 rs2 imm => .store .sw (cReg rs1) (cReg rs2) (z (imm.toNat * 4))
  | .sd rs1 rs2 imm => .store .sd (cReg rs1) (cReg rs2) (z (imm.toNat * 8))
  | .addi rd imm => .opImm .addi rd rd (imm.signExtend 12)
  | .addiw rd imm => .addiw rd rd (imm.signExtend 12)
  | .li rd imm => .opImm .addi rd 0 (imm.signExtend 12)
  | .addi16sp imm => .opImm .addi 2 2 ((imm ++ (0 : BitVec 4)).signExtend 12)
  | .lui rd imm => .lui rd (imm.signExtend 20)
  | .srli rd sh => .shift .srli (cReg rd) (cReg rd) sh
  | .srai rd sh => .shift .srai (cReg rd) (cReg rd) sh
  | .andi rd imm => .opImm .andi (cReg rd) (cReg rd) (imm.signExtend 12)
  | .arith op rd rs2 =>
    match op with
    | .sub => .op .sub (cReg rd) (cReg rd) (cReg rs2)
    | .xor => .op .xor (cReg rd) (cReg rd) (cReg rs2)
    | .or => .op .or (cReg rd) (cReg rd) (cReg rs2)
    | .and => .op .and (cReg rd) (cReg rd) (cReg rs2)
    | .subw => .opW .subw (cReg rd) (cReg rd) (cReg rs2)
    | .addw => .opW .addw (cReg rd) (cReg rd) (cReg rs2)
  | .j off => .jal 0 (off.signExtend 20)
  | .beqz rs1 off => .br .beq (cReg rs1) 0 (off.signExtend 12)
  | .bnez rs1 off => .br .bne (cReg rs1) 0 (off.signExtend 12)
  | .slli rd sh => .shift .slli rd rd sh
  | .fldsp rd imm => .fload .d rd 2 (z (imm.toNat * 8))
  | .lwsp rd imm => .load .lw rd 2 (z (imm.toNat * 4))
  | .ldsp rd imm => .load .ld rd 2 (z (imm.toNat * 8))
  | .jr rs1 => .jalr 0 rs1 0
  | .mv rd rs2 => .op .add rd 0 rs2
  | .ebreak => .ebreak
  | .jalr rs1 => .jalr 1 rs1 0
  | .add rd rs2 => .op .add rd rd rs2
  | .fsdsp rs2 imm => .fstore .d 2 rs2 (z (imm.toNat * 8))
  | .swsp rs2 imm => .store .sw 2 rs2 (z (imm.toNat * 4))
  | .sdsp rs2 imm => .store .sd 2 rs2 (z (imm.toNat * 8))

/-- RV64GC, Zba, Zbb and Zicond (R302). -/
def execRv64gc (w : RvWord) (s : State) : Host.Outcome State Fault Refusal :=
  match w with
  | .full i => acJump s (fun s => s.runRv 4 i)
  | .comp c => acJump s (fun s => s.runRv 2 (expand c))

end Sys2Proof.Machine
end

