-- ==== Sys2Proof/Machine/Handles.lean ====
section
/-!
DEFINITION. Handles, the accesses through them, and the transfers between memory and queues (10 R235 to R237, 16 R377 to
R387, 17 R402, 18 R413 to R425, 19 R453).
-/
namespace Sys2Proof.Machine

/-! ## Accesses through a handle -/

/-- The place of an access of `n` bytes at an offset through a handle (R236). -/
def State.handlePiece (s : State) (hn : BitVec 4) (off : Dword) (n acck : Nat) : Try Piece :=
  let h := s.getHandle hn
  let va := (h.va + off.toNat) % 2 ^ 64
  match h.st with
  | .free => tfault 0x0C h.space va acck
  | .pending => .error .wait
  | .faulted c => tfault c h.space va acck
  | .valid =>
    if !(h.page.va ≤ va && va + n ≤ h.page.va + h.page.size) then tfault 0x06 h.space va acck
    else
      match s.permit s.task.ctx h.space h.page va n acck with
      | .error e => .error e
      | .ok () => .ok ⟨h.page.place + (va - h.page.va), n, h.page.d, h.space⟩

/-- Lines that a store of some pieces would add beyond the 256 of the commit buffer (R209, R210). -/
def Ac.storeOver (a : Ac) (ps : List Piece) : Bool :=
  a.phase = .replay && 256 < (a.bufferedLines ++ ps.flatMap (fun p => linesOf p.place p.len)).eraseDups.length

/-- The lines of a piece that a load reads at their homes: none of a discarded page, and none whose bytes the task has buffered
itself (R209, R233). -/
def Ac.linesRead (a : Ac) (p : Piece) : List Nat :=
  if p.zero then []
  else (linesOf p.place p.len).filter (fun l =>
    let lo := max p.place (l * 128)
    !a.ownBytes lo (min (p.place + p.len) (l * 128 + 128) - lo))

/-- Lines that a load of some pieces would add beyond the 512 of the read set. -/
def Ac.loadOver (a : Ac) (ps : List Piece) : Bool :=
  a.phase = .replay && 512 < (a.readLines ++ ps.flatMap a.linesRead).eraseDups.length

/-- A path-C load of pieces: a discarded page reads as zeros (R233). -/
def State.loadPieces (s : State) (ps : List Piece) : Try (List Byte × State) :=
  match (if s.tp.ac.loadOver ps then s.commitFirst else .ok ()) with
  | .error e => .error e
  | .ok () =>
    foldTry (fun (acc : List Byte × State) p =>
      if p.zero then .ok (acc.1 ++ List.replicate p.len 0, acc.2)
      else
        match acc.2.cLoad acc.2.task.ctx p.place p.len p.space with
        | .error e => .error e
        | .ok (bs, s) => .ok (acc.1 ++ bs, s)) ([], s) ps

/-- A path-C store of bytes over pieces. -/
def State.storePieces (s : State) (ps : List Piece) (bs : List Byte) : Try State :=
  match (if s.tp.ac.storeOver ps then s.commitFirst else .ok ()) with
  | .error e => .error e
  | .ok () =>
    if ps.all (fun p => s.portOpen s.task.ctx p.place p.space) then
      .ok (ps.foldl (fun (acc : State × List Byte) p =>
        (acc.1.cStore p.place (acc.2.take p.len) p.space, acc.2.drop p.len)) (s, bs)).1
    else .error .wait

/-- Load `n` bytes at an offset through a handle. -/
def State.handleLoad (s : State) (hn : BitVec 4) (off : Dword) (n : Nat) : Try (List Byte × State) :=
  match s.handlePiece hn off n 1 with
  | .error e => .error e
  | .ok p => s.loadPieces [p]

/-- Store bytes at an offset through a handle. -/
def State.handleStore (s : State) (hn : BitVec 4) (off : Dword) (bs : List Byte) : Try State :=
  match s.handlePiece hn off bs.length 2 with
  | .error e => .error e
  | .ok p =>
    match s.storePieces [p] bs with
    | .error e => .error e
    | .ok t => .ok (t.bufferThrough (s.getHandle hn).space (s.getHandle hn).page)

/-- An atomic on a completion flag acquires it (R222): what the launch did before it is visible on every path. -/
def State.acquireFlag (s : State) (p n : Nat) : State := if s.flags.any (fun f => f < p + n && p < f + 8) then s.bridge 5 else s

/-- An atomic of `n` bytes at an offset through a handle (R377): naturally aligned, past the commit point. `remote`: the
operation that a port can send as an AtomicOp (R287). -/
def State.handleAtomic (s : State) (hn : BitVec 4) (off : Dword) (n : Nat) (remote : Bool) (f : Nat → Option Nat) :
    Try (Nat × State) :=
  match s.commitFirst with
  | .error e => .error e
  | .ok () =>
    if (((s.getHandle hn).va + off.toNat) % 2 ^ 64) % n != 0 then .error (.fatal 0x20 0 0)
    else
      match s.handlePiece hn off n 4 with
      | .error e => .error e
      | .ok p =>
        if !inHbm p.place && !remote then .error (.fatal 0x68 3 0)
        else
          match s.cAtomic s.task.ctx p.space (s.getHandle hn).scope p.place n f with
          | .error e => .error e
          | .ok (old, s) => .ok (old, s.acquireFlag p.place n)

/-- Offset of HLD and HST (R304). -/
def State.handleOff (s : State) (rs1 : BitVec 5) (imm : BitVec 8) : Dword := s.getX rs1 + imm.signExtend 64

/-- HLD (R384). -/
def execHld (hn : BitVec 4) (imm : BitVec 8) (rs1 : BitVec 5) (w : BitVec 3) (rd : BitVec 5) (s : State) :
    Host.Outcome State Fault Refusal :=
  let n := 2 ^ (w.toNat % 4)
  acHandle hn s (fun s =>
    match s.handleLoad hn (s.handleOff rs1 imm) n with
    | .error e => .error e
    | .ok (bs, s) => .ok (s.setX rd (extend n (w.toNat < 4) (leValue bs))))

/-- HST (R387), plain. -/
def execHst (hn : BitVec 4) (imm : BitVec 8) (rs1 rs2 : BitVec 5) (w : BitVec 2) (s : State) :
    Host.Outcome State Fault Refusal :=
  acHandle hn s (fun s => s.handleStore hn (s.handleOff rs1 imm) (leBytes (2 ^ w.toNat) (s.getX rs2).toNat))

/-- HST as a release: a commit point, then the store (R310, R387). -/
def execHstRl (hn : BitVec 4) (imm : BitVec 8) (rs1 rs2 : BitVec 5) (w : BitVec 2) (s : State) :
    Host.Outcome State Fault Refusal :=
  acHandle hn s (fun s =>
    match s.commitFirst with
    | .error e => .error e
    | .ok () => s.handleStore hn (s.handleOff rs1 imm) (leBytes (2 ^ w.toNat) (s.getX rs2).toNat))

/-- The value that HAMO writes (R378): `op` as R305 numbers it. -/
def hamoValue (op ty old b : Nat) : Nat :=
  let w := if ty = 1 then 8 else 4
  let m := 2 ^ (8 * w)
  let b := b % m
  if ty = 2 then encodeFloat .fp32 .rne false (addV .rne (decodeFloat .fp32 old) (decodeFloat .fp32 b))
  else
    match op with
    | 0 => (old + b) % m
    | 1 => old &&& b
    | 2 => old ||| b
    | 3 => old ^^^ b
    | 4 => if signedOf b (8 * w) < signedOf old (8 * w) then b else old
    | 5 => if signedOf old (8 * w) < signedOf b (8 * w) then b else old
    | 6 => min old b
    | 7 => max old b
    | _ => b

/-- HAMO (R378). -/
def execHamo (op : BitVec 4) (ty : BitVec 2) (hn : BitVec 4) (rs2 rs1 rd : BitVec 5) (s : State) :
    Host.Outcome State Fault Refusal :=
  let n := if ty = 1 then 8 else 4
  acHandle hn s (fun s =>
    match s.handleAtomic hn (s.getX rs1) n ((op = 0 || op = 8) && ty != 2)
        (fun old => some (hamoValue op.toNat ty.toNat old (s.getX rs2).toNat)) with
    | .error e => .error e
    | .ok (old, s) => .ok (s.setX rd (extend n (ty = 0) old)))

/-- HCAS (R379): a failed compare writes nothing. -/
def execHcas (hn : BitVec 4) (w : BitVec 2) (rs2 rs1 rd : BitVec 5) (s : State) : Host.Outcome State Fault Refusal :=
  let n := 4 * 2 ^ w.toNat
  let pair (s : State) (r : BitVec 5) : Nat := (s.getX r).toNat + (if w = 2 then (s.getX (r + 1)).toNat * 2 ^ 64 else 0)
  acHandle hn s (fun s =>
    match s.handleAtomic hn (s.getX rs1) n true
        (fun old => if old = pair s rd % 2 ^ (8 * n) then some (pair s rs2 % 2 ^ (8 * n)) else none) with
    | .error e => .error e
    | .ok (old, s) =>
      if w = 2 then .ok ((s.setX rd (BitVec.ofNat 64 old)).setX (rd + 1) (BitVec.ofNat 64 (old / 2 ^ 64)))
      else .ok (s.setX rd (extend n (w = 0) old)))

/-! ## XLAT and HREL -/

/-- The handle that XLAT makes (R235, R453). -/
def State.xlat (s : State) (va space scope : Nat) : Handle :=
  let h : Handle := { space := space, va := va, scope := if scope = 0 then 1 else scope }
  let ctx := s.task.ctx
  if 18 ≤ space || 10 ≤ scope then { h with st := .faulted 0x07 }
  else if 2 ≤ space then
    match peerPage (s.getCtx ctx) space va with
    | some p => { h with st := .valid, page := p }
    | none => { h with st := .faulted 0x08 }
  else
    match s.tp.tlbFind ctx space va with
    | some p => { h with st := .valid, page := p }
    | none => { h with st := .pending }

/-- XLAT: a pending host address asks for its translation unless the ATC holds it (R237). -/
def execXlat (hn : BitVec 4) (rs1 rs2 : BitVec 5) (s : State) : Host.Outcome State Fault Refusal :=
  acStep 4 s (fun s =>
    let va := (s.getX rs1).toNat
    let d := (s.getX rs2).toNat
    let h := s.xlat va (bits d 0 8) (bits d 8 4)
    let s := s.setHandle hn h
    .ok (if h.st = .pending && h.space = 1 && (s.atcFind (s.getCtx s.task.ctx).pasid va).isNone then
        s.askAts s.task.ctx va else s))

/-- HREL (R386). -/
def execHrel (hn : BitVec 4) (s : State) : Host.Outcome State Fault Refusal :=
  acStep 4 s (fun s => .ok (s.setHandle hn {}))

/-! ## Queues -/

/-- A use of a queue against its direction (R65). -/
def State.direction (s : State) (q : Nat) (eToA : Bool) : Try Unit :=
  if s.eToA q = eToA then .ok () else .error (.fatal 0x47 0 0)

/-- No poisoned entry stands among the first `n` of a queue (R266). -/
def State.queueOk (s : State) (q n : Nat) : Try Unit :=
  if s.tp.poison.any (fun x => x.1 == 3 && x.2 / 16 == q && x.2 % 16 < n) then .error (.fatal 0x61 0 0) else .ok ()

/-- Push a scalar at the tail: the AC waits at retire while the queue is full (R66). -/
def State.pushScalar (s : State) (q : Nat) (v : Dword) : Try State :=
  if (s.scalarQ q).length < 16 then .ok (s.setScalarQ q (s.scalarQ q ++ [v])) else .error .wait

/-- Push a tile at the tail. -/
def State.pushTile (s : State) (q : Nat) (v : Tile) : Try State :=
  if (s.tileQ q).length < 4 then .ok (s.setTileQ q (s.tileQ q ++ [v])) else .error .wait

/-- Pop a scalar, or wait. -/
def State.popScalar (s : State) (q : Nat) : Try (Dword × State) :=
  match s.scalarQ q with
  | [] => .error .wait
  | v :: l =>
    match s.queueOk q 1 with
    | .error e => .error e
    | .ok () => .ok (v, (s.setScalarQ q l).movePoison q 1)

/-- Pop a tile, or wait. -/
def State.popTile (s : State) (q : Nat) : Try (Tile × State) :=
  match s.tileQ q with
  | [] => .error .wait
  | v :: l =>
    match s.queueOk q 1 with
    | .error e => .error e
    | .ok () => .ok (v, (s.setTileQ q l).movePoison q 1)

/-- QPUT (R414). -/
def execQput (rs1 : BitVec 5) (q : BitVec 2) (s : State) : Host.Outcome State Fault Refusal :=
  acStep 4 s (fun s =>
    match s.direction q.toNat false with
    | .error e => .error e
    | .ok () => s.pushScalar q.toNat (s.getX rs1))

/-- QGET (R414). -/
def execQget (rd : BitVec 5) (q : BitVec 2) (s : State) : Host.Outcome State Fault Refusal :=
  acStep 4 s (fun s =>
    match s.direction q.toNat true with
    | .error e => .error e
    | .ok () =>
      match s.popScalar q.toNat with
      | .error e => .error e
      | .ok (v, s) => .ok (s.setX rd v))

/-- LDQ through a handle (R402). -/
def execLdq (hn : BitVec 4) (rs1 : BitVec 5) (q : BitVec 2) (s : State) : Host.Outcome State Fault Refusal :=
  acHandle hn s (fun s =>
    match s.direction q.toNat false with
    | .error e => .error e
    | .ok () =>
      match s.handleLoad hn (s.getX rs1) 8 with
      | .error e => .error e
      | .ok (bs, s) => s.pushScalar q.toNat (BitVec.ofNat 64 (leValue bs)))

/-- LDQ from the window. -/
def execLdqLocal (rs1 : BitVec 5) (q : BitVec 2) (s : State) : Host.Outcome State Fault Refusal :=
  acStep 4 s (fun s =>
    let a := (s.getX rs1).toNat
    match s.windowLoad a 8 with
    | .error (.fatal 0x61 r d) =>
      match s.direction q.toNat false with
      | .error e => .error e
      | .ok () => .error (.fatal 0x61 r d)
    | .error e => .error e
    | .ok v =>
      match s.direction q.toNat false with
      | .error e => .error e
      | .ok () => (s.heed a 8).pushScalar q.toNat (BitVec.ofNat 64 v))

/-- STQ and TSTQ issue: the head entry is popped and held until it is stored (R420, R425). `check`: what R473 has decided before
the queue's direction. -/
def State.issueStq (s : State) (q : Nat) (check : Try Unit) : Try State :=
  match check with
  | .error e => .error e
  | .ok () =>
    match s.direction q true with
    | .error e => .error e
    | .ok () =>
      if s.tp.ac.heldScalar.isSome then .ok s
      else
        match s.popScalar q with
        | .error e => .error e
        | .ok (v, s) => .ok (s.setAc { s.tp.ac with heldScalar := some v })

def State.issueTstq (s : State) (q : Nat) (check : Try Unit) : Try State :=
  match check with
  | .error e => .error e
  | .ok () =>
    match s.direction q true with
    | .error e => .error e
    | .ok () =>
      if s.tp.ac.heldTile.isSome then .ok s
      else
        match s.popTile q with
        | .error e => .error e
        | .ok (v, s) => .ok (s.setAc { s.tp.ac with heldTile := some v })

/-- The popped entry has been stored. -/
def State.dropHeld (s : State) : State := s.setAc { s.tp.ac with heldScalar := none, heldTile := none, rows := [] }

/-- The bytes of the popped scalar. -/
def State.heldBytes (s : State) : List Byte := leBytes 8 (s.tp.ac.heldScalar.getD 0).toNat

/-- STQ through a handle (R420). -/
def execStq (hn : BitVec 4) (rs1 : BitVec 5) (q : BitVec 2) (s : State) : Host.Outcome State Fault Refusal :=
  acIssued (some hn) s (fun s => s.issueStq q.toNat (.ok ())) (fun s =>
    match s.handleStore hn (s.getX rs1) s.heldBytes with
    | .error e => .error e
    | .ok s => .ok s.dropHeld)

/-- STQ to the window. -/
def execStqLocal (rs1 : BitVec 5) (q : BitVec 2) (s : State) : Host.Outcome State Fault Refusal :=
  acIssued none s (fun s => s.issueStq q.toNat (s.storeCheck (s.getX rs1).toNat 8)) (fun s =>
    match s.windowStore (s.getX rs1).toNat 8 (s.tp.ac.heldScalar.getD 0).toNat with
    | .error e => .error e
    | .ok s => .ok s.dropHeld)

/-- The address of row `i` of a tile transfer (R425). -/
def rowAddress (base stride : Dword) (i : Nat) : Dword := base + BitVec.ofNat 64 i * stride

/-- The bytes of row `i` of a tile (R21). -/
def tileRow (t : Tile) (i : Nat) : List Byte :=
  (Sparse.run t (64 * i) 64).flatMap (fun c => leBytes 4 c.toNat)

/-- The tile of 16 rows of 256 bytes. -/
def tileOfBytes (bs : List Byte) : Tile :=
  let a := bs.toArray
  Sparse.ofFn 1024 (fun k =>
    BitVec.ofNat 32 ((a.getD (4 * k) 0).toNat + 256 * (a.getD (4 * k + 1) 0).toNat +
      65536 * (a.getD (4 * k + 2) 0).toNat + 16777216 * (a.getD (4 * k + 3) 0).toNat))

/-- Rows of a tile transfer that one step moves: those left, or fewer (R425, R458, note 5). -/
def State.rowCount (s : State) : Nat × State :=
  let left := 16 - s.tp.ac.rows.length
  if left ≤ 1 then (left, s) else (s.takeNat.1 % left + 1, s.takeNat.2)

/-- Move `k` more rows of a tile transfer, one at a time: a row that stops leaves those before it moved, and stops again when the
transfer comes back to it (R249, R425). -/
def moveRows (row : State → Nat → Try State) : Nat → State → Try State
  | 0, s => .ok s
  | k + 1, s =>
    match row s s.tp.ac.rows.length with
    | .error e => .error e
    | .ok t =>
      match moveRows row k t with
      | .error (.done u) => .error (.done u)
      | .error _ => .error (.done t)
      | .ok u => .ok u

/-- The next rows of a tile transfer, and what follows the last one; the transfer comes back for the others. -/
def State.tileMove (s : State) (row : State → Nat → Try State) (last : State → Try State) : Try State :=
  let n := s.rowCount
  match moveRows row n.1 n.2 with
  | .error e => .error e
  | .ok t => if t.tp.ac.rows.length < 16 then .error (.done t) else last t

/-- One more row has been moved. -/
def State.keepRow (s : State) (bs : List Byte) : State := s.setAc { s.tp.ac with rows := s.tp.ac.rows ++ [bs] }

/-- Row `i` of a tile is loaded through a handle (R377, R425). -/
def State.loadRow (hn : BitVec 4) (base stride : Dword) (s : State) (i : Nat) : Try State :=
  match s.handlePiece hn (rowAddress base stride i) 256 1 with
  | .error e => .error e
  | .ok p =>
    match s.loadPieces [p] with
    | .error e => .error e
    | .ok (bs, s) => .ok (s.keepRow bs)

/-- Row `i` of the held tile is stored through a handle. -/
def State.storeRow (hn : BitVec 4) (base stride : Dword) (s : State) (i : Nat) : Try State :=
  match s.handlePiece hn (rowAddress base stride i) 256 2 with
  | .error e => .error e
  | .ok p =>
    match s.storePieces [p] (tileRow (s.tp.ac.heldTile.getD []) i) with
    | .error e => .error e
    | .ok t => .ok ((t.bufferThrough (s.getHandle hn).space (s.getHandle hn).page).keepRow [])

/-- The loaded tile is pushed at the tail; TLDQ waits at retire while the queue is full. -/
def State.pushRows (s : State) (q : Nat) : Try State :=
  match s.pushTile q (tileOfBytes s.tp.ac.rows.flatten) with
  | .ok t => .ok (t.setAc { t.tp.ac with rows := [] })
  | .error _ => .error (.done s)

/-- TLDQ through a handle (R425). -/
def execTldq (hn : BitVec 4) (rs1 rs2 : BitVec 5) (q : BitVec 2) (s : State) : Host.Outcome State Fault Refusal :=
  acHandle hn s (fun s =>
    match s.direction (4 + q.toNat) false with
    | .error e => .error e
    | .ok () => s.tileMove (State.loadRow hn (s.getX rs1) (s.getX rs2)) (fun s => s.pushRows (4 + q.toNat)))

/-- TSTQ through a handle (R425). -/
def execTstq (hn : BitVec 4) (rs1 rs2 : BitVec 5) (q : BitVec 2) (s : State) : Host.Outcome State Fault Refusal :=
  acIssued (some hn) s (fun s => s.issueTstq (4 + q.toNat) (.ok ())) (fun s =>
    s.tileMove (State.storeRow hn (s.getX rs1) (s.getX rs2)) (fun s => .ok s.dropHeld))

/-- The check of the 16 rows in the banks, each within one bank in scratchpad or operand role (R425). -/
def State.localCheck (s : State) (base stride : Dword) : Try Unit :=
  foldTry (fun _ i =>
    let a := (rowAddress base stride i).toNat
    if 0x200000 ≤ a then .error (.fatal 0x44 0 0) else s.bankAccess a 256) () (List.range 16)

/-- The bytes of the 16 rows in the banks. -/
def State.localRows (s : State) (base stride : Dword) : Try (List Byte) :=
  foldTry (fun bs i =>
    match s.bankBytes (rowAddress base stride i).toNat 256 with
    | .error e => .error e
    | .ok r => .ok (bs ++ r)) [] (List.range 16)

/-- TLDQ from the banks. -/
def execTldqLocal (rs1 rs2 : BitVec 5) (q : BitVec 2) (s : State) : Host.Outcome State Fault Refusal :=
  acStep 4 s (fun s =>
    match s.localCheck (s.getX rs1) (s.getX rs2) with
    | .error e => .error e
    | .ok () =>
      match s.direction (4 + q.toNat) false with
      | .error e => .error e
      | .ok () =>
        match s.localRows (s.getX rs1) (s.getX rs2) with
        | .error e => .error e
        | .ok bs =>
          let t := (List.range 16).foldl (fun t i => t.heed (rowAddress (s.getX rs1) (s.getX rs2) i).toNat 256) s
          t.pushTile (4 + q.toNat) (tileOfBytes bs))

/-- TSTQ to the banks. -/
def execTstqLocal (rs1 rs2 : BitVec 5) (q : BitVec 2) (s : State) : Host.Outcome State Fault Refusal :=
  acIssued none s (fun s => s.issueTstq (4 + q.toNat) (s.localCheck (s.getX rs1) (s.getX rs2))) (fun s =>
    .ok ((List.range 16).foldl (fun (t : State) i =>
      t.writeBank (rowAddress (s.getX rs1) (s.getX rs2) i).toNat (tileRow (s.tp.ac.heldTile.getD []) i)) s).dropHeld)

end Sys2Proof.Machine
end

