-- ==== Sys2Proof/Machine/Work.lean ====
section
/-!
DEFINITION. The A-stream words that hand over and end work (04 R79, R85, R97 to R103, 15 R342 to 19 R451 by name): CHAIN,
RENQ, SPAWN, JOIN, PARK, REGION, COMMIT, LAUNCH, TRIG, TEND.
-/
namespace Sys2Proof.Machine

/-! ## Shared steps -/

/-- The path of a command by its opcode (R198): 0 C, 1 K, 2 G, 3 H, 4 M, 5 P. -/
def pathOf (e : BitVec 128) : Nat :=
  let op := bits e.toNat 120 8
  if op = 0x23 then 5 else if op < 0x40 then 1 else if op < 0x60 then 2 else if op < 0x70 then 3 else 4

/-- What a word that begins to wait now waits for (R85, R98, R216). -/
def State.markNow (s : State) : Mark :=
  { cmd := s.tp.issued
    ePush := s.tp.ec.pushed + s.tp.ec.pushes.length
    eSpec := s.tp.ec.written + s.tp.ec.spec.length
    bPush := s.tp.be.pushed + s.tp.be.pushes.length
    bChain := if s.tp.be.chain.isSome then some s.tp.be.chains else none }

/-- A word that waits for what had issued when it issued: it notes that when it must wait, and goes on once it is done. -/
def State.await (s : State) (done : Mark → Bool) (go : State → Try State) : Try State :=
  match s.tp.ac.mark with
  | some m => if done m then go (s.setAc { s.tp.ac with mark := none }) else .error .wait
  | none => if done s.markNow then go s else .error (.done (s.setAc { s.tp.ac with mark := some s.markNow }))

/-- Whether a chain engine has commands of a task on some paths that had issued by a mark and have not completed. -/
def Chain.issuedBusy (c : Chain) (id last : Nat) (on : Nat → Bool) : Bool :=
  c.infl.any (fun f => f.block.isNone && f.task == id && f.num ≤ last && on (pathOf f.entry)) ||
    (c.av && c.aprg != 0 && c.actBlock.isNone && c.actId == id && c.actNum ≤ last && on (pathOf c.act))

/-- Whether the commands that a task had issued by a mark on the units of a mask are complete (R98). -/
def Tp.issuedDone (t : Tp) (mask id : Nat) (m : Mark) : Bool :=
  let all (_ : Nat) : Bool := true
  (!bitAt mask 3 || !t.ce.issuedBusy id m.cmd all) &&
    (!bitAt mask 4 || !t.ie.issuedBusy id m.cmd all) &&
    (!bitAt mask 5 || !t.he.issuedBusy id m.cmd all)

/-- Trailer mask of the running task (R91). -/
def State.tmask (s : State) : Nat := bits (s.task.hdr.getD 4 0).toNat 0 6

/-- Read `n` bytes of space 0 at their homes for the running task, through the TLB. -/
def State.readSpace (s : State) (va n : Nat) : Try (Nat × State) :=
  match s.pieces true s.task.ctx 0 1 (n + 1) (va % 2 ^ 64) n with
  | .error e => .error e
  | .ok (ps, s) =>
    match foldTry (fun (acc : List Byte × State) p =>
        if p.zero then .ok (acc.1 ++ List.replicate p.len 0, acc.2)
        else
          match acc.2.deviceLoad s.task.ctx p.place p.len with
          | .error e => .error e
          | .ok (v, s) => .ok (acc.1 ++ leBytes p.len v, s)) ([], s) ps with
    | .error e => .error e
    | .ok (bs, s) => .ok (leValue bs, s)

/-- Push a continuation of the running task's launch (R98, R99): a later pawn of the launch, which a serial pawn holds (R102). -/
def State.pushContinuation (s : State) (p : Pawn) (joined : Bool := false) : State :=
  let k : Task := s.task
  let e : Entry := { pawn := p.continuation k.entry.pawn.cls k.lid, ctx := k.ctx, bind := k.entry.bind, bridged := joined }
  (s.pawnBorn k.entry).letIn s.cur e (fun s => s.pushPawn s.cur e)

/-- Steps 2 and 3 of JOIN (R399), so steps 1 to 3 of R98, on a record at an address of space 0. A reserved field of the
record or of the pawn at CPAWN, and an alignment of CPAWN, have no check and no effect: the bits are kept as they are
(note 76). -/
def State.joinAt (s : State) (va : Nat) : Try State :=
  let id := s.tp.cur
  let mask := s.tmask
  if va % 16 != 0 then .error (.fatal 0x49 0 0)
  else
    match s.pieces true s.task.ctx 0 4 17 va 16 with
    | .error e => .error e
    | .ok (ps, s) => s.await (fun m => s.tp.issuedDone mask id m) (fun s =>
        let place := (ps.headD { place := 0, len := 0, zero := false }).place
        let s := s.drain (fun w => w.tp == s.cur && w.agent < 8 && bitAt mask (w.agent - 1))
        match (s.beforeStore [(place, List.replicate 16 0)]).homeRead s.task.ctx place 16 with
        | .error e => .error e
        | .ok (v, s) =>
          let count := bits v 0 32
          let cpawn := v / 2 ^ 64
          let dec (s : State) : State := s.cPerform [(place, leBytes 4 (count - 1))]
          if count = 0 then .error (.fatal 0x4B 0 0)
          else if count = 1 && cpawn != 0 then
            match s.readSpace cpawn 32 with
            | .error e => .error e
            | .ok (p, s) => .ok ((dec s).pushContinuation (Pawn.ofBytes (leBytes 32 p)) true)
          else .ok (dec s))

/-- The task ends (R95, R110): its A stream is off; the queues are emptied when its E stream has ended too (R70). Its handles
stand until the next task starts (R235). -/
def State.endTask (s : State) : State :=
  let k : Task := s.task
  let s := s.pawnGone k.entry
  let t := s.tp
  let a := { t.ac with status := .off, phase := .committed, cbuf := [], cbufAt := [], readSet := [], heldSpawns := [],
                       heldBaris := [], bufPages := [], doomed := false, decls := [], mark := none, resv := none
                       svcReq := false }
  let t := { t with
    ac := a
    tasks := t.tasks.map (fun (x : Task) => if x.id == k.id then { x with ended := true } else x)
    queues := if t.finished 2 k.id then {} else t.queues
    preempt := none, cur := 0 }
  { s with tp := t.reap }

/-! ## CHAIN and RENQ -/

/-- CHAIN (R117, R365). -/
def execChain (u : ChainUnit) (rs1 : BitVec 5) (s : State) : Host.Outcome State Fault Refusal :=
  acStep 4 s (fun s =>
    let a := (s.getX rs1).toNat
    let c := s.eng u
    if 0x200000 ≤ a || a % 16 != 0 || !s.tp.usable a 16 then .error (.fatal 0x4D 0 0)
    else if 4 ≤ c.heads.length then .error .wait
    else .ok (s.setEng u { c with heads := c.heads ++ [(a, s.tp.cur)] }))

/-- The entries of a block from its bytes. -/
def entriesOf (bs : List Byte) : List (BitVec 128) :=
  (List.range (bs.length / 16)).map (fun i => BitVec.ofNat 128 (leValue ((bs.drop (16 * i)).take 16)))

/-- RENQ (R103, R417). -/
def execRenq (rs1 rs2 : BitVec 5) (s : State) : Host.Outcome State Fault Refusal :=
  acStep 4 s (fun s =>
    let a := (s.getX rs1).toNat
    let d := (s.getX rs2).toNat
    let count := bits d 8 8
    let tp := bits d 0 7
    let k : Task := { s.task with block := true }
    match s.commitFirst with
    | .error e => .error e
    | .ok () =>
      match (if count = 0 then .ok () else if 0x200000 ≤ a then .error (.fatal 0x44 0 0)
          else s.bankAccess a (16 * count)) with
      | .error e => .error e
      | .ok () =>
        match ChainUnit.ofCode (bits d 16 3) with
        | none => .error (.fatal 0x4C 0 0)
        | some u =>
          if a % 16 != 0 || count = 0 || 16 < count || !s.inService tp then .error (.fatal 0x4C 0 0)
          else
            match s.bankBytes a (16 * count) with
            | .error e => .error e
            | .ok bs =>
            let s1 := s.focus tp
            let c := s1.eng u
            if 8 ≤ c.blocks.length then .error .wait
            else
              let s1 := s1.setEng u { c with blocks := c.blocks ++ [{ entries := entriesOf bs, task := k }] }
              .ok ({ s1 with tp := s1.tp.mixedBy k.ctx }.focus s.cur))

/-! ## SPAWN, REGION, COMMIT -/

/-- `n` bytes of the banks that an A-stream word names lie in one bank (R48, R55). -/
def State.windowSpan (s : State) (a n : Nat) : Try Unit := if 0x200000 ≤ a then .error (.fatal 0x44 0 0) else s.bankAccess a n

/-- A record of `n` bytes in the banks that an A-stream word names: the checks of its place, that of the word's own cause on the
address, and the bytes (R473). -/
def State.windowBytes (s : State) (a n : Nat) (own : Try Unit := .ok ()) : Try (List Byte) :=
  match s.windowSpan a n with
  | .error e => .error e
  | .ok () =>
    match own with
    | .error e => .error e
    | .ok () => s.bankBytes a n

/-- SPAWN (R97, R419). -/
def execSpawn (rs1 : BitVec 5) (s : State) : Host.Outcome State Fault Refusal :=
  acStep 4 s (fun s =>
    let a := (s.getX rs1).toNat
    match s.windowBytes a 32 (need (a % 32 = 0) 0x49) with
    | .error e => .error e
    | .ok bs =>
      let p := Pawn.ofBytes bs
      let decls := s.tp.ac.decls
      let k : Task := s.task
      if !p.clean then .error (.fatal 0x49 0 0)
      else if s.tp.ac.phase = .replay then
        .ok (s.setAc { s.tp.ac with heldSpawns := s.tp.ac.heldSpawns ++ [⟨p, decls⟩], decls := [] })
      else .ok ((s.setAc { s.tp.ac with decls := [] }).spawnPawn s.cur k.entry p decls))

/-- A declaration from its 32 bytes (R100); none when a check fails. -/
def Decl.ofBytes (bs : List Byte) : Option Decl :=
  let d (k : Nat) : Nat := leValue ((bs.drop (8 * k)).take 8)
  let extent := bits (d 1) 0 32
  let count := bits (d 2) 0 32
  if extent = 0 || count = 0 || bits (d 2) 32 32 != 0 || bits (d 3) 1 63 != 0 then none
  else some ⟨d 0, bits (d 1) 32 32, extent, count, bitAt (d 3) 0⟩

/-- REGION (R101, R416). -/
def execRegion (rs1 rs2 : BitVec 5) (s : State) : Host.Outcome State Fault Refusal :=
  acStep 4 s (fun s =>
    let a := (s.getX rs1).toNat
    let n := (s.getX rs2).toNat
    if n = 0 then .error (.fatal 0x49 0 0)
    else
      match s.windowBytes a (32 * n) (need (n ≤ 8 && a % 32 = 0) 0x49) with
      | .error e => .error e
      | .ok bs =>
        let ds := (List.range n).map (fun i => Decl.ofBytes ((bs.drop (32 * i)).take 32))
        if ds.any Option.isNone then .error (.fatal 0x49 0 0)
        else .ok (s.setAc { s.tp.ac with decls := ds.filterMap (fun d => d) }))

/-- COMMIT (R372). -/
def execCommit (s : State) : Host.Outcome State Fault Refusal := acStep 4 s State.commit

/-! ## JOIN, PARK, TEND -/

/-- JOIN (R98, R399). -/
def execJoin (rs1 : BitVec 5) (s : State) : Host.Outcome State Fault Refusal :=
  acStep 4 s (fun s =>
    match s.commitFirst with
    | .error e => .error e
    | .ok () => s.joinAt (s.getX rs1).toNat)

/-- Watches of a die in use. -/
def State.watchesUsed (s : State) (die : Nat) : Nat := (s.watches.filter (fun w => w.die == die)).length

/-- Step 5 of PARK: the watch, or an early push when no watch is free or no device memory backs the address (R99). A discarded
page has no memory behind it: its location reads as zero (R233). -/
def State.registerWatch (s : State) (at_ : Piece) (value : Dword) (p : Pawn) : State :=
  let k : Task := s.task
  let full : Bool := 4096 ≤ s.watchesUsed (dieOf s.cur)
  if full then (s.countEvent k.ctx 0x78).pushContinuation p
  else if at_.zero || !inHbm at_.place || Memory.read s.mem at_.place 8 != value.toNat then s.pushContinuation p
  else
    let e : Entry := { pawn := p.continuation k.entry.pawn.cls k.lid, ctx := k.ctx, bind := k.entry.bind, watched := some at_.place }
    let r := (s.pawnBorn k.entry).takeSeq
    { r.2 with watches := s.watches ++
        [{ die := dieOf s.cur, tp := s.cur, place := at_.place, value := value, entry := e, seq := r.1 }] }

/-- PARK (R99, R409). -/
def execPark (rs1 : BitVec 5) (s : State) : Host.Outcome State Fault Refusal :=
  acJump s (fun s =>
    let a := (s.getX rs1).toNat
    match s.commitFirst with
    | .error e => .error e
    | .ok () =>
      match s.windowBytes a 64 (need (a % 64 = 0) 0x49) with
      | .error e => .error e
      | .ok bs =>
        let p := Pawn.ofBytes (bs.take 32)
        let addr := leValue ((bs.drop 32).take 8)
        if !p.clean || leValue (bs.drop 48) != 0 then .error (.fatal 0x49 0 0)
        else if !s.tp.maskDone s.tmask s.tp.cur then .error .wait
        else
          match s.pieces true s.task.ctx 0 1 9 addr 8 with
          | .error e => .error e
          | .ok (ps, s) =>
            .ok (s.registerWatch (ps.headD { place := 0, len := 0, zero := false }) (BitVec.ofNat 64 (leValue ((bs.drop 40).take 8))) p).endTask)

/-- TEND (R110, R422): the pending region set goes before the wait. -/
def execTend (s : State) : Host.Outcome State Fault Refusal :=
  acJump s (fun s =>
    if s.tp.ac.sup then .error (.fatal 0x24 0 0)
    else
      match s.commitFirst with
      | .error e => .error e
      | .ok () =>
        let s := s.setAc { s.tp.ac with decls := [] }
        if !s.tp.maskDone s.tmask s.tp.cur then .error (.done s)
        else if s.task.entry.pawn.jrec = 0 then .ok s.endTask
        else
          match s.joinAt s.task.entry.pawn.jrec with
          | .error .wait => .error (.done s)
          | .error e => .error e
          | .ok s => .ok s.endTask)

/-! ## LAUNCH and TRIG -/

/-- The device reads WIDX of a queue (R78): a descriptor that cannot be read is cause 0x60 (R266, R297). -/
def State.ringQueue (s : State) (q : Nat) : State :=
  match Map.find s.queues q with
  | none => s
  | some lq =>
    if s.unreadable lq.desc 40 then
      s.fatal lq.ctx (mkRecord { ctx := lq.ctx, unit := 0, die := 0, tile := 0, cause := 0x60, queue := q } s.time)
    else
      let s := s.cutIdle q
      { s with queues := Map.put s.queues q { lq with widx := Memory.read s.mem (lq.desc + 16) 4 } }

/-- Steps 2 to 4 of LAUNCH on a queue with a record (R79, R401): the status and the state after. -/
def State.enqueue (s : State) (q : Nat) (lq : LaunchQueue) (rec : List Byte) : Try (Dword × State) :=
  if s.unreadable lq.desc 64 then .error (.fatal 0x60 0 0)
  else
    let ring := Memory.read s.mem lq.desc 8
    let n := 2 ^ bits (Memory.read s.mem (lq.desc + 8) 8) 8 5
    let widx := Memory.read s.mem (lq.desc + 16) 4
    let ridx := Memory.read s.mem (lq.desc + 24) 4
    if n ≤ (widx + 2 ^ 32 - ridx) % 2 ^ 32 then .ok (1, s)
    else
      match s.pieces true s.task.ctx 0 2 129 ((ring + 128 * (widx % n)) % 2 ^ 64) 128 with
      | .error e => .error e
      | .ok (ps, s) =>
        if !ps.all (fun p => s.portOpen s.task.ctx p.place) then .error .wait
        else
          let runs := (ps.foldl (fun (acc : List (Nat × List Byte) × List Byte) p =>
            (acc.1 ++ [(p.place, acc.2.take p.len)], acc.2.drop p.len)) ([], rec)).1
          let s := s.cPerform (runs ++ [(lq.desc + 16, leBytes 4 ((widx + 1) % 2 ^ 32))])
          let s := ps.foldl (fun s p => s.sendPosted s.task.ctx 0 p.place p.len) s
          .ok (0, s.ringQueue q)

/-- LAUNCH (R79, R401). -/
def execLaunch (rd rs1 rs2 : BitVec 5) (s : State) : Host.Outcome State Fault Refusal :=
  acStep 4 s (fun s =>
    let a := (s.getX rs1).toNat
    let q := (s.getX rs2).toNat
    match s.commitFirst with
    | .error e => .error e
    | .ok () =>
      if a % 8 != 0 then .error (.fatal 0x44 0 0)
      else
        match s.windowBytes a 128 with
        | .error e => .error e
        | .ok rec =>
          match (if q < 4096 then Map.find s.queues q else none) with
          | none => .error (.fatal 0x48 8 0)
          | some lq =>
            if lq.ctx != s.task.ctx then .error (.fatal 0x48 8 0)
            else
              match s.enqueue q lq rec with
              | .error e => .error e
              | .ok (v, s) => .ok (s.setX rd v))

/-- One more TRIG of a launch; it is released when its count reaches TRGN (R85). -/
def Launch.trigger (l : Launch) : Launch :=
  let trgn := bits (l.dwords.getD 0 0).toNat 48 16
  if trgn = 0 || trgn ≤ l.trig then l else { l with trig := l.trig + 1, released := l.released || l.trig + 1 = trgn }

/-- A TRIG of a task counts for its launch, unless the launch has completed (R84). -/
def State.trigger (s : State) (e : Entry) : State :=
  if e.bind.isSome then s else s.changeLaunch e.pawn.lid Launch.trigger

/-- TRIG (R85, R430): it waits for the commands on the masked paths that had issued; then their writes, and every write
that may happen before them, are performed at device scope. -/
def execTrig (rs1 : BitVec 5) (s : State) : Host.Outcome State Fault Refusal :=
  acStep 4 s (fun s =>
    let mask := (s.getX rs1).toNat
    let on (p : Nat) : Bool := bitAt mask p
    let id := s.tp.cur
    match s.commitFirst with
    | .error e => .error e
    | .ok () => s.await
        (fun m => !(s.tp.ce.issuedBusy id m.cmd on || s.tp.ie.issuedBusy id m.cmd on || s.tp.he.issuedBusy id m.cmd on))
        (fun s => .ok ((s.drain (fun w => 1 ≤ w.scope || (w.tp == s.cur && on w.path))).trigger s.task.entry)))

end Sys2Proof.Machine
end

