-- ==== Sys2Proof/Machine/Order.lean ====
section
/-!
DEFINITION. The A-stream words that order: XFENCE, EFENCE, TOKP, TOKW and the barrier words (09 R215 to R220, 15 R340 to
R345, 18 R427, 19 R451).
-/
namespace Sys2Proof.Machine

/-! ## Fences -/

/-- Whether a zero-length read of a peer is outstanding for a context (R295). -/
def State.peerReads (s : State) (ctx : Nat) : Bool :=
  s.requests.any (fun e => match e.2 with
    | .nonPosted .peer c _ _ _ => c == ctx
    | _ => false)

/-- Send a zero-length read to every peer that the TP's path-P writes reached, on each link by which they did (R295): a peer and a
link are known by the window. -/
def State.sendZeroReads (s : State) : Try State :=
  match foldTry (fun (s : State) p => match s.sendNonPosted s.task.ctx p.2 p.1 with
      | .error e => .error e
      | .ok s => .ok (s.emit (.zeroLengthRead p.2))) s s.tp.peersReached with
  | .error e => .error e
  | .ok s => .ok { s with tp := { s.tp with peersReached := [] } }

/-- Whether a command of an engine of the TP on a source path is stalled by a translation fault (R452). -/
def State.pathStalled (s : State) (src : Nat) : Bool :=
  s.faults.any (fun f => f.tp == s.cur && f.pawn.isNone && (match ChainUnit.ofCode f.unit with
    | none => false
    | some u =>
      let c := s.eng u
      if f.completing then c.infl.any (fun x => bitAt src (pathOf x.entry)) else c.av && bitAt src (pathOf c.act)))

/-- Whether a fence of the TP in focus covers a pending write of a source path (R205, R215): of its own units, or a retired one of
another TP within its scope. -/
def State.fenced (s : State) (src scope : Nat) (w : WeakWrite) : Bool :=
  bitAt src w.path && w.agent < 8 && (w.tp == s.cur || (1 ≤ w.scope && inScope scope w.tp w.agent s.cur 1))

/-- What the units of the destination paths hold of values that agents within a scope have overwritten is gone (R215, R218): the
CE's paths are K and P, the IE's G, the HE's H; M is the media engines'. -/
def State.dropFenced (s : State) (dst scope : Nat) : State :=
  let gone (x : Stale) : Bool := s.writtenIn scope (lineOf (8 * x.unit))
  let on (a : Nat) : Bool := ((bitAt dst 1 || bitAt dst 5) && a == 4) || (bitAt dst 2 && a == 5) || (bitAt dst 3 && a == 6)
  { s with
    tp := s.tp.dropStale (fun x => on x.agent && gone x)
    mediaStale := s.mediaStale.filter (fun x => !(bitAt dst 4 && 4 ≤ scope && gone x)) }

/-- XFENCE (R215, R452): masks of paths C, K, G, H, M, P. The writes of the source paths are performed at its scope; the paths of
the destination mask hold no earlier value of its scope any more. -/
def State.xfence (s : State) (src dst scope : Nat) : Try State :=
  match (if bitAt src 0 then s.commitFirst else .ok ()) with
  | .error e => .error e
  | .ok () =>
    let far : Bool := bitAt src 5 && 7 ≤ scope
    if far && !s.tp.peersReached.isEmpty then
      match s.sendZeroReads with
      | .error e => .error e
      | .ok s => .error (.done s)
    else if far && s.peerReads s.task.ctx then .error .wait
    else if s.pathStalled src then .error .wait
    else
      let s := (s.widen (s.fenced src (max 1 scope)) (max 1 scope)).dropFenced dst (max 1 scope)
      .ok (if bitAt dst 0 then s.setAc { s.tp.ac with lc := s.tp.ac.lc + 4096 } else s)

/-- XFENCE (R451). -/
def execXfence (src dst : BitVec 6) (scope : BitVec 4) (s : State) : Host.Outcome State Fault Refusal :=
  acStep 4 s (fun s => s.xfence src.toNat dst.toNat scope.toNat)

/-- Whether the words that had issued by a mark have completed: their pushes and delayed writes are made. -/
def Ec.doneTo (c : Ec) (m : Mark) : Bool :=
  (c.pushes.isEmpty || m.ePush ≤ c.pushed) && (c.spec.isEmpty || m.eSpec ≤ c.written)
def Be.doneTo (c : Be) (m : Mark) : Bool :=
  (c.pushes.isEmpty || m.bPush ≤ c.pushed) && (c.chain.isNone || m.bChain != some c.chains)

/-- Whether a unit has completed what it received from a task before an EFENCE (R216, R375): the EC's and the BE's words that had
issued, and the engines' chains, blocks and commands. -/
def Tp.fenceDone (t : Tp) (um id : Nat) (m : Mark) : Bool :=
  (!bitAt um 1 || t.ec.task != id || t.ec.doneTo m) &&
    (!bitAt um 2 || t.be.task != id || t.be.doneTo m) &&
    (!bitAt um 3 || !t.engineBusy t.ce id) &&
    (!bitAt um 4 || !t.engineBusy t.ie id) &&
    (!bitAt um 5 || !t.engineBusy t.he id)

/-- EFENCE (R216, R375). -/
def execEfence (um : BitVec 6) (s : State) : Host.Outcome State Fault Refusal :=
  acStep 4 s (fun s => s.await (fun m => s.tp.fenceDone um.toNat s.tp.cur m)
    (fun s => .ok { s with tp := s.tp.dropBankStale 1 }))

/-! ## Tokens -/

/-- Push up to `n` tokens; the state after and how many are left. -/
def State.pushTokens (s : State) (p c : Nat) : Nat → State × Nat
  | 0 => (s, 0)
  | n + 1 =>
    match s.pushToken p c with
    | some s' => State.pushTokens s' p c n
    | none => (s, n + 1)

/-- TOKP on the A stream: it stays unretired until its last push (R427). -/
def execTokp (u : BitVec 3) (n : BitVec 4) (s : State) : Host.Outcome State Fault Refusal :=
  acStep 4 s (fun s =>
    let want := if s.tp.ac.tokpLeft = 0 then n.toNat else s.tp.ac.tokpLeft
    let r := s.pushTokens 1 u.toNat want
    let s := r.1.setAc { r.1.tp.ac with tokpLeft := r.2 }
    if r.2 = 0 then .ok s else .error (.done s))

/-- TOKW on the A stream (R427). -/
def execTokw (u : BitVec 3) (n : BitVec 4) (s : State) : Host.Outcome State Fault Refusal :=
  acStep 4 s (fun s => s.popTokens u.toNat 1 n.toNat)

/-! ## Barriers (R340, R341) -/

/-- B0 after one arrive. -/
def arriveB0 (b0 : Nat) : Nat :=
  let left := bits b0 0 32
  let extra := bits b0 32 32
  if left > 0 then extra * 2 ^ 32 + (left - 1) else min (extra + 1) (2 ^ 32 - 1) * 2 ^ 32

/-- Where a barrier object stands: in a bank or at a place of global memory. -/
inductive BarAt where
  | bank (a : Nat)
  | place (p space : Nat)
  /-- a discarded page: reads as zeros -/
  | zero
deriving DecidableEq, Repr, Inhabited

/-- The object of an A-stream form (R341): `acck` as R243 codes it, `n` bytes checked. -/
def State.barrierAt (s : State) (g : BitVec 1) (hn : BitVec 4) (x : Dword) (n acck : Nat) : Try BarAt :=
  let a := x.toNat / 16 * 16
  if g = 0 then
    if 0x200000 ≤ a then .error (.fatal 0x44 0 0)
    else
      match s.bankAccess a n with
      | .error e => .error e
      | .ok () => .ok (.bank a)
  else
    let va := (s.getHandle hn).va
    match s.handlePiece hn (BitVec.ofNat 64 ((va + x.toNat) % 2 ^ 64 / 16 * 16 + 2 ^ 64 - va)) n acck with
    | .error e => .error e
    | .ok p => .ok (if p.zero then .zero else .place p.place p.space)

/-- B0 of a barrier object at its home, for a context. -/
def State.readB0 (s : State) (ctx : Nat) (b : BarAt) : Try (Nat × State) :=
  match b with
  | .bank a =>
    if s.tp.bankPoisoned a 8 then .error (.fatal 0x61 0 0) else .ok (s.bankValue a 8, s)
  | .place p space => s.homeRead ctx p 8 space
  | .zero => .ok (0, s)

/-- The scope of a barrier object (R220, R341): tile in a bank; that of B1 in memory. -/
def State.barrierScope (s : State) (b : BarAt) : Nat :=
  match b with
  | .bank _ => 1
  | .place p _ => max 1 (bits (Memory.read s.mem (p + 8) 8) 32 4)
  | .zero => 1

/-- An arrive of a context at the object's home (R341), once the writes that it covers are performed at the barrier's scope
(R220). -/
def State.arrive (s : State) (ctx : Nat) (b : BarAt) (covered : WeakWrite → Bool) : Try State :=
  match (s.widen covered (s.barrierScope b)).readB0 ctx b with
  | .error e => .error e
  | .ok (v, s) =>
    match b with
    | .bank a => .ok (s.writeBank a (leBytes 8 (arriveB0 v)))
    | .place p space => .ok ((s.writeHome p (leBytes 8 (arriveB0 v))).sendPosted ctx space p 8)
    | .zero => .ok s

/-- BARI (R344): held in the replayable phase when it is global. -/
def execBari (g : BitVec 1) (hn : BitVec 4) (rs1 rs2 : BitVec 5) (s : State) : Host.Outcome State Fault Refusal :=
  acHandle hn s (fun s =>
    let v := (s.getX rs2).toNat
    let count := bits v 0 32
    let sc := bits v 32 4
    let scope := if g = 0 || sc = 0 then 1 else sc
    let lo := BitVec.ofNat 64 count
    let hi := BitVec.ofNat 64 (scope * 2 ^ 32 + count)
    if g = 1 && 10 ≤ sc then .error (.fatal 0x20 0 0)
    else
      match s.barrierAt g hn (s.getX rs1) 16 2 with
      | .error e => .error e
      | .ok (.bank a) => .ok (s.putBarrier s.task.ctx 0 ⟨false, a, lo, hi⟩)
      | .ok (.place p space) =>
        if !s.portOpen s.task.ctx p space then .error .wait
        else if s.tp.ac.phase = .replay then
          let h := s.getHandle hn
          .ok (s.setAc { s.tp.ac with heldBaris := s.tp.ac.heldBaris ++ [⟨true, p, lo, hi⟩]
                                      bufPages := s.tp.ac.bufPages ++ [(h.space, h.page)] })
        else .ok (s.putBarrier s.task.ctx space ⟨true, p, lo, hi⟩)
      | .ok .zero => .ok s)

/-- BARA (R342): a commit point, then the arrive. -/
def execBara (g : BitVec 1) (hn : BitVec 4) (rs1 : BitVec 5) (s : State) : Host.Outcome State Fault Refusal :=
  acHandle hn s (fun s =>
    match s.commitFirst with
    | .error e => .error e
    | .ok () =>
      match s.barrierAt g hn (s.getX rs1) 8 4 with
      | .error e => .error e
      | .ok b => s.arrive s.task.ctx b (fun w => w.path == 0 && w.own s.cur 1))

/-- B0 as BARW reads it: a BARI of the task that is still held comes first (R344). -/
def State.waitB0 (s : State) (b : BarAt) : Try (Nat × State) :=
  match (match b with
    | .place p _ => (s.tp.ac.heldBaris.reverse.find? (fun h => h.place == p)).map (fun h => h.lo.toNat)
    | _ => none) with
  | some v => .ok (v, s)
  | none => s.readB0 s.task.ctx b

/-- BARW (R345): it waits until LEFT is 0. The wait's edge reaches every path (R220): values that agents within the barrier's scope
have overwritten are gone (note 27). -/
def execBarw (g : BitVec 1) (hn : BitVec 4) (rs1 : BitVec 5) (s : State) : Host.Outcome State Fault Refusal :=
  acHandle hn s (fun s =>
    match s.barrierAt g hn (s.getX rs1) 8 1 with
    | .error e => .error e
    | .ok b =>
      match s.waitB0 b with
      | .error e => .error e
      | .ok (v, s) =>
        if bits v 0 32 = 0 then
          let s := s.bridge (s.barrierScope b)
          .ok { s with tp := s.tp.dropBankStale 1 }
        else .error .wait)

end Sys2Proof.Machine
end

