-- ==== Sys2Proof/Machine/System.lean ====
section
/-!
DEFINITION. The A-stream words of the TIT and of traps: TIDSET, TIDGET, TRAP, TRET, SVCW, SRET (18 R421 to R429, 11 R254 to
R258), and the entry into service code as a step (11 R254).
-/
namespace Sys2Proof.Machine

/-! ## The tensor identifier table -/

/-- The pieces of entry `n` of the running task's TIT in memory (R72). -/
def State.titPieces (s : State) (n acck : Nat) : Try (List Piece × State) :=
  s.pieces true s.task.ctx 0 acck 65 ((s.task.titb + 64 * n) % 2 ^ 64) 64

/-- Eight dwords from 64 bytes. -/
def dwordsOf (n : Nat) (bs : List Byte) : List Dword :=
  (List.range n).map (fun k => BitVec.ofNat 64 (leValue ((bs.drop (8 * k)).take 8)))

/-- Bytes of dwords. -/
def bytesOfDwords (l : List Dword) : List Byte := l.flatMap (fun d => leBytes 8 d.toNat)

/-- The window address that TIDSET and TIDGET name (R424). -/
def State.titWindow (s : State) (rs1 : BitVec 5) : Try Nat :=
  let a := (s.getX rs1).toNat
  if a % 64 != 0 || 0x200000 ≤ a then .error (.fatal 0x44 0 0)
  else
    match s.bankAccess a 64 with
    | .error e => .error e
    | .ok () => .ok a

/-- TIDSET (R424): the copy and memory. -/
def execTidset (rs1 rs2 : BitVec 5) (s : State) : Host.Outcome State Fault Refusal :=
  acStep 4 s (fun s =>
    let n := (s.getX rs2).toNat % 256
    match s.titWindow rs1 with
    | .error e => .error e
    | .ok a =>
      match s.bankBytes a 64 with
      | .error e => .error e
      | .ok bs =>
        match s.titPieces n 2 with
        | .error e => .error e
        | .ok (ps, s) =>
          match s.storePieces ps bs with
          | .error e => .error e
          | .ok t =>
            let t := match s.tp.tlbFind s.task.ctx 0 ((s.task.titb + 64 * n) % 2 ^ 64) with
              | some p => t.bufferThrough 0 p
              | none => t
            .ok (t.changeTask s.tp.cur (fun k => { k with tit := Map.put k.tit n (dwordsOf 8 bs) })))

/-- TIDGET (R424): the copy, or memory for an absent entry. -/
def execTidget (rs1 rs2 : BitVec 5) (s : State) : Host.Outcome State Fault Refusal :=
  acStep 4 s (fun s =>
    let n := (s.getX rs2).toNat % 256
    match s.titWindow rs1 with
    | .error e => .error e
    | .ok a =>
      match Map.find s.task.tit n with
      | some ds => .ok (s.writeBank a (bytesOfDwords ds))
      | none =>
        match s.titPieces n 1 with
        | .error e => .error e
        | .ok (ps, s) =>
          match s.loadPieces ps with
          | .error e => .error e
          | .ok (bs, s) => .ok (s.writeBank a bs))

/-! ## Traps -/

/-- TRAP n on the A stream (R428): service code is entered with its record. -/
def execTrap (n : BitVec 5) (s : State) : Host.Outcome State Fault Refusal :=
  acJump s (fun s =>
    s.takeOwn 24 (some (mkRecord { s.unitRecord 1 (0xA0 + n.toNat) with prec := true, res := true, detail := 1 } s.time)))

/-- The unit of a TRET goes on (R256). -/
def State.releaseUnit (s : State) (u : Nat) : State :=
  let s := s.setAc { s.tp.ac with pend := s.tp.ac.pend &&& ~~~(BitVec.ofNat 7 (2 ^ u)) }
  match u with
  | 2 => s.setEc { s.tp.ec with status := .running, trec := none }
  | 3 => s.setBe { s.tp.be with status := .running, trec := none }
  | _ =>
    match ChainUnit.ofCode u with
    | some c => s.releaseCommand c
    | none => s

/-- TRET (R256, R429). -/
def execTret (rs1 : BitVec 5) (s : State) : Host.Outcome State Fault Refusal :=
  acStep 4 s (fun s =>
    let v := (s.getX rs1).toNat
    let u := bits v 4 3
    if !s.tp.ac.sup then .error (.fatal 0x2E 0 0)
    else if 65536 ≤ v || bitAt v 7 || bits v 0 4 != 0 || u < 2 || 6 < u then .error (.fatal 0x2F 0 0)
    else
      match s.unitTrap u with
      | none => .error (.fatal 0x2E 0 0)
      | some r => if causeOf r = bits v 8 8 then .ok (s.releaseUnit u) else .error (.fatal 0x2E 0 0))

/-- SVCW (R129, R421). -/
def execSvcw (rs1 : BitVec 5) (s : State) : Host.Outcome State Fault Refusal :=
  acStep 4 s (fun s => .ok { s with tp := { s.tp with svwm := BitVec.ofNat 64 ((s.getX rs1).toNat % 2 ^ 40) } })

/-- SRET (R257): illegal in user mode. -/
def execSret (s : State) : Host.Outcome State Fault Refusal :=
  acJump s (fun s => if s.tp.ac.sup then .ok s.leaveService else .error (.fatal 0x20 0 0))

/-- Service entry at the AC's instruction boundary (R254, R257): the oldest undelivered trap, or the supervisor's
request. -/
def execServiceEntry (s : State) : Host.Outcome State Fault Refusal :=
  acJump s (fun s =>
    if s.tp.ac.sup || s.tp.cur = 0 then .error .wait
    else
      match s.oldestTrap with
      | some t => s.takeInterrupt (some t)
      | none => if s.tp.ac.svcReq then s.takeInterrupt none else .error .wait)

end Sys2Proof.Machine
end

