-- ==== Sys2Proof/Machine/Operands.lean ====
section
/-!
DEFINITION. Operands of E-stream words: registers, pops and peeks of queues (14 R312, 03 R67), guards (14 R313), immediates
(02 R38), and the issue of a word in the EC pipeline (05 R121 to R124).
-/
namespace Sys2Proof.Machine

/-! ## Sources -/

/-- What a source code names (R312). -/
inductive Src where
  | reg (n : Nat)
  | pop (q : Nat)
  | peek (q : Nat)
deriving DecidableEq, Repr

def srcOf (c : BitVec 6) : Src :=
  if c.toNat < 32 then .reg c.toNat else if c.toNat < 40 then .pop (c.toNat - 32) else .peek (c.toNat - 40)

/-- Pops of a queue among some sources. -/
def popsOf (q : Nat) (l : List Src) : Nat := l.countP (fun x => x == .pop q)

/-- The values of some sources in order, where `seen` stands before them: pops take successive entries from the head, a
peek takes the head as it stood (R67). None: an entry is missing. -/
def sourceValues {α : Type} (reg : Nat → α) (queue : Nat → List α) : List Src → List Src → Option (List α)
  | _, [] => some []
  | seen, x :: l =>
    let v := match x with
      | .reg n => some (reg n)
      | .pop q => (queue q)[popsOf q seen]?
      | .peek q => (queue q)[0]?
    match v, sourceValues reg queue (seen ++ [x]) l with
    | some a, some r => some (a :: r)
    | _, _ => none

/-- The queues that some sources name. -/
def queuesOf (l : List Src) : List Nat :=
  l.filterMap (fun x => match x with
    | .reg _ => none
    | .pop q => some q
    | .peek q => some q)

/-- The EC reads only queues that run from A to E (R65), and no poisoned entry (R266). The queues are the running task's: the
stream of an ended task finds nothing in them (note 80). -/
def State.ecQueues (s : State) (l : List Src) : Try Unit :=
  if !(queuesOf l).isEmpty && s.hasTask && !s.tp.streamOf 2 s.tp.cur then .error .wait
  else foldTry (fun _ q => if s.eToA q then .error (.fatal 0x47 0 0) else s.queueOk q (max 1 (popsOf q l))) () (queuesOf l)

/-- Scalar sources: their values, and the state with the pops made. -/
def State.readScalars (s : State) (codes : List (BitVec 6)) : Try (List Dword × State) :=
  let l := codes.map srcOf
  match s.ecQueues l with
  | .error e => .error e
  | .ok () =>
    match sourceValues s.getE s.scalarQ [] l with
    | none => .error .wait
    | some vs => .ok (vs, (queuesOf l).eraseDups.foldl (fun s q => (s.setScalarQ q ((s.scalarQ q).drop (popsOf q l))).movePoison q (popsOf q l)) s)

/-- Whether a tile register holds a poisoned word (R266). -/
def State.tilePoisoned (s : State) (l : List Src) : Bool :=
  !s.tp.poison.isEmpty && l.any (fun x => match x with
    | .reg n => s.tp.poison.any (fun q => q.1 == 1 && q.2 / 512 == s.tp.ec.tileReg n)
    | _ => false)

/-- Tile sources: their values, and the state with the pops made. -/
def State.readTiles (s : State) (codes : List (BitVec 6)) : Try (List Tile × State) :=
  let l := codes.map srcOf
  match s.ecQueues l with
  | .error e => .error e
  | .ok () =>
    if s.tilePoisoned l then .error (.fatal 0x61 0 0)
    else
      match sourceValues s.getW s.tileQ [] l with
      | none => .error .wait
      | some vs => .ok (vs, (queuesOf l).eraseDups.foldl (fun s q => (s.setTileQ q ((s.tileQ q).drop (popsOf q l))).movePoison q (popsOf q l)) s)

/-! ## Guards and immediates -/

/-- The guard of a word, one bit a cell (R313). -/
def State.guard (s : State) (w : EWord) : BitVec 1024 :=
  let p := s.getP w.pg.toNat
  if w.pn = 1 then ~~~p else p

/-- The guard of cell (0, 0). -/
def State.guard0 (s : State) (w : EWord) : Bool := (s.guard w).getLsbD 0

/-- The pattern of a cell of column `j` that IMM16 gives under a format (R38). -/
def immCell (f : Fmt) (imm : BitVec 16) (j : Nat) : Nat :=
  match f with
  | .e4m3 | .e5m2 | .int8 | .uint8 => if j % 2 = 0 then imm.toNat % 256 else imm.toNat / 256
  | .fp32 => imm.toNat * 65536
  | .int32 => ((imm.signExtend 32 : Word)).toNat
  | .bit => imm.toNat * 65537
  | _ => imm.toNat

/-- A cell of a tile. -/
def cellOf (t : Tile) (c : Nat) : Nat := (Sparse.get t c).toNat

end Sys2Proof.Machine

namespace Sys2Proof
open Sys2Proof.Machine

/-- IMM16 as a scalar (R38). -/
def EWord.immS (w : EWord) : Dword := w.imm.signExtend 64

/-- The format of a tile word; its check has refused the others. -/
def EWord.format (w : EWord) : Fmt := (Fmt.ofCode w.fmt.toNat).getD .fp32

/-- MOD16 fields (R314): with I = 1 the word runs with all of them zero. -/
def EWord.rnd (w : EWord) : Rnd := if w.i = 1 then .rne else Rnd.ofCode (w.imm.toNat % 8)

def EWord.sat (w : EWord) : Bool := w.i = 0 && bitAt w.imm.toNat 3

def EWord.zm (w : EWord) : Bool := w.i = 0 && bitAt w.imm.toNat 4

def EWord.fn (w : EWord) : Nat := if w.i = 1 then 0 else w.imm.toNat / 256

/-- The source codes of a word whose last source an immediate may replace. -/
def EWord.tileCodes (w : EWord) (first : List (BitVec 6)) (last : BitVec 6) : List (BitVec 6) :=
  if w.i = 1 then first else first ++ [last]

/-- Cell `c` of source `k`, or the immediate in its place. -/
def EWord.source (w : EWord) (v : List Tile) (k c : Nat) : Nat :=
  match v[k]? with
  | some t => cellOf t c
  | none => immCell w.format w.imm (c % 64)

end Sys2Proof

namespace Sys2Proof.Machine

/-! ## Issue (R121, R123, R124) -/

/-- Keys of the ready list: scalars, tile registers, predicates. -/
def keyE (n : Nat) : Nat := n
def Ec.keyW (ec : Ec) (n : Nat) : Nat := 32 + ec.tileReg n
def Ec.keyP (ec : Ec) (n : Nat) : Nat := 64 + ec.predReg n

/-- Keys of the registers that tile and scalar codes name. -/
def scalarKeys (codes : List (BitVec 6)) : List Nat :=
  codes.filterMap (fun c => if c.toNat < 32 then some (keyE c.toNat) else none)
def Ec.tileKeys (ec : Ec) (codes : List (BitVec 6)) : List Nat :=
  codes.filterMap (fun c => if c.toNat < 32 then some (ec.keyW c.toNat) else none)

/-- The cycle at which a register is ready. -/
def Ec.readyAt (ec : Ec) (key : Nat) : Nat := (Map.find ec.ready key).getD 0

/-- The issue cycle of a word: its registers are ready, and a special function's write to its destination is done. -/
def Ec.issueAt (ec : Ec) (keys : List Nat) (dst : Option Nat) : Nat :=
  let n := (keys ++ dst.toList).foldl (fun n k => max n (ec.readyAt k)) ec.clock
  match dst with
  | some d => ec.spec.foldl (fun n w => if 32 + w.reg = d then max n w.due else n) n
  | none => n

/-- The clock moves on to a cycle: what is due by then is done. -/
def State.atCycle (s : State) (n : Nat) : State := (s.setEc { s.tp.ec with clock := n }).settleE

/-- The pc moves past a word that is no taken branch. -/
def State.eNext (s : State) : State := s.setEc (s.tp.ec.loopEnd Ec.advance)

/-- The cycle at which a word that issues at `n` retires: not before the words before it. -/
def Ec.retireAt (ec : Ec) (n lat : Nat) : Nat := ec.spec.foldl (fun m w => max m w.due) (n + lat)

/-- Timing, counts and the token push of a word that has issued at cycle `n`. -/
def State.eDone (s : State) (w : EWord) (n occ lat : Nat) (dst : Option Nat) : State :=
  let ec := s.tp.ec
  let ready := ec.ready.filter (fun e => n < e.2)
  s.setEc { ec with
    clock := n + occ
    since := ec.since + 1
    ready := match dst with
      | some d => Map.put ready d (n + lat)
      | none => ready
    pushes := if w.tkp = 0 then ec.pushes else ec.pushes ++ [.token (ec.retireAt n lat) w.tkp.toNat] }

/-- A word takes its token, then its operands. -/
def State.eTake1 {β : Type} (s : State) (w : EWord) (operands : State → Try (β × State)) : Try (β × State) :=
  match s.tokenWait 2 w.tkw with
  | .error e => .error e
  | .ok s => operands s

/-- The issue of a word up to its own effect: when its registers are ready it takes its token and its operands and passes the
energy gate (R275). The operands, and the state in which the word acts. -/
def State.eReady {β : Type} (s : State) (w : EWord) (cost : Nat) (keys : List Nat) (dst : Option Nat)
    (operands : State → Try (β × State)) : Try (β × State) :=
  let s := s.atCycle (s.tp.ec.issueAt keys dst)
  match s.eTake1 w operands with
  | .error e => .error e
  | .ok _ =>
    match s.gate (s.tp.taskOf s.tp.ec.task).ctx 2 cost with
    | .error e => .error e
    | .ok s => s.eTake1 w operands

/-- Issue a word, and its effect. -/
def State.eIssue {β : Type} (s : State) (w : EWord) (cost occ lat : Nat) (keys : List Nat) (dst : Option Nat)
    (operands : State → Try (β × State)) (act : β → State → Try State) : Try State :=
  match s.eReady w cost keys dst operands with
  | .error e => .error e
  | .ok (b, t) =>
    match act b t with
    | .error e => .error e
    | .ok t => .ok (t.eDone w (s.tp.ec.issueAt keys dst) occ lat dst)

/-- An E-stream word: on a wait a cycle passes. -/
def ecStep (s : State) (f : State → Try State) : Host.Outcome State Fault Refusal :=
  match f s with
  | .ok s' => .next s'
  | .error .wait => .next s.idleE
  | .error e => .next (s.stopUnit 2 none e)

/-- A scalar word: sources, destination key, and its effect; then the pc moves on. -/
def eScalarWord (s : State) (w : EWord) (codes : List (BitVec 6)) (keys : List Nat) (dst : Option Nat)
    (act : List Dword → State → Try State) : Host.Outcome State Fault Refusal :=
  ecStep s (fun s => s.eIssue w 6 1 1 (scalarKeys codes ++ s.tp.ec.keyP w.pg.toNat :: keys) dst
    (fun s => s.readScalars codes) (fun v s =>
      match act v s with
      | .error e => .error e
      | .ok s => .ok s.eNext))

/-- A word that writes a scalar under its guard. -/
def eToScalar (s : State) (w : EWord) (codes : List (BitVec 6)) (f : List Dword → Dword) :
    Host.Outcome State Fault Refusal :=
  eScalarWord s w codes [] (some (keyE w.d.toNat))
    (fun v s => .ok (if s.guard0 w then s.setE w.d.toNat (f v) else s))

/-- A word that writes a whole predicate under the guard of cell (0, 0). -/
def eToPred (s : State) (w : EWord) (codes preds : List (BitVec 6)) (f : List Dword → State → BitVec 1024) :
    Host.Outcome State Fault Refusal :=
  eScalarWord s w codes (preds.map (fun p => s.tp.ec.keyP p.toNat)) (some (s.tp.ec.keyP w.d.toNat))
    (fun v s => .ok (if s.guard0 w then s.setP w.d.toNat (f v s) else s))

/-! ## Tile words (R431, R432) -/

/-- A tile word that writes a tile register: sources, latency, and the cell values from its sources. -/
def eTileWord (s : State) (w : EWord) (codes : List (BitVec 6)) (keys : List Nat) (lat : Nat)
    (f : State → List Tile → Nat → Nat) : Host.Outcome State Fault Refusal :=
  let ec := s.tp.ec
  ecStep s (fun s => s.eIssue w 72 4 lat (ec.tileKeys codes ++ ec.keyP w.pg.toNat :: keys) (some (ec.keyW w.d.toNat))
    (fun s => s.readTiles codes) (fun v s =>
      let g := (s.guard w).toNat
      let on (c : Nat) : Bool := bitAt g c
      .ok ((s.writeW (s.tp.ec.tileReg w.d.toNat) (fun c => on c || w.zm)
        (fun c => if on c then BitVec.ofNat 32 (f s v c) else 0)).eNext)))

/-- The pattern of an element: the low bits of its cell (R21); under BIT the whole cell (R431). -/
def elem (f : Fmt) (x : Nat) : Nat := if f = .bit then x else x % 2 ^ f.width

end Sys2Proof.Machine
end

