-- ==== Sys2Proof/Machine/Tensor.lean ====
section
/-!
DEFINITION. Tensors: TIT entries and their checks (03 R72 to R76, 07 R161), the layout of elements (02 R19, R20, R33 to R37,
03 R74, R75), and the reading of entries by engines (18 R423).
-/
namespace Sys2Proof.Machine

/-! ## Entries (R73) -/

/-- A TIT entry by its fields; `addr` and `space` of a KIND 3 entry are those of its store buffer (R161). -/
structure Tensor where
  fcode : Nat
  kind : Nat
  space : Nat
  ssid : Nat
  par : Nat
  spm : Nat
  iloc : Bool
  sloc : Bool
  cbn : Nat
  addr : Nat
  /-- space of ADDR: that of the entry for KIND 1, 0 for KIND 3 -/
  aspace : Nat
  rows : Nat
  cols : Nat
  planes : Nat
  rstr : Nat
  pstr : Nat
  sbase : Nat
  saddr : Nat
  iaddr : Nat
deriving DecidableEq, Repr, Inhabited

/-- The fields of eight dwords. -/
def Tensor.ofDwords (d : List Dword) : Tensor :=
  let f (k lo n : Nat) : Nat := bits (d.getD k 0).toNat lo n
  { fcode := f 0 0 4, kind := f 0 4 2, space := f 0 56 8, ssid := f 0 44 12, par := f 0 43 1, spm := f 0 40 3,
    iloc := f 0 39 1 = 1, sloc := f 0 38 1 = 1, cbn := f 0 36 2, addr := f 1 0 64, aspace := f 0 56 8, rows := f 2 32 24,
    cols := f 2 0 24, planes := f 3 48 16, rstr := f 3 0 32, pstr := f 4 0 48, sbase := f 5 0 32, saddr := f 6 0 64,
    iaddr := f 7 0 64 }

/-- The element format; a reserved code has none. -/
def Tensor.fmt (t : Tensor) : Fmt := (Fmt.ofCode t.fcode).getD .fp32

/-- Width in bits of one element in memory. -/
def Tensor.width (t : Tensor) : Nat := t.fmt.width

/-- Stored columns of a tile: 32 for compressed activations (R149). -/
def Tensor.tileCols (t : Tensor) : Nat := if t.spm = 5 then 32 else 64

def Tensor.tileRowCount (t : Tensor) : Nat := ceilDiv t.rows 16
def Tensor.tileColCount (t : Tensor) : Nat := ceilDiv t.cols t.tileCols

/-- Number of tiles (R75). -/
def Tensor.tiles (t : Tensor) : Nat := t.tileRowCount * t.tileColCount * t.planes

/-- Plane, first row and first column of a tile (R75). -/
def Tensor.tileAt (t : Tensor) (n : Nat) : Nat × Nat × Nat :=
  (n / t.tileColCount / t.tileRowCount, 16 * (n / t.tileColCount % t.tileRowCount), t.tileCols * (n % t.tileColCount))

/-- Bytes of one packed row (R20). -/
def Tensor.rowBytes (t : Tensor) : Nat := if (Fmt.ofCode t.fcode).isNone then 0 else ceilDiv (t.cols * t.width) 8

/-- Bytes from the first to the last of the tensor. -/
def Tensor.extent (t : Tensor) : Nat := (t.planes - 1) * t.pstr + (t.rows - 1) * t.rstr + t.rowBytes

/-- Blocks of one row, and bytes of the scale array (R33). -/
def Tensor.blocks (t : Tensor) : Nat := ceilDiv t.cols 128
def Tensor.scaleBytes (t : Tensor) : Nat := t.planes * t.rows * t.blocks

/-- Kept inputs of every eight, and output columns of one unit of compressed weights (R148). -/
def Tensor.kept (t : Tensor) : Nat := if t.spm = 1 || t.spm = 2 then 2 else 4
def Tensor.unit (t : Tensor) : Nat := if t.spm = 1 || t.spm = 3 then 4 else 8

/-- Bytes of the index array (R148, R149). -/
def Tensor.indexBytes (t : Tensor) : Nat :=
  if t.spm = 0 then 0
  else if t.spm = 5 then t.tiles * 128
  else ceilDiv (t.planes * t.rows) t.unit * (4 * t.kept)

/-- A range of the window lies within one bank group (R50, R76). -/
def inGroup (addr n : Nat) : Bool := addr < 0x200000 && (n == 0 || (addr + n - 1) / 0x80000 == addr / 0x80000)

/-- The reserved fields of an entry are zero (R73, R76). -/
def entryClean (d : List Dword) : Bool :=
  let t := Tensor.ofDwords d
  let z (k lo n : Nat) : Bool := bits (d.getD k 0).toNat lo n == 0
  z 0 6 30 && (t.kind == 3 || (z 0 44 12 && z 0 43 1)) && t.spm < 6 &&
    (t.kind != 2 || z 1 21 43) && (t.kind != 3 || z 1 48 16) && z 2 56 8 && z 2 24 8 && z 3 32 16 && z 4 48 16 && z 5 32 32 &&
    (!t.sloc || z 6 21 43) && (t.spm == 0 || !t.iloc || z 7 21 43)

/-- The checks of R76. -/
def entryOk (d : List Dword) : Bool :=
  let t := Tensor.ofDwords d
  t.kind != 0 && entryClean d && t.rows != 0 && t.cols != 0 && t.planes != 0 && t.tiles ≤ 32768 &&
    t.addr % 16 == 0 && t.rstr % 16 == 0 && t.pstr % 16 == 0 && t.saddr % 16 == 0 && (t.spm == 0 || t.iaddr % 16 == 0) &&
    t.rowBytes ≤ t.rstr && (t.fcode != 9 || t.cols % 8 == 0) &&
    (t.kind != 2 || inGroup t.addr t.extent) &&
    (!t.sloc || t.saddr == 0 || inGroup t.saddr t.scaleBytes) &&
    (t.spm == 0 || !t.iloc || inGroup t.iaddr t.indexBytes)

/-- The format checks of R20 and R33: no reserved code, and no scale array on FP32, INT32 and BIT. -/
def Tensor.fmtOk (t : Tensor) : Bool :=
  t.fcode < 11 && (t.saddr == 0 || !(t.fcode == 4 || t.fcode == 8 || t.fcode == 10))

/-! ## Elements (R20, R74) -/

def Tensor.rowStart (t : Tensor) (p i : Nat) : Nat := t.addr + p * t.pstr + i * t.rstr

/-- First byte and byte count of columns `j` to `j + n - 1` of a row. -/
def Tensor.span (t : Tensor) (p i j n : Nat) : Nat × Nat :=
  if t.fmt = .cb2 then (t.rowStart p i + 2 * (j / 8), 2 * (ceilDiv (j + n) 8 - j / 8))
  else (t.rowStart p i + j * t.width / 8, ceilDiv ((j + n) * t.width) 8 - j * t.width / 8)

/-- The pattern of column `j + k` from the value `v` of the bytes that `span` names for column `j`; for CB2 the index that
holds the element. -/
def Tensor.pattern (t : Tensor) (v j k : Nat) : Nat :=
  if t.fmt = .cb2 then bits v (16 * ((j + k) / 8 - j / 8)) 16 else bits v (j * t.width % 8 + k * t.width) t.width

/-- Address of the scale byte of an element (R33). -/
def Tensor.scaleAt (t : Tensor) (p i j : Nat) : Nat := t.saddr + (p * t.rows + i) * t.blocks + j / 128

/-- The value of an element from its pattern, its scale byte and, for CB2, its table (R35, R36). -/
def Tensor.value (t : Tensor) (cb : Sparse 32) (scale : Option Nat) (x j : Nat) : Val :=
  let raw := if t.fmt = .cb2 then cb2V (Sparse.get cb (x / 256)).toNat x (j % 8) else valueOf t.fmt x
  scaleV raw (match scale with
    | some e => e8m0 e
    | none => .fin false 1 0) (decodeFloat .fp32 t.sbase)

/-- Positive zero: a cell outside a tensor (R75). -/
def zeroV : Val := .fin false 0 0

/-- Bytes of some elements of a row with `f k` as the new pattern of column `j + k`, over the old value of the bytes. -/
def Tensor.pack (t : Tensor) (old j n : Nat) (f : Nat → Nat) : Nat :=
  (List.range n).foldl (fun v k =>
    let lo := j * t.width % 8 + k * t.width
    v - bits v lo t.width * 2 ^ lo + f k % 2 ^ t.width * 2 ^ lo) old

/-! ## Reading entries (R72, R423) -/

/-- A path-C read of a TIT entry in memory by a command or a stage word (R423). The cache serves the AC alone (R54) and the
read set holds the lines of the A stream's loads: this read, made at the entry's home, touches neither (note 19). -/
def State.entryMemory (s : State) (k : Task) (n : Nat) : Try (List Dword × State) :=
  match s.pieces true k.ctx 0 1 65 ((k.titb + 64 * n) % 2 ^ 64) 64 with
  | .error e => .error e
  | .ok (ps, s) =>
    let p := ps.headD { place := 0, len := 0, zero := true }
    if p.zero then .ok (dwordsOf 8 (List.replicate 64 0), s)
    else
      match s.deviceLoad k.ctx p.place 64 with
      | .error e => .error e
      | .ok (v, s) => .ok (dwordsOf 8 (leBytes 64 v), s)

/-- The copy of the table that work of a task uses: its task's, or on another TP than its sender's that of a block's binding
(R72, R423). -/
def State.titOf (s : State) (k : Task) : Map (List Dword) :=
  match s.tp.tasks.find? (fun q => q.id == k.id) with
  | some q => q.tit
  | none => k.tit

/-- Keep an entry in that copy. -/
def State.keepEntry (s : State) (k : Task) (n : Nat) (d : List Dword) : State :=
  if k.block && s.tp.tasks.all (fun q => q.id != k.id) then
    let add (b : Task) : Task := if b.id == k.id then { b with tit := Map.put b.tit n d } else b
    let eng (c : Chain) : Chain :=
      { c with running := c.running.map (fun b => { b with task := add b.task }), actBlock := c.actBlock.map add
               shdBlock := c.shdBlock.map add }
    { s with tp := { s.tp with ce := eng s.tp.ce, ie := eng s.tp.ie, he := eng s.tp.he } }
  else s.changeTask k.id (fun q => { q with tit := Map.put q.tit n d })

/-- Entry `n` for work of a task: its copy, or memory. -/
def State.entryOf (s : State) (k : Task) (n : Nat) : Try (List Dword × State) :=
  match Map.find (s.titOf k) n with
  | some d => .ok (d, s)
  | none =>
    match s.entryMemory k n with
    | .error e => .error e
    | .ok (d, s) => .ok (d, s.keepEntry k n d)

/-- Bytes of a buffer of a stream store, and the address of buffer `b` (R160). -/
def State.storeBuffer (s : State) (record b : Nat) : Nat := Memory.read s.mem (record + 8 * b) 8
def State.storeSize (s : State) (record : Nat) : Nat := bits (Memory.read s.mem (record + 16) 8) 0 48

/-- The tensor of an entry for work of a task: the checks of R76, and R161 for KIND 3. -/
def State.resolve (s : State) (k : Task) (d : List Dword) : Try Tensor :=
  if !entryOk d then .error (.fatal 0x46 0 0)
  else
    let t := Tensor.ofDwords d
    if t.kind != 3 then .ok t
    else
      match k.strm, Map.find s.streams t.ssid with
      | some (ssid, frame), some st =>
        if ssid != t.ssid || st.ctx != k.ctx || s.storeSize st.record < t.addr + t.extent then .error (.fatal 0x46 0 0)
        else .ok { t with addr := s.storeBuffer st.record ((frame + t.par) % 2) + t.addr, aspace := 0 }
      | _, _ => .error (.fatal 0x46 0 0)

/-- The tensor with identifier `n` for work of a task. -/
def State.tensor (s : State) (k : Task) (n : Nat) : Try (Tensor × State) :=
  match s.entryOf k n with
  | .error e => .error e
  | .ok (d, s) =>
    match s.resolve k d with
    | .error e => .error e
    | .ok t => .ok (t, s)

/-! ## Reading banks (R55, R56) -/

/-- Patterns of columns `j` to `j + n - 1` of a row in the banks. -/
def State.bankRow (s : State) (t : Tensor) (p i j n : Nat) : Try (List Nat) :=
  let r := t.span p i j n
  match s.bankBytes r.1 r.2 with
  | .error e => .error e
  | .ok bs => .ok ((List.range n).map (t.pattern (leValue bs) j))

/-- The scale bytes of columns `j` to `j + n - 1` of a row in the banks, one for each column; none without an array. -/
def State.bankScales (s : State) (t : Tensor) (p i j n : Nat) : Try (List (Option Nat)) :=
  if t.saddr = 0 then .ok (List.replicate n none)
  else
    match s.bankBytes (t.scaleAt p i j) (t.scaleAt p i (j + n - 1) + 1 - t.scaleAt p i j) with
    | .error e => .error e
    | .ok bs => .ok ((List.range n).map (fun k => some ((bs.getD ((j + k) / 128 - j / 128) 0).toNat)))

/-- Values of columns `j` to `j + n - 1` of row `i` of plane `p`: cells outside ROWS × COLS are +0 (R75). -/
def State.bankValues (s : State) (t : Tensor) (p i j n : Nat) : Try (List Val) :=
  let m := if i < t.rows then min n (t.cols - j) else 0
  if m = 0 then .ok (List.replicate n zeroV)
  else
    match s.bankRow t p i j m, s.bankScales t p i j m with
    | .error e, _ => .error e
    | _, .error e => .error e
    | .ok xs, .ok es =>
      .ok ((xs.zip es).mapIdx (fun k x => t.value (s.getCb t.cbn) x.2 x.1 (j + k)) ++ List.replicate (n - m) zeroV)

/-- Values of the 16 rows of a tile, `cols` stored columns each. -/
def State.bankTile (s : State) (t : Tensor) (tile cols : Nat) : Try (List Val) :=
  let a := t.tileAt tile
  foldTry (fun acc i =>
    match s.bankValues t a.1 (a.2.1 + i) a.2.2 cols with
    | .error e => .error e
    | .ok vs => .ok (acc ++ vs)) [] (List.range 16)

/-- Write the patterns `f k` of columns `j + k` of a row in the banks, `n` of them. -/
def State.writeBankRow (s : State) (t : Tensor) (p i j n : Nat) (f : Nat → Nat) : State :=
  if n = 0 then s
  else
    let r := t.span p i j n
    s.writeBank r.1 (leBytes r.2 (t.pack (s.bankValue r.1 r.2) j n f))

/-- Write a tile of a tensor in the banks: cells outside ROWS × COLS are dropped (R75). -/
def State.writeBankTile (s : State) (t : Tensor) (tile : Nat) (f : Nat → Nat) : State :=
  let a := t.tileAt tile
  (List.range 16).foldl (fun s i =>
    if a.2.1 + i < t.rows then s.writeBankRow t a.1 (a.2.1 + i) a.2.2 (min 64 (t.cols - a.2.2)) (fun k => f (64 * i + k))
    else s) s

end Sys2Proof.Machine
end

