-- ==== Sys2Proof/Machine/Command.lean ====
section
/-!
DEFINITION. Chains and their commands (05 R117 to R119, 14 R321, 16 R359, R366, 17 R389, R400): the control entries, what
every command shares when it issues, runs and completes, and the commands TOKP, TOKW and BARA (18 R427, 15 R343).
-/
namespace Sys2Proof.Machine

/-- The chain engine that acts: control entries and the commands of every engine run on it. -/
def State.walker (s : State) : ChainUnit :=
  match s.turn.agent with
  | .ie => .ie
  | .he => .he
  | _ => .ce

/-! ## Control entries (R118, R400) -/

/-- The walk goes on at the next entry of the running block, or of the chain. -/
def Chain.pass (c : Chain) : Chain :=
  match c.running with
  | some b => { c with running := some { b with pos := b.pos + 1 }, popped := false, state := 1 }
  | none => { c with ent := c.ent + 1, popped := false, ahead := none, state := 1 }

/-- The walk goes on at a window address of a chain. -/
def Chain.goto (c : Chain) (a : Nat) : Chain := { c with ent := BitVec.ofNat 17 (a / 16), popped := false, ahead := none, state := 1 }

/-- LSKk with a count and the address of a body (R120). -/
def lskOf (cnt body : Nat) : Dword := BitVec.ofNat 64 (cnt % 65536 * 2 ^ 32 + body / 16 % 131072 * 16)

/-- Position after the KEND that matches a KLOOP at position `pos` of a block's entries. -/
def matchingEnd : List (BitVec 128) → Nat → Nat → Option Nat
  | [], _, _ => none
  | w :: rest, pos, depth =>
    let op := bits w.toNat 120 8
    if op = 2 then (if depth = 0 then some (pos + 1) else matchingEnd rest (pos + 1) (depth - 1))
    else matchingEnd rest (pos + 1) (if op = 1 then depth + 1 else depth)

/-- A jump of the walk (R118): the target lies in a scratchpad or operand bank. A block has no window address to jump to
(note 18). -/
def State.jumpTo (s : State) (c : Chain) (a : Nat) : Try Chain :=
  if c.running.isSome || !s.tp.usable a 16 then .error (.fatal 0x4D 0 0) else .ok (c.goto a)

/-- A control entry: its effect, then its TKP; a token of work that is not the running task's is discarded (R115). -/
def control (w : KWord) (s : State) (f : Chain → Try Chain) : Host.Outcome State Fault Refusal :=
  let u := s.walker
  let c := s.eng u
  match f c with
  | .error .wait => .next s
  | .error (.fatal cause _ _) => .next (s.walkFatal u cause)
  | .error e => .next (s.stopUnit u.code none e)
  | .ok c' =>
    if w.tkp = 0 || (s.tp.walkTask c).id != s.tp.cur then .next (s.setEng u c')
    else
      match s.pushToken u.code w.tkp.toNat with
      | some s' => .next (s'.setEng u c')
      | none => .next s

/-- KNOP. -/
def execKnop (w : KWord) (s : State) : Host.Outcome State Fault Refusal := control w s (fun c => .ok c.pass)

/-- KLOOP. -/
def execKloop (w : KWord) (s : State) : Host.Outcome State Fault Refusal :=
  control w s (fun c =>
    let body := match c.running with
      | some b => 16 * (b.pos + 1)
      | none => 16 * (c.ent.toNat + 1)
    if w.count = 0 then
      match c.running with
      | some b =>
        match matchingEnd (b.entries.drop (b.pos + 1)) (b.pos + 1) 0 with
        | some p => .ok { c with running := some { b with pos := p }, popped := false, state := 1 }
        | none => .error (.fatal 0x4D 0 0)
      | none =>
        match s.jumpTo c (bits w.arg.toNat 0 21) with
        | .ok c' => .ok { c' with ent := c'.ent + 1 }
        | .error e => .error e
    else if 4 ≤ c.ldep.toNat then .error (.fatal 0x4D 0 0)
    else .ok { c.pass with lsk := Sparse.set c.lsk c.ldep.toNat (lskOf w.count.toNat body), ldep := c.ldep + 1 })

/-- KEND. -/
def execKend (w : KWord) (s : State) : Host.Outcome State Fault Refusal :=
  control w s (fun c =>
    let base := match c.running with
      | some b => b.base
      | none => 0
    let d := c.ldep.toNat - 1
    let v := (Sparse.get c.lsk d).toNat
    let cnt := (bits v 32 16 + 65535) % 65536
    let c1 := { c with lsk := Sparse.set c.lsk d (lskOf cnt (bits v 0 21)) }
    if c.ldep.toNat ≤ base then .error (.fatal 0x4D 0 0)
    else if cnt = 0 then .ok { c1.pass with ldep := c.ldep - 1 }
    else
      match c1.running with
      | some b => .ok { c1 with running := some { b with pos := bits v 4 17 }, popped := false, state := 1 }
      | none => .ok (c1.goto (bits v 0 21)))

/-- KJMP. -/
def execKjmp (w : KWord) (s : State) : Host.Outcome State Fault Refusal :=
  control w s (fun c => s.jumpTo c (bits w.arg.toNat 0 21))

/-- KIF: the test is one local read of 8 bytes (R62), made when the walk read the entry (R119). -/
def execKif (w : KWord) (s : State) : Host.Outcome State Fault Refusal :=
  control w s (fun c =>
    let test := bits w.arg.toNat 32 21
    if test % 8 != 0 || !s.tp.usable test 8 then .error (.fatal 0x4D 0 0)
    else
      let read : Try Nat := match (if c.running.isNone then c.ahead.bind (fun x => x.2) else none) with
        | some v => .ok v.toNat
        | none => (s.bankBytes test 8).map leValue
      match read with
      | .error e => .error e
      | .ok v => if v != 0 then .ok c.pass else s.jumpTo c (bits w.arg.toNat 0 21))

/-- KSTOP: the chain ends once its earlier commands have completed. In a block it ends the block. -/
def execKstop (w : KWord) (s : State) : Host.Outcome State Fault Refusal :=
  let u := s.walker
  match control w s (fun c =>
    match c.running with
    | some b => .ok { c with running := none, ldep := BitVec.ofNat 3 b.base, popped := false }.rest
    | none =>
      if !c.drained then .error .wait
      else .ok { c with heads := c.heads.drop 1, walking := false, popped := false, ahead := none, closed := none, ldep := 0 }.rest) with
  | .next s' => .next (if (s'.eng u).heads.length < (s.eng u).heads.length then { s' with tp := s'.tp.reap } else s')
  | r => r

/-- TOKW of a chain: like a KNOP whose TKW waits for N tokens (R427). -/
def execTokwChain (w : KWord) (s : State) : Host.Outcome State Fault Refusal :=
  let u := s.walker
  let p := bits w.arg.toNat 0 3
  let n := bits w.arg.toNat 4 4
  if s.tokensFor u (s.tp.walkTask (s.eng u)) p n then
    .next ((s.takeTokens p u.code n).setEng u (s.eng u).reopen.pass)
  else .next (s.setEng u { s.eng u with state := 2 })

/-! ## The active set (R119) -/

/-- The shadow set moves into the active set. -/
def execShadowToActive (u : ChainUnit) (s : State) : Host.Outcome State Fault Refusal :=
  let c := s.eng u
  if c.av || !c.sv then .next s
  else
    .next (s.setEng u { c with act := c.shd, actAddr := c.shdAddr, actId := c.shdId, actBlock := c.shdBlock, av := true,
                               aprg := 0, tits := [], sv := false, shdBlock := none, state := 1 })

/-- Most commands of an engine in flight (R119). -/
def flightLimit : ChainUnit → Nat
  | .ce => 256
  | .ie => 64
  | .he => 8

/-- The identity of an engine's global accesses for a task's work (R198, R103). -/
def State.whoOf (s : State) (u : ChainUnit) (k : Task) (path : Nat) : Who :=
  { tp := s.cur, agent := u.code, path := path, ctx := k.ctx, lid := k.lid, cmd := (s.eng u).actNum, base := (s.eng u).actBase }

/-- The work that the active command runs under. -/
def State.work (s : State) (u : ChainUnit) : Task := s.tp.activeTask (s.eng u)

/-- Read the entries with these identifiers into the active set, checked in order (R72, R76, R161). -/
def State.nameEntries (s : State) (u : ChainUnit) : List Nat → Try State
  | [] => .ok s
  | n :: rest =>
    match s.entryOf (s.work u) n with
    | .error e => .error e
    | .ok (d, s) =>
      match s.resolve (s.work u) d with
      | .error e => .error e
      | .ok _ => State.nameEntries (s.setEng u { s.eng u with tits := Map.put (s.eng u).tits n d }) u rest

/-- The checks of the entry of BID (R321): KIND 1 or 2, aligned; only KIND 1 in a block. -/
def State.nameBarrier (s : State) (u : ChainUnit) (w : KWord) : Try State :=
  if w.ba = 0 then .ok s
  else
    match s.nameEntries u [w.bid.toNat] with
    | .error e => .error e
    | .ok s =>
      let t := Tensor.ofDwords ((Map.find (s.eng u).tits w.bid.toNat).getD [])
      if t.kind = 3 || t.addr % 16 != 0 then .error (.fatal 0x46 0 0) else .ok s

/-- What a command keeps in the active set beside its entries, under a number no identifier has. -/
def State.putTits (s : State) (u : ChainUnit) (k : Nat) (d : List Nat) : State :=
  s.setEng u { s.eng u with tits := Map.put (s.eng u).tits k (d.map (BitVec.ofNat 64)) }

/-- The tensor that the active command read under an identifier when it issued. -/
def State.named (s : State) (u : ChainUnit) (n : BitVec 8) : Try Tensor :=
  match Map.find (s.eng u).tits n.toNat with
  | some d => s.resolve (s.work u) d
  | none => .error (.fatal 0x46 0 0)

/-- The tensors of several identifiers. -/
def State.namedAll (s : State) (u : ChainUnit) : List (BitVec 8) → Try (List Tensor)
  | [] => .ok []
  | n :: rest =>
    match s.named u n, State.namedAll s u rest with
    | .ok t, .ok l => .ok (t :: l)
    | .error e, _ => .error e
    | _, .error e => .error e

/-- The bank checks of a command (R55, R103): no local tensor in a block, and every byte touched in usable banks. -/
def State.banksOk (s : State) (u : ChainUnit) (local_ : Bool) (spans : List (Nat × Nat)) : Try Unit :=
  if (s.work u).block && local_ then .error (.fatal 0x43 0 0)
  else if spans.any (fun r => !s.tp.usable r.1 r.2) then .error (.fatal 0x43 0 0)
  else .ok ()

/-- The bank check of the barrier object of BID. -/
def State.barrierBank (s : State) (u : ChainUnit) (w : KWord) : Try Unit :=
  if w.ba = 0 then .ok ()
  else
    let t := Tensor.ofDwords ((Map.find (s.eng u).tits w.bid.toNat).getD [])
    s.banksOk u (t.kind == 2) (if t.kind = 2 then [(t.addr, 8)] else [])

/-- The step of R473 at which a cause is decided, for the causes that the checks of a command raise. -/
def checkStep (cause : Nat) : Nat := if cause = 0x46 then 2 else if cause = 0x41 then 3 else if cause = 0x43 || cause = 0x44 then 4 else 5

/-- A command's own checks beside a bank check: of two faults the one of the earlier step of R473. -/
def firstOf {α : Type} (own : Try α) (banks : Try Unit) : Try α :=
  match own, banks with
  | .error (.fatal c r d), .error e => if checkStep c < 4 then .error (.fatal c r d) else .error e
  | .error e, _ => .error e
  | .ok _, .error e => .error e
  | .ok s, .ok () => .ok s

/-- A command has issued: it takes the next number of its TP (R202) and counts for the watermark (R128). -/
def State.numberActive (s : State) (u : ChainUnit) : State :=
  let n := s.tp.issued + 1
  let c := s.eng u
  let s := s.setEng u { c with aprg := 1, since := c.since + 1, state := 1, actNum := n
                               actBase := (Map.find s.tp.doneCmd u.code).getD 0 }
  { s with tp := { s.tp with issued := n } }

/-- A command issues: the flight limit, its entries and their formats, its own checks, and the charge (R119, R473, R275).
`check` is given the tensors named. -/
def issueCommand (u : ChainUnit) (w : KWord) (ids : List (BitVec 8)) (check : State → List Tensor → Try State)
    (cost : State → List Tensor → Nat) (s : State) : Try State :=
  if flightLimit u ≤ (s.eng u).infl.length then .error .wait
  else
    match s.nameEntries u (ids.map BitVec.toNat) with
    | .error e => .error e
    | .ok s =>
      match s.nameBarrier u w with
      | .error e => .error e
      | .ok s =>
        match s.namedAll u ids with
        | .error e => .error e
        | .ok ts =>
          if ts.any (fun t => !t.fmtOk) then .error (.fatal 0x41 0 0)
          else
            match firstOf (check s ts) (s.barrierBank u w) with
            | .error e => .error e
            | .ok s' =>
              match s'.gate (s'.work u).ctx u.code (cost s' ts) with
              | .error e => .error e
              | .ok t => .ok (t.numberActive u)

/-- APRG of a command at unit of work `k` with a number kept: its form is the engine's own (R120). -/
def progressAt (k kept : Nat) : Dword :=
  if kept = 0 then BitVec.ofNat 64 (k + 1) else BitVec.ofNat 64 (2 ^ 63 + kept % 2 ^ 32 * 2 ^ 31 + (k + 1) % 2 ^ 31)

/-- Progress of the active command: the unit of work it is at, and a number that the command keeps. -/
def Chain.unitAt (c : Chain) : Nat := if bitAt c.aprg.toNat 63 then bits c.aprg.toNat 0 31 - 1 else c.aprg.toNat - 1
def Chain.kept (c : Chain) : Nat := if bitAt c.aprg.toNat 63 then bits c.aprg.toNat 31 32 else 0

/-- The active command goes on to its next unit of work with a number kept, or has generated its accesses after `n`
units. -/
def State.unitDone (s : State) (u : ChainUnit) (n kept : Nat) : State :=
  let c := s.eng u
  if n ≤ c.unitAt + 1 then s.retire u
  else s.setEng u { c with aprg := progressAt (c.unitAt + 1) kept }

/-- A command of the active set: it issues, then performs its units of work one step each (R119, R250). A command without
accesses completes as soon as it is active. -/
def command (u : ChainUnit) (s : State) (issue : State → Try State) (units : State → Try Nat)
    (unit : State → Nat → Try (State × Nat)) : Host.Outcome State Fault Refusal :=
  if (s.eng u).aprg = 0 then
    match issue s with
    | .error e => .next (s.stopUnit u.code none e)
    | .ok s' =>
      match units s' with
      | .ok 0 => .next (s'.retire u)
      | .ok _ => .next s'
      | .error e => .next (s'.stopUnit u.code none e)
  else
    match units s with
    | .error e => .next (s.stopUnit u.code none e)
    | .ok n =>
      if n ≤ (s.eng u).unitAt then .next (s.retire u)
      else
        match unit s (s.eng u).unitAt with
        | .error e => .next (s.stopUnit u.code none e)
        | .ok (s', kept) => .next (s'.unitDone u n kept)

/-- The active command raises an engine event (R255): its task traps and the command is held, or the event is counted and
the command completes. -/
def State.engineEvent (s : State) (u : ChainUnit) (cause detail : Nat) : State :=
  let k := s.work u
  if k.id = s.tp.cur && !k.block then
    s.trapUnit u.code (mkRecord { s.unitRecord u.code cause with prec := true, res := true, detail := detail } s.time)
  else (s.countEvent k.ctx cause).retire u

/-! ## Accesses of engines to tensors -/

/-- Bytes of a tensor's memory: in the banks, or in its space (R55, R236). -/
def State.tensorBytes (s : State) (w : Who) (t : Tensor) (a n : Nat) : Try (List Byte × State) :=
  if n = 0 then .ok ([], s)
  else if t.kind = 2 then
    if !s.tp.usable a n then .error (.fatal 0x43 0 0)
    else
      match s.bankBytes a n with
      | .ok bs => .ok (bs, s)
      | .error e => .error e
  else s.gRead w t.aspace a n

/-- Write bytes of a tensor's memory. A write into a peer is remembered for the next fence (R295). -/
def State.tensorWrite (s : State) (w : Who) (t : Tensor) (a : Nat) (bs : List Byte) : Try State :=
  if bs.isEmpty then .ok s
  else if t.kind = 2 then
    if !s.tp.usable a bs.length then .error (.fatal 0x43 0 0) else .ok (s.writeBank a bs)
  else
    match s.gWrite w t.aspace a bs with
    | .error e => .error e
    | .ok s' =>
      if t.aspace < 2 then .ok s'
      else
        match peerPage (s.getCtx w.ctx) t.aspace 0 with
        | some p =>
          .ok (if s'.tp.peersReached.contains (t.aspace, p.place) then s'
            else { s' with tp := { s'.tp with peersReached := s'.tp.peersReached ++ [(t.aspace, p.place)] } })
        | none => .ok s'

/-- Bits of one element within a packed row: 2 for CB2, whose eight elements share an index of 16 bits (R20). -/
def Tensor.bitw (t : Tensor) : Nat := if t.fmt = .cb2 then 2 else t.width

/-- How many of `n` columns from `j` of a row lie inside the tensor. -/
def Tensor.inside (t : Tensor) (p i j n : Nat) : Nat := if p < t.planes && i < t.rows then min n (t.cols - j) else 0

/-- The byte range of `n` columns from `j` of a row, inside the tensor. -/
def Tensor.bytesOf (t : Tensor) (p i j n : Nat) : Nat × Nat :=
  let m := t.inside p i j n
  if m = 0 then (0, 0)
  else (t.rowStart p i + j * t.bitw / 8, ceilDiv ((j + m) * t.bitw) 8 - j * t.bitw / 8)

/-- The bits of `n` columns from `j` of a row: a cell outside the tensor reads as zero bits (R359). -/
def State.getBits (s : State) (w : Who) (t : Tensor) (p i j n : Nat) : Try (Nat × State) :=
  let m := t.inside p i j n
  let r := t.bytesOf p i j n
  match s.tensorBytes w t r.1 r.2 with
  | .error e => .error e
  | .ok (bs, s) => .ok (bits (leValue bs) (j * t.bitw % 8) (m * t.bitw), s)

/-- The bytes that hold `n` columns from `j` of a row with new bits in them: the other bits of the bytes are kept. -/
def State.newBytes (s : State) (w : Who) (t : Tensor) (p i j n v : Nat) : Try (List Byte × State) :=
  let m := t.inside p i j n
  let r := t.bytesOf p i j n
  let lo := j * t.bitw % 8
  let k := m * t.bitw
  if lo = 0 && k % 8 = 0 then .ok (leBytes r.2 (v % 2 ^ k), s)
  else
    match s.tensorBytes w t r.1 r.2 with
    | .error e => .error e
    | .ok (bs, s) =>
      let old := leValue bs
      .ok (leBytes r.2 (old - bits old lo k * 2 ^ lo + v % 2 ^ k * 2 ^ lo), s)

/-- Write the bits of `n` columns from `j` of a row: a write outside the tensor is dropped (R359). -/
def State.putBits (s : State) (w : Who) (t : Tensor) (p i j n v : Nat) : Try State :=
  match s.newBytes w t p i j n v with
  | .error e => .error e
  | .ok (bs, s) => s.tensorWrite w t (t.bytesOf p i j n).1 bs

/-- Whether two tensors share a memory: both in the banks, or both in one space. -/
def Tensor.sameMemory (a b : Tensor) : Bool :=
  (a.kind == 2 && b.kind == 2) || (a.kind != 2 && b.kind != 2 && a.aspace == b.aspace)

/-- Bytes for an address range, free in each 8-byte unit that meets one of the spans: the content of a destination that
overlaps the command's source is not defined (R359). -/
def State.spoil (s : State) (spans : List (Nat × Nat)) (a : Nat) (bs : List Byte) : List Byte × State :=
  if !spans.any (fun r => r.1 / 8 * 8 < a + bs.length + 8 && a < r.1 + r.2 + 8) then (bs, s)
  else
    let hit (x : Nat) : Bool := spans.any (fun r => r.1 < x / 8 * 8 + 8 && x / 8 * 8 < r.1 + r.2)
    (bs.mapIdx (fun k b => if hit (a + k) then Config.freeByte (s.free + k) else b), { s with free := s.free + bs.length })

/-- Write bits of a destination that may overlap the spans read by the command. -/
def State.copyBits (s : State) (w : Who) (spans : List (Nat × Nat)) (t : Tensor) (p i j n v : Nat) : Try State :=
  match s.newBytes w t p i j n v with
  | .error e => .error e
  | .ok (bs, s) =>
    let a := (t.bytesOf p i j n).1
    let r := s.spoil spans a bs
    r.2.tensorWrite w t a r.1

/-- Plane, row and column of a linear element (R389). -/
def Tensor.linear (t : Tensor) (e : Nat) : Nat × Nat × Nat :=
  (e / (t.rows * t.cols), e % (t.rows * t.cols) / t.cols, e % t.cols)

/-- Number of linear elements (R389). -/
def Tensor.elements (t : Tensor) : Nat := t.rows * t.cols * t.planes

/-- The bits of a linear element. -/
def State.getElem (s : State) (w : Who) (t : Tensor) (e : Nat) : Try (Nat × State) :=
  let a := t.linear e
  s.getBits w t a.1 a.2.1 a.2.2 1

/-- Write the bits of a linear element. -/
def State.putElem (s : State) (w : Who) (t : Tensor) (e v : Nat) : Try State :=
  let a := t.linear e
  s.putBits w t a.1 a.2.1 a.2.2 1 v

/-- Byte ranges in the banks of a local tensor's linear elements `e` to `e + n - 1`. -/
def Tensor.elementSpans (t : Tensor) (e n : Nat) : List (Nat × Nat) :=
  if t.kind != 2 then []
  else ((List.range n).filter (fun k => e + k < t.elements)).map (fun k =>
    let a := t.linear (e + k)
    t.bytesOf a.1 a.2.1 a.2.2 1)

/-- Charge of bytes in 128-byte units (R274). -/
def per128 (bytes : Nat) : Nat := ceilDiv bytes 128

/-! ## Completion (R114, R119, R366) -/

/-- What a command in flight faults with: its record names its own entry. -/
def State.flightRecord (s : State) (u : ChainUnit) (f : InFlight) (cause : Nat) : RecordOf :=
  s.entryRecord u (s.tp.workTask f.task f.block) f.entry f.addr cause

/-- The barrier arrive of a command (R321, R341): the writes of the engine are performed at its scope
first (R220). -/
def State.flightArrive (s : State) (u : ChainUnit) (f : InFlight) : Try State :=
  match f.bar with
  | none => .ok s
  | some d =>
    let t := Tensor.ofDwords d
    let k := s.tp.workTask f.task f.block
    let mine (x : WeakWrite) : Bool := x.tp == s.cur && x.agent == u.code
    if t.kind = 2 then
      if !s.tp.usable t.addr 8 then .error (.fatal 0x43 0 0) else s.arrive k.ctx (.bank t.addr) mine
    else
      match s.pieces true k.ctx t.space 4 9 t.addr 8 with
      | .error e => .error e
      | .ok (p :: _, s) => s.arrive k.ctx (if p.zero then .zero else .place p.place p.space) mine
      | .ok ([], s) => .ok s

/-- The completion event of a command: bit 112 of its entry is cleared in its bank; none for a block (R366). -/
def State.flightEvent (s : State) (f : InFlight) : Try State :=
  if (Decode.kFields f.entry).cev = 0 || f.block.isSome then .ok s
  else if !s.tp.usable (f.addr + 14) 1 then .error (.fatal 0x43 0 0)
  else
    let s := s.writeBank (f.addr + 14) [BitVec.ofNat 8 (s.bankValue (f.addr + 14) 1 / 2 * 2)]
    .ok (if s.tp.events.contains (f.addr + 14) then s
      else { s with tp := { s.tp with events := (f.addr + 14) :: s.tp.events } })

/-- The status block of an MDEC, written before the command completes (R406). -/
def State.flightStatus (s : State) (f : InFlight) : Try State :=
  match f.status with
  | none => .ok s
  | some (a, lo, hi) =>
    if !s.tp.usable a 16 then .error (.fatal 0x43 0 0) else .ok (s.writeBank a (leBytes 8 lo.toNat ++ leBytes 8 hi.toNat))

/-- The first effects of a completion: the command's writes are performed at tile scope (R114), then status block, arrive and
event. They are made once. -/
def State.flightEffects (s : State) (u : ChainUnit) (f : InFlight) : Try State :=
  match (s.widen (fun w => w.tp == s.cur && w.agent == u.code && w.cmd == f.num) 1).flightStatus f with
  | .error e => .error e
  | .ok s =>
    match s.flightArrive u f with
    | .error e => .error e
    | .ok s => s.flightEvent f

/-- Replace the first command in flight. -/
def Chain.putFlight (c : Chain) (f : InFlight) : Chain := { c with infl := f :: c.infl.drop 1 }

/-- A command has completed: the next one follows; ended tasks without work are forgotten. -/
def State.flightGone (s : State) (u : ChainUnit) : State :=
  let n := (((s.eng u).infl.head?).map (fun f => f.num)).getD 0
  let s := s.setEng u { s.eng u with infl := (s.eng u).infl.drop 1 }
  { s with tp := { s.tp with doneCmd := Map.put s.tp.doneCmd u.code n }.reap }

/-- Push what tokens of the command there is room for; a token of work that is not the running task's is discarded (R115). -/
def State.flightPush (s : State) (u : ChainUnit) (f : InFlight) : State :=
  if (s.tp.workTask f.task f.block).id != s.tp.cur then s.flightGone u
  else
    let r := s.pushTokens u.code f.target f.pushes
    if r.2 = 0 then r.1.flightGone u else r.1.setEng u ((r.1.eng u).putFlight { f with pushes := r.2 })

/-- A completion stops: a fatal fault names the command's own entry; a translation fault of its arrive stalls it, or aborts
its task before the commit point. -/
def State.flightStop (s : State) (u : ChainUnit) (f : InFlight) : Stop → State
  | .wait => s
  | .done t => t
  | .fatal c r d => let rec_ := { s.flightRecord u f c with reason := r, detail := d }; s.fatal rec_.ctx (mkRecord rec_ s.time)
  | .ats ctx va => s.askAts ctx va
  | .tracked g n e => State.flightStop (s.track g n) u f e
  | .tfault t =>
    let k := s.tp.workTask f.task f.block
    let fr : FaultRec := { tp := s.cur, ctx := k.ctx, cause := t.cause, space := t.space, va := t.va, unit := u.code
                           acck := t.acck, completing := true
                           record := mkRecord { s.flightRecord u f t.cause with prec := true, fault := some t } s.time }
    if s.tp.ac.phase = .replay && k.id = s.tp.cur && !k.block then
      (s.setEng u { s.eng u with infl := (s.eng u).infl.drop 1 }).abortTranslation k { fr with completing := false }
    else s.stallTranslation fr

/-- The oldest command in flight completes (R119): a media command once its engine has reported (R367). -/
def execCommandCompletes (u : ChainUnit) (s : State) : Host.Outcome State Fault Refusal :=
  match (s.eng u).infl with
  | [] => .next s
  | f :: _ =>
    if f.media then .next s
    else
      match s.flightEffects u f with
      | .error e => .next (s.flightStop u f e)
      | .ok t =>
        let g : InFlight := { f with bar := none, status := none, entry := f.entry &&& ~~~(BitVec.ofNat 128 (2 ^ 112)) }
        .next ((t.setEng u ((t.eng u).putFlight g)).flightPush u g)

/-! ## TOKP and BARA -/

/-- Issue of a command that waits for every earlier one of its engine (R343, R427). -/
def issueAlone (u : ChainUnit) (w : KWord) (cost : Nat) (s : State) : Try State :=
  if !(s.eng u).infl.isEmpty then .error .wait else issueCommand u w [] (fun s _ => .ok s) (fun _ _ => cost) s

/-- Charge of a command without accesses: at least 16 on the CE (R274). -/
def bareCost (u : ChainUnit) : Nat := if u = .ce then 16 else 0

/-- TOKP of a chain (R427): its pushes are made when it completes. -/
def execTokpChain (w : KWord) (s : State) : Host.Outcome State Fault Refusal :=
  command s.walker s (issueAlone s.walker w (bareCost s.walker)) (fun _ => .ok 0) (fun s _ => .ok (s, 0))

/-- BARA of a chain (R343): its arrive is made when it completes. -/
def execBaraChain (w : KWord) (s : State) : Host.Outcome State Fault Refusal :=
  command s.walker s (issueAlone s.walker w (bareCost s.walker)) (fun _ => .ok 0) (fun s _ => .ok (s, 0))

/-! ## The time limit on an active command (R57, R260) -/

/-- An engine's active command stops at its next access boundary, a time after the units were asked to hold. -/
def State.stopEngine (s : State) (u : ChainUnit) (limit : Nat) (due : Bool) : State :=
  if due && s.timeUp limit && !s.tp.stopNow.contains u.code then
    { s with tp := { s.tp with stopNow := u.code :: s.tp.stopNow } }
  else s

/-- The active command has not completed in time for a role change (R57). -/
def execRoleChangeTimeout (u : ChainUnit) (s : State) : Host.Outcome State Fault Refusal :=
  .next (s.stopEngine u s.roleLimit (match s.tp.role with
    | some r => !r.start
    | none => false))

/-- The active command has not completed in time for a pre-emption (R260). -/
def execPreemptionEngineTimeout (u : ChainUnit) (s : State) : Host.Outcome State Fault Refusal :=
  .next (s.stopEngine u saveLimit (s.tp.preempt.isSome && s.tp.role.isNone))

end Sys2Proof.Machine
end

