-- ==== Sys2Proof/Machine/Copy.lean ====
section
/-!
DEFINITION. The copy-engine commands (16 R359 to R364, R369, R373, R374; 07 R170): CCPY, CPER, CFIL, CGRW, CXPS, CMCP. Their
units of work are 128 bytes of a tensor (R260).
-/
namespace Sys2Proof.Machine

/-- A tensor in a peer's space (R359). -/
def Tensor.isPeer (t : Tensor) : Bool := t.kind == 1 && 2 ≤ t.space && t.space < 18

/-- Byte ranges in the banks of the rows of tiles `first` to `first + n - 1` of a local tensor. -/
def Tensor.tileSpans (t : Tensor) (first n : Nat) : List (Nat × Nat) :=
  if t.kind != 2 then []
  else (List.range n).flatMap (fun k =>
    let a := t.tileAt (first + k)
    (List.range 16).map (fun i => t.bytesOf a.1 (a.2.1 + i) a.2.2 t.tileCols))

/-- Byte ranges of the rows of tiles, wherever the tensor lies. -/
def Tensor.tileRanges (t : Tensor) (first n : Nat) : List (Nat × Nat) :=
  (List.range n).flatMap (fun k =>
    let a := t.tileAt (first + k)
    (List.range 16).map (fun i => t.bytesOf a.1 (a.2.1 + i) a.2.2 t.tileCols))

/-- The bytes of the scale array that tiles read (R33), wherever it lies. -/
def Tensor.scaleRanges (t : Tensor) (first n : Nat) : List (Nat × Nat) :=
  if t.saddr = 0 then []
  else (List.range n).flatMap (fun k =>
    let a := t.tileAt (first + k)
    ((List.range 16).filter (fun i => a.2.1 + i < t.rows)).map (fun i => (t.scaleAt a.1 (a.2.1 + i) a.2.2, 1)))

/-- Those of a scale array in the banks. -/
def Tensor.scaleSpans (t : Tensor) (first n : Nat) : List (Nat × Nat) := if t.sloc then t.scaleRanges first n else []

/-- Charge of a copy from the bytes it moves in each tensor (R274). -/
def copyCost (parts : List (Tensor × Nat)) : Nat :=
  let global := (parts.filter (fun x => x.1.kind != 2)).foldl (fun n x => n + x.2) 0
  let bank := (parts.filter (fun x => x.1.kind == 2)).foldl (fun n x => n + x.2) 0
  max 16 (160 * per128 global + 16 * per128 bank)

/-- Bytes of `n` tiles of a tensor. -/
def Tensor.tileBytes (t : Tensor) (n : Nat) : Nat := n * (16 * t.tileCols) * t.bitw / 8

/-- The first two tensors of a list. -/
def two (ts : List Tensor) : Tensor × Tensor := (ts.getD 0 default, ts.getD 1 default)

/-- Which cells run `k` of a tile copy moves: tile, row, first column; 32 columns. -/
def tileUnit (k : Nat) : Nat × Nat × Nat := (k / 32, k % 32 / 2, k % 2 * 32)

/-- How many of the 32 columns from `col` of a tile its tensor has: a tile of compressed activations has 32 stored columns
(R149; what a wider tile takes in the place of the others is note 95's). -/
def Tensor.tileRun (t : Tensor) (col : Nat) : Nat := min 32 (t.tileCols - col)

/-- How many runs of 32 elements make 128 bytes of the widest of some tensors: what a CE command moves between two of its
boundaries (R260). -/
def runsOf (ts : List Tensor) : Nat := max 1 (32 / ts.foldl (fun n t => max n t.bitw) 1)

/-- The runs of unit `k`, `g` to a unit, of `total`. -/
def unitRuns (g total k : Nat) : List Nat := (List.range (min g (total - k * g))).map (fun i => k * g + i)

/-- A CE command over the tensors of some identifiers: `total` runs, `g` of them a unit of work. -/
def copyCommand (ids : List (BitVec 8)) (path : Nat) (issue : State → Try State)
    (runs : List Tensor → Nat × Nat) (run : State → Who → List Tensor → Nat → Try State) (s : State) :
    Host.Outcome State Fault Refusal :=
  command .ce s issue
    (fun s =>
      match s.namedAll .ce ids with
      | .ok ts => .ok (ceilDiv (runs ts).2 (runs ts).1)
      | .error e => .error e)
    (fun s k =>
      match s.namedAll .ce ids with
      | .error e => .error e
      | .ok ts =>
        match foldTry (fun s r => run s (s.whoOf .ce (s.work .ce) path) ts r) s (unitRuns (runs ts).1 (runs ts).2 k) with
        | .error e => .error e
        | .ok s => .ok (s, 0))

/-- The source bytes of a copy, as byte ranges, when source and destination share a memory. -/
def overlapSpans (a b : Tensor) (ranges : List (Nat × Nat)) : List (Nat × Nat) := if a.sameMemory b then ranges else []

/-- The bytes of the source's scale array when they lie in the memory of the destination. -/
def scaleOverlap (a b : Tensor) (ranges : List (Nat × Nat)) : List (Nat × Nat) :=
  if (if b.sloc then a.kind == 2 else a.kind != 2 && a.aspace == b.space) then ranges else []

/-! ## CCPY and CPER (R360, R373) -/

def tileDt (w : KWord) : Nat := bits w.arg.toNat 32 15
def tileSt (w : KWord) : Nat := bits w.arg.toNat 0 15

/-- The checks of CCPY (R360, R363). -/
def ccpyCheck (w : KWord) (s : State) (ts : List Tensor) : Try State :=
  let (a, b) := two ts
  let n := w.count.toNat
  let conv := a.fcode != b.fcode
  match s.banksOk .ce (ts.any (fun t => t.kind == 2)) (a.tileSpans (tileDt w) n ++ b.tileSpans (tileSt w) n ++
      (if conv then b.scaleSpans (tileSt w) n else [])) with
  | .error e => .error e
  | .ok () =>
    if conv && (a.fmt = .cb2 || b.fmt = .cb2) then .error (.fatal 0x51 1 0)
    else if conv && (a.saddr != 0 || a.sbase != 0x3F800000) then .error (.fatal 0x51 2 0)
    else if a.tiles < tileDt w + n || b.tiles < tileSt w + n then .error (.fatal 0x51 3 0)
    else if a.isPeer || b.isPeer then .error (.fatal 0x51 5 0)
    else .ok s

/-- The scale byte of a row's block for an element (R33); none without an array. -/
def State.scaleByte (s : State) (w : Who) (t : Tensor) (p i j : Nat) : Try (Option Nat × State) :=
  if t.saddr = 0 then .ok (none, s)
  else
    let a := t.scaleAt p i j
    if t.sloc then
      if !s.tp.usable a 1 then .error (.fatal 0x43 0 0)
      else
        match s.bankBytes a 1 with
        | .ok bs => .ok (some (leValue bs), s)
        | .error e => .error e
    else
      match s.gRead w t.space a 1 with
      | .ok (bs, s) => .ok (some (leValue bs), s)
      | .error e => .error e

/-- One run of a converting copy: each value by R35, converted by R29 to R31. -/
def State.convertRun (s : State) (who : Who) (w : KWord) (a b : Tensor) (spans : List (Nat × Nat))
    (da sb : Nat × Nat × Nat) (na nb : Nat) : Try State :=
  let m := b.inside sb.1 sb.2.1 sb.2.2 nb
  match s.getBits who b sb.1 sb.2.1 sb.2.2 nb with
  | .error e => .error e
  | .ok (v, s) =>
    match (if m = 0 then .ok (none, s) else s.scaleByte who b sb.1 sb.2.1 sb.2.2) with
    | .error e => .error e
    | .ok (sc, s) =>
      let cell (k : Nat) : Nat :=
        if k < m then
          encode a.fmt (Rnd.ofCode (bits w.arg.toNat 48 3)) (bitAt w.arg.toNat 51)
            (b.value [] sc (bits v (k * b.bitw) b.bitw) (sb.2.2 + k))
        else 0
      let out := (List.range 32).foldl (fun n k => n + cell k * 2 ^ (k * a.bitw)) 0
      s.copyBits who spans a da.1 da.2.1 da.2.2 na out

/-- One run of a tile copy. -/
def State.copyRun (s : State) (who : Who) (w : KWord) (a b : Tensor) (k : Nat) : Try State :=
  let (tile, row, col) := tileUnit k
  let at_ (t : Tensor) (first : Nat) : Nat × Nat × Nat :=
    let x := t.tileAt (first + tile)
    (x.1, x.2.1 + row, x.2.2 + col)
  let da := at_ a (tileDt w)
  let sb := at_ b (tileSt w)
  let spans := overlapSpans a b (b.tileRanges (tileSt w) w.count.toNat)
  let na := a.tileRun col
  let nb := b.tileRun col
  if a.fcode = b.fcode then
    match s.getBits who b sb.1 sb.2.1 sb.2.2 nb with
    | .error e => .error e
    | .ok (v, s) => s.copyBits who spans a da.1 da.2.1 da.2.2 na v
  else s.convertRun who w a b (spans ++ scaleOverlap a b (b.scaleRanges (tileSt w) w.count.toNat)) da sb na nb

/-- A tile copy between the tensors of TA and TB on a path. -/
def tileCopy (w : KWord) (path : Nat) (check : State → List Tensor → Try State) (s : State) :
    Host.Outcome State Fault Refusal :=
  copyCommand [w.ta, w.tb] path
    (issueCommand .ce w [w.ta, w.tb] check (fun _ ts => copyCost (ts.map (fun t => (t, t.tileBytes w.count.toNat)))))
    (fun ts => (runsOf ts, w.count.toNat * 32))
    (fun s who ts k => s.copyRun who w (two ts).1 (two ts).2 k) s

/-- CCPY (R360). -/
def execCcpy (w : KWord) (s : State) : Host.Outcome State Fault Refusal := tileCopy w 1 (ccpyCheck w) s

/-- The checks of CPER (R373): equal formats, and exactly one tensor in a peer's space. -/
def cperCheck (w : KWord) (s : State) (ts : List Tensor) : Try State :=
  let (a, b) := two ts
  let n := w.count.toNat
  let near (t : Tensor) : Bool := t.kind != 1 || t.space == 0
  match s.banksOk .ce (ts.any (fun t => t.kind == 2)) (a.tileSpans (tileDt w) n ++ b.tileSpans (tileSt w) n) with
  | .error e => .error e
  | .ok () =>
    if a.fcode != b.fcode then .error (.fatal 0x51 1 0)
    else if a.tiles < tileDt w + n || b.tiles < tileSt w + n then .error (.fatal 0x51 3 0)
    else if !((a.isPeer && near b) || (b.isPeer && near a)) then .error (.fatal 0x51 5 0)
    else .ok s

/-- CPER (R373). -/
def execCper (w : KWord) (s : State) : Host.Outcome State Fault Refusal := tileCopy w 5 (cperCheck w) s

/-! ## CFIL (R362) -/

def cfilFirst (w : KWord) : Nat := bits w.arg.toNat 32 15
def cfilVal (w : KWord) : Nat := bits w.arg.toNat 0 32

/-- The checks of CFIL. -/
def cfilCheck (w : KWord) (s : State) (ts : List Tensor) : Try State :=
  let a := ts.headD default
  let n := w.count.toNat
  match s.banksOk .ce (a.kind == 2) (a.tileSpans (cfilFirst w) n) with
  | .error e => .error e
  | .ok () =>
    if a.fmt = .cb2 then .error (.fatal 0x51 1 0)
    else if a.tiles < cfilFirst w + n then .error (.fatal 0x51 3 0)
    else if a.isPeer then .error (.fatal 0x51 5 0)
    else .ok s

/-- The issue of CFIL: bits of VAL above the element's width are an illegal field, which comes before the format faults
(R473). -/
def cfilIssue (w : KWord) (s : State) : Try State :=
  match (if flightLimit .ce ≤ (s.eng .ce).infl.length then .error .wait else s.nameEntries .ce [w.ta.toNat]) with
  | .error e => .error e
  | .ok s =>
    match s.named .ce w.ta with
    | .error e => .error e
    | .ok t =>
      if t.fcode < 11 && 2 ^ t.bitw ≤ cfilVal w then .error (.fatal 0x21 0 0)
      else issueCommand .ce w [w.ta] (cfilCheck w) (fun _ ts => copyCost (ts.map (fun t => (t, t.tileBytes w.count.toNat)))) s

/-- CFIL (R362). -/
def execCfil (w : KWord) (s : State) : Host.Outcome State Fault Refusal :=
  copyCommand [w.ta] 1 (cfilIssue w) (fun ts => (runsOf ts, w.count.toNat * 32)) (fun s who ts k =>
    let t := ts.headD default
    let (tile, row, col) := tileUnit k
    let x := t.tileAt (cfilFirst w + tile)
    let v := (List.range 32).foldl (fun n i => n + cfilVal w % 2 ^ t.bitw * 2 ^ (i * t.bitw)) 0
    s.putBits who t x.1 (x.2.1 + row) (x.2.2 + col) (t.tileRun col) v) s

/-! ## CGRW (R364) -/

def cgrwRow (w : KWord) : Nat := bits w.arg.toNat 0 24

/-- Columns of one run of a row: 128 bytes. -/
def Tensor.runCols (t : Tensor) : Nat := 1024 / t.bitw
/-- Runs of one row. -/
def Tensor.runs (t : Tensor) : Nat := ceilDiv t.cols t.runCols

/-- The byte range of a logical row (R132). -/
def Tensor.logicalRow (t : Tensor) (r : Nat) : Nat × Nat := t.bytesOf (r / t.rows) (r % t.rows) 0 t.cols

/-- The indices that an index tensor holds when the command issues, as far as they can be read. -/
def peekIndices (get : Nat → Try Nat) (l : List Nat) : List Nat :=
  l.filterMap (fun k => match get k with
    | .ok v => some v
    | .error _ => none)

/-- The checks of CGRW. The banks of the rows gathered are checked by the indices as they stand at issue (R55). -/
def cgrwCheck (w : KWord) (s : State) (ts : List Tensor) : Try State :=
  let (a, b) := two ts
  let c := ts.getD 2 default
  let n := w.count.toNat
  let rows (t : Tensor) (l : List Nat) : List (Nat × Nat) := if t.kind = 2 then l.map t.logicalRow else []
  let who := s.whoOf .ce (s.work .ce) 1
  let gathered :=
    if b.kind = 2 && c.fmt = .int32 then
      (peekIndices (fun k => (s.getBits who c 0 0 k 1).map (fun r => r.1)) (List.range (min n c.cols))).filter
        (fun ix => ix < b.rows * b.planes)
    else []
  match s.banksOk .ce (ts.any (fun t => t.kind == 2))
      (rows a ((List.range n).map (cgrwRow w + ·)) ++ (if c.kind = 2 && n != 0 then [c.bytesOf 0 0 0 n] else []) ++
        rows b gathered) with
  | .error e => .error e
  | .ok () =>
    if a.fcode != b.fcode || c.fmt != .int32 then .error (.fatal 0x51 1 0)
    else if a.rows * a.planes < cgrwRow w + n || c.cols < n then .error (.fatal 0x51 3 0)
    else if a.isPeer || b.isPeer || c.isPeer then .error (.fatal 0x51 5 0)
    else if a.cols != b.cols then .error (.fatal 0x51 6 0)
    else .ok s

/-- Byte ranges of every row that a CGRW reads. -/
def State.gatherSpans (s : State) (who : Who) (b c : Tensor) (n : Nat) : Try (List (Nat × Nat) × State) :=
  foldTry (fun (acc : List (Nat × Nat) × State) r =>
    match acc.2.getBits who c 0 0 r 1 with
    | .error e => .error e
    | .ok (ix, s) => .ok (if ix < b.rows * b.planes then acc.1 ++ [b.logicalRow ix] else acc.1, s)) ([], s) (List.range n)

/-- One run of a gathered row. -/
def State.gatherRun (s : State) (who : Who) (w : KWord) (a b c : Tensor) (k : Nat) : Try State :=
  let r := k / a.runs
  let j := k % a.runs * a.runCols
  let d := cgrwRow w + r
  match s.getBits who c 0 0 r 1 with
  | .error e => .error e
  | .ok (ix, s) =>
    if ix != 0xFFFFFFFF && b.rows * b.planes ≤ ix then .error (.fatal 0x51 4 0)
    else
      match (if ix = 0xFFFFFFFF then .ok (0, s) else s.getBits who b (ix / b.rows) (ix % b.rows) j b.runCols) with
      | .error e => .error e
      | .ok (v, s) =>
        match (if a.sameMemory b then s.gatherSpans who b c w.count.toNat else .ok ([], s)) with
        | .error e => .error e
        | .ok (spans, s) =>
          s.copyBits who (spans ++ overlapSpans a c [c.bytesOf 0 0 0 w.count.toNat]) a (d / a.rows) (d % a.rows) j a.runCols v

/-- CGRW (R364). -/
def execCgrw (w : KWord) (s : State) : Host.Outcome State Fault Refusal :=
  let n := w.count.toNat
  copyCommand [w.ta, w.tb, w.tc] 1
    (issueCommand .ce w [w.ta, w.tb, w.tc] (cgrwCheck w) (fun _ ts =>
      let (a, b) := two ts
      copyCost [(a, n * a.rowBytes), (b, n * b.rowBytes), (ts.getD 2 default, 4 * n)]))
    (fun ts =>
      let a := (two ts).1
      (if a.runs = 1 then max 1 (1024 / (a.cols * a.bitw)) else 1, n * a.runs))
    (fun s who ts k => s.gatherRun who w (two ts).1 (two ts).2 (ts.getD 2 default) k) s

/-! ## CXPS (R374) -/

def cxpsRow (w : KWord) : Nat := bits w.arg.toNat 32 24
def cxpsCol (w : KWord) : Nat := bits w.arg.toNat 0 24

/-- Source byte ranges of a transposition: rows of the squares of every plane. -/
def cxpsSource (w : KWord) (b : Tensor) : List (Nat × Nat) :=
  (List.range b.planes).flatMap (fun p => (List.range 64).map (fun r =>
    b.bytesOf p (cxpsRow w + r) (cxpsCol w) (64 * w.count.toNat)))

/-- Destination byte ranges of a transposition. -/
def cxpsDest (w : KWord) (a : Tensor) : List (Nat × Nat) :=
  (List.range a.planes).flatMap (fun p => (List.range (64 * w.count.toNat)).map (fun c =>
    a.bytesOf p (cxpsCol w + c) (cxpsRow w) 64))

/-- The checks of CXPS. -/
def cxpsCheck (w : KWord) (s : State) (ts : List Tensor) : Try State :=
  let (a, b) := two ts
  match s.banksOk .ce (ts.any (fun t => t.kind == 2))
      ((if a.kind = 2 then cxpsDest w a else []) ++ (if b.kind = 2 then cxpsSource w b else [])) with
  | .error e => .error e
  | .ok () =>
    if a.fcode != b.fcode || a.fmt = .cb2 || a.fmt = .bit then .error (.fatal 0x51 1 0)
    else if b.rows ≤ cxpsRow w || b.cols + 64 ≤ cxpsCol w + 64 * w.count.toNat then .error (.fatal 0x51 3 0)
    else if a.isPeer || b.isPeer then .error (.fatal 0x51 5 0)
    else if a.planes != b.planes then .error (.fatal 0x51 6 0)
    else .ok s

/-- Half `h` of row `r` of square `k` of a plane becomes a part of a column of the destination. -/
def State.transposeRun (s : State) (who : Who) (w : KWord) (a b : Tensor) (p k r h : Nat) : Try State :=
  let col := cxpsCol w + 64 * k + 32 * h
  match s.getBits who b p (cxpsRow w + r) col 32 with
  | .error e => .error e
  | .ok (v, s) =>
    let spans := overlapSpans a b (cxpsSource w b)
    foldTry (fun s c => State.copyBits s who spans a p (col + c) (cxpsRow w + r) 1 (bits v (c * b.bitw) b.bitw)) s (List.range 32)

/-- CXPS (R374). -/
def execCxps (w : KWord) (s : State) : Host.Outcome State Fault Refusal :=
  let n := w.count.toNat
  copyCommand [w.ta, w.tb] 1
    (issueCommand .ce w [w.ta, w.tb] (cxpsCheck w) (fun _ ts =>
      copyCost (ts.map (fun t => (t, n * (two ts).2.planes * 4096 * t.bitw / 8)))))
    (fun ts => (runsOf ts, (two ts).2.planes * n * 128))
    (fun s who ts k =>
      s.transposeRun who w (two ts).1 (two ts).2 (k / 128 / n) (k / 128 % n) (k % 128 / 2) (k % 2)) s

/-! ## CMCP (R170, R369) -/

/-- A tile-list entry (R169): displacement down and across, kind, layer, tile. -/
structure ListEntry where
  dy : Int
  dx : Int
  kind : Nat
  layer : Nat
  yt : Nat
  xt : Nat
  clean : Bool

def ListEntry.ofArg (v : Nat) : ListEntry :=
  { dy := signedOf (bits v 40 8) 8, dx := signedOf (bits v 32 8) 8, kind := bits v 48 2, layer := bits v 50 6, yt := bits v 16 16
    xt := bits v 0 16, clean := bits v 57 7 == 0 }

/-- Map width and height of a layer, from dword Y0 of its descriptor (R164). -/
structure LayerMap where
  w : Nat
  h : Nat
deriving Inhabited

def LayerMap.ofY0 (v : Nat) : LayerMap := ⟨bits v 48 16, bits v 32 16⟩
def LayerMap.ntx (m : LayerMap) : Nat := ceilDiv m.w 4
def LayerMap.nty (m : LayerMap) : Nat := ceilDiv m.h 4
def LayerMap.cap (m : LayerMap) : Nat := m.ntx * m.nty

/-- Source position of a destination position of a tile (R170): none for a position outside the map. -/
def ListEntry.source (e : ListEntry) (m : LayerMap) (a b : Nat) : Option (Int × Int) :=
  let x := 4 * e.xt + a
  let y := 4 * e.yt + b
  if m.w ≤ x || m.h ≤ y then none else some ((x : Int) - e.dx, (y : Int) - e.dy)

/-- A source position lies in the map. -/
def LayerMap.holds (m : LayerMap) (p : Int × Int) : Bool := 0 ≤ p.1 && p.1 < (m.w : Int) && 0 ≤ p.2 && p.2 < (m.h : Int)

/-- Every source position of the tile lies in the map. -/
def ListEntry.inMap (e : ListEntry) (m : LayerMap) : Bool :=
  (List.range 16).all (fun k => match e.source m (k % 4) (k / 4) with
    | some p => m.holds p
    | none => true)

/-- The place of the store record bound to a task (R161). -/
def State.boundRecord (s : State) (k : Task) : Try Nat :=
  match k.strm with
  | none => .error (.fatal 0x4E 5 0)
  | some (ssid, _) =>
    match Map.find s.streams ssid with
    | some st => .ok st.record
    | none => .error (.fatal 0x4E 5 0)

/-- Bytes at a place as an engine reads them. -/
def State.seenAt (s : State) (w : Who) (p n : Nat) : Try (Nat × State) :=
  match s.readPiece w { place := p, len := n, zero := false } with
  | .error e => .error e
  | .ok (bs, s) => .ok (leValue bs, s)

/-- The map of a layer of the bound store, read on path K (R369). -/
def State.layerMap (s : State) (who : Who) (record layer : Nat) : Try (LayerMap × State) :=
  match s.seenAt who (record + 16) 8 with
  | .error e => .error e
  | .ok (s2, s) =>
    match s.seenAt who (record + 40) 8 with
    | .error e => .error e
    | .ok (ldesc, s) =>
      if bits s2 48 5 ≤ layer then .error (.fatal 0x4E 6 0)
      else
        match s.gRead who 0 (ldesc + 64 * layer) 8 with
        | .error e => .error e
        | .ok (bs, s) => .ok (LayerMap.ofY0 (leValue bs), s)

/-- Dword 0 of the tensor entry that the active command read. -/
def State.d0 (s : State) (u : ChainUnit) (n : BitVec 8) : Nat := (((Map.find (s.eng u).tits n.toNat).getD []).getD 0 0).toNat

/-- The checks of CMCP (R170, R103). The map goes into the set with the entries, under key 256. -/
def cmcpCheck (w : KWord) (s : State) (ts : List Tensor) : Try State :=
  let (a, b) := two ts
  let e := ListEntry.ofArg w.arg.toNat
  let k := s.work .ce
  if k.block && (a.kind == 2 || b.kind == 2) then .error (.fatal 0x43 0 0)
  else if a.kind != 3 || b.kind != 3 || bitAt (s.d0 .ce w.ta) 43 || !bitAt (s.d0 .ce w.tb) 43 || a.fcode != b.fcode ||
      a.rows != b.rows || a.cols != b.cols || a.planes != b.planes || a.cols != 64 then .error (.fatal 0x4E 5 0)
  else
    match s.boundRecord k with
    | .error e => .error e
    | .ok record =>
      match s.layerMap (s.whoOf .ce k 1) record e.layer with
      | .error e => .error e
      | .ok (m, s) =>
        if a.rows != 16 * m.cap then .error (.fatal 0x4E 5 0)
        else if !e.clean || e.kind != 0 || m.ntx ≤ e.xt || m.nty ≤ e.yt || !e.inMap m then .error (.fatal 0x4E 6 0)
        else .ok (s.setEng .ce { s.eng .ce with
            tits := Map.put (s.eng .ce).tits 256 [BitVec.ofNat 64 m.w, BitVec.ofNat 64 m.h] })

/-- Half `h` of one row of one channel group of a motion-compensated copy (R170). -/
def State.motionRun (s : State) (who : Who) (e : ListEntry) (m : LayerMap) (a b : Tensor) (k h : Nat) : Try State :=
  let g := k / 16
  let bb := k % 16 / 4
  let aa := k % 4
  match e.source m aa bb with
  | none => .ok s
  | some (sx, sy) =>
    let x := sx.toNat
    let y := sy.toNat
    let ts := g * m.cap + y / 4 * m.ntx + x / 4
    let td := g * m.cap + e.yt * m.ntx + e.xt
    let p := b.tileAt ts
    let q := a.tileAt td
    match s.getBits who b p.1 (p.2.1 + (4 * (y % 4) + x % 4)) (p.2.2 + 32 * h) (b.tileRun (32 * h)) with
    | .error e => .error e
    | .ok (v, s) => s.putBits who a q.1 (q.2.1 + (4 * bb + aa)) (q.2.2 + 32 * h) (a.tileRun (32 * h)) v

/-- CMCP (R170, R369). -/
def execCmcp (w : KWord) (s : State) : Host.Outcome State Fault Refusal :=
  copyCommand [w.ta, w.tb] 1
    (issueCommand .ce w [w.ta, w.tb] (cmcpCheck w) (fun _ ts => copyCost (ts.map (fun t => (t, t.planes * 1024 * t.bitw / 8)))))
    (fun ts => (runsOf ts, (two ts).1.planes * 32))
    (fun s who ts k =>
      let mw := (Map.find (s.eng .ce).tits 256).getD []
      s.motionRun who (ListEntry.ofArg w.arg.toNat) ⟨(mw.getD 0 0).toNat, (mw.getD 1 0).toNat⟩ (two ts).1 (two ts).2
        (k / 2) (k % 2)) s

end Sys2Proof.Machine
end

