-- ==== Sys2Proof/Machine/Index.lean ====
section
/-!
DEFINITION. The index-engine commands (17 R389 to R397): IGAT, ISCT, ISCA, IHAC, IHRD. Their units of work are an element, a
pair or a slot (R260).
-/
namespace Sys2Proof.Machine

/-- Byte lines of 128 that `n` elements of a global tensor fill (R274). -/
def lineCost (t : Tensor) (n : Nat) : Nat := if t.kind = 2 then 0 else 160 * per128 (n * t.bitw / 8)
/-- Byte lines that `n` scattered elements of a global tensor touch: one each. -/
def scatterCost (t : Tensor) (n : Nat) : Nat := if t.kind = 2 then 0 else 160 * n

/-- The tensor with number `k` of a command. -/
def nth (ts : List Tensor) (k : Nat) : Tensor := ts.getD k default

/-- A command of the IE over TA, TB and TC. -/
def indexCommand (w : KWord) (check : State → List Tensor → Try State) (cost : List Tensor → Nat)
    (units : List Tensor → Nat) (unit : State → Who → List Tensor → Nat → Try (State × Nat)) (s : State) :
    Host.Outcome State Fault Refusal :=
  let ids := [w.ta, w.tb, w.tc]
  command .ie s (issueCommand .ie w ids check (fun _ ts => cost ts))
    (fun s =>
      match s.namedAll .ie ids with
      | .ok ts => .ok (units ts)
      | .error e => .error e)
    (fun s k =>
      match s.namedAll .ie ids with
      | .error e => .error e
      | .ok ts => unit s (s.whoOf .ie (s.work .ie) 2) ts k)

/-! ## IGAT, ISCT, ISCA (R391, R396, R397) -/

def voffOf (w : KWord) : Nat := bits w.arg.toNat 28 28
def ioffOf (w : KWord) : Nat := bits w.arg.toNat 0 28

/-- The checks of IGAT, ISCT and ISCA: `line` is the contiguous tensor, `indexed` the other one, whose banks are checked by
the indices as they stand at issue (R55); `formats` the formats allowed. -/
def indexCheck (w : KWord) (line indexed : List Tensor → Tensor) (formats : Fmt → Bool) (scope : Bool) (s : State)
    (ts : List Tensor) : Try State :=
  let n := w.count.toNat
  let c := nth ts 2
  let who := s.whoOf .ie (s.work .ie) 2
  let touched :=
    if (indexed ts).kind = 2 && c.fmt = .int32 then
      (peekIndices (fun k => (s.getElem who c k).map (fun r => r.1))
        (((List.range n).map (ioffOf w + ·)).filter (fun k => k < c.elements))).flatMap (fun ix => (indexed ts).elementSpans ix 1)
    else []
  match s.banksOk .ie (ts.any (fun t => t.kind == 2))
      ((line ts).elementSpans (voffOf w) n ++ c.elementSpans (ioffOf w) n ++ touched) with
  | .error e => .error e
  | .ok () =>
    if (nth ts 0).fcode != (nth ts 1).fcode || !formats (nth ts 0).fmt || c.fmt != .int32 then .error (.fatal 0x50 1 0)
    else if (line ts).elements < voffOf w + n || c.elements < ioffOf w + n then .error (.fatal 0x50 3 0)
    else if ts.any Tensor.isPeer then .error (.fatal 0x50 6 0)
    else if scope && 10 ≤ bits w.arg.toNat 60 4 then .error (.fatal 0x50 7 0)
    else .ok s

/-- The index of element `k` (R389): none for 0xFFFFFFFF; one beyond the indexed tensor is reason 2. -/
def State.indexAt (s : State) (who : Who) (w : KWord) (c indexed : Tensor) (k : Nat) : Try (Option Nat × State) :=
  match s.getElem who c (ioffOf w + k) with
  | .error e => .error e
  | .ok (ix, s) =>
    if ix = 0xFFFFFFFF then .ok (none, s)
    else if indexed.elements ≤ ix then .error (.fatal 0x50 2 0)
    else .ok (some ix, s)

/-- A format that IGAT and ISCT move. -/
def movable (f : Fmt) : Bool := f != .cb2 && f != .bit

/-- IGAT (R391). -/
def execIgat (w : KWord) (s : State) : Host.Outcome State Fault Refusal :=
  let n := w.count.toNat
  indexCommand w (indexCheck w (nth · 0) (nth · 1) movable false)
    (fun ts => 8 * n + lineCost (nth ts 0) n + scatterCost (nth ts 1) n + lineCost (nth ts 2) n)
    (fun _ => n)
    (fun s who ts k =>
      match s.indexAt who w (nth ts 2) (nth ts 1) k with
      | .error e => .error e
      | .ok (ix, s) =>
        match (match ix with
          | some ix => s.getElem who (nth ts 1) ix
          | none => .ok (0, s)) with
        | .error e => .error e
        | .ok (v, s) =>
          match s.putElem who (nth ts 0) (voffOf w + k) v with
          | .error e => .error e
          | .ok s => .ok (s, 0)) s

/-- Whether an earlier element of an ISCT names the same index. -/
def State.namedBefore (s : State) (who : Who) (w : KWord) (c : Tensor) (ix k : Nat) : Try Bool :=
  foldTry (fun found i =>
    match s.getElem who c (ioffOf w + i) with
    | .ok (v, _) => .ok (found || v == ix)
    | .error e => .error e) false (List.range k)

/-- ISCT (R397): of two elements that name one index, either value stays. -/
def execIsct (w : KWord) (s : State) : Host.Outcome State Fault Refusal :=
  let n := w.count.toNat
  indexCommand w (indexCheck w (nth · 1) (nth · 0) movable false)
    (fun ts => 8 * n + scatterCost (nth ts 0) n + lineCost (nth ts 1) n + lineCost (nth ts 2) n)
    (fun _ => n)
    (fun s who ts k =>
      match s.indexAt who w (nth ts 2) (nth ts 0) k with
      | .error e => .error e
      | .ok (none, s) => .ok (s, 0)
      | .ok (some ix, s) =>
        match s.namedBefore who w (nth ts 2) ix k with
        | .error e => .error e
        | .ok again =>
          let (late, s) := if again then s.takeBool else (false, s)
          if late then .ok (s, 0)
          else
            match s.getElem who (nth ts 1) (voffOf w + k) with
            | .error e => .error e
            | .ok (v, s) =>
              match s.putElem who (nth ts 0) ix v with
              | .error e => .error e
              | .ok s => .ok (s, 0)) s

/-- The sum of two 32-bit patterns: modulo 2^32, or binary32 with RNE (R396, R43). -/
def sum32 (fp : Bool) (a b : Nat) : Nat :=
  if fp then encodeFloat .fp32 .rne false (addV .rne (decodeFloat .fp32 a) (decodeFloat .fp32 b)) else (a + b) % 2 ^ 32

/-- The atomic add of ISCA on a global element, at the home of its scope (R219, R391). -/
def State.addHome (s : State) (who : Who) (scope : Nat) (t : Tensor) (e v : Nat) : Try State :=
  let a := t.linear e
  match s.pieces true who.ctx t.aspace 4 5 ((t.bytesOf a.1 a.2.1 a.2.2 1).1 % 2 ^ 64) 4 with
  | .error e => .error e
  | .ok (p :: _, s) =>
    if p.zero then .ok s
    else
      match s.sendNonPosted who.ctx p.place p.space with
      | .error e => .error e
      | .ok s =>
        match s.homeAtomic who scope p.place 4 (sum32 (t.fmt == .fp32) · v) with
        | .ok (_, s) => .ok s
        | .error e => .error e
  | .ok ([], s) => .ok s

/-- The index, one more than it and 0 for none, and the old value of a local element, that the first unit of an ISCA's element has
read. They stand in the active set under key 256. -/
def State.scaKept (s : State) (k : Nat) : Nat := (((Map.find (s.eng .ie).tits 256).getD []).getD k 0).toNat

/-- ISCA (R396): two units of work an element. The first reads the index, and of a local element the old value, and the second
writes, so that another unit's write may fall between; a global add is one atomic in the second (note 35). -/
def execIsca (w : KWord) (s : State) : Host.Outcome State Fault Refusal :=
  let n := w.count.toNat
  indexCommand w (indexCheck w (nth · 1) (nth · 0) (fun f => f == .int32 || f == .fp32) true)
    (fun ts => 8 * n + scatterCost (nth ts 0) n + lineCost (nth ts 1) n + lineCost (nth ts 2) n)
    (fun _ => 2 * n)
    (fun s who ts k =>
      let a := nth ts 0
      if k % 2 = 0 then
        match s.indexAt who w (nth ts 2) a (k / 2) with
        | .error e => .error e
        | .ok (none, s) => .ok (s.putTits .ie 256 [0, 0], 0)
        | .ok (some ix, s) =>
          if a.kind = 2 then (s.getElem who a ix).map (fun r => (r.2.putTits .ie 256 [ix + 1, r.1], 0))
          else .ok (s.putTits .ie 256 [ix + 1, 0], 0)
      else if s.scaKept 0 = 0 then .ok (s, 0)
      else
        let ix := s.scaKept 0 - 1
        match s.getElem who (nth ts 1) (voffOf w + k / 2) with
        | .error e => .error e
        | .ok (v, s) =>
          if a.kind = 2 then (s.putElem who a ix (sum32 (a.fmt == .fp32) (s.scaKept 1) v)).map (fun s => (s, 0))
          else (s.addHome who (bits w.arg.toNat 60 4) a ix v).map (fun s => (s, 0))) s

/-! ## IHAC and IHRD (R393 to R395) -/

def statOf (w : KWord) : Nat := bits w.arg.toNat 28 21

/-- The shape of an accumulator table (R394). -/
def tableOk (t : Tensor) : Bool :=
  t.kind == 2 && t.fmt == .int32 && t.cols == 2 && t.planes == 1 && [16, 32, 64, 128, 256, 512, 1024, 2048, 4096, 8192, 16384,
    32768, 65536].contains t.rows

/-- Checks that IHAC and IHRD share: banks, formats, ranges, table, status address. -/
def tableCheck (w : KWord) (wrong : List Tensor → Bool) (off : Nat) (s : State) (ts : List Tensor) : Try State :=
  let n := w.count.toNat
  let t := nth ts 0
  match s.banksOk .ie (ts.any (fun t => t.kind == 2))
      ((if t.kind = 2 then (List.range t.rows).map (fun r => t.bytesOf 0 r 0 2) else []) ++
        (nth ts 1).elementSpans off n ++ (nth ts 2).elementSpans off n ++ [(statOf w / 8 * 8, 8)]) with
  | .error e => .error e
  | .ok () =>
    if wrong ts then .error (.fatal 0x50 1 0)
    else if (nth ts 1).elements < off + n || (nth ts 2).elements < off + n then .error (.fatal 0x50 3 0)
    else if !tableOk t then .error (.fatal 0x50 5 0)
    else if ts.any Tensor.isPeer then .error (.fatal 0x50 6 0)
    else if statOf w % 8 != 0 then .error (.fatal 0x50 7 0)
    else .ok s

/-- Key and value of a slot of a table. -/
def State.slotOf (s : State) (who : Who) (t : Tensor) (r : Nat) : Try (Nat × Nat × State) :=
  match s.getBits who t 0 r 0 2 with
  | .ok (v, s) => .ok (v % 2 ^ 32, v / 2 ^ 32, s)
  | .error e => .error e

/-- Write key and value of a slot. -/
def State.putSlot (s : State) (who : Who) (t : Tensor) (r key v : Nat) : Try State := s.putBits who t 0 r 0 2 (key + v * 2 ^ 32)

/-- Write the status dword. -/
def State.putStat (s : State) (a v : Nat) : Try State :=
  if !s.tp.usable a 8 then .error (.fatal 0x43 0 0) else .ok (s.writeBank a (leBytes 8 v))

/-- Insert a pair with the probes left: whether it was inserted (R394). -/
def State.probe (s : State) (who : Who) (t : Tensor) (fp : Bool) (key v : Nat) : Nat → Nat → Try (Bool × State)
  | 0, _ => .ok (false, s)
  | n + 1, r =>
    match s.slotOf who t r with
    | .error e => .error e
    | .ok (k, old, s') =>
      if k = key then (s'.putSlot who t r key (sum32 fp old v)).map (fun s => (true, s))
      else if k = 0xFFFFFFFF then (s'.putSlot who t r key v).map (fun s => (true, s))
      else State.probe s who t fp key v n ((r + 1) % t.rows)

/-- The first slot probed for a key (R394). -/
def firstSlot (key rows : Nat) : Nat := key * 0x9E3779B1 % 2 ^ 32 / 2 ^ (32 - rows.log2)

/-- IHAC (R393, R394): a unit of work a pair, then the status, which a COUNT of 0 writes too: the pseudocode governs (R6, note 98).
The number kept holds the count of dropped pairs in its low half and the first of them in its high half. -/
def execIhac (w : KWord) (s : State) : Host.Outcome State Fault Refusal :=
  let n := w.count.toNat
  let fp := bitAt w.arg.toNat 56
  indexCommand w
    (tableCheck w (fun ts => (nth ts 1).fmt != .int32 || (nth ts 2).fmt != (if fp then .fp32 else .int32)) (ioffOf w))
    (fun ts => 8 * n + lineCost (nth ts 1) n + lineCost (nth ts 2) n)
    (fun _ => n + 1)
    (fun s who ts k =>
      let kept := (s.eng .ie).kept
      let drop := kept % 65536
      let first := if drop = 0 then 0xFFFFFFFF else kept / 65536
      if k = n then (s.putStat (statOf w) (first * 2 ^ 32 + drop)).map (fun s => (s, 0))
      else
        match s.getElem who (nth ts 1) (ioffOf w + k) with
        | .error e => .error e
        | .ok (key, s) =>
          match s.getElem who (nth ts 2) (ioffOf w + k) with
          | .error e => .error e
          | .ok (v, s) =>
            if key = 0xFFFFFFFF then .error (.fatal 0x50 4 0)
            else
              match s.probe who (nth ts 0) fp key v (bits w.arg.toNat 52 4 + 1) (firstSlot key (nth ts 0).rows) with
              | .error e => .error e
              | .ok (true, s) => .ok (s, kept)
              | .ok (false, s) => .ok (s, (if drop = 0 then k else kept / 65536) * 65536 + drop + 1)) s

/-- IHRD (R395): a unit of work a slot, then the status, whatever COUNT is (R6, note 98). The number kept is the count of occupied slots so far. -/
def execIhrd (w : KWord) (s : State) : Host.Outcome State Fault Refusal :=
  let n := w.count.toNat
  let voff := bits w.arg.toNat 0 28
  let clr := bitAt w.arg.toNat 55
  indexCommand w
    (tableCheck w (fun ts => (nth ts 1).fmt != .int32 || !((nth ts 2).fmt == .int32 || (nth ts 2).fmt == .fp32)) voff)
    (fun ts => 8 * n + lineCost (nth ts 1) n + lineCost (nth ts 2) n)
    (fun ts => (nth ts 0).rows + 1)
    (fun s who ts k =>
      let t := nth ts 0
      let m := (s.eng .ie).kept
      if k = t.rows then (s.putStat (statOf w) m).map (fun s => (s, 0))
      else
        match s.slotOf who t k with
        | .error e => .error e
        | .ok (key, v, s) =>
          match (if key != 0xFFFFFFFF && m < n then
              match s.putElem who (nth ts 1) (voff + m) key with
              | .ok s => s.putElem who (nth ts 2) (voff + m) v
              | .error e => .error e
            else .ok s) with
          | .error e => .error e
          | .ok s =>
            match (if clr then s.putSlot who t k 0xFFFFFFFF 0xFFFFFFFF else .ok s) with
            | .error e => .error e
            | .ok s => .ok (s, if key != 0xFFFFFFFF then m + 1 else m)) s

end Sys2Proof.Machine
end

