-- ==== Sys2Proof/Machine/Hash.lean ====
section
/-!
DEFINITION. The hash-engine commands (08 R178 to R197, 16 R380 to R388): HPRJ, HKEY, HGAT, HCLR, HSTS.
-/
namespace Sys2Proof.Machine

/-! ## Head descriptors (R178) -/

/-- A head descriptor by its fields, with its address. -/
structure Head where
  addr : Nat
  sq : Nat
  pool : Nat
  signs : Nat
  seed : Nat
  tk : Nat
  tv : Nat
  scp : Nat
  fb : Bool
  d : Nat
  l : Nat
  b : Nat
  chke : Nat
  win : Nat
  m : Nat
  pcap : Nat
  budget : Nat
  hcnt : Nat
  ndrf : Nat
  ndrop : Nat
  next : Nat
  ovf : Bool
  clean : Bool
deriving Repr, Inhabited

/-- The fields of the 128 bytes of a descriptor. -/
def Head.ofBytes (addr : Nat) (bs : List Byte) : Head :=
  let v := leValue bs
  let f (k lo n : Nat) : Nat := bits v (64 * k + lo) n
  { addr := addr, sq := f 0 0 64, pool := f 1 0 64, signs := f 2 0 64, seed := f 3 0 64, tk := f 4 56 8, tv := f 4 48 8
    scp := f 4 20 4, fb := f 4 19 1 = 1, d := if f 4 18 1 = 1 then 128 else 64, l := 2 ^ f 4 16 2, b := f 4 12 4
    chke := f 4 0 4, win := f 5 32 32, m := f 5 0 9, pcap := f 6 0 24, budget := f 7 32 32, hcnt := f 7 0 32, ndrf := f 8 32 32
    ndrop := f 8 0 32, next := f 9 32 24, ovf := f 9 0 1 = 1
    clean := f 4 24 24 == 0 && f 4 4 8 == 0 && f 5 9 23 == 0 && f 6 24 40 == 0 && f 9 56 8 == 0 && f 9 1 31 == 0 &&
      f 10 0 64 == 0 && f 11 0 64 == 0 && f 12 0 64 == 0 && f 13 0 64 == 0 && f 14 0 64 == 0 && f 15 0 64 == 0 }

/-- The checks of R196, reason 2, on the descriptor alone. A misaligned SQBASE, POOL or PSADDR is taken for a misaligned
descriptor too, whether or not the command reads the sign array (note 96). -/
def Head.ok (h : Head) : Bool :=
  h.addr % 128 == 0 && h.clean && h.sq % 64 == 0 && h.pool % 64 == 0 && h.signs % 16 == 0 && 3 ≤ h.b && h.b ≤ 12 && 1 ≤ h.m &&
    h.m ≤ 256 && 1 ≤ h.scp && h.scp ≤ 5 && h.pcap ≤ 2 ^ 24 - 2

/-- The key and value tensors of a head (R178). -/
def Head.tensorsOk (h : Head) (tk tv : Tensor) : Bool :=
  (tk.kind == 1 || tk.kind == 3) && (tv.kind == 1 || tv.kind == 3) && tk.planes == 1 && tv.planes == 1 && tk.cols == h.d &&
    tv.cols ≤ 128 && tk.rows == tv.rows && tk.saddr == 0 && tv.saddr == 0

/-- Who the HE is for its path-H accesses. -/
def State.heWho (s : State) : Who := s.whoOf .he (s.work .he) 3

/-- Read a descriptor on path H. -/
def State.readHead (s : State) (addr : Nat) : Try (Head × State) :=
  match s.gRead s.heWho 0 addr 128 with
  | .ok (bs, s) => .ok (Head.ofBytes addr bs, s)
  | .error e => .error e

/-- The slot that a command names (R184). -/
def slotField (op : Nat) (e : BitVec 128) : Nat :=
  if op = 0x60 then bits e.toNat 64 2 else if op = 0x62 then bits e.toNat 32 2 else bits e.toNat 0 2

/-- A projection slot. -/
def State.slot (s : State) (n : Nat) : Slot := (Map.find s.tp.slots n).getD {}
def State.setSlot (s : State) (n : Nat) (v : Slot) : State := { s with tp := { s.tp with slots := Map.put s.tp.slots n v } }

/-- The head of a slot: the slot is valid and its descriptor agrees with it (R196, reasons 1 and 2). -/
def State.headOf (s : State) (n : Nat) : Try (Head × State) :=
  let p := s.slot n
  if !p.valid then .error (.fatal 0x4F 1 0)
  else
    match s.readHead p.head with
    | .error e => .error e
    | .ok (h, s) =>
      if h.l != p.l || h.b != p.b || h.d != p.d then .error (.fatal 0x4F 1 0)
      else if !h.ok then .error (.fatal 0x4F 2 0)
      else .ok (h, s)

/-- The tensors TK and TV of a head, checked (R178). -/
def State.headTensors (s : State) (h : Head) : Try (Tensor × Tensor × State) :=
  match s.nameEntries .he [h.tk, h.tv] with
  | .error e => .error e
  | .ok s =>
    match s.namedAll .he [BitVec.ofNat 8 h.tk, BitVec.ofNat 8 h.tv] with
    | .error e => .error e
    | .ok ts =>
      if ts.any (fun t => !t.fmtOk) then .error (.fatal 0x41 0 0)
      else if !h.tensorsOk (nth ts 0) (nth ts 1) then .error (.fatal 0x4F 2 0)
      else .ok (nth ts 0, nth ts 1, s)

/-- A slot's head with its tensors (R196). -/
def State.headFull (s : State) (n : Nat) : Try (Head × Tensor × Tensor × State) :=
  match s.headOf n with
  | .error e => .error e
  | .ok (h, s) =>
    match s.headTensors h with
    | .error e => .error e
    | .ok (tk, tv, s) => .ok (h, tk, tv, s)

/-- A slot's head with its tensors, and the bank check of a command, which knows the head's M (R473). -/
def State.headWith (s : State) (n : Nat) (banks : Nat → Try Unit) : Try (Head × Tensor × Tensor × State) :=
  let m : Nat := if !(s.slot n).valid then 0 else
    match s.readHead (s.slot n).head with
    | .ok (h, _) => h.m
    | .error _ => 0
  firstOf (s.headFull n) (banks m)

/-! ## Accesses at the scope home (R193) -/

/-- The place of `n` bytes of space 0 for an access of a kind (R236): an 8-byte aligned field or a 64-byte record lies in
one page. -/
def State.homePlace (s : State) (va n acck : Nat) : Try (Piece × State) :=
  match s.pieces true s.heWho.ctx 0 acck (n + 1) (va % 2 ^ 64) n with
  | .error e => .error e
  | .ok (p :: _, s) => .ok (p, s)
  | .ok ([], s) => .ok ({ place := 0, len := 0, zero := true }, s)

/-- An HE command on a TP outside the scope has written the range, which breaks the duty of R193. -/
def State.dutyBroken (s : State) (p n : Nat) : Bool :=
  s.weak.any (fun w => w.agent == 6 && w.overlaps p n && !w.seen s.cur 6)

/-- Bytes that are not defined, as a value. -/
def State.freeBytes (s : State) (n : Nat) : Nat × State :=
  (leValue ((List.range n).map (fun k => Config.freeByte (s.free + k))), { s with free := s.free + n })

/-- Read `n` bytes at the home of the scope: what the scope sees of them. Where the duty of R193 is broken they are not defined. -/
def State.homeBytes (s : State) (va n acck : Nat) : Try (Nat × State) :=
  match s.homePlace va n acck with
  | .error e => .error e
  | .ok (p, s) =>
    if p.zero then .ok (0, s)
    else if s.unreadable p.place n then .error (.fatal 0x60 0 0)
    else
      match s.sendNonPosted s.heWho.ctx p.place p.space with
      | .error e => .error e
      | .ok s => .ok (if s.dutyBroken p.place n then s.freeBytes n else (Memory.read (s.view s.cur 6) p.place n, s))

/-- Write `n` bytes at the home of the head's scope, never torn; not defined where the duty of R193 is broken. -/
def State.homePut (s : State) (h : Head) (va n v : Nat) : Try State :=
  match s.homePlace va n 2 with
  | .error e => .error e
  | .ok (p, s) =>
    if !s.portOpen s.heWho.ctx p.place p.space then .error .wait
    else
      let r := if s.dutyBroken p.place n then s.freeBytes n else (v, s)
      .ok (r.2.scopePut s.heWho h.scp p.place (leBytes n r.1))

/-- A read at the home of the scope is an acquire at that scope (R188, R388): the HE keeps no earlier value that an agent in the
scope has overwritten. -/
def State.acquireAt (s : State) (scope : Nat) : State :=
  { s with tp := s.tp.dropStale (fun x => x.agent == 6 && s.writtenIn scope (lineOf (8 * x.unit))) }

/-- Update an 8-byte field of a descriptor at the home of its scope. -/
def State.homeField (s : State) (h : Head) (off : Nat) (f : Nat → Nat) : Try (Nat × State) :=
  match s.homeBytes (h.addr + off) 8 4 with
  | .error e => .error e
  | .ok (v, s) =>
    match s.homePut h (h.addr + off) 8 (f v) with
    | .ok s => .ok (f v, s)
    | .error e => .error e

/-! ## Signatures (R180, R181) -/

/-- A sign generated from a seed (R180). -/
def seedSign (seed t i j : Nat) : Bool :=
  let m := 2 ^ 64
  let x := (seed + 0x9E3779B97F4A7C15 * (t * 2 ^ 32 + i * 2 ^ 16 + j)) % m
  let z := Nat.xor x (x / 2 ^ 30) * 0xBF58476D1CE4E5B9 % m
  let z := Nat.xor z (z / 2 ^ 27) * 0x94D049BB133111EB % m
  bitAt (Nat.xor z (z / 2 ^ 31)) 63

/-- Bit `i` of the signature of a row in table `t`. -/
def Slot.sigBit (p : Slot) (row : List Val) (t i : Nat) : Bool :=
  let term := row.mapIdx (fun j v => if Sparse.get p.signs ((t * p.b + i) * p.d + j) = 1 then negV v else v)
  match pair add64 p.d.log2 (.fin false 0 0) term with
  | .nan => false
  | v => v.isZero || cmpV false v (.fin false 0 0) != .lt

/-- The bucket of a row in table `t` (R181). -/
def Slot.bucket (p : Slot) (row : List Val) (t : Nat) : Nat :=
  (List.range p.b).foldl (fun n i => n + b2n (p.sigBit row t i) * 2 ^ i) 0

/-! ## Buckets (R182, R183) -/

/-- A record: its 64 bytes, count, link and identifiers. -/
structure Bucket where
  raw : Nat
  count : Nat
  link : Nat
  ids : List Nat
deriving Repr, Inhabited

def Bucket.ofValue (v : Nat) : Bucket :=
  { raw := v, count := bits v 0 8, link := bits v 8 24, ids := (List.range (min 15 (bits v 0 8))).map (fun k => bits v (32 * (k + 1)) 32) }

/-- Address of the square of bucket β of table t, and of record k. -/
def Head.square (h : Head) (t beta : Nat) : Nat := h.sq + 64 * (t * 2 ^ h.b + beta)
def Head.record (h : Head) (k : Nat) : Nat := h.pool + 64 * (k - 1)

/-- Read a square or a record at its home (R196, reason 4). -/
def State.readBucket (s : State) (h : Head) (va acck : Nat) : Try (Bucket × State) :=
  match s.homeBytes va 64 acck with
  | .error e => .error e
  | .ok (v, s) =>
    let q := Bucket.ofValue v
    if 15 < q.count || h.pcap < q.link then .error (.fatal 0x4F 4 0) else .ok (q, s)

/-- The records of a ladder from a link, at most `fuel` of them (R183). -/
def State.ladder (s : State) (h : Head) : Nat → Nat → Try (List Bucket × State)
  | 0, _ => .ok ([], s)
  | fuel + 1, k =>
    if k = 0 then .ok ([], s)
    else
      match s.readBucket h (h.record k) 1 with
      | .error e => .error e
      | .ok (q, s) =>
        match State.ladder s h fuel q.link with
        | .error e => .error e
        | .ok (l, s) => .ok (q :: l, s)

/-- Write a square or a record whole, so that no reader sees it torn (R193). -/
def State.putBucket (s : State) (h : Head) (va v : Nat) : Try State := s.homePut h va 64 v

/-- A record gets an identifier. -/
def State.addId (s : State) (h : Head) (va : Nat) (q : Bucket) (id : Nat) : Try State :=
  let at_ := 2 ^ (32 * (q.count + 1))
  s.putBucket h va (q.raw - bits q.raw (32 * (q.count + 1)) 32 * at_ + id * at_ + 1)

/-- A new record from the pool, whose identifiers past its count are not defined (R182), or a dropped insert. -/
def State.insertNew (s : State) (h : Head) (va : Nat) (q : Bucket) (id : Nat) : Try State :=
  match s.homeBytes (h.addr + 72) 8 4 with
  | .error e => .error e
  | .ok (n9, s) =>
    let next := bits n9 32 24
    if next ≤ h.pcap then
      match s.homePut h (h.addr + 72) 8 (n9 - next * 2 ^ 32 + (next + 1) * 2 ^ 32) with
      | .error e => .error e
      | .ok s =>
        let rest := s.freeBytes 56
        match rest.2.putBucket h (h.record next) (q.link * 256 + 1 + id * 2 ^ 32 + rest.1 * 2 ^ 64) with
        | .error e => .error e
        | .ok s => s.putBucket h va (q.raw - q.link * 256 + next * 256)
    else
      match s.homeField h 72 (fun v => v / 2 * 2 + 1) with
      | .error e => .error e
      | .ok (_, s) =>
        match s.homeField h 64 (fun v => v - v % 2 ^ 32 + min (v % 2 ^ 32 + 1) (2 ^ 32 - 1)) with
        | .error e => .error e
        | .ok (_, s) => .ok s

/-- One insert (R183): one atomic operation. The whole ladder is read before the identifier is looked for (note 96). -/
def State.insertId (s : State) (h : Head) (t beta id : Nat) : Try State :=
  let va := h.square t beta
  match s.readBucket h va 4 with
  | .error e => .error e
  | .ok (q, s) =>
    match s.ladder h h.pcap q.link with
    | .error e => .error e
    | .ok (l, s) =>
      if (q :: l).any (fun r => r.ids.contains id) then .ok s
      else if q.count < 15 then s.addId h va q id
      else
        match l with
        | r :: _ => if r.count < 15 then s.addId h (h.record q.link) r id else s.insertNew h va q id
        | [] => s.insertNew h va q id

/-! ## HPRJ (R185, R385) -/

/-- Charge of an HE command (R274): 40 for each cycle of R197, given as quarters of cycles, and 160 for each 64-byte record or row
line. -/
def hashCost (quarters lines : Nat) : Nat := 10 * quarters + 160 * lines

/-- Quarters of a cycle that the signatures of `rows` rows take: L × b × d / 256 cycles each (R197). -/
def Slot.signQuarters (p : Slot) (rows : Nat) : Nat := rows * (p.l * p.b * p.d) / 64

/-- The 64-byte lines of a row (R274). -/
def Tensor.rowLines (t : Tensor) : Nat := ceilDiv (t.cols * t.bitw) 512

/-- The square and the records of a bucket as they stand (R183): what a command's charge counts when it issues (note 97). -/
def State.bucketNow (s : State) (h : Head) (t beta : Nat) : List Bucket :=
  match s.readBucket h (h.square t beta) 1 with
  | .error _ => []
  | .ok (q, s) =>
    match s.ladder h h.pcap q.link with
    | .error _ => [q]
    | .ok (l, _) => q :: l

def hprjSlot (w : KWord) : Nat := bits w.count.toNat 0 2

/-- The descriptor that HPRJ loads; one that fails its checks leaves the slot invalid (R385). Its alignment comes before its read
(R473). -/
def State.hprjHead (s : State) (w : KWord) : Try (Head × State) :=
  if w.arg.toNat % 128 != 0 then .error (.done ((s.setSlot (hprjSlot w) {}).takeFatal 6 0x4F 2 0))
  else
    match s.readHead w.arg.toNat with
    | .error e => .error e
    | .ok (h, s) =>
      if !h.ok then .error (.done ((s.setSlot (hprjSlot w) {}).takeFatal 6 0x4F 2 0))
      else
        match s.headTensors h with
        | .error (.fatal 0x4F 2 d) => .error (.done ((s.setSlot (hprjSlot w) {}).takeFatal 6 0x4F 2 d))
        | .error e => .error e
        | .ok (_, _, s) => .ok (h, s)

/-- The sign array of a head from memory (R180). -/
def State.signArray (s : State) (h : Head) : Try (Sparse 1 × State) :=
  let n := h.l * h.b * h.d
  match s.gRead s.heWho 0 h.signs (n / 8) with
  | .error e => .error e
  | .ok (bs, s) => .ok (Sparse.ofFn n (fun i => BitVec.ofBool ((bs.getD (i / 8) 0).getLsbD (i % 8))), s)

/-- The signs of a head from its seed. -/
def seedSigns (h : Head) : Sparse 1 :=
  Sparse.ofFn (h.l * h.b * h.d) (fun n => BitVec.ofBool (seedSign h.seed (n / h.d / h.b) (n / h.d % h.b) (n % h.d)))

/-- HPRJ: it issues after every earlier HE command that names its slot has completed (R380). -/
def execHprj (w : KWord) (s : State) : Host.Outcome State Fault Refusal :=
  let n := hprjSlot w
  command .he s
    (fun s =>
      if (s.eng .he).infl.any (fun f => 0x60 ≤ bits f.entry.toNat 120 8 && slotField (bits f.entry.toNat 120 8) f.entry == n) then
        .error .wait
      else
        issueCommand .he w [] (fun s _ => (s.hprjHead w).map (fun r => r.2)) (fun s _ =>
          match s.readHead w.arg.toNat with
          | .ok (h, _) =>
            hashCost (64 + h.l * h.b * h.d / 16) (2 + (if bitAt w.count.toNat 2 then 0 else ceilDiv (h.l * h.b * h.d / 8) 64))
          | .error _ => 0) s)
    (fun _ => .ok 1)
    (fun s _ =>
      match s.hprjHead w with
      | .error e => .error e
      | .ok (h, s) =>
        match (if bitAt w.count.toNat 2 then .ok (seedSigns h, s) else s.signArray h) with
        | .error e => .error e
        | .ok (signs, s) =>
          .ok (s.setSlot n { valid := true, head := h.addr, l := h.l, b := h.b, d := h.d, signs := signs }, 0))

/-! ## HKEY (R186, R383) -/

def hkeyRb (w : KWord) : Nat := bits w.arg.toNat 16 16
def hkeySlot (w : KWord) : Nat := bits w.arg.toNat 0 2
def hkeyIdt (w : KWord) : Bool := bitAt w.arg.toNat 2
def hkeyFirst (w : KWord) : Nat := bits w.arg.toNat 32 32

/-- Identifiers of the tensors that an HKEY names. -/
def hkeyIds (w : KWord) : List (BitVec 8) := [w.ta, w.tb] ++ (if hkeyIdt w then [w.tc] else [])

/-- The identifiers of an HKEY's rows: FIRST + i, or cells of the identifier tensor in its bank. -/
def State.hkeyIdents (s : State) (w : KWord) (ts : List Tensor) : Try (List Nat) :=
  let n := w.count.toNat
  if hkeyIdt w then s.bankRow (nth ts 2) 0 (hkeyRb w) 0 n else .ok ((List.range n).map (hkeyFirst w + ·))

/-- A source that HKEY takes, whose plane 0 it reads (note 96): local, no scale array, the format and columns of the head's tensor, rows enough. -/
def hkeySource (t tk : Tensor) (rows : Nat) : Bool :=
  t.kind == 2 && t.saddr == 0 && t.fcode == tk.fcode && t.cols == tk.cols && rows ≤ t.rows

/-- The checks of HKEY. The identifiers go into the set with the entries, under key 256. -/
def hkeyCheck (w : KWord) (s : State) (ts : List Tensor) : Try State :=
  let n := w.count.toNat
  let first := 16 * hkeyRb w
  let rows (t : Tensor) : List (Nat × Nat) :=
    if t.kind = 2 then (List.range (min n 16)).map (fun i => t.bytesOf 0 (first + i) 0 t.cols) else []
  let c := nth ts 2
  if (nth ts 0).fmt = .cb2 || (nth ts 0).fmt = .bit || (hkeyIdt w && c.fmt != .int32) then .error (.fatal 0x41 0 0)
  else
    match s.headWith (hkeySlot w) (fun _ => s.banksOk .he (ts.any (fun t => t.kind == 2)) (rows (nth ts 0) ++ rows (nth ts 1) ++
        (if hkeyIdt w && c.kind = 2 then [c.bytesOf 0 (hkeyRb w) 0 (min n 16)] else []))) with
    | .error e => .error e
    | .ok (_, tk, tv, s) =>
      if n = 0 || 16 < n || !hkeySource (nth ts 0) tk (first + n) || !hkeySource (nth ts 1) tv (first + n) ||
          (hkeyIdt w && (c.kind != 2 || c.planes != 1 || c.rows ≤ hkeyRb w || c.cols < n || c.saddr != 0)) then
        .error (.fatal 0x4F 3 0)
      else
        match s.hkeyIdents w ts with
        | .error e => .error e
        | .ok ids =>
          if ids.any (fun i => 0xFFFFFFFF ≤ i) then .error (.fatal 0x4F 5 0)
          else .ok (s.putTits .he 256 ids)

/-- The values of a row of a tensor (R35), read by the HE. -/
def State.rowValues (s : State) (t : Tensor) (row : Nat) : Try (List Val × State) :=
  match s.getBits s.heWho t 0 row 0 t.cols with
  | .error e => .error e
  | .ok (v, s) =>
    foldTry (fun (acc : List Val × State) j =>
      match acc.2.scaleByte s.heWho t 0 row j with
      | .error e => .error e
      | .ok (sc, s) => .ok (acc.1 ++ [t.value (s.getCb t.cbn) sc (bits v (j * t.bitw) t.bitw) j], s)) ([], s) (List.range t.cols)

/-- The rows of token `id` receive the key and value rows; both writes are performed at the head's scope before the
inserts (R186). -/
def State.hkeyRows (s : State) (h : Head) (a b tk tv : Tensor) (row id : Nat) : Try State :=
  let r := id % tk.rows
  match s.getBits s.heWho a 0 row 0 a.cols with
  | .error e => .error e
  | .ok (v, s) =>
    match s.putBits s.heWho tk 0 r 0 tk.cols v with
    | .error e => .error e
    | .ok s =>
      match s.getBits s.heWho b 0 row 0 b.cols with
      | .error e => .error e
      | .ok (v, s) =>
        match s.putBits s.heWho tv 0 r 0 tv.cols v with
        | .error e => .error e
        | .ok s => .ok (s.widen (fun x => x.tp == s.cur && x.agent == 6) h.scp)

/-- The 64-byte records and row lines of an HKEY (R274): the rows it writes, and the squares and records that its inserts read. -/
def State.hkeyLines (s : State) (w : KWord) (a b : Tensor) : Nat :=
  let n := w.count.toNat
  let p := s.slot (hkeySlot w)
  let own := n * (a.rowLines + b.rowLines)
  match s.headFull (hkeySlot w) with
  | .error _ => own + n * p.l
  | .ok (h, _, _, s) =>
    (List.range n).foldl (fun m i =>
      match s.rowValues a (16 * hkeyRb w + i) with
      | .error _ => m + p.l
      | .ok (vs, s) => (List.range p.l).foldl (fun m t => m + max 1 (s.bucketNow h t (p.bucket vs t)).length) m) own

/-- HKEY: for each row a unit of work for its writes, then one for each insert (R186, R195). -/
def execHkey (w : KWord) (s : State) : Host.Outcome State Fault Refusal :=
  let n := w.count.toNat
  let p := s.slot (hkeySlot w)
  command .he s
    (issueCommand .he w (hkeyIds w) (hkeyCheck w) (fun s ts =>
      hashCost (32 + p.signQuarters n + 8 * (n * p.l)) (s.hkeyLines w (nth ts 0) (nth ts 1))))
    (fun _ => .ok (n * (p.l + 1)))
    (fun s k =>
      let i := k / (p.l + 1)
      let t := k % (p.l + 1)
      let row := 16 * hkeyRb w + i
      let id := (((Map.find (s.eng .he).tits 256).getD []).getD i 0).toNat
      match s.headFull (hkeySlot w) with
      | .error e => .error e
      | .ok (h, tk, tv, s) =>
        match s.namedAll .he [w.ta, w.tb] with
        | .error e => .error e
        | .ok ts =>
          if t = 0 then (s.hkeyRows h (nth ts 0) (nth ts 1) tk tv row id).map (fun s => (s, 0))
          else
            match s.rowValues (nth ts 0) row with
            | .error e => .error e
            | .ok (vs, s) => (s.insertId h (t - 1) (p.bucket vs (t - 1)) id).map (fun s => (s, 0)))

/-! ## HGAT (R188 to R191, R382) -/

def hgatSlot (w : KWord) : Nat := bits w.arg.toNat 32 2
def hgatFk (w : KWord) : Bool := bitAt w.arg.toNat 39
def hgatMk (w : KWord) : Bool := bitAt w.arg.toNat 38
def hgatTfk (w : KWord) : BitVec 8 := w.arg.extractLsb' 56 8
def hgatTfv (w : KWord) : BitVec 8 := w.arg.extractLsb' 48 8
def hgatTmsk (w : KWord) : BitVec 8 := w.arg.extractLsb' 40 8
def hgatQpos (w : KWord) : Nat := bits w.arg.toNat 0 32
def hgatRb (w : KWord) : Nat := w.count.toNat

/-- Identifiers of the tensors that an HGAT names. -/
def hgatIds (w : KWord) : List (BitVec 8) :=
  [w.ta, w.tb] ++ (if hgatFk w then [hgatTfk w, hgatTfv w] else []) ++ (if hgatMk w then [hgatTmsk w] else [])

/-- The mask tensor among the tensors named. -/
def hgatMask (w : KWord) (ts : List Tensor) : Tensor := nth ts (if hgatFk w then 4 else 2)

/-- Query rows present (R188). -/
def hgatRows (w : KWord) (a : Tensor) : List Nat := (List.range 16).filter (fun i => 16 * hgatRb w + i < a.rows)

/-- The outputs meet R189. -/
def hgatOutputs (w : KWord) (ts : List Tensor) (h : Head) (tk tv : Tensor) : Bool :=
  let b := nth ts 1
  let fetch (t k : Tensor) : Bool := t.kind == 2 && t.fcode == k.fcode && t.cols == k.cols && h.m ≤ t.rows && t.saddr == 0
  let mask := hgatMask w ts
  b.kind == 2 && b.fmt == .int32 && h.m + 1 ≤ b.cols &&
    (!hgatFk w || (fetch (nth ts 2) tk && fetch (nth ts 3) tv)) &&
    (!hgatMk w || (mask.kind == 2 && mask.fmt == .bit && 16 ≤ mask.rows && h.m ≤ mask.cols))

/-- Byte ranges of the banks that an HGAT writes. -/
def hgatSpans (w : KWord) (ts : List Tensor) (m : Nat) : List (Nat × Nat) :=
  let rows (t : Tensor) (n c : Nat) : List (Nat × Nat) :=
    if t.kind = 2 then (List.range n).map (fun r => t.bytesOf 0 r 0 c) else []
  rows (nth ts 1) 1 (m + 1) ++ (if hgatFk w then rows (nth ts 2) m (nth ts 2).cols ++ rows (nth ts 3) m (nth ts 3).cols else []) ++
    (if hgatMk w then rows (hgatMask w ts) 16 m else [])

/-- The checks of HGAT. -/
def hgatCheck (w : KWord) (s : State) (ts : List Tensor) : Try State :=
  let a := nth ts 0
  if a.fmt = .cb2 || a.fmt = .bit then .error (.fatal 0x41 0 0)
  else
    let q := if a.kind = 2 then (hgatRows w a).map (fun i => a.bytesOf 0 (16 * hgatRb w + i) 0 a.cols) else []
    match s.headWith (hgatSlot w) (fun m => s.banksOk .he (ts.any (fun t => t.kind == 2)) (q ++ hgatSpans w ts m)) with
    | .error e => .error e
    | .ok (h, tk, tv, s) =>
      if a.kind != 2 || a.cols != h.d || (hgatRows w a).isEmpty || !hgatOutputs w ts h tk tv then .error (.fatal 0x4F 3 0)
      else .ok s

/-- Whether a candidate lies within the window of a query position. -/
def within (win pos id : Nat) : Bool := ((pos : Int) - (id : Int)).natAbs ≤ win

/-- Insert into a list that descends without repeats. -/
def insertDesc (x : Nat) : List Nat → List Nat
  | [] => [x]
  | y :: l => if x = y then y :: l else if y < x then x :: y :: l else y :: insertDesc x l

/-- The candidate list (R188): descending, each once, at most M. -/
def candidates (hits : List (Nat × List Nat)) (m : Nat) : List Nat :=
  ((hits.flatMap (fun r => r.2)).foldl (fun l x => insertDesc x l) []).take m

/-- One more gather for check sampling (R191): whether it is a check gather. -/
def State.countGather (s : State) (h : Head) : Try (Bool × State) :=
  if h.chke = 15 then .ok (false, s)
  else
    match s.homeField h 56 (fun v => v - v % 2 ^ 32 + (v % 2 ^ 32 + 1) % 2 ^ 32) with
    | .error e => .error e
    | .ok (v, s) => .ok (v % 2 ^ 32 % 2 ^ h.chke == 0, s)

/-- How far an HGAT has come (R260): the step it is at, and the number of its steps, once it has read its head. It stands in the
active set under key 256, the candidates that query row i has hit so far under key 257 + i, and its walks under key 300. -/
structure Gather where
  step : Nat
  total : Nat
deriving DecidableEq, Repr

def State.gather (s : State) : Gather :=
  let d := (Map.find (s.eng .he).tits 256).getD []
  let f (k : Nat) : Nat := (d.getD k 0).toNat
  ⟨f 0, f 1⟩

/-- A bucket that an HGAT has still to walk: its number, the record that comes next, 0 for the square, and how many records the
walk may still follow (R183). -/
structure Walked where
  bucket : Nat
  link : Nat
  fuel : Nat
deriving DecidableEq, Repr

def Walked.code (k : Walked) : Nat := k.bucket * 2 ^ 48 + k.link * 2 ^ 24 + k.fuel
def Walked.ofCode (n : Nat) : Walked := ⟨n / 2 ^ 48, n / 2 ^ 24 % 2 ^ 24, n % 2 ^ 24⟩

def State.setGather (s : State) (g : Gather) : State := s.putTits .he 256 [g.step, g.total]

/-- The buckets that the gather has still to walk. -/
def State.walks (s : State) : List Walked := ((Map.find (s.eng .he).tits 300).getD []).map (fun d => Walked.ofCode d.toNat)
def State.setWalks (s : State) (l : List Walked) : State := s.putTits .he 300 (l.map Walked.code)

/-- The candidates that a query row has hit so far. -/
def State.hits (s : State) (i : Nat) : List Nat := ((Map.find (s.eng .he).tits (257 + i)).getD []).map BitVec.toNat

/-- The candidate list of the gather under way. -/
def State.gatherList (s : State) (m : Nat) : List Nat := candidates ((List.range 16).map (fun i => (i, s.hits i))) m

/-- The first step of a gather (R188, R190): OVF is read; in reduced service and in recovery it is taken as 1 (R297). -/
def State.gatherStart (s : State) (w : KWord) (h : Head) (ts : List Tensor) : Try State :=
  match s.homeBytes (h.addr + 72) 8 1 with
  | .error e => .error e
  | .ok (n9, s) =>
    if n9 % 2 = 1 || s.mod.pst = 3 || s.mod.pst = 5 then
      if h.fb then (s.putBits s.heWho (nth ts 1) 0 0 0 1 0xFFFFFFFF).map (fun s => s.setGather ⟨1, 1⟩)
      else .error (.done (s.engineEvent .he 0x82 (hgatSlot w)))
    else
      .ok ((s.setWalks ((List.range ((hgatRows w (nth ts 0)).length * h.l)).map (fun b => ⟨b, 0, 0⟩))).setGather
        ⟨1, 3 + (if hgatFk w then 2 * h.m else 0) + (if hgatMk w then 16 else 0)⟩)

/-- The address of the square or the record that a walk comes to: table `t` of query row `i`. -/
def State.walkAt (s : State) (w : KWord) (h : Head) (a : Tensor) (k : Walked) (i t : Nat) : Try (Nat × State) :=
  if k.link != 0 then .ok (h.record k.link, s)
  else
    match s.rowValues a (16 * hgatRb w + i) with
    | .error e => .error e
    | .ok (vs, s) => .ok (h.square t ((s.slot (hgatSlot w)).bucket vs t), s)

/-- What is left of a walk after a square or a record of it (R183). -/
def Walked.after (k : Walked) (h : Head) (link : Nat) : Option Walked :=
  let fuel := if k.link = 0 then h.pcap else k.fuel - 1
  if link = 0 || fuel = 0 then none else some { k with link := link, fuel := fuel }

/-- One square or record of a gather (R188, R183), read as an acquire, of the walk with number `n` among those left. -/
def State.gatherRecord (s : State) (w : KWord) (h : Head) (a : Tensor) (n : Nat) : Try State :=
  let k : Walked := (s.walks[n]?).getD ⟨0, 0, 0⟩
  let i := (hgatRows w a).getD (k.bucket / h.l) 0
  match s.walkAt w h a k i (k.bucket % h.l) with
  | .error e => .error e
  | .ok (va, s) =>
    match s.readBucket h va 1 with
    | .error e => .error e
    | .ok (q, s) =>
      let s := s.acquireAt h.scp
      let s := s.putTits .he (257 + i) (s.hits i ++ q.ids.filter (within h.win (hgatQpos w + i)))
      let left := s.walks.take n ++ (k.after h q.link).toList ++ s.walks.drop (n + 1)
      .ok ((s.setWalks left).setGather ⟨if left.isEmpty then 2 else 1, s.gather.total⟩)

/-- The candidate list is written (R189). -/
def State.gatherCells (s : State) (h : Head) (t : Tensor) : Try State :=
  match s.countGather h with
  | .error e => .error e
  | .ok (check, s) =>
    let list := s.gatherList h.m
    let n := list.length
    let cells := [n + b2n check * 2 ^ 30] ++ list ++ List.replicate (h.m - n) 0xFFFFFFFF
    s.putBits s.heWho t 0 0 0 (h.m + 1) ((cells.mapIdx (fun k v => v * 2 ^ (32 * k))).foldl (· + ·) 0)

/-- One fetched row (R189): candidate `c`. -/
def State.gatherFetch (s : State) (h : Head) (src dst : Tensor) (c : Nat) : Try State :=
  match (match (s.gatherList h.m)[c]? with
    | some id => s.getBits s.heWho src 0 (id % src.rows) 0 src.cols
    | none => .ok (0, s)) with
  | .error e => .error e
  | .ok (v, s) => s.putBits s.heWho dst 0 c 0 dst.cols v

/-- One row of the mask (R189). -/
def State.gatherMask (s : State) (h : Head) (t : Tensor) (i : Nat) : Try State :=
  let v := ((s.gatherList h.m).mapIdx (fun c id => b2n ((s.hits i).contains id) * 2 ^ c)).foldl (· + ·) 0
  s.putBits s.heWho t 0 i 0 h.m v

/-- One step of a gather (R188, R189): its head, its buckets, whose squares and records it reads in any order, its list, its fetched
rows, its mask. -/
def State.gatherStep (s : State) (w : KWord) : Try State :=
  match s.headFull (hgatSlot w) with
  | .error e => .error e
  | .ok (h, tk, tv, s) =>
    match s.namedAll .he (hgatIds w) with
    | .error e => .error e
    | .ok ts =>
      let g := s.gather
      let fetched := if hgatFk w then 2 * h.m else 0
      let next (t : Try State) : Try State := t.map (fun s => s.setGather ⟨g.step + 1, g.total⟩)
      if g.step = 0 then s.gatherStart w h ts
      else if g.step = 1 then s.takeNat.2.gatherRecord w h (nth ts 0) (s.takeNat.1 % max 1 s.walks.length)
      else if g.step = 2 then next (s.gatherCells h (nth ts 1))
      else if g.step < 3 + fetched then
        let c := g.step - 3
        next (if c % 2 = 0 then s.gatherFetch h tk (nth ts 2) (c / 2) else s.gatherFetch h tv (nth ts 3) (c / 2))
      else next (s.gatherMask h (hgatMask w ts) (g.step - (3 + fetched)))

/-- The charge of an HGAT (R197, R274), from the buckets as they stand when it issues (note 97): the squares and records it reads,
its candidates, and the rows it fetches; none of these where the head has overflowed. -/
def State.hgatCost (s : State) (w : KWord) (ts : List Tensor) : Nat :=
  let p := s.slot (hgatSlot w)
  let fixed := 64 + p.signQuarters 16
  match s.headFull (hgatSlot w) with
  | .error _ => hashCost fixed 0
  | .ok (h, tk, tv, s) =>
    match s.homeBytes (h.addr + 72) 8 1 with
    | .error _ => hashCost fixed 0
    | .ok (n9, s) =>
      if n9 % 2 = 1 || s.mod.pst = 3 || s.mod.pst = 5 then hashCost fixed 0
      else
        let got : List (Nat × List Bucket) := (hgatRows w (nth ts 0)).flatMap (fun i =>
          match s.rowValues (nth ts 0) (16 * hgatRb w + i) with
          | .error _ => []
          | .ok (vs, s) => (List.range h.l).map (fun t => (i, s.bucketNow h t (p.bucket vs t))))
        let reads := got.foldl (fun n r => n + r.2.length) 0
        let cand := (got.flatMap (fun r => (r.2.flatMap (fun q => q.ids)).filter (within h.win (hgatQpos w + r.1)))).foldl
          (fun l x => insertDesc x l) []
        hashCost (fixed + 8 * reads + 4 * cand.length)
          (reads + if hgatFk w then min cand.length h.m * (tk.rowLines + tv.rowLines) else 0)

/-- HGAT (R188 to R191): its units of work are a square, a record or a row (R260); how many there are shows as it walks. -/
def execHgat (w : KWord) (s : State) : Host.Outcome State Fault Refusal :=
  command .he s
    (issueCommand .he w (hgatIds w) (hgatCheck w) (fun s ts => s.hgatCost w ts))
    (fun s =>
      let g := s.gather
      let k := (s.eng .he).unitAt
      .ok (if g.step = 0 || g.step + 1 < g.total then k + 2 else if g.step < g.total then k + 1 else k))
    (fun s _ => (s.gatherStep w).map (fun s => (s, 0)))

/-! ## HCLR (R185, R381) -/

def hclrSlot (w : KWord) : Nat := bits w.arg.toNat 0 2

/-- The device fields after HCLR: NEXT 1, OVF 0, NDROP 0. -/
def State.clearFields (s : State) (h : Head) : Try State :=
  match s.homeField h 72 (fun v => v - bits v 32 24 * 2 ^ 32 - v % 2 + 2 ^ 32) with
  | .error e => .error e
  | .ok (_, s) =>
    match s.homeField h 64 (fun v => v - v % 2 ^ 32) with
    | .error e => .error e
    | .ok (_, s) => .ok s

/-- What an HCLR of `n` squares has still to clear: the squares by number, and `n` for the device fields. It stands in the active set
under key 256. -/
def State.toClear (s : State) (n : Nat) : List Nat :=
  match Map.find (s.eng .he).tits 256 with
  | some d => d.map BitVec.toNat
  | none => List.range (n + 1)

/-- One clear of an HCLR (R185, R193), number `j` of those left, as a release (R381): the HE's earlier writes on path H are performed
at the scope first. -/
def State.clearOne (s : State) (h : Head) (n j : Nat) : Try State :=
  let left := s.toClear n
  let q := (left[j]?).getD n
  let s := s.widen (fun x => x.own s.cur 6 && x.path == 3) h.scp
  match (if q = n then s.clearFields h else s.putBucket h (h.sq + 64 * q) 0) with
  | .error e => .error e
  | .ok s => .ok (s.putTits .he 256 (left.take j ++ left.drop (j + 1)))

/-- HCLR: a unit of work a square, and one for the device fields, in any order (R193). -/
def execHclr (w : KWord) (s : State) : Host.Outcome State Fault Refusal :=
  let p := s.slot (hclrSlot w)
  let n := p.l * 2 ^ p.b
  command .he s
    (issueCommand .he w [] (fun s _ => (s.headFull (hclrSlot w)).map (fun r => r.2.2.2)) (fun _ _ => hashCost (32 + n) n))
    (fun _ => .ok (n + 1))
    (fun s _ =>
      match s.headOf (hclrSlot w) with
      | .error e => .error e
      | .ok (h, s) =>
        (s.takeNat.2.clearOne h n (s.takeNat.1 % max 1 (s.toClear n).length)).map (fun s => (s, 0)))

/-! ## HSTS (R185, R191, R388) -/

def hstsSlot (w : KWord) : Nat := bits w.arg.toNat 0 2
def hstsVal (w : KWord) : Nat := bits w.arg.toNat 32 32

/-- HSTS with FN = 0: N7 to N9 and a zero dword. -/
def execHsts (w : KWord) (s : State) : Host.Outcome State Fault Refusal :=
  let a := bits (hstsVal w) 0 21
  command .he s
    (issueCommand .he w [] (fun s _ =>
        match s.headWith (hstsSlot w) (fun _ => s.banksOk .he false [(a / 32 * 32, 32)]) with
        | .error e => .error e
        | .ok (_, _, _, s) => if a % 32 != 0 then .error (.fatal 0x4F 3 0) else .ok s) (fun _ _ => hashCost 32 1))
    (fun _ => .ok 1)
    (fun s _ =>
      match s.headOf (hstsSlot w) with
      | .error e => .error e
      | .ok (h, s) =>
        match s.homeBytes (h.addr + 56) 24 1 with
        | .error e => .error e
        | .ok (v, s) =>
          let s := s.acquireAt h.scp
          if !s.tp.usable a 32 then .error (.fatal 0x43 0 0) else .ok (s.writeBank a (leBytes 32 v), 0))

/-- Whether a report exceeds a budget (R173, R191): NaN on either side exceeds. -/
def exceeds (d budget : Nat) : Bool :=
  let x := decodeFloat .fp32 d
  let y := decodeFloat .fp32 budget
  x.isNan || y.isNan || cmpV false x y == .gt

/-- HSTS with FN = 1: a drift report (R191). -/
def execHstsDrift (w : KWord) (s : State) : Host.Outcome State Fault Refusal :=
  command .he s
    (issueCommand .he w [] (fun s _ => (s.headFull (hstsSlot w)).map (fun r => r.2.2.2)) (fun _ _ => hashCost 32 1))
    (fun _ => .ok 1)
    (fun s _ =>
      match s.headOf (hstsSlot w) with
      | .error e => .error e
      | .ok (h, s) =>
        if !exceeds (hstsVal w) h.budget then .ok (s, 0)
        else
          match s.homeField h 64 (fun v => v % 2 ^ 32 + (v / 2 ^ 32 + 1) % 2 ^ 32 * 2 ^ 32) with
          | .error e => .error e
          | .ok (_, s) => .error (.done (s.engineEvent .he 0x84 (hstsSlot w))))

end Sys2Proof.Machine
end

