-- ==== Sys2Proof/Machine/Media.lean ====
section
/-!
DEFINITION. The media commands (07 R156 to R177, 16 R367, R368, R371, 17 R405 to R407): what the CE does with an MSUB, MDEC,
CMBL or CMSM, and what its VDE or CME does with it. A media engine performs a command whole in one step, under its stream's
lock (R163); its writes are performed at device scope when it completes.
-/
namespace Sys2Proof

/-- Round a rational to the nearest integer, ties away from zero. -/
def roundAway (num : Int) (den : Nat) : Int :=
  let q := (2 * num.natAbs + den) / (2 * den)
  if num < 0 then -(q : Int) else (q : Int)

/-- The codec's number for the free decoding process. -/
def CodecId.num : CodecId → Nat
  | .h264 => 0
  | .h265 => 1
  | .av1 => 2
  | .h266 => 3

/-- Native vector units in a quarter-pel (R158). -/
def CodecId.units : CodecId → Nat
  | .h264 => 1
  | .h265 => 1
  | .av1 => 2
  | .h266 => 4

/-- The bit depths and chroma formats of a codec (R156). -/
def CodecId.takes (c : CodecId) (p : Picture) : Bool :=
  (p.depth == 8 || (p.depth == 10 && c != .h264)) && (!p.mono || c != .h265)

/-- An output picture as a VDE sees it: one outside the table of R156 is one that it cannot decode (note 7). -/
def Picture.on (p : Picture) (c : CodecId) : Picture :=
  { p with undecodable := p.undecodable || !c.takes p, depth := if c.takes p then p.depth else 8 }

/-- Order distance from picture order `b` to `a` (R158); of AV1 the relative distance of its order hints. -/
def CodecId.distance (c : CodecId) (bits : Nat) (a b : Int) : Int :=
  if c != .av1 then a - b
  else if bits = 0 then 0
  else (a - b + 2 ^ (bits - 1)) % 2 ^ bits - 2 ^ (bits - 1)

/-- The code of a block's mode in TMOD (R157). -/
def BlockMode.code : BlockMode → Nat
  | .skip => 0
  | .inter => 1
  | .intra => 2
  | .missing => 3

/-- Mode of a block in TMOD: every block of an undecodable frame is mode 3 (R159), every other one of a key or intra frame
mode 2 (R174). -/
def Picture.modeAt (p : Picture) (bx by_ : Nat) : Nat :=
  let m := (p.unitAt (8 * bx) (8 * by_)).mode
  if p.undecodable || m = .missing then 3 else if p.key then 2 else m.code

/-- The vector chosen for a block (R158): that of list 0, else of list 1. -/
def PredUnit.motion (u : PredUnit) : Option Motion := u.list0.or u.list1

open Sys2Proof.Machine in
/-- One component of a block's vector in TMV (R158): `before` is the preceding output frame; `free` the value for a reference
at no distance or with no preceding frame, which the manual does not give. -/
def Picture.vectorAt (p : Picture) (c : CodecId) (before : Option Picture) (n free : Nat) (bx by_ : Nat) (second : Bool) : Nat :=
  let u := p.unitAt (8 * bx) (8 * by_)
  if n = 0 || 2 ≤ p.modeAt bx by_ || u.current then 0
  else
    match u.motion, before with
    | none, _ => 0
    | some _, none => free % 65536
    | some m, some q =>
      let dcur := c.distance p.orderBits p.order q.order
      let d := c.distance p.orderBits p.order m.order
      if d = 0 then free % 65536
      else
        let num := (if second then m.y else m.x) * dcur * (if d < 0 then -1 else 1)
        wrapTo (max (-32768) (min 32767 (roundAway num (c.units * d.natAbs)))) 16

/-- Energy of a block in TRES (R159): the sum of the magnitudes of its 64 luma residual samples. -/
def Picture.energyAt (p : Picture) (bx by_ : Nat) : Nat :=
  if p.modeAt bx by_ = 0 || p.modeAt bx by_ = 3 then 0
  else min 65535 ((List.range 64).foldl (fun n k => n + (p.residual (8 * bx + k % 8) (8 * by_ + k / 8)).natAbs) 0)

open Sys2Proof.Machine in
/-- Whether some block has mode 3. -/
def Picture.anyMissing (p : Picture) (pw ph : Nat) : Bool :=
  (List.range (ceilDiv ph 8)).any (fun y => (List.range (ceilDiv pw 8)).any (fun x => p.modeAt x y == 3))

/-- A sample, of the bit depth, of a plane of a decoded picture at a luma position: chroma is repeated to luma resolution, and that of a 4:0:0
picture is the middle value (R157). -/
def Picture.sampleAt (p : Picture) (plane x y : Nat) : Nat :=
  match plane with
  | 0 => p.luma x y % 2 ^ p.depth
  | 1 => if p.mono then 2 ^ (p.depth - 1) else p.cb (x / 2) (y / 2) % 2 ^ p.depth
  | _ => if p.mono then 2 ^ (p.depth - 1) else p.cr (x / 2) (y / 2) % 2 ^ p.depth

end Sys2Proof

namespace Sys2Proof.Machine

/-! ## The copy engine's part (R367) -/

/-- The engine that an entry names. -/
def mediaEng (w : KWord) (cme : Bool) : MediaEng := ⟨cme, w.count.extractLsb' 4 1, w.count.extractLsb' 0 4⟩
def ssidOf (e : Nat) : Nat := bits e 32 12

/-- Whether an engine is in service (R299, R367). -/
def State.mediaInService (s : State) (e : MediaEng) : Bool :=
  let p := (e.die.toNat, e.n.toNat)
  (if e.cme then s.mod.cmes.contains p else s.mod.vdes.contains p) && (e.die = 0 || s.mod.pst = 4)

/-- The CE passes the active command to its engine: it is in flight until the engine reports (R367). -/
def State.passMedia (s : State) (w : KWord) (cme : Bool) (report : Dword × Dword) : State :=
  let c := s.eng .ce
  let m : MediaCmd := { eng := mediaEng w cme, tp := s.cur, entry := c.act, addr := c.actAddr, task := s.work .ce
                        id := s.nextMedia, tensor := (Map.find c.tits w.ta.toNat).getD [], report := report }
  let f : InFlight := { c.flight with media := true, mid := s.nextMedia }
  let s := s.retire .ce
  let s := s.setEng .ce { s.eng .ce with infl := c.infl ++ [f] }
  { s with media := s.media ++ [m], nextMedia := s.nextMedia + 1 }

/-- The checks and the issue of a media command on the CE: the report block, and the state in which it is passed on. -/
def State.mediaIssue (s : State) (w : KWord) (cme : Bool) (ids : List (BitVec 8))
    (check : State → List Tensor → Try (Dword × Dword)) (cost : State → Nat) : Try ((Dword × Dword) × State) :=
  match issueCommand .ce w ids (fun s ts =>
      match check s ts with
      | .error e => .error e
      | .ok _ => if s.mediaInService (mediaEng w cme) then .ok s else .error (.fatal 0x4E 7 0)) (fun s _ => cost s) s with
  | .error e => .error e
  | .ok t =>
    match t.namedAll .ce ids with
    | .error e => .error e
    | .ok ts =>
      match check t ts with
      | .error e => .error e
      | .ok r => .ok (r, t)

/-- A media command becomes active: the CE's checks, then it is passed on. -/
def mediaCommand (w : KWord) (cme : Bool) (ids : List (BitVec 8)) (check : State → List Tensor → Try (Dword × Dword))
    (cost : State → Nat) (s : State) : Host.Outcome State Fault Refusal :=
  match s.mediaIssue w cme ids check cost with
  | .error e => .next (s.stopUnit 4 none e)
  | .ok (r, t) => .next (t.passMedia w cme r)

/-- Elements 0 to LEN − 1 of an MSUB's tensor lie in usable banks. -/
def msubSpan (w : KWord) (t : Tensor) : List (Nat × Nat) := if t.kind = 2 then [t.bytesOf 0 0 0 (bits w.arg.toNat 0 32)] else []

/-- The check of MSUB on the CE. -/
def msubCheck (w : KWord) (s : State) (ts : List Tensor) : Try (Dword × Dword) :=
  (s.banksOk .ce (ts.any (fun t => t.kind == 2)) (ts.flatMap (msubSpan w))).map (fun _ => (0, 0))

/-- Charge of MSUB, formed from LEN (R274). -/
def msubCost (w : KWord) (_ : State) : Nat := 160 * per128 (bits w.arg.toNat 0 32)

/-- MSUB (R407). -/
def execMsub (w : KWord) (s : State) : Host.Outcome State Fault Refusal :=
  mediaCommand w false [w.ta] (msubCheck w) (msubCost w) s

/-- What a CE may know of a store without a fault, for a charge. -/
def State.peek (s : State) (ctx va n : Nat) : Nat :=
  match s.devRead ctx va n with
  | .ok (v, _) => v
  | .error _ => 0

/-- The place of a stream's store record; none when there is no such store. -/
def State.recordOf (s : State) (e : Nat) : Option Nat := (Map.find s.streams (ssidOf e)).map (fun st => st.record)

/-- Luma samples of the frame that an MDEC exports, from the geometry of TPIC (R157). -/
def State.lumaSamples (s : State) (w : KWord) : Nat :=
  match s.recordOf w.arg.toNat with
  | none => 1
  | some r =>
    let titb := Memory.read s.mem (r + 48) 8
    let d2 := s.peek (s.work .ce).ctx (titb + 64 * bits (Memory.read s.mem (r + 56) 8) 56 8 + 16) 8
    max 1 (bits d2 32 24 * bits d2 0 24)

def stsOf (w : KWord) : Nat := bits w.arg.toNat 0 21

/-- The check of MDEC on the CE: its status block. -/
def mdecCheck (w : KWord) (s : State) (_ : List Tensor) : Try (Dword × Dword) :=
  if stsOf w = 0 then .ok (0, 0)
  else
    match s.banksOk .ce false [(stsOf w / 16 * 16, 16)] with
    | .error e => .error e
    | .ok () => if stsOf w % 16 != 0 then .error (.fatal 0x4E 3 0) else .ok (0, 0)

/-- Charge of MDEC (R274). -/
def mdecCost (w : KWord) (s : State) : Nat := 65536 * ceilDiv (s.lumaSamples w) (2 ^ 20)

/-- MDEC (R406). -/
def execMdec (w : KWord) (s : State) : Host.Outcome State Fault Refusal :=
  mediaCommand w false [] (mdecCheck w) (mdecCost w) s

/-- Of each layer of a store, its tiles and the check copies that it would write if it reused them all (R164, R167). -/
def State.storeTiles (s : State) (w : KWord) : List (Nat × Nat) :=
  match s.recordOf w.arg.toNat with
  | none => []
  | some r =>
    let n := bits (Memory.read s.mem (r + 16) 8) 48 5
    let ldesc := Memory.read s.mem (r + 40) 8
    (List.range n).map (fun l =>
      let v := s.peek (s.work .ce).ctx (ldesc + 64 * l) 24
      let cap := (LayerMap.ofY0 (bits v 0 64)).cap
      let k := bits v 88 4
      let ccnt := bits v 128 32
      (cap, if k = 15 then 0 else (ccnt + cap) / 2 ^ k - ccnt / 2 ^ k))

/-- A media command that the CE does not check itself. -/
def freeCheck (_ : State) (_ : List Tensor) : Try (Dword × Dword) := .ok (0, 0)

/-- Charge of CMBL: the tiles decided, and the bytes written for them (R274): list headers, entries and check copies, ages
and check counts, and the record's fields (note 34). -/
def cmblCost (w : KWord) (s : State) : Nat :=
  let l := s.storeTiles w
  let tiles := l.foldl (fun n x => n + x.1) 0
  4 * tiles + 160 * per128 (l.foldl (fun n x => n + 68 + 9 * x.1 + 8 * x.2) 16)

/-- CMBL (R368). -/
def execCmbl (w : KWord) (s : State) : Host.Outcome State Fault Refusal := mediaCommand w true [] freeCheck (cmblCost w) s

/-- CMSM with FN = 0, a reset (R371). -/
def execCmsm (w : KWord) (s : State) : Host.Outcome State Fault Refusal :=
  mediaCommand w true [] freeCheck (fun _ => 256) s

/-- The report block of a drift report, read by the CE (R371). -/
def State.reportBlock (s : State) (w : KWord) : Try (Dword × Dword) :=
  let a := bits w.arg.toNat 0 21
  match s.banksOk .ce false [(a / 16 * 16, 16)] with
  | .error e => .error e
  | .ok () =>
    match (if a % 16 != 0 then .error (.fatal 0x4E 3 0) else s.bankBytes a 16) with
    | .error e => .error e
    | .ok bs =>
      let d0 := leValue (bs.take 8)
      let d1 := leValue (bs.drop 8)
      let nlay := match s.recordOf w.arg.toNat with
        | some r => bits (Memory.read s.mem (r + 16) 8) 48 5
        | none => 64
      if bits d1 6 58 != 0 || nlay ≤ d1 then .error (.fatal 0x4E 3 0)
      else .ok (BitVec.ofNat 64 d0, BitVec.ofNat 64 d1)

/-- CMSM with FN = 1, a drift report (R371, R173). -/
def execCmsmDrift (w : KWord) (s : State) : Host.Outcome State Fault Refusal :=
  mediaCommand w true [] (fun s _ => s.reportBlock w) (fun _ => 256) s

/-! ## Memory of a media engine -/

/-- Change a command that stands at its engine. -/
def State.changeMedia (s : State) (id : Nat) (f : MediaCmd → MediaCmd) : State :=
  { s with media := s.media.map (fun m => if m.id = id then f m else m) }

/-- Release or take the stream lock of a command. -/
def State.lockStream (s : State) (m : MediaCmd) (b : Bool) : State :=
  { s with streams := Map.change s.streams (ssidOf m.entry.toNat) (fun st => { st with locked := b }) }

/-- A command that has begun and not completed holds its stream lock (R163). -/
def State.holdMedia (s : State) (m : MediaCmd) : State := (s.lockStream m true).changeMedia m.id (fun x => { x with begun := true })

/-- The record of a fault that a media engine finds (R243, R367). -/
def MediaCmd.record (m : MediaCmd) (cause : Nat) : RecordOf :=
  { RecordOf.ofTask m.task 0 7 cause with
    iter := if Config.mediaIter then m.task.entry.pawn.iter else 0
    die := m.eng.die.toNat, tile := b2n m.eng.cme * 32 + m.eng.n.toNat, cidx := m.addr, detail := m.tp }

/-- A translation fault stalls a media engine's command, with its lock held (R249, R367). -/
def State.stallMedia (s : State) (m : MediaCmd) (f : TFault) : State :=
  let r := mkRecord { m.record f.cause with prec := true, fault := some f } s.time
  ((s.holdMedia m).changeMedia m.id (fun x => { x with stalled := true })).stallTranslation
    { tp := m.tp, record := r, ctx := m.task.ctx, cause := f.cause, space := f.space, va := f.va, unit := 7
      media := some m.eng, acck := f.acck }

/-- A media command stops in an access: what it has done so far stands. -/
def State.mediaStalled (s : State) (m : MediaCmd) : Stop → Stop
  | .tfault f => .done (s.stallMedia m f)
  | .ats ctx va => .done ((s.holdMedia m).askAts ctx va)
  | .wait => .done (s.holdMedia m)
  | .tracked f n e => .tracked f n (State.mediaStalled (s.track f n) m e)
  | e => e

/-- One access of a media command: made once and logged; a resumed command goes on from the first access that it has not
made (R250). -/
def State.mediaAccess (s : State) (m : MediaCmd) (access : State → Try (List Byte × State)) : Try (List Byte × State) :=
  let x := (s.media.find? (fun x => x.id == m.id)).getD m
  match x.log[x.passed]? with
  | some bs => .ok (bs, s.changeMedia m.id (fun x => { x with passed := x.passed + 1 }))
  | none =>
    match access s with
    | .ok (bs, s) => .ok (bs, s.changeMedia m.id (fun x => { x with log := x.log ++ [bs], passed := x.passed + 1 }))
    | .error e => .error (s.mediaStalled m e)

/-- A media engine as the agent of its command's accesses, on path M (R198). -/
def MediaCmd.who (m : MediaCmd) : Who :=
  { tp := m.tp, agent := mediaCode m.eng, path := 4, ctx := m.task.ctx, lid := m.task.lid, cmd := m.id }

/-- Read `n` bytes of a space for a media command (R236). -/
def State.mRead (s : State) (m : MediaCmd) (space va n : Nat) : Try (List Byte × State) :=
  s.mediaAccess m (fun s => s.gRead m.who space va n)

/-- Write bytes of space 0 for a media command, unit by unit (R200). -/
def State.mWrite (s : State) (m : MediaCmd) (va : Nat) (bs : List Byte) : Try State :=
  (s.mediaAccess m (fun s => (s.gWrite m.who 0 va bs).map (fun s => ([], s)))).map (fun r => r.2)

/-- Read `n` bytes at a place for a media command. -/
def State.mReadAt (s : State) (m : MediaCmd) (p n : Nat) : Try (Nat × State) :=
  (s.mediaAccess m (fun s => s.readPiece m.who { place := p, len := n, zero := false })).map (fun r => (leValue r.1, r.2))

/-- Write bytes at a place for a media command. -/
def State.mWriteAt (s : State) (m : MediaCmd) (p : Nat) (bs : List Byte) : Try State :=
  (s.mediaAccess m (fun s => .ok ([], s.weakWrite m.who p bs))).map (fun r => r.2)

/-! ## Store records (R160) -/

/-- A store record by its fields, with its place. -/
structure Store where
  place : Nat
  s2 : Nat
  buf0 : Nat
  buf1 : Nat
  pval : Bool
  nore : Bool
  nlay : Nat
  bsize : Nat
  dfrm : Nat
  lfrm : Nat
  frel : Nat
  f : Nat
  ldesc : Nat
  titb : Nat
  tpic : Nat
  tmv : Nat
  tres : Nat
  tmod : Nat
  clean : Bool
deriving Repr, Inhabited

def State.store (s : State) (m : MediaCmd) (place : Nat) : Try (Store × State) :=
  match s.mReadAt m place 64 with
  | .error e => .error e
  | .ok (v, s) =>
    let f (k lo n : Nat) : Nat := bits v (64 * k + lo) n
    let r : Store :=
      { place := place, s2 := f 2 0 64, buf0 := f 0 0 64, buf1 := f 1 0 64, pval := f 2 55 1 = 1, nore := f 2 54 1 = 1
        nlay := f 2 48 5, bsize := f 2 0 48, dfrm := f 3 32 32, lfrm := f 3 0 32, frel := f 4 32 32, f := f 4 0 32
        ldesc := f 5 0 64, titb := f 6 0 64, tpic := f 7 56 8, tmv := f 7 48 8, tres := f 7 40 8, tmod := f 7 32 8
        clean := f 2 53 1 == 0 }
    .ok (r, s)

/-- The checks of a store record (R160, R164). -/
def Store.ok (r : Store) : Bool :=
  r.clean && r.buf0 % 4096 == 0 && r.buf1 % 4096 == 0 && r.bsize % 4096 == 0 && r.ldesc % 64 == 0 && r.titb % 64 == 0 &&
    1 ≤ r.nlay && r.nlay ≤ 16

/-- The stream and store that a command names. -/
def State.streamOf (s : State) (m : MediaCmd) : Try (Stream × Store × State) :=
  match Map.find s.streams (ssidOf m.entry.toNat) with
  | none => .error (.fatal 0x4E 3 0)
  | some st =>
    match s.store m st.record with
    | .error e => .error e
    | .ok (r, s) => .ok (st, r, s)

def State.setStream (s : State) (ssid : Nat) (st : Stream) : State := { s with streams := Map.put s.streams ssid st }

/-- An export tensor of frame `n` (R157, R161): another store or PAR = 1 is no export tensor of this stream (note 79). -/
def State.exportTensor (s : State) (m : MediaCmd) (r : Store) (id n : Nat) : Try (Tensor × State) :=
  match s.mRead m 0 (r.titb + 64 * id) 64 with
  | .error e => .error e
  | .ok (bs, s) =>
    let d := dwordsOf 8 bs
    (s.resolve { m.task with strm := some (ssidOf m.entry.toNat, n) } d).map (fun t => (t, s))

/-- Geometry and format of an export tensor. -/
def Tensor.shaped (t : Tensor) (fmts : List Fmt) (rows cols : Nat) (planes : List Nat) : Bool :=
  fmts.contains t.fmt && t.fcode < 11 && t.rows == rows && t.cols == cols && planes.contains t.planes

/-- The four export tensors of a frame of a size, checked (R157): 0x41 before reason 4 (R20, R473). -/
def State.exports (s : State) (m : MediaCmd) (r : Store) (n : Nat) (size : Option (Nat × Nat)) :
    Try (Tensor × Tensor × Tensor × Tensor × State) :=
  match s.exportTensor m r r.tpic n with
  | .error e => .error e
  | .ok (pic, s) =>
    match s.exportTensor m r r.tmv n with
    | .error e => .error e
    | .ok (mv, s) =>
      match s.exportTensor m r r.tres n with
      | .error e => .error e
      | .ok (res, s) =>
        match s.exportTensor m r r.tmod n with
        | .error e => .error e
        | .ok (mode, s) =>
          let (pw, ph) := size.getD (pic.cols, pic.rows)
          let bw := ceilDiv pw 8
          let bh := ceilDiv ph 8
          let own (t : Tensor) : Bool := t.kind == 3 && t.par == 0 && t.ssid == ssidOf m.entry.toNat
          let ts := [pic, mv, res, mode]
          if ts.any (fun t => !t.fmtOk) then .error (.fatal 0x41 0 0)
          else if ts.all own && pic.shaped [.e4m3, .bf16, .uint8] ph pw [1, 3] && mv.shaped [.int16] bh (2 * bw) [1] &&
              res.shaped [.int32] bh bw [1] && mode.shaped [.uint8] bh bw [1] then .ok (pic, mv, res, mode, s)
          else .error (.fatal 0x4E 4 0)

/-- Write every row of a tensor of space 0 with the pattern `f p i j` in element (p, i, j). -/
def State.mTensor (s : State) (m : MediaCmd) (t : Tensor) (f : Nat → Nat → Nat → Nat) : Try State :=
  foldTry (fun s k =>
    let p := k / t.rows
    let i := k % t.rows
    let row := (List.range t.cols).flatMap (fun j => leBytes (t.width / 8) (f p i j))
    State.mWrite s m (t.rowStart p i) row) s (List.range (t.planes * t.rows))

/-- Every row of plane 0 of a tensor of space 0, as bytes. -/
def State.mRows (s : State) (m : MediaCmd) (t : Tensor) : Try (List (List Byte) × State) :=
  foldTry (fun (acc : List (List Byte) × State) i =>
    match acc.2.mRead m 0 (t.rowStart 0 i) (t.cols * t.width / 8) with
    | .ok (bs, s) => .ok (acc.1 ++ [bs], s)
    | .error e => .error e) ([], s) (List.range t.rows)

/-- Element (i, j) of such rows. -/
def exportCell (rows : List (List Byte)) (bytes i j : Nat) : Nat := leValue (((rows.getD i []).drop (bytes * j)).take bytes)

/-! ## MSUB (R405, R407) -/

/-- Bytes of a stream's input buffer. -/
def inputBuffer : Nat := 8 * 2 ^ 20

/-- Free bytes of an input buffer (R406). -/
def Stream.freeBytes (st : Stream) : Nat := inputBuffer - (st.data.length - st.parsed)

/-- The TP whose CE passed a command, as the engine finds its banks: its own, or those of the image that holds the command. -/
def State.mediaBanks (s : State) (m : MediaCmd) : Memory :=
  if s.tp.ce.infl.any (fun f => f.mid == m.id) then s.tp.banks
  else ((s.tp.images.find? (fun i => i.ce.infl.any (fun f => f.mid == m.id))).map (fun i => i.banks)).getD s.tp.banks

/-- Whether a stream is bound to the VDE of a command (R405, reason 8). -/
def Stream.boundTo (st : Stream) (m : MediaCmd) : Bool := st.vde == m.eng && st.held

/-- MSUB on its VDE. -/
def State.runMsub (s : State) (m : MediaCmd) : Try (Option (Nat × Dword × Dword) × State) :=
  match Map.find s.streams (ssidOf m.entry.toNat) with
  | none => .error (.fatal 0x4E 8 0)
  | some st =>
    let t := Tensor.ofDwords m.tensor
    let len := bits m.entry.toNat 0 32
    if st.ctx != m.task.ctx then .error (.fatal 0x4E 3 0)
    else if !st.boundTo m || !(t.kind == 1 || t.kind == 2) || t.fmt != .uint8 || t.rows != 1 || t.planes != 1 || t.cols < len ||
        st.freeBytes < len then .error (.fatal 0x4E 8 0)
    else
      match (if t.kind = 2 then
          if s.tp.bankPoisoned t.addr len then .error (.fatal 0x61 0 0) else .ok (Sparse.run (s.mediaBanks m) t.addr len, s)
        else s.mRead m t.space t.addr len) with
      | .error e => .error e
      | .ok (bs, s) => .ok (none, s.setStream (ssidOf m.entry.toNat) { st with data := st.data ++ bs })

/-! ## MDEC (R156 to R159, R406) -/

/-- The output picture of a stream with a number, from what had been submitted when it was output. -/
def Stream.picture (st : Stream) (k : Nat) : Option Picture :=
  match st.shown[k]? with
  | some (n, f, flush) => (Config.codec st.codec.num (st.data.take n) (st.flushes.take f) k flush).map (·.on st.codec)
  | none => none

/-- The picture that output number `k` shows in its place: the last decodable one before it, back to the last reset
(R159). -/
def Stream.repeated (st : Stream) : Nat → Option Picture
  | 0 => none
  | k + 1 =>
    if k < st.resetAt then none
    else
      match st.picture k with
      | some p => if p.undecodable then Stream.repeated st k else some p
      | none => none

/-- Bit depth and sample of a plane that TPIC shows: of the picture, of the one that it repeats, or the middle value. -/
def sampleOf (p : Picture) (prev : Option Picture) (plane x y : Nat) : Nat × Nat :=
  if !p.undecodable then (p.depth, p.sampleAt plane x y)
  else
    match prev with
    | some q => (q.depth, q.sampleAt plane x y)
    | none => (8, 128)

/-- The pattern of a sample in TPIC (R157). -/
def picPattern (f : Fmt) (v : Nat × Nat) : Nat :=
  if f = .uint8 then v.2 / 2 ^ (v.1 - 8) % 256 else encodeFloat f .rne true (.fin false v.2 (-(v.1 : Int)))

/-- The four exports of frame `n` (R157). -/
def State.writeExports (s : State) (m : MediaCmd) (st : Stream) (p : Picture) (n : Nat)
    (ts : Tensor × Tensor × Tensor × Tensor) : Try State :=
  let (pic, mv, res, mode) := ts
  let free := Config.freeNat s.free
  let prev := st.repeated st.shown.length
  let before := if st.shown.length ≤ st.resetAt then none else st.picture (st.shown.length - 1)
  let s := { s with free := s.free + 1 }
  match s.mTensor m pic (fun pl i j => picPattern pic.fmt (sampleOf p prev pl j i)) with
  | .error e => .error e
  | .ok s =>
    match s.mTensor m mv (fun _ i j => p.vectorAt st.codec before n free (j / 2) i (j % 2 == 1)) with
    | .error e => .error e
    | .ok s =>
      match s.mTensor m res (fun _ i j => p.energyAt j i) with
      | .error e => .error e
      | .ok s => s.mTensor m mode (fun _ i j => p.modeAt j i)

/-- The status block (R406). -/
def statusBlock (st frm free ph pw : Nat) : Dword × Dword :=
  (BitVec.ofNat 64 (st % 16 * 2 ^ 32 + frm % 2 ^ 32), BitVec.ofNat 64 (free % 2 ^ 32 * 2 ^ 32 + ph % 65536 * 65536 + pw % 65536))

/-- MDEC on its VDE (R406). With no picture the status block's size fields are free (note 7). A frame that cannot be decoded has the
size of the picture that it repeats; where it has none, that of TPIC (note 99). -/
def State.runMdec (s : State) (m : MediaCmd) : Try (Option (Nat × Dword × Dword) × State) :=
  let ssid := ssidOf m.entry.toNat
  let sts := bits m.entry.toNat 0 21
  let flush := bitAt m.entry.toNat 23
  match Map.find s.streams ssid with
  | none => .error (.fatal 0x4E 8 0)
  | some st =>
    match s.store m st.record with
    | .error e => .error e
    | .ok (r, s) =>
      let n := (r.dfrm + 1) % 2 ^ 32
      if r.lfrm != r.dfrm then .error (.fatal 0x4E 1 0)
      else if st.ctx != m.task.ctx || !r.ok then .error (.fatal 0x4E 3 0)
      else if !st.boundTo m then .error (.fatal 0x4E 8 0)
      else
        let st := if flush && st.flushes.getLast? != some st.data.length then
          { st with flushes := st.flushes ++ [st.data.length] } else st
        let next := { st with shown := st.shown ++ [(st.data.length, st.flushes.length, flush)] }
        match next.picture st.shown.length with
        | none =>
          let parsed := if flush then st.data.length
            else min st.data.length (max st.parsed (Config.codecParsed st.codec.num st.data st.shown.length))
          let st := { st with parsed := parsed }
          let (a, s) := s.takeNat
          let (b, s) := s.takeNat
          .ok (if sts = 0 then none else some (sts, statusBlock 3 0xFFFFFFFF st.freeBytes a b), s.setStream ssid st)
        | some p =>
          let size := if p.undecodable then (st.repeated st.shown.length).map (fun q => (q.pw, q.ph)) else some (p.pw, p.ph)
          match s.exports m r n size with
          | .error e => .error e
          | .ok (pic, mv, res, mode, s) =>
            match s.writeExports m st p n (pic, mv, res, mode) with
            | .error e => .error e
            | .ok s =>
              match s.mWriteAt m (r.place + 28) (leBytes 4 n) with
              | .error e => .error e
              | .ok s =>
                let st := { next with parsed := min st.data.length (max st.parsed p.parsed) }
                let code := if p.undecodable then 2 else if p.anyMissing pic.cols pic.rows then 1 else 0
                .ok (if sts = 0 then none else some (sts, statusBlock code n st.freeBytes pic.rows pic.cols), s.setStream ssid st)

/-! ## CMBL (R164 to R169) -/

/-- A layer descriptor by its fields (R164). -/
structure Layer where
  addr : Nat
  map : LayerMap
  rad : Nat
  tol : Nat
  lstr : Nat
  thr : Nat
  p : Nat
  chke : Nat
  att : Bool
  dil : Bool
  budget : Nat
  ccnt : Nat
  lblk : Nat
  agea : Nat
  tfrm : Nat
  ndrf : Nat
  clean : Bool
deriving Inhabited

/-- Read layer `l` of a store. -/
def State.layer (s : State) (m : MediaCmd) (r : Store) (l : Nat) : Try (Layer × State) :=
  let a := r.ldesc + 64 * l
  match s.mRead m 0 a 64 with
  | .error e => .error e
  | .ok (bs, s) =>
    let v := leValue bs
    let f (k lo n : Nat) : Nat := bits v (64 * k + lo) n
    .ok ({ addr := a, map := ⟨f 0 48 16, f 0 32 16⟩, rad := f 0 16 8, tol := f 0 8 8, lstr := f 0 0 3, thr := f 1 32 32
           p := f 1 28 4, chke := f 1 24 4, att := f 1 23 1 = 1, dil := f 1 22 1 = 1, budget := f 2 32 32, ccnt := f 2 0 32
           lblk := f 3 0 64, agea := f 4 0 64, tfrm := f 5 32 32, ndrf := f 5 0 32
           clean := f 0 24 8 == 0 && f 0 3 5 == 0 && f 1 0 22 == 0 && f 6 0 64 == 0 && f 7 0 64 == 0 }, s)

/-- The checks of R164 on layer `l`. -/
def Layer.ok (y : Layer) (l : Nat) : Bool :=
  y.clean && y.p != 0 && y.lstr ≤ 5 && y.map.w != 0 && y.map.h != 0 && y.map.cap ≤ 32768 && !(l == 0 && y.dil) && y.lblk % 64 == 0

/-- Every layer of a store, checked (reason 3). -/
def State.layers (s : State) (m : MediaCmd) (r : Store) : Try (List Layer × State) :=
  foldTry (fun (acc : List Layer × State) l =>
    match acc.2.layer m r l with
    | .error e => .error e
    | .ok (y, s) => if y.ok l then .ok (acc.1 ++ [y], s) else .error (.fatal 0x4E 3 0)) ([], s) (List.range r.nlay)

/-- The exports of a frame as CMBL reads them: picture size, and vector, residual and mode of a block. -/
structure Exports where
  pw : Nat
  ph : Nat
  mv : List (List Byte)
  res : List (List Byte)
  mode : List (List Byte)

def Exports.vec (x : Exports) (b : Nat × Nat) : Int × Int :=
  (signedOf (exportCell x.mv 2 b.2 (2 * b.1)) 16, signedOf (exportCell x.mv 2 b.2 (2 * b.1 + 1)) 16)
def Exports.energy (x : Exports) (b : Nat × Nat) : Nat := exportCell x.res 4 b.2 b.1
def Exports.modeOf (x : Exports) (b : Nat × Nat) : Nat := exportCell x.mode 1 b.2 b.1

/-- The footprint of a tile: first and last pixel across and down (R166). -/
structure Foot where
  x0 : Nat
  x1 : Nat
  y0 : Nat
  y1 : Nat

def Layer.sigma (y : Layer) : Nat := 2 ^ y.lstr

def Layer.foot (y : Layer) (e : Exports) (tx ty : Nat) : Foot :=
  let g := y.sigma
  { x0 := min (4 * tx * g - y.rad) (e.pw - 1), x1 := min (4 * tx * g + 4 * g - 1 + y.rad) (e.pw - 1)
    y0 := min (4 * ty * g - y.rad) (e.ph - 1), y1 := min (4 * ty * g + 4 * g - 1 + y.rad) (e.ph - 1) }

/-- The blocks of a footprint. -/
def Foot.blocks (f : Foot) : List (Nat × Nat) :=
  (List.range (f.y1 / 8 - f.y0 / 8 + 1)).flatMap (fun j =>
    (List.range (f.x1 / 8 - f.x0 / 8 + 1)).map (fun i => (f.x0 / 8 + i, f.y0 / 8 + j)))

/-- The block at a tile's centre. -/
def Layer.centre (y : Layer) (e : Exports) (tx ty : Nat) : Nat × Nat :=
  let g := y.sigma
  (min (4 * tx * g + 2 * g) (e.pw - 1) / 8, min (4 * ty * g + 2 * g) (e.ph - 1) / 8)

/-- Quarter-pel to pixels, ties away from zero (R166). -/
def rpx (v : Int) : Int := if v < 0 then -(((v.natAbs + 2) / 4 : Nat) : Int) else (((v.natAbs + 2) / 4 : Nat) : Int)

/-- The pixels of a tile of a layer, inside its map and the picture, meet a footprint (R167). -/
def Layer.meets (y : Layer) (e : Exports) (tx ty : Nat) (f : Foot) : Bool :=
  let g := y.sigma
  let xEnd := min (min (4 * tx + 4) y.map.w * g) e.pw
  let yEnd := min (min (4 * ty + 4) y.map.h * g) e.ph
  4 * tx * g < xEnd && 4 * ty * g < yEnd && 4 * tx * g ≤ f.x1 && f.x0 < xEnd && 4 * ty * g ≤ f.y1 && f.y0 < yEnd

/-- A tile's decision. -/
structure Decision where
  kind : Nat
  dx : Int := 0
  dy : Int := 0
  chk : Bool := false

/-- The decision of one tile but for its check bit (R167): `prev` are the tiles of the layer before with kind ≠ 0. -/
def Layer.decide (y : Layer) (e : Exports) (full : Bool) (age tx ty : Nat) (before : Option Layer) (prev : List (Nat × Nat)) :
    Decision :=
  let f := y.foot e tx ty
  let bs := f.blocks
  let c := e.vec (y.centre e tx ty)
  let g : Int := (y.sigma : Nat)
  let far (b : Nat × Nat) : Bool := y.tol < ((e.vec b).1 - c.1).natAbs || y.tol < ((e.vec b).2 - c.2).natAbs
  let dilated : Bool := match before with
    | some q => y.dil && prev.any (fun p => q.meets e p.1 p.2 f)
    | none => false
  if full || y.p ≤ age + 1 then { kind := 3 }
  else if bs.any (fun b => 2 ≤ e.modeOf b) then { kind := 1 }
  else if bs.any far then { kind := 1 }
  else if rpx c.1 % g != 0 || rpx c.2 % g != 0 then { kind := 1 }
  else if y.thr ≤ (bs.map e.energy).foldl (· + ·) 0 then { kind := 1 }
  else if dilated then { kind := 1 }
  else
    let dx := -(rpx c.1 / g)
    let dy := -(rpx c.2 / g)
    let outside : Bool := (List.range 16).any (fun k =>
      let x := 4 * tx + k % 4
      let z := 4 * ty + k / 4
      x < y.map.w && z < y.map.h && !y.map.holds ((x : Int) - dx, (z : Int) - dy))
    if 127 < dx.natAbs || 127 < dy.natAbs || outside then { kind := 2 } else { kind := 0, dx := dx, dy := dy }

/-- The 64 bits of a list entry (R169). -/
def entryBits (d : Decision) (l tx ty : Nat) : Nat :=
  b2n d.chk * 2 ^ 56 + l % 64 * 2 ^ 50 + d.kind % 4 * 2 ^ 48 + wrapTo d.dy 8 * 2 ^ 40 + wrapTo d.dx 8 * 2 ^ 32 + ty % 65536 * 65536 +
    tx % 65536

/-- What the decision of a layer yields: ages, entries in raster order with their kinds, the check count. -/
structure Decided where
  ages : List Byte
  entries : List (Nat × Decision)
  ccnt : Nat
  changed : List (Nat × Nat)

/-- Decide a layer tile by tile in raster order. -/
def Layer.decideAll (y : Layer) (e : Exports) (full : Bool) (l : Nat) (ages : List Byte) (before : Option Layer)
    (prev : List (Nat × Nat)) : Decided :=
  (List.range y.map.cap).foldl (fun (acc : Decided) k =>
    let tx := k % y.map.ntx
    let ty := k / y.map.ntx
    let age := bits (ages.getD k 0).toNat 0 4
    let d := y.decide e full age tx ty before prev
    let counts := d.kind = 0 && y.chke != 15
    let ccnt := if counts then (acc.ccnt + 1) % 2 ^ 32 else acc.ccnt
    let d := { d with chk := counts && ccnt % 2 ^ y.chke == 0 }
    { ages := acc.ages ++ [if d.kind = 0 then BitVec.ofNat 8 (age + 1) else 0]
      entries := acc.entries ++ [(entryBits d l tx ty, d)]
      ccnt := ccnt
      changed := if d.kind = 0 then acc.changed else acc.changed ++ [(tx, ty)] })
    { ages := [], entries := [], ccnt := y.ccnt, changed := [] }

/-- Bytes of one list block (R168). -/
def LayerMap.blockSize (m : LayerMap) : Nat := ceilDiv (64 + 24 * m.cap) 64 * 64

/-- A list of a block with room for `cap` entries (R168): the entries past its count are undefined. -/
def State.listBytes (s : State) (l : List Nat) (cap : Nat) : List Byte × State :=
  let n := 8 * (cap - l.length)
  (l.flatMap (leBytes 8) ++ (List.range n).map (fun k => Config.freeByte (s.free + k)), { s with free := s.free + n })

/-- Write the lists of a layer for frame `n` (R168), its ages and its check count; the entries past a count are free values (note
6). -/
def State.writeLists (s : State) (m : MediaCmd) (y : Layer) (n : Nat) (d : Decided) : Try State :=
  let base := y.lblk + n % 2 * y.map.blockSize
  let recs := (d.entries.filter (fun e => e.2.kind != 0)).map (fun e => e.1)
  let uses := (d.entries.filter (fun e => e.2.kind == 0)).map (fun e => e.1)
  let chks := (d.entries.filter (fun e => e.2.chk)).map (fun e => e.1)
  let head := leBytes 4 recs.length ++ leBytes 4 uses.length ++ leBytes 4 chks.length ++ leBytes 4 n ++ List.replicate 48 0
  let (r, s) := s.listBytes recs y.map.cap
  let (u, s) := s.listBytes uses y.map.cap
  let (c, s) := s.listBytes chks y.map.cap
  match s.mWrite m base (head ++ r ++ u ++ c) with
  | .error e => .error e
  | .ok s =>
    match s.mWrite m y.agea d.ages with
    | .error e => .error e
    | .ok s => s.mWrite m (y.addr + 16) (leBytes 4 d.ccnt)

/-- The exports of frame `n` as CMBL reads them. -/
def State.readExports (s : State) (m : MediaCmd) (r : Store) (n : Nat) : Try (Exports × State) :=
  match s.exports m r n none with
  | .error e => .error e
  | .ok (pic, mv, res, mode, s) =>
    match s.mRows m mv with
    | .error e => .error e
    | .ok (a, s) =>
      match s.mRows m res with
      | .error e => .error e
      | .ok (b, s) =>
        match s.mRows m mode with
        | .error e => .error e
        | .ok (c, s) => .ok (⟨pic.cols, pic.rows, a, b, c⟩, s)

/-- The full-refresh counter of a frame: whether it expires, and its new value (R167). -/
def Store.refresh (r : Store) : Bool × Nat :=
  if r.frel = 0 then (false, r.f)
  else if !r.pval then (false, r.frel)
  else
    let f := (r.f + 2 ^ 32 - 1) % 2 ^ 32
    if f = 0 then (true, r.frel) else (false, f)

/-- CMBL on its CME (R167). -/
def State.runCmbl (s : State) (m : MediaCmd) : Try (Option (Nat × Dword × Dword) × State) :=
  match s.streamOf m with
  | .error e => .error e
  | .ok (st, r, s) =>
    let n := (r.lfrm + 1) % 2 ^ 32
    if r.dfrm != n then .error (.fatal 0x4E 2 0)
    else if st.ctx != m.task.ctx || !r.ok then .error (.fatal 0x4E 3 0)
    else
      match s.layers m r with
      | .error e => .error e
      | .ok (ys, s) =>
        match s.readExports m r n with
        | .error e => .error e
        | .ok (x, s) =>
          let (expired, f) := r.refresh
          let full := !r.pval || r.nore || expired || s.mod.pst != 4
          match foldTry (fun (acc : State × Option Layer × List (Nat × Nat)) l =>
              let y := ys.getD l default
              match acc.1.mRead m 0 y.agea y.map.cap with
              | .error e => .error e
              | .ok (ages, s) =>
                let d := y.decideAll x full l ages acc.2.1 acc.2.2
                match s.writeLists m y n d with
                | .error e => .error e
                | .ok s => .ok (s, some y, d.changed)) (s, none, []) (List.range r.nlay) with
          | .error e => .error e
          | .ok (s, _, _) =>
            match s.mWriteAt m (r.place + 16) (leBytes 8 (if r.pval then r.s2 else r.s2 + 2 ^ 55)) with
            | .error e => .error e
            | .ok s =>
              match s.mWriteAt m (r.place + 32) (leBytes 4 f) with
              | .error e => .error e
              | .ok s => (s.mWriteAt m (r.place + 24) (leBytes 4 n)).map (fun s => (none, s))

/-! ## CMSM (R371, R173) -/

/-- A reset. -/
def State.runReset (s : State) (m : MediaCmd) : Try (Option (Nat × Dword × Dword) × State) :=
  match s.streamOf m with
  | .error e => .error e
  | .ok (st, r, s) =>
    match (if st.ctx == m.task.ctx && r.ok then s.layers m r else .error (.fatal 0x4E 3 0)) with
    | .error e => .error e
    | .ok (ys, s) =>
      match foldTry (fun s y =>
          match State.mWrite s m (y.addr + 16) (leBytes 4 0) with
          | .error e => .error e
          | .ok s =>
            match s.mWrite m y.agea (List.replicate y.map.cap 0) with
            | .error e => .error e
            | .ok s => s.mWrite m (y.addr + 44) (leBytes 4 0xFFFFFFFF)) s ys with
      | .error e => .error e
      | .ok s =>
        match s.mWriteAt m (r.place + 16) (leBytes 8 (if r.pval then r.s2 - 2 ^ 55 else r.s2)) with
        | .error e => .error e
        | .ok s =>
          match s.mWriteAt m (r.place + 24) (leBytes 8 (2 ^ 64 - 1)) with
          | .error e => .error e
          | .ok s =>
            (s.mWriteAt m (r.place + 56) (leBytes 4 0)).map (fun s =>
              (none, s.setStream (ssidOf m.entry.toNat) { st with resetAt := st.shown.length }))

/-- A drift report (R173): whether it exceeds the budget, and the state after its record. -/
def State.runReport (s : State) (m : MediaCmd) : Try (Bool × State) :=
  let d := bits m.report.1.toNat 0 32
  let frm := bits m.report.1.toNat 32 32
  match s.streamOf m with
  | .error e => .error e
  | .ok (st, r, s) =>
    if st.ctx != m.task.ctx || !r.ok || r.nlay ≤ m.report.2.toNat then .error (.fatal 0x4E 3 0)
    else
      match s.layer m r m.report.2.toNat with
      | .error e => .error e
      | .ok (y, s) =>
        if !exceeds d y.budget then .ok (false, s)
        else
          let tight : Bool := y.att && y.tfrm != frm
          match s.mWrite m (y.addr + 40) (leBytes 4 ((y.ndrf + 1) % 2 ^ 32) ++ leBytes 4 (if tight then frm else y.tfrm)) with
          | .error e => .error e
          | .ok s =>
            match s.mWrite m (y.addr + 12) (leBytes 4 (if tight then y.thr / 2 else y.thr)) with
            | .error e => .error e
            | .ok s => .ok (true, s)

/-! ## A media engine's step (R163, R367) -/

/-- The command in flight on its CE is marked as reported, in the TP's engine or in its save image (R260). -/
def reported (id : Nat) (status : Option (Nat × Dword × Dword)) (c : Chain) : Chain :=
  { c with infl := c.infl.map (fun f => if f.media && f.mid == id then { f with media := false, status := status } else f) }

/-- The barrier arrive of a command whose CE is saved is made when the engine reports (R260). -/
def State.savedArrive (s : State) (m : MediaCmd) : State :=
  match s.tp.images.find? (fun i => i.ce.infl.any (fun f => f.mid == m.id)) with
  | none => s
  | some i =>
    match i.ce.infl.find? (fun f => f.mid == m.id) with
    | none => s
    | some f =>
      match f.bar with
      | some d =>
        let t := Tensor.ofDwords d
        if t.kind = 2 then s
        else
          match s.pieces false m.task.ctx t.space 4 9 t.addr 8 with
          | .ok (p :: _, s') =>
            match s'.arrive m.task.ctx (.place p.place p.space) (fun _ => false) with
            | .ok s' =>
              { s' with tp := { s'.tp with images := s'.tp.images.map (fun j =>
                { j with ce := { j.ce with infl := j.ce.infl.map (fun x => if x.mid = m.id then { x with bar := none } else x) } }) } }
            | .error _ => s
          | _ => s
      | none => s

/-- An engine reports completion: its writes are performed at device scope (R163), the lock is free, and the CE's command can
complete. -/
def State.mediaDone (s : State) (m : MediaCmd) (status : Option (Nat × Dword × Dword)) : State :=
  let s := ((s.drain (fun w => w.own m.tp (mediaCode m.eng))).lockStream m false).savedArrive m
  let s := { s with media := s.media.filter (fun x => x.id != m.id) }
  { s with tp := { s.tp with
      ce := reported m.id status s.tp.ce
      images := s.tp.images.map (fun i => { i with ce := reported m.id status i.ce }) } }

/-- Whether a CE has a command in flight at its engine. -/
def Chain.awaits (c : Chain) (m : MediaCmd) : Bool := c.infl.any (fun f => f.mid == m.id)

/-- The CE holds the command in flight for its event. -/
def Chain.holdFlight (c : Chain) (m : MediaCmd) : Chain :=
  { c with infl := c.infl.map (fun f => if f.mid = m.id then { f with trapped := true } else f) }

/-- Whether the CE of a command, or the image that has saved it, holds a trap already (R255). -/
def State.ceTrapped (s : State) (m : MediaCmd) : Bool :=
  let t := s.getTp m.tp
  (t.ce.awaits m && t.ce.trec.isSome) || t.images.any (fun i => i.ce.awaits m && i.ce.trec.isSome)

/-- A report that exceeds its budget (R173, R255): the CE traps and the command is held, in the save image of its task when
that is saved (R265); for an ended task or a block the event is counted. While the CE holds a trap the event waits, with the
stream's lock (note 99). -/
def State.driftEvent (s : State) (m : MediaCmd) : State :=
  let r (c : Chain) : TrapRec := mkRecord { s.entryRecord .ce m.task m.entry m.addr 0x83 with
    prec := true, res := true, detail := bits m.report.2.toNat 0 6, upcs := c.upc.toNat } s.time
  let held := (s.holdMedia m).changeMedia m.id (fun x => { x with trapped := true })
  let live : Bool := s.tp.ce.awaits m && m.task.id == s.tp.cur && !m.task.block
  let saved : Bool := !m.task.block && s.tp.images.any (fun i => i.ce.awaits m && i.cur == m.task.id)
  if (live || saved) && s.ceTrapped m then (s.holdMedia m).changeMedia m.id (fun x => { x with raised := true })
  else if live then (held.setEng .ce ((held.eng .ce).holdFlight m)).trapUnit 4 (r s.tp.ce)
  else if saved then
    { held with tp := { held.tp with images := held.tp.images.map (fun i =>
        if i.ce.awaits m then
          { i with ac := { i.ac with pend := i.ac.pend ||| 16 }
                   ce := { i.ce.holdFlight m with state := 5, trec := some (r i.ce) } }
        else i) } }
  else (s.countEvent m.task.ctx 0x83).mediaDone m none

/-- What an engine does with a command. -/
def State.mediaWork (s : State) (m : MediaCmd) : Try State :=
  match bits m.entry.toNat 120 8 with
  | 0x70 => (s.runMsub m).map (fun r => r.2.mediaDone m r.1)
  | 0x71 => (s.runMdec m).map (fun r => r.2.mediaDone m r.1)
  | 0x72 => (s.runCmbl m).map (fun r => r.2.mediaDone m r.1)
  | _ =>
    if bits m.entry.toNat 28 4 = 1 then
      if m.raised then .ok (s.driftEvent m)
      else
        match s.runReport m with
        | .error e => .error e
        | .ok (true, s) => .ok (s.driftEvent m)
        | .ok (false, s) => .ok (s.mediaDone m none)
    else (s.runReset m).map (fun r => r.2.mediaDone m r.1)

/-- How a media engine's command stops (R249, R367). -/
def State.mediaStop (s : State) (m : MediaCmd) : Stop → State
  | .wait => s
  | .done t => t
  | .ats ctx va => s.askAts ctx va
  | .fatal c r _ => s.fatal m.task.ctx (mkRecord { m.record c with reason := r } s.time)
  | .tfault f => s.stallMedia m f
  | .tracked f n e => State.mediaStop (s.track f n) m e

/-- An engine begins a command: it comes after the commands of the stream that held the lock before (R163), so the engine reads no
earlier value that a media engine has overwritten. -/
def State.beginMedia (s : State) (m : MediaCmd) : State :=
  if m.begun then s
  else { s with mediaStale := s.mediaStale.filter (fun x => !(x.agent == mediaCode m.eng &&
    ((Map.find s.writers (lineOf (8 * x.unit))).getD []).any (fun e => 8 ≤ e.2 && e.2 < 72))) }

/-- A media engine performs the earliest command passed to it whose stream lock is free (R163); one whose event waits for its CE
holds back no other. -/
def execMediaCommandStart (e : MediaEng) (s : State) : Host.Outcome State Fault Refusal :=
  let ready (m : MediaCmd) : Bool :=
    m.eng == e && !m.stalled && !m.trapped && !(m.raised && s.ceTrapped m) &&
      (m.begun || !((Map.find s.streams (ssidOf m.entry.toNat)).map (fun st => st.locked)).getD false)
  match s.media.find? ready with
  | none => .next s
  | some m =>
    let t := ((s.focus m.tp).beginMedia m).changeMedia m.id (fun x => { x with passed := 0 })
    match t.mediaWork m with
    | .ok t' => .next (t'.focus s.cur)
    | .error x => .next ((t.mediaStop m x).focus s.cur)

end Sys2Proof.Machine
end

