-- ==== Sys2Proof/Machine/Launch.lean ====
section
/-!
DEFINITION. From a doorbell to a running task and to a launch's completion (04 R77 to R102, 05 R109, 07 R176, 12 R270, R272,
13 R290): DOORBELL, LAUNCH_START, DEAL, TASK_START, REGION_RELEASE, PARK_WAKE, PILE_BINDING, LAUNCH_COMPLETION.
-/
namespace Sys2Proof.Machine

/-! ## Queues (R77, R78, R290) -/

/-- A doorbell write of a tenant: the device reads WIDX; a queue of another tenant or none is dropped. -/
def State.doorbell (s : State) (tenant data : Nat) : State :=
  let q := data % 4096
  match Map.find s.queues q with
  | some lq => if (s.ctx? lq.ctx).isSome && (s.getCtx lq.ctx).tenant = tenant then s.ringQueue q else s
  | none => s

/-- DOORBELL (R290): a write that the host port brings, in a state that accepts work (R296). -/
def execDoorbell (tenant : BitVec 4) (data : BitVec 32) (s : State) : Host.Outcome State Fault Refusal :=
  if s.powered && !s.mod.host.insecure.contains 0 then
    .next (s.doorbell tenant.toNat data.toNat)
  else .next s

/-! ## The record of a launch (R80, R81) -/

/-- The next record of a queue as 16 dwords. -/
def State.nextRecord (s : State) (q : LaunchQueue) : Try (List Dword × State) :=
  match s.devRead q.ctx (s.ring q + 128 * (s.ridx q % s.ringSize q)) 128 with
  | .ok (v, s) => .ok (dwordsOf 16 (leBytes 128 v), s)
  | .error e => .error e

/-- A field of a record. -/
def fieldOf (d : List Dword) (k lo n : Nat) : Nat := bits (d.getD k 0).toNat lo n

/-- Class, level and barrier flag of a record. -/
def clsOf (d : List Dword) : Nat := fieldOf d 0 8 1
def lvlOf (d : List Dword) : Nat := fieldOf d 0 9 3
def barOf (d : List Dword) : Bool := fieldOf d 0 1 1 == 1

/-- The reasons 1 to 4 that a record alone gives. -/
def recordReasons (d : List Dword) : List Nat :=
  let nlev := fieldOf d 0 32 4
  let cscp := fieldOf d 0 36 4
  let p (k : Nat) : Nat := (d.getD k 0).toNat
  (if 8 < nlev || (fieldOf d 0 2 1 = 1 && 63 < fieldOf d 0 40 8) || (p 6 != 0 && cscp != 5 && cscp != 6) then [1] else []) ++
  (if fieldOf d 0 12 4 != 0 || fieldOf d 0 3 5 != 0 || fieldOf d 0 0 1 != 0 || (d.drop 8).any (· != 0) then [3] else []) ++
  (if (nlev != 0 && p 1 % 16 != 0) || p 2 % 64 != 0 || p 3 % 64 != 0 || p 4 % 64 != 0 || p 5 % 16 != 0 || p 6 % 8 != 0 then [4]
    else [])

/-- The reasons that one level gives (R86). -/
def levelReasons (l0 l1 : Nat) : List Nat :=
  let src := bits l1 60 2
  (if bits l1 62 2 = 0 || src = 0 then [2] else []) ++ (if bits l1 0 60 != 0 then [3] else []) ++
    (if (src = 2 && l0 % 4 != 0) || (src = 3 && l0 % 8 != 0) then [4] else [])

/-- Whether kinds run D, then C, then T (R87). -/
def kindsInOrder : List Nat → Bool
  | a :: b :: rest => a ≤ b && kindsInOrder (b :: rest)
  | _ => true

/-- The levels of a loop table: L0 and L1 of each. -/
def State.readLevels (s : State) (ctx ltab n : Nat) : Try (List (Nat × Nat) × State) :=
  foldTry (fun (a : List (Nat × Nat) × State) i =>
    match a.2.devRead ctx (ltab + 16 * i) 16 with
    | .ok (v, s) => .ok (a.1 ++ [(v % 2 ^ 64, v / 2 ^ 64)], s)
    | .error e => .error e) ([], s) (List.range n)

/-- The trip counts of levels (R83, R86): kind and count of each. -/
def State.readCounts (s : State) (ctx : Nat) (l : List (Nat × Nat)) : Try (List (Nat × Nat) × State) :=
  foldTry (fun (a : List (Nat × Nat) × State) lv =>
    let src := bits lv.2 60 2
    match (if src = 1 then .ok (lv.1, a.2) else a.2.devRead ctx lv.1 (if src = 2 then 4 else 8)) with
    | .ok (v, s) => .ok (a.1 ++ [(bits lv.2 62 2, v)], s)
    | .error e => .error e) ([], s) l

/-- The checks of a task header (R91). -/
def headerOk (h : List Dword) : Bool :=
  let p (k : Nat) : Nat := (h.getD k 0).toNat
  let fsize := fieldOf h 4 32 16
  p 0 % 2 == 0 && p 1 % 8 == 0 && p 2 % 4 == 0 && fieldOf h 4 48 16 == 0 && fieldOf h 4 6 26 == 0 && fsize ≤ 4096 &&
    fsize % 128 == 0 && fieldOf h 4 0 1 == 1 && (h.drop 5).all (· == 0)

/-- Cause 0x48 with the lowest of some reasons (R81, R473). -/
def launchFault (reasons : List Nat) : Try Unit :=
  if reasons.isEmpty then .ok () else .error (.fatal 0x48 (reasons.foldl min 15) 0)

/-- Products of the D counts and of the C counts. -/
def productOf (kind : Nat) (counts : List (Nat × Nat)) : Nat :=
  (counts.filter (fun c => c.1 == kind)).foldl (fun p c => p * c.2) 1

/-- An LID that no launch holds (R90: assigned by the device). -/
def State.freeLid (s : State) : Nat :=
  let used (n : Nat) : Bool := s.launches.any (fun l => l.lid == n)
  let from_ := Config.freeNat s.free
  (((List.range (s.launches.length + 1)).map (fun i => (from_ + i) % 65536)).find? (fun n => !used n)).getD 0

/-- A launch from its record, as the sequencer resolves it (R81, R83, R87, R88). -/
def State.resolveLaunch (s : State) (qn : Nat) (q : LaunchQueue) (d : List Dword) : Try (Launch × State) :=
  let nlev := fieldOf d 0 32 4
  let first := recordReasons d
  let readable : Bool := nlev ≤ 8 && !first.contains 1 && (d.getD 1 0).toNat % 16 == 0
  match s.readLevels q.ctx (d.getD 1 0).toNat (if readable then nlev else 0) with
  | .error e => .error e
  | .ok (lv, s) =>
    match launchFault (first ++ lv.flatMap (fun l => levelReasons l.1 l.2) ++
        (if kindsInOrder (lv.map (fun l => bits l.2 62 2)) then [] else [2])) with
    | .error e => .error e
    | .ok () =>
      match s.readCounts q.ctx lv with
      | .error e => .error e
      | .ok (cs, s) =>
        let dn := productOf 1 cs
        let cn := productOf 2 cs
        match launchFault (if 2 ^ 32 ≤ dn * cn || cs.any (fun c => c.1 == 3 && 2 ^ 32 ≤ c.2) then [5] else []) with
        | .error e => .error e
        | .ok () =>
          match s.devRead q.ctx (d.getD 2 0).toNat 64 with
          | .error e => .error e
          | .ok (v, s) =>
            let h := dwordsOf 8 (leBytes 64 v)
            match launchFault (if headerOk h then [] else [6]) with
            | .error e => .error e
            | .ok () =>
              .ok ({ lid := s.freeLid, ctx := q.ctx, queue := qn, index := s.ridx q, dwords := d
                     tcounts := (cs.filter (fun c => c.1 == 3)).map (fun c => BitVec.ofNat 64 c.2), hdr := h
                     hasD := cs.any (fun c => c.1 == 1), dn := dn, cn := cn, nd := if s.mod.pst = 4 then 2 else 1
                     home := s.homeDie q, next0 := 0, next1 := 0, live := dn * cn }, { s with free := s.free + 1 })

/-! ## Which launch starts (R82, R176, R270) -/

/-- A queue with a launch to start. -/
structure Ready where
  num : Nat
  queue : LaunchQueue
  dwords : List Dword
  ssid : Option Nat

/-- The record of the next launch of a backlogged queue (R78, R81). -/
def State.readyRecord (s : State) (q : LaunchQueue) : Try (List Dword) :=
  if !s.queueReadable q then .error (.fatal 0x60 0 0)
  else if s.ringSize q < (q.widx + 2 ^ 32 - s.ridx q) % 2 ^ 32 then .error (.fatal 0x48 7 0)
  else
    match s.nextRecord q with
    | .ok (d, _) => .ok d
    | .error e => .error e

/-- The backlogged queues, with the first one whose record cannot be read as the rest. A queue with a fault before the
supervisor is backlogged; its record is not asked for again. -/
def State.readyQueues (s : State) : List Ready × Option (Nat × LaunchQueue × Stop) :=
  s.queues.foldl (fun (a : List Ready × Option (Nat × LaunchQueue × Stop)) e =>
    if !s.backlogged e.2 || !(s.ctx? e.2.ctx).isSome || (s.getCtx e.2.ctx).stopped then a
    else
      match s.readyRecord e.2 with
      | .ok d => (a.1 ++ [⟨e.1, e.2, d, s.queueStream e.2⟩], a.2)
      | .error .wait => a
      | .error x =>
        if e.2.faulted then a
        else (a.1, match a.2 with
          | none => some (e.1, e.2, x)
          | some y => some y)) ([], none)

/-- Conditions 1 and 2 of R82; a start that has faulted waits for the supervisor (R81). -/
def State.eligible (s : State) (r : Ready) : Bool :=
  !r.queue.faulted && (!barOf r.dwords || (s.launches.filter (fun l => l.queue == r.num)).all (fun l => l.released))

/-- Whether a stream queue's tenant has reached its cap (R271). -/
def State.atCap (s : State) (r : Ready) : Bool :=
  let t := s.tenantOf r.queue.ctx
  let cap := bits t.v0.toNat 32 32
  r.ssid.isSome && cap != 0 && cap ≤ t.usedb

/-- A queue that the scheduler may choose (R270, steps 1 and 2): a stream queue with a weight and a deficit above 0 (R160,
R176). -/
def State.choosable (s : State) (r : Ready) : Bool :=
  s.eligible r && s.mayRun r.queue.ctx && !s.atCap r && (match r.ssid with
    | some n => s.weight n != 0 && 0 < s.deficit n
    | none => true)

/-- The class and level of the next round (R176): an eligible stream queue stands there, and none whose deficit is above 0. -/
def State.roundDue (s : State) (back : List Ready) : Option (Nat × Nat) :=
  let st := back.filterMap (fun r => match r.ssid with
    | some n => if s.eligible r && s.weight n != 0 then some (clsOf r.dwords, lvlOf r.dwords, s.deficit n) else none
    | none => none)
  (st.find? (fun x => !st.any (fun y => y.1 == x.1 && y.2.1 == x.2.1 && 0 < y.2.2))).map (fun x => (x.1, x.2.1))

/-- Event 0x75, once a window, for the stream queues passed over at their cap. -/
def State.countPassed (s : State) (l : List Ready) : State :=
  l.foldl (fun s r =>
    let t := s.tenantOf r.queue.ctx
    if s.eligible r && s.mayRun r.queue.ctx && s.atCap r && !t.passed.contains r.num then
      (s.setTenant (s.getCtx r.queue.ctx).tenant { t with passed := r.num :: t.passed }).countEvent r.queue.ctx 0x75
    else s) s

/-- Scheduler memory of a class and level. -/
def State.turnstile (s : State) (cls lvl : Nat) : Turnstile :=
  (s.turnstiles.find? (fun t => t.cls == cls && t.lvl == lvl)).getD { cls := cls, lvl := lvl }
def State.setTurnstile (s : State) (t : Turnstile) : State :=
  { s with turnstiles := t :: s.turnstiles.filter (fun u => !(u.cls == t.cls && u.lvl == t.lvl)) }

/-- The stream queue of a group with the greatest deficit, which is above 0; ties to the lowest number. -/
def State.bestStream (s : State) (l : List Ready) : Option Ready :=
  l.foldl (fun (b : Option Ready) r =>
    let v := s.deficit (r.ssid.getD 0)
    if v ≤ 0 then b
    else
      match b with
      | none => some r
      | some x =>
        let y := s.deficit (x.ssid.getD 0)
        if y < v || (y == v && r.num < x.num) then some r else b) none

/-- The next queue of a group in round-robin by number after the last one served. -/
def nextRobin (l : List Ready) (last : Nat) : Option Ready :=
  let lowest (q : List Ready) : Option Ready := q.foldl (fun b r => match b with
    | none => some r
    | some x => if r.num < x.num then some r else some x) none
  match lowest (l.filter (fun r => last < r.num)) with
  | some r => some r
  | none => lowest l

/-- A round of R176 for a class and level: every backlogged stream queue of it gets its share. -/
def State.beginRound (s : State) (back : List Ready) (cls lvl : Nat) : State :=
  let s := (back.filter (fun r => clsOf r.dwords == cls && lvlOf r.dwords == lvl)).foldl (fun s r =>
    match r.ssid with
    | some n => s.setDeficit n (s.deficit n + 16384 * s.weight n)
    | none => s) s
  s.setTurnstile { s.turnstile cls lvl with stream := true }

/-- The choice among the backlogged queues (R270): the queue, and the scheduler's memory after its start. -/
def State.chooseStart (s : State) (back : List Ready) : Option (Ready × Turnstile) :=
  let ok := back.filter s.choosable
  let cls := ok.foldl (fun c r => max c (clsOf r.dwords)) 0
  let ok := ok.filter (fun r => clsOf r.dwords == cls)
  let lvl := ok.foldl (fun c r => max c (lvlOf r.dwords)) 0
  let group := ok.filter (fun r => lvlOf r.dwords == lvl)
  let streams := group.filter (fun r => r.ssid.isSome)
  let plain := group.filter (fun r => r.ssid.isNone)
  let t := s.turnstile cls lvl
  let turn := if streams.isEmpty || plain.isEmpty then t else { t with stream := !t.stream }
  match s.bestStream streams with
  | some r =>
    if plain.isEmpty || t.stream then some (r, turn)
    else (nextRobin plain t.last).map (fun p => (p, { turn with last := p.num }))
  | none => (nextRobin plain t.last).map (fun p => (p, { turn with last := p.num }))

/-- A record of the launch sequencer (R243). -/
def launchRecord (q qn tag lid cause : Nat) (f : Option TFault) (reason time : Nat) : TrapRec :=
  mkRecord { ctx := q, unit := 0, die := 0, tile := 0, cause := cause, reason := reason, prec := f.isSome, fault := f, tag := tag,
             queue := qn, lid := lid } time

/-- A start stops: a fatal cause ends the context, a translation fault waits for the supervisor (R81, R249). -/
def State.launchStop (s : State) (qn : Nat) (q : LaunchQueue) (tag : Nat) : Stop → State
  | .wait => s
  | .done t => t
  | .fatal c r _ => s.fatal q.ctx (launchRecord q.ctx qn tag 0 c none r s.time)
  | .ats ctx va => s.askAts ctx va
  | .tracked g n e => State.launchStop (s.track g n) qn q tag e
  | .tfault f =>
    let r := launchRecord q.ctx qn tag 0 f.cause (some f) 0 s.time
    { s with queues := Map.change s.queues qn (fun q => { q with faulted := true }) }.stallTranslation
      { tp := 0, record := r, ctx := q.ctx, cause := f.cause, space := f.space, va := f.va, queue := some qn, acck := f.acck }

/-- The write of a 32-bit index of a descriptor. -/
def State.setIndex (s : State) (q : LaunchQueue) (off v : Nat) : State := s.writeDevice (q.desc + off) (leBytes 4 (v % 2 ^ 32))

/-- A launch starts (R82 to R84, R161, R176). -/
def State.startLaunch (s : State) (r : Ready) (t : Turnstile) : State :=
  let resolved : Try (Launch × State) := match s.nextRecord r.queue with
    | .error e => .error e
    | .ok (_, s) => s.resolveLaunch r.num r.queue r.dwords
  match resolved with
  | .error e => s.launchStop r.num r.queue (fieldOf r.dwords 0 16 16) e
  | .ok (l, s) =>
    let s := s.drain (fun w => w.ctx == l.ctx)
    let l := { l with strm := match r.ssid with
      | none => none
      | some n => some (n, match Map.find s.streams n with
        | some st => Memory.read s.mem (st.record + 24) 4
        | none => 0) }
    let s := match r.ssid with
      | some n => s.setDeficit n (s.deficit n - 16384)
      | none => s
    let s : State := { s.setTurnstile t with launches := s.launches ++ [l] }
    (s.setIndex r.queue 24 (l.index + 1)).ringQueue r.num

/-- LAUNCH_START: the fair scheduler starts the next launch (R82). A round of R176 is a step of its own, and so is the fall of
the deficits of idle queues (R462). -/
def execLaunchStart (s : State) : Host.Outcome State Fault Refusal :=
  if !s.powered then .next s
  else
    let s := s.queues.foldl (fun s e => s.cutIdle e.1) s
    match s.readyQueues with
    | (_, some (n, q, e)) => .next (s.launchStop n q 0 e)
    | (back, none) =>
      let s := s.countPassed back
      match s.roundDue back with
      | some (c, l) => .next (s.beginRound back c l)
      | none =>
        match s.chooseStart back with
        | none => .next s
        | some (r, t) => .next (s.startLaunch r t)

/-! ## Dealing (R88, R89) -/

/-- The next ITER of a launch on a die, from its counter (R88). -/
def Launch.nextOn (l : Launch) (die : Nat) : Option Nat :=
  let n := if die = 0 then l.next0 else l.next1
  let it :=
    if !l.hasD then (if l.home = die then some n else none)
    else if l.nd = 1 then (if die = 0 then some n else none)
    else if n / max 1 l.cn % 2 = die then some n
    else some ((n / max 1 l.cn + 1) * l.cn)
  match it with
  | some i => if i < l.dn * l.cn then some i else none
  | none => none

/-- The pawn of an iteration (R80, R90). -/
def Launch.pawn (l : Launch) (iter : Nat) : Pawn :=
  let cls := clsOf l.dwords
  { p0 := BitVec.ofNat 64 ((l.dwords.getD 2 0).toNat / 64 * 64 + cls * 32), p1 := l.dwords.getD 3 0, p2 := 0
    p3 := BitVec.ofNat 64 (iter % 2 ^ 32 * 2 ^ 32 + l.lid % 65536) }

/-- The TP that a die's dealer serves next for a context and class: fewer than 4 entries in its pile. -/
def State.dealTo (s : State) (die cls ctx : Nat) : Option Nat :=
  (s.walkOrder die cls ctx).find? (fun n =>
    let p := (s.getTp n).pile cls
    s.inService n && p.chip.length + p.spill.length < 4)

/-- The launches with a pawn to deal on a die and a TP to take it. -/
def State.dealable (s : State) (die : Nat) : List (Launch × Nat × Nat) :=
  s.launches.filterMap (fun l =>
    match l.nextOn die, s.dealTo die (clsOf l.dwords) l.ctx with
    | some i, some n => some (l, i, n)
    | _, _ => none)

/-- DEAL: a die's dealer gives one pawn (R89), which a serial pawn of its launch holds (R102). Launches of a context and class
have no order among themselves. -/
def execDeal (die : BitVec 1) (s : State) : Host.Outcome State Fault Refusal :=
  let l := s.dealable die.toNat
  match l[s.turn.pick % max 1 l.length]? with
  | none => .next s
  | some (l, i, n) =>
    let cls := clsOf l.dwords
    let s := s.changeLaunch l.lid (fun l => if die = 0 then { l with next0 := i + 1 } else { l with next1 := i + 1 })
    let s := { s with dealt := Map.put s.dealt ((die.toNat * 2 + cls) * 256 + l.ctx) n }
    let e : Entry := { pawn := l.pawn i, ctx := l.ctx, bridged := true }
    .next (s.letIn n e (fun s => s.pushOn n e))

/-! ## The start of a task (R92, R95, R109) -/

/-- The task of a pawn. -/
def State.taskFrom (s : State) (e : Entry) (h : List Dword) : Task :=
  let b := s.bindingOf e
  { id := s.nextTask, ctx := e.ctx, entry := e, hdr := h, lid := e.pawn.lid, queue := b.queue, tag := b.tag, titb := b.titb
    tcounts := b.tcounts, strm := b.strm }

/-- Integer registers at the start of a task (R92). -/
def startX (k : Task) (r : Nat) : Dword :=
  if r = 10 then k.entry.pawn.p1
  else if r = 11 then BitVec.ofNat 64 k.entry.pawn.iter
  else if r = 12 then BitVec.ofNat 64 k.entry.pawn.jrec
  else if r = 13 then BitVec.ofNat 64 (k.entry.pawn.lid + k.entry.pawn.cls * 65536)
  else if 16 ≤ r then k.counts r
  else 0

/-- The AC of a task that starts (R92, R109, R128, R209, R221, R254). -/
def Ac.start (a : Ac) (k : Task) (svc : Dword) : Ac :=
  { a with
    x := Sparse.ofFn 32 (fun r => if r < 24 then startX k r else 0), pc := k.hdr.getD 0 0, sup := false, stvec := svc
    handles := [], resv := none, lc := a.lc + 4096, pend := 0
    phase := if 2 ≤ k.entry.aborts then .direct else .replay
    rows := [], cbuf := [], cbufAt := [], readSet := [], heldSpawns := [], heldBaris := [], bufPages := [], doomed := false, decls := []
    heldScalar := none, heldTile := none, tokpLeft := 0, mark := none, status := .running, svcReq := false }

/-- The streams of a task that have code. -/
def lateOf (k : Task) : List (Nat × Nat) :=
  (if k.hdr.getD 1 0 = 0 then [] else [(2, k.id)]) ++ (if k.hdr.getD 2 0 = 0 then [] else [(3, k.id)])

/-- The HE still has commands of an earlier task to execute when a task starts (R109): its slots serve those first. -/
def heOf (t : Tp) (k : Task) : List (Nat × Nat) := if t.he.earlierWork k.id then [(6, k.id)] else []

/-- Whose a byte of the banks is when a task of another context comes (R58, note 81): what has changed since the last one
came is its context's, unless work of several went on. -/
def Tp.ownersNow (t : Tp) : List (Nat × Nat) :=
  t.banks.filterMap (fun e =>
    if Sparse.get t.bankEra e.1 = e.2 then t.bankOwner.find? (fun o => o.1 == e.1)
    else if t.bankMixed then none
    else t.lastCtx.map (fun c => (e.1, c)))

/-- The TP's account of who placed the bytes of its banks, as a task of a context comes (R58, note 81). -/
def Tp.bankComer (t : Tp) (ctx : Nat) : Tp :=
  let others : Bool := (t.reap.tasks ++ t.ce.blockTasks ++ t.ie.blockTasks ++ t.he.blockTasks).any (fun k => k.ctx != ctx)
  if t.lastCtx = some ctx then { t with bankMixed := t.bankMixed || others }
  else { t with lastCtx := some ctx, bankOwner := t.ownersNow, bankEra := t.banks, bankMixed := others }

/-- The tracking bits that an access set before it stopped stay set (R229). -/
def State.trackAll (s : State) : Stop → State
  | .tracked f n e => State.trackAll (s.track f n) e
  | .wait => s
  | .done _ => s
  | .fatal _ _ _ => s
  | .tfault _ => s
  | .ats _ _ => s

/-- One line of a frame is loaded into the cache, unless it stands there with a lease. -/
def State.prefetchLine (s : State) (ctx : Nat) (p : Piece) : State :=
  let l := lineOf p.place
  let clock := s.tp.ac.lc + 1
  if p.zero || s.unreadable (l * 128) 128 || s.tp.cache.any (fun c => c.line == l && clock ≤ c.rts) then s
  else
    match s.sendNonPosted ctx (l * 128) p.space with
    | .error _ => s
    | .ok s =>
      let r := s.leaseLine clock l (s.view s.cur 1)
      let s := r.2.2.keepLine ctx r.2.1
      s.setAc { s.tp.ac with lc := r.1 }

/-- The lines of a task's frame that its header names are loaded into the cache (R91, R198). A line whose address has no readable
translation is passed over, the others are loaded (note 82). -/
def State.prefetch (s : State) (k : Task) : State :=
  let n := fieldOf k.hdr 4 32 16
  let va := k.entry.pawn.frame
  (List.range (if n = 0 then 0 else (va + n - 1) / 128 - va / 128 + 1)).foldl (fun s i =>
    let lo := max va ((va / 128 + i) * 128)
    let hi := min (va + n) ((va / 128 + i + 1) * 128)
    match s.pieces true k.ctx 0 1 2 (lo % 2 ^ 64) (hi - lo) with
    | .error e => s.trackAll e
    | .ok (ps, s) => ps.foldl (fun s p => s.prefetchLine k.ctx p) s) s

/-- What has become visible to the task that starts (R221, R222): a dealt pawn and a continuation that JOINs release see every
path at device scope; one that a watch releases, the location it watched. -/
def State.startEdge (s : State) (e : Entry) : State :=
  let s := if e.bridged then s.bridge 5 else s
  match e.watched with
  | none => s
  | some p => { s with tp := s.tp.dropStale (fun x => x.unit == p / 8) }

/-- A task starts on the TP in focus (R109): a new BRR value is a role change. The projection slots are invalid (R179), the
accumulators, strides and tables of the BE are 0 (R37, R140, R142); a unit with earlier work left has them so after it. Its
code reads as it stands now (R108), and the edges to its start reach it (R221, R222). -/
def State.beginTask (s : State) (k : Task) : State :=
  let s := s.startEdge k.entry
  let t := { s.tp.bankComer k.ctx with bankStale := [] }
  let k := { k with code := some s.mem }
  let brr := k.hdr.getD 3 0
  let s := { s with
    nextTask := s.nextTask + 1
    tp := { t with
      ac := t.ac.start k (s.getCtx k.ctx).svc
      qdir := 0x88, queues := {}, tokens := [], svwm := 0xFFFFFFFFFF, svwmAt := 0xFFFFFFFFFF
      be := if t.be.idle then t.be.fresh else t.be
      slots := if t.he.earlierWork k.id then t.slots else []
      poison := t.poison.filter (fun q => q.1 != 3 && !(q.1 == 2 && t.be.idle))
      tasks := t.tasks ++ [k], cur := k.id, tokTask := k.id, late := t.late ++ lateOf k ++ heOf t k
      role := if brr = t.brr then none else some { brr := brr, start := true }
      preempt := none, holdAt := s.time, stopNow := [], ran := k.ctx :: t.ran.filter (fun c => c != k.ctx) } }
  if s.tp.role.isNone then s.prefetch k else s

/-- The record of a task that cannot start. -/
def State.startRecord (s : State) (e : Entry) (cause : Nat) : RecordOf :=
  { RecordOf.ofTask (s.taskFrom e []) s.cur 1 cause with cidx := 0 }

/-- The header of a pawn cannot be read (R248): the pawn is held with the record. -/
def State.startStop (s : State) (e : Entry) : Stop → State
  | .wait => s
  | .done t => t
  | .fatal c r _ => s.fatal e.ctx (mkRecord { s.startRecord e c with reason := r } s.time)
  | .ats ctx va => s.askAts ctx va
  | .tracked g n x => State.startStop (s.track g n) e x
  | .tfault f =>
    let fr : FaultRec := { tp := s.cur, ctx := e.ctx, cause := f.cause, space := f.space, va := f.va, unit := 1, pawn := some e
                           record := mkRecord { s.startRecord e f.cause with prec := true, fault := some f } s.time }
    (s.countEvent e.ctx 0x77).stallTranslation fr

/-- TASK_START: an idle TP takes its next pawn and starts its task (R95, R109). -/
def execTaskStart (s : State) : Host.Outcome State Fault Refusal :=
  if s.hasTask || !s.inService s.cur then .next s
  else
    match (match s.takeClass 1 with
      | some x => some x
      | none => s.takeClass 0) with
    | none => .next s
    | some (e, t) =>
      match t.pieces true e.ctx 0 1 65 e.pawn.taskh 64 with
      | .error .wait => .next s
      | .error x => .next (t.startStop e x)
      | .ok (ps, t) =>
        let p := ps.headD { place := 0, len := 0, zero := true }
        match (if p.zero then .ok (0, t) else t.deviceLoad e.ctx p.place 64) with
        | .error .wait => .next s
        | .error x => .next (t.startStop e x)
        | .ok (v, t) =>
          let h := dwordsOf 8 (leBytes 64 v)
          if !headerOk h then .next (t.startStop e (.fatal 0x49 0 0))
          else if badBrr (h.getD 3 0) then .next (t.startStop e (.fatal 0x45 0 0))
          else .next (t.beginTask (t.taskFrom e h))

/-! ## REGION_RELEASE, PARK_WAKE, PILE_BINDING -/

/-- REGION_RELEASE: the oldest held pawn of a die that waits for no earlier one any more is pushed (R102). -/
def execRegionRelease (die : BitVec 1) (s : State) : Host.Outcome State Fault Refusal :=
  let s := s.dropEnded die.toNat
  let free (r : Region) : Bool := r.die == die.toNat && r.held.isSome &&
    !s.regions.any (fun q => q.die == r.die && q.lid == r.lid && q.seq < r.seq && q.holdsBack r.serial r.decls)
  match s.regions.find? free with
  | none => .next s
  | some r =>
    let s := { s with regions := s.regions.map (fun q => if q.seq = r.seq then { q with held := none } else q) }
    match r.held with
    | some (e, n) => .next (s.pushPawn n e)
    | none => .next s

/-- PARK_WAKE: the continuation of a watch whose location has changed is pushed (R99), unless a serial pawn that stood when it
parked holds it (R102). -/
def execParkWake (k : Nat) (s : State) : Host.Outcome State Fault Refusal :=
  match s.watches[k]? with
  | none => .next s
  | some w => if w.fired then .next ({ s with watches := s.watches.eraseIdx k }.letInAt w.seq w.tp w.entry (fun s => s.pushPawn w.tp w.entry)) else .next s

/-- Whether the binding of a TP's pile may change (R272). -/
def Tp.mayBind (t : Tp) (cls ctx : Nat) : Bool :=
  let p := t.pile cls
  match p.ctx with
  | none => true
  | some old => old == ctx || (p.chip.isEmpty && p.spill.isEmpty &&
      !(t.cur != 0 && (t.taskOf t.cur).ctx == old && (t.taskOf t.cur).entry.pawn.cls == cls) &&
      !t.images.any (fun i => i.ctx == old && i.cls == cls))

/-- PILE_BINDING: the supervisor binds a pile; the dealers push the pawns held for it (R94, R272). -/
def execPileBinding (die : BitVec 1) (tile : BitVec 6) (cls : BitVec 1) (ctx : BitVec 8) (s : State) :
    Host.Outcome State Fault Refusal :=
  let n := 64 * die.toNat + tile.toNat
  let t := s.getTp n
  let live : Bool := (s.ctx? ctx.toNat).isSome && !(s.getCtx ctx.toNat).stopped
  if !live || !s.mod.tps.contains n || !t.mayBind cls.toNat ctx.toNat then .next (s.emit .refusedRequest)
  else
    let s := s.setTp n (t.setPile cls.toNat { t.pile cls.toNat with ctx := some ctx.toNat })
    let mine (e : Entry) : Bool := e.ctx == ctx.toNat && e.pawn.cls == cls.toNat
    let go := s.homeless.filter mine
    .next (go.foldl (fun s e => (s.place die.toNat e).getD s) { s with homeless := s.homeless.filter (fun e => !mine e) })

/-! ## Completion (R84, R176) -/

/-- Whether every pawn, task and command of a launch has ended. -/
def State.launchDone (s : State) (l : Launch) : Bool :=
  l.live == 0 && !s.liveTasks.any (fun k => k.lid == l.lid && k.entry.bind.isNone)

/-- The decrement of CJOIN and its continuation, which no launch waits for. -/
def State.completionJoin (s : State) (l : Launch) : Try State :=
  let va := (l.dwords.getD 5 0).toNat
  match s.devPlace l.ctx va 16 4 with
  | .error e => .error e
  | .ok (p, s) =>
    match s.deviceLoad l.ctx p.place 16 with
    | .error e => .error e
    | .ok (v, s) =>
      let count := bits v 0 32
      let cpawn := v / 2 ^ 64
      let dec (s : State) : State := s.writeDevice p.place (leBytes 4 (count - 1))
      if count = 0 then .error (.fatal 0x4B 0 0)
      else if count != 1 || cpawn = 0 then .ok (dec s)
      else
        match s.devRead l.ctx cpawn 32 with
        | .error e => .error e
        | .ok (b, s) =>
          let e : Entry := { pawn := (Pawn.ofBytes (leBytes 32 b)).continuation (clsOf l.dwords) l.lid, ctx := l.ctx, bridged := true
                             bind := some (s.bindingOf { pawn := { p3 := BitVec.ofNat 64 l.lid }, ctx := l.ctx }) }
          let s := dec s
          .ok (match s.place l.home e with
            | some s => s
            | none =>
              match s.place (1 - l.home) e with
              | some s => s
              | none => { s with homeless := s.homeless ++ [e] })

/-- The completion flag (R84): its place is known from now on, for a reader that acquires it (R222). -/
def State.completionFlag (s : State) (ctx flag : Nat) (v : Dword) : Try State :=
  match s.devPlace ctx flag 8 2 with
  | .error e => .error e
  | .ok (p, s) =>
    if !s.portOpen ctx p.place then .error .wait
    else
      let s := (s.writeDevice p.place (leBytes 8 v.toNat)).sendPosted ctx 0 p.place 8
      .ok { s with flags := p.place :: s.flags.filter (fun q => q != p.place) }

/-- The actions of a completion that may fault: CFLAG, then CJOIN; each is done once. -/
def State.completionWrites (s : State) (l : Launch) : Except (State × Stop) State :=
  let mark (s : State) (n : Nat) : State := s.changeLaunch l.lid (fun l => { l with done := n })
  let flag := (l.dwords.getD 6 0).toNat
  match (if l.done = 0 && flag != 0 then s.completionFlag l.ctx flag (l.dwords.getD 7 0) else .ok s) with
  | .error e => .error (s, e)
  | .ok s1 =>
    let s1 := mark s1 (max l.done 1)
    match (if l.done < 2 && l.dwords.getD 5 0 != 0 then s1.completionJoin l else .ok s1) with
    | .error e => .error (s1, e)
    | .ok s2 => .ok (mark s2 2)

/-- A completion action stops. -/
def State.completionStop (s : State) (l : Launch) : Stop → State
  | .wait => s
  | .done t => t
  | .fatal c r _ => s.fatal l.ctx (launchRecord l.ctx l.queue (fieldOf l.dwords 0 16 16) l.lid c none r s.time)
  | .ats ctx va => s.askAts ctx va
  | .tracked g n x => State.completionStop (s.track g n) l x
  | .tfault f =>
    let r := launchRecord l.ctx l.queue (fieldOf l.dwords 0 16 16) l.lid f.cause (some f) 0 s.time
    (s.changeLaunch l.lid (fun l => { l with faulted := true })).stallTranslation
      { tp := 0, record := r, ctx := l.ctx, cause := f.cause, space := f.space, va := f.va, queue := some l.queue, acck := f.acck }

/-- The end of a completion: the vector, CIDX, the deficit (R84, R176). -/
def State.finishLaunch (s : State) (l : Launch) : State :=
  let s := if fieldOf l.dwords 0 2 1 = 1 then s.raiseVector (s.getCtx l.ctx).tenant (fieldOf l.dwords 0 40 8) else s
  let s := { s with launches := s.launches.filter (fun k => k.lid != l.lid) }
  match Map.find s.queues l.queue with
  | none => s
  | some q =>
    let s := s.setIndex q 32 (Memory.read s.mem (q.desc + 32) 4 + 1)
    match l.strm with
    | none => s
    | some (n, _) => s.setDeficit n (s.deficit n + 16384)

/-- The words of the device that the end of a completion reads are readable: the descriptor and the stream's record (R266,
R297). -/
def State.endReadable (s : State) (l : Launch) : Try Unit :=
  match Map.find s.queues l.queue with
  | none => .ok ()
  | some q => need (s.queueReadable q) 0x60

/-- LAUNCH_COMPLETION: every write of the launch is performed, then its actions run in order (R84). -/
def execLaunchCompletion (lid : BitVec 16) (s : State) : Host.Outcome State Fault Refusal :=
  match s.launches.find? (fun l => l.lid == lid.toNat) with
  | none => .next s
  | some l =>
    if l.faulted || !s.launchDone l then .next s
    else
      let s := s.drain (fun w => w.lid == l.lid && w.ctx == l.ctx)
      match s.completionWrites l with
      | .error (t, e) => .next (t.completionStop l e)
      | .ok t =>
        match t.endReadable l with
        | .error e => .next (t.completionStop l e)
        | .ok () => .next (t.finishLaunch l)

end Sys2Proof.Machine
end

