-- ==== Sys2Proof/Machine/Preempt.lean ====
section
/-!
DEFINITION. Role changes (03 R57 to R60) and pre-emption: request, save and restore (05 R130, 09 R223, 11 R259 to R265).
-/
namespace Sys2Proof.Machine

/-! ## When the units stand at their boundaries -/

/-- Whether the oldest command in flight waits for room in a token FIFO: its accesses are all performed. -/
def State.flightStuck (s : State) (u : ChainUnit) : Bool :=
  match (s.eng u).infl with
  | f :: _ => !f.media && f.pushes != 0 && f.bar.isNone && f.status.isNone && f.task == s.tp.cur && s.tokens u.code f.target == 15
  | [] => false

/-- Whether an engine's active command holds at an access boundary, is stalled or is trapped, or there is none. -/
def State.activeHolds (s : State) (u : ChainUnit) : Bool :=
  let c := s.eng u
  !(c.av && c.aprg != 0) || s.tp.stopNow.contains u.code || s.isStalled u.code || c.state == 5

/-- Whether the commands in flight of an engine have completed, those of media engines apart (R57, R260). -/
def State.flightsDone (s : State) (u : ChainUnit) : Bool := (s.eng u).infl.all (fun f => f.media) || s.flightStuck u

/-- Whether a completion of an engine is stalled by a translation fault. -/
def State.completionStalled (s : State) (u : ChainUnit) : Bool :=
  s.faults.any (fun f => f.tp == s.cur && f.unit == u.code && f.completing)

/-- Whether the issued words of the EC and the BE have run to completion. A chain that has issued its first word runs to its
end, after the resolution of a fault that stalls it: the values between its words are in no image (R139, note 83). -/
def State.wordsDone (s : State) : Bool := s.tp.ec.spec.isEmpty && s.tp.be.chain.isNone

def allEngines : List ChainUnit := [.ce, .ie, .he]

/-! ## Role changes -/

/-- Step 2 of a role change is done (R57); the load of a task start waits for every issued command (R59). -/
def State.roleDrained (s : State) (start : Bool) : Bool :=
  s.wordsDone && allEngines.all (fun u =>
    s.flightsDone u && (if start then !((s.eng u).av && (s.eng u).aprg != 0) || (s.eng u).state == 5 else s.activeHolds u))

/-- Whether the role of the bank of an address changes. -/
def changesRole (old new : Dword) (a : Nat) : Bool := roleOf old (a / 0x10000) != roleOf new (a / 0x10000)

/-- Whether the running task's context placed a byte of the banks on this TP (R58, note 81). -/
def Tp.placedBy (t : Tp) (ctx : Nat) (a : Nat) : Bool :=
  if Sparse.get t.bankEra a = Sparse.get t.banks a then t.bankOwner.contains (a, ctx) else !t.bankMixed && t.lastCtx == some ctx

/-- Lines leave the cache, the dirty ones with the charge of a write-back (R57, R60, R278). -/
def State.evictAll (s : State) (f : CLine → Bool) : State := (s.tp.cache.filter f).foldl State.evict s

/-- The new roles take effect (R57, steps 3 and 4): the lines of a bank that leaves cache role are written back and gone; a
bank whose role changes reads as zero or as what the context had put there, byte by byte (R58). -/
def State.takeRoles (s : State) (brr : Dword) : State :=
  let leaves (c : CLine) : Bool := match c.bank with
    | some b => roleOf brr b != 0
    | none => false
  let s := s.evictAll leaves
  let t := s.tp
  let ctx := s.task.ctx
  let stays (a : Nat) : Bool := !changesRole t.brr brr a
  let kept := t.banks.zipIdx.filter (fun e => stays e.1.1 || (t.placedBy ctx e.1.1 && Config.bankKept (s.free + e.2)))
  { s with
    free := s.free + t.banks.length
    tp := { t with
      banks := kept.map (fun e => e.1)
      bankEra := t.bankEra.filter (fun e => stays e.1)
      bankOwner := t.bankOwner.filter (fun o => stays o.1)
      poison := t.poison.filter (fun q => !(q.1 == 0 && !stays q.2))
      brr := brr, bankStale := [], role := none, stopNow := [], holdAt := s.time } }

/-- ROLE_CHANGE_COMPLETE (R57, steps 2 to 4); after that of a task's start its frame is prefetched (R91). -/
def execRoleChangeComplete (s : State) : Host.Outcome State Fault Refusal :=
  match s.tp.role with
  | none => .next s
  | some r =>
    if s.roleDrained r.start then
      let s := s.takeRoles r.brr
      .next (if r.start then s.prefetch s.task else s)
    else .next s

/-! ## Pre-emption -/

/-- The event of a request (R259). -/
def whyEvent : PreemptWhy → Nat
  | .frame => 0x71
  | .quota => 0x72
  | .supervisor => 0x76

/-- PREEMPTION_REQUEST (R259, R265): a second request has no further effect. -/
def execPreemptionRequest (why : PreemptWhy) (s : State) : Host.Outcome State Fault Refusal :=
  if !s.hasTask || s.tp.preempt.isSome then .next s
  else .next ({ s with tp := s.tp.request s.time why }.countEvent s.task.ctx (whyEvent why))

/-- Whether a context is pre-empted by replay (R262, R273). -/
def State.byReplay (s : State) (ctx : Nat) : Bool := bitAt (s.getCtx ctx).e0.toNat 20

/-- Whether every unit of the TP can be saved (R260). -/
def State.saveReady (s : State) : Bool :=
  s.wordsDone && allEngines.all (fun u => s.activeHolds u && (s.flightsDone u || s.completionStalled u))

/-- The task that an image is saved for: the running one, or else one that the streams, chains or blocks left on the TP work for
(R110, R275). -/
def State.saveTask (s : State) : Option Task :=
  if s.hasTask then some s.task
  else (s.tp.reap.tasks ++ s.tp.ce.blockTasks ++ s.tp.ie.blockTasks ++ s.tp.he.blockTasks).head?

/-- The save image for a task (R263). The TIT copies are read again after the restore (R72). -/
def State.imageNow (s : State) (k : Task) : Image :=
  let t := s.tp.reap
  { ctx := k.ctx, cls := k.entry.pawn.cls, ac := { t.ac with resv := none }, ec := t.ec, be := t.be, ce := t.ce, ie := t.ie
    he := t.he, slots := t.slots, queues := t.queues, tokens := t.tokens
    banks := t.banks.filter (fun e => t.usable e.1 1), brr := t.brr, qdir := t.qdir, svwm := t.svwm, svwmAt := t.svwmAt
    late := t.late, tasks := t.tasks.map (fun k => { k with tit := [] }), cur := t.cur, tokTask := t.tokTask
    poison := t.poison.filter (fun q => q.1 != 0 || t.usable q.2 1), bankEra := t.bankEra, bankOwner := t.bankOwner
    bankMixed := t.bankMixed }

/-- The TP after its task has been saved: its units hold nothing. -/
def Tp.vacate (t : Tp) (i : Image) : Tp :=
  let t := (t.stopE.stopB).stopStreams
  { t with ce := {}, ie := {}, he := {}, slots := [], queues := {}, tokens := [], late := [], tasks := [], bankStale := []
           images := i :: t.images, poison := t.poison.filter (fun q => q.1 != 3) }

/-- The task is saved (R261): its writes are performed, the cache is written back (R60), its image is written, the context is
reported saved. -/
def State.save (s : State) (k : Task) : State :=
  let s := (s.drain (fun w => w.tp == s.cur && w.agent < 8)).evictAll (fun _ => true)
  let i := s.imageNow k
  let s := { s with
    faults := s.faults.filter (fun f => !(f.tp == s.cur && f.pawn.isNone && 1 ≤ f.unit && f.unit ≤ 6))
    tp := s.tp.vacate i }
  s.emit (.saved s.cur k.ctx)

/-- CONTEXT_SAVED (R223, R260 to R262): a task in its replayable phase commits first, or is replayed. -/
def execContextSaved (s : State) : Host.Outcome State Fault Refusal :=
  if s.tp.preempt.isNone || s.tp.role.isSome then .next s
  else
    match s.saveTask with
    | none => .next { s with tp := { s.tp with preempt := none } }
    | some k =>
      if s.hasTask && s.tp.ac.phase = .replay then
        if s.byReplay k.ctx then .next s.abortReplay
        else
          match s.commit with
          | .ok s => .next s
          | .error e => .next (s.stopUnit 1 none e)
      else if s.saveReady then .next (s.save k)
      else .next s

/-! ## Restore -/

/-- Whether no unit of the TP has work left. -/
def Tp.vacant (t : Tp) : Bool :=
  let free (c : Chain) : Bool := !c.hasWork && c.infl.isEmpty
  t.cur == 0 && t.late.isEmpty && t.ec.idle && t.be.idle && free t.ce && free t.ie && free t.he

/-- A handle after a restore (R235). -/
def Handle.restored (h : Handle) : Handle :=
  match h.st with
  | .valid => { h with st := .pending }
  | _ => h

/-- The TP with an image restored (R223, R263, R264): its cache is empty (R60), and its BE's filler goes on to be charged to the
context that last issued a word there (R280). -/
def Tp.restore (t : Tp) (i : Image) (now : Nat) : Tp :=
  { t with
    ac := { i.ac with lc := t.ac.lc + 4096, handles := i.ac.handles.map (fun e => (e.1, e.2.restored)) }
    ec := i.ec, be := { i.be with lastCtx := t.be.lastCtx }, ce := i.ce, ie := i.ie, he := i.he, slots := i.slots, queues := i.queues, tokens := i.tokens
    banks := i.banks, brr := i.brr, qdir := i.qdir, svwm := i.svwm, svwmAt := i.svwmAt, late := i.late, tasks := i.tasks
    cur := i.cur, tokTask := i.tokTask, ran := i.ctx :: t.ran.filter (fun c => c != i.ctx), images := t.images.erase i, role := none, preempt := none, holdAt := now, stopNow := []
    poison := i.poison, cache := [], lastCtx := some i.ctx, bankEra := i.bankEra, bankOwner := i.bankOwner, bankMixed := i.bankMixed }

/-- RESTORE (R264): the lines that the cache still holds leave it, the dirty ones with their write-back (R60, R278). -/
def execRestore (s : State) : Host.Outcome State Fault Refusal :=
  match s.imageNext with
  | none => .next s
  | some i => if s.tp.vacant && s.inService s.cur then 
      let s := s.evictAll (fun _ => true)
      .next { s with tp := s.tp.restore i s.time }
    else .next s

end Sys2Proof.Machine
end

