-- ==== Sys2Proof/Machine/Translate.lean ====
section
/-!
DEFINITION. Translation beyond the accesses themselves (10 R230, R231, R235 to R241, 11 R248, R249, 13 R286): walks for
handles, ATS completions and invalidations, PRI responses, the resolution of faults, completions of other requests.
-/
namespace Sys2Proof.Machine

/-- A record of a port or of the device that no unit of a TP raises. -/
def portRecord (ctx cause reason time : Nat) : TrapRec :=
  mkRecord { ctx := ctx, unit := 0, die := 0, tile := 0, cause := cause, reason := reason } time

/-- Whether translation messages cross the host port: the device takes requests (R296), and the stream that they use is secure
(R288). -/
def State.hostTalks (s : State) : Bool :=
  s.powered && !s.mod.host.insecure.contains 0

/-! ## Walks -/

/-- A pending handle takes a translation. -/
def State.handleValid (s : State) (hn : BitVec 4) (h : Handle) (p : Page) : State :=
  let s := s.setHandle hn { h with st := .valid, page := p }
  { s with tp := s.tp.tlbAdd (s.tp.acCtx.getD 0) h.space p }

/-- The walk or the ATS lookup of a pending handle (R230, R235, R237). -/
def State.walkHandle (s : State) (hn : BitVec 4) : State :=
  let h := s.getHandle hn
  let ctx := s.tp.acCtx.getD 0
  let pasid := (s.getCtx ctx).pasid
  let fatal (s : State) (cause reason : Nat) : State :=
    if s.hasTask then s.takeFatal 1 cause reason 0 else s.fatal ctx (portRecord ctx cause reason s.time)
  if h.st != .pending || s.tp.acCtx.isNone then s
  else if h.space = 0 then
    match walk s ctx h.va with
    | (.page p, t) => t.handleValid hn h p
    | (.fault c, t) => t.setHandle hn { h with st := .faulted c }
    | (.config r, _) => fatal s 0x64 r
    | (.again, _) => s
    | (.poisoned, _) => fatal s 0x60 0
  else if h.space = 1 then
    match s.atcFind pasid h.va with
    | some p => if p.r || p.w then s.handleValid hn h p else s.setHandle hn { h with st := .faulted 0x09 }
    | none => if s.atcFailed pasid h.va then s.setHandle hn { h with st := .faulted 0x0D } else s.askAts ctx h.va
  else
    match peerPage (s.getCtx ctx) h.space h.va with
    | some p => s.setHandle hn { h with st := .valid, page := p }
    | none => s.setHandle hn { h with st := .faulted (if h.space < 18 then 0x08 else 0x07) }

/-- WALK_COMPLETE (R230, R235). -/
def execWalkComplete (hn : BitVec 4) (s : State) : Host.Outcome State Fault Refusal := .next (s.walkHandle hn)

/-- WALK_RETRY (R231): the entry with M = 1 is read again; the handle stays pending while M is 1. -/
def execWalkRetry (hn : BitVec 4) (s : State) : Host.Outcome State Fault Refusal := .next (s.walkHandle hn)

/-! ## ATS (R237, R238) -/

/-- The contexts of a PASID. -/
def State.ctxsOf (s : State) (pasid : Nat) : List Nat := (s.ctxs.filter (fun e => e.2.pasid == pasid)).map (fun e => e.1)

/-- The outstanding translation request of a PASID for an address, the context that made it, and its void completions to come. -/
def State.atsOut (s : State) (pasid va : Nat) : Option (Nat × Nat × Nat) :=
  s.requests.findSome? (fun e => match e.2 with
    | .ats p v c stale => if p == pasid && v == va / 4096 * 4096 then some (e.1, c, stale) else none
    | _ => none)

/-- Enter a completion in the ATC, which holds 4,096 entries; the oldest ones leave it. -/
def State.atcAdd (s : State) (e : AtcEntry) : State :=
  { s with atc := (e :: s.atc.filter (fun x => !(x.pasid == e.pasid && x.page.va < e.page.va + e.page.size &&
      e.page.va < x.page.va + x.page.size))).take 4096 }

/-- Whether the needs of an access, as ACCK codes them, are met by the permissions r and w: an atomic needs both (R232). -/
def meets (acck : Nat) (r w : Bool) : Bool :=
  (!(bitAt acck 0 || bitAt acck 2) || r) && (!(bitAt acck 1 || bitAt acck 2) || w)

/-- ATS_COMPLETION (R235, R237), on a secure stream (R288): `size` bytes from the request's page down to a multiple of it, at bus address `bus`. -/
def execAtsCompletion (pasid : BitVec 20) (va : Dword) (st : AtsStatus) (size bus : Nat) (r w : Bool) (s : State) :
    Host.Outcome State Fault Refusal :=
  match (if s.hostTalks then s.atsOut pasid.toNat va.toNat else none) with
  | none => .next s
  | some (key, c, stale + 1) =>
    .next { s with requests := Map.put s.requests key (.ats pasid.toNat (va.toNat / 4096 * 4096) c stale) }
  | some (key, _, 0) =>
    let n := max size 4096
    let ok : Bool := st == .success
    let page : Page := { va := va.toNat / n * n, size := n, place := hostBase + bus, r := ok && r, w := ok && w }
    let s := { s with requests := Map.del s.requests key }.atcAdd ⟨pasid.toNat, page, !ok⟩
    let cs := s.ctxsOf pasid.toNat
    let s := { s with denied := s.denied.filter (fun d => !(cs.contains d.ctx && page.holds d.page && ok && meets d.acck r w)) }
    .next (s.mapTps (fun _ t =>
      if !t.acCtx.any cs.contains then t
      else
        { t with ac := { t.ac with handles := t.ac.handles.map (fun e =>
            if e.2.st = .pending && e.2.space = 1 && page.holds e.2.va then
              (e.1, if !ok then { e.2 with st := .faulted 0x0D }
                else if r || w then { e.2 with st := .valid, page := page } else { e.2 with st := .faulted 0x09 })
            else e) } }))

/-- Whether a page and a range of host addresses, both ends in it, meet. -/
def Page.inRange (p : Page) (lo hi : Nat) : Bool := p.va ≤ hi && lo < p.va + p.size

/-- Step 1 of R238 on a TP: its TLB entries and handles; a store buffered through such a page is never performed (note 73). -/
def Tp.invalidate (t : Tp) (cs : List Nat) (lo hi : Nat) : Tp :=
  let mine : Bool := t.acCtx.any cs.contains
  let hit (h : Handle) : Bool := mine && h.space == 1 && (match h.st with
    | .valid => h.page.inRange lo hi
    | .pending => lo ≤ h.va && h.va ≤ hi
    | _ => false)
  { t with
    tlb := t.tlb.filter (fun e => !(cs.contains e.ctx && e.space == 1 && e.page.inRange lo hi))
    ac := { t.ac with
      handles := t.ac.handles.map (fun e => if hit e.2 then (e.1, e.2.revoke) else e)
      doomed := t.ac.doomed || (mine && t.ac.bufPages.any (fun b => b.1 == 1 && b.2.inRange lo hi)) } }

/-- ATS_INVALIDATION_REQUEST (R238, step 1): outstanding requests of the range are sent again, their completions are void. The
device takes requests in states 3 to 5 (R296), on a secure stream (R288), and 32 at a time (R285, note 101). -/
def execAtsInvalidationRequest (pasid : BitVec 20) (lo hi : Dword) (s : State) : Host.Outcome State Fault Refusal :=
  let p := pasid.toNat
  let cs := s.ctxsOf p
  let again := s.requests.filterMap (fun e => match e.2 with
    | .ats q v _ _ => if q == p && lo.toNat < v + 4096 && v ≤ hi.toNat then some v else none
    | _ => none)
  if !s.hostTalks || 32 ≤ s.invalidations.length then .next s
  else
    let s := { s with
      atc := s.atc.filter (fun e => !(e.pasid == p && e.page.inRange lo.toNat hi.toNat))
      requests := s.requests.map (fun (e : Nat × Request) => match e.2 with
        | .ats q v c n => if q == p && again.contains v then (e.1, Request.ats q v c (n + 1)) else e
        | _ => e)
      invalidations := s.invalidations ++ [(p, lo.toNat, hi.toNat)] }
    let s := s.mapTps (fun _ t => t.invalidate cs lo.toNat hi.toNat)
    .next (again.foldl (fun s v => s.emit (.atsRequest p v)) s)

/-- INVALIDATION_COMPLETION (R238, steps 2 and 3): the reads of the PASID's contexts on the host port have completed, the
writes to the host are sent ahead. -/
def execInvalidationCompletion (s : State) : Host.Outcome State Fault Refusal :=
  match s.invalidations with
  | [] => .next s
  | (p, _, _) :: rest =>
    let cs := s.ctxsOf p
    let waits := s.requests.any (fun e => match e.2 with
      | .nonPosted .host c _ _ _ => cs.contains c
      | _ => false)
    if waits || !s.hostTalks then .next s
    else .next ({ s.drain (fun w => cs.contains w.ctx && inHost w.place) with invalidations := rest }.emit (.invalidationCompletion p))

/-! ## Faults and their resolution (R232, R239, R248, R249) -/

/-- The access of a resolved fault is made again: the pawn goes back to its pile, or the stalled unit goes on. The cost of the
resolution, which no rule gives, is charged to the context (R232, note 88). -/
def State.resumeFault (s : State) (fr : FaultRec) : State :=
  let cost := s.takeNat
  let s := { cost.2.charge fr.ctx cost.1 with faults := s.faults.erase fr }
  match fr.pawn with
  | some e => s.pushPawn fr.tp e
  | none =>
    let s := match fr.handle with
      | some n =>
        let t := s.getTp fr.tp
        s.setTp fr.tp { t with ac := { t.ac with handles := Map.change t.ac.handles n (fun h => { h with st := .pending }) } }
      | none => s
    let s := match fr.queue with
      | some q => { s with
          queues := Map.change s.queues q (fun lq => { lq with faulted := false })
          launches := s.launches.map (fun l => if l.queue = q then { l with faulted := false } else l) }
      | none => s
    match fr.media with
    | some e => { s with media := s.media.map (fun m => if m.eng = e then { m with stalled := false } else m) }
    | none => s

/-- The fault record that an event names, on the TP in focus. -/
def State.faultAt (s : State) (f : FaultAt) : Option FaultRec :=
  let unit (u : Nat) : Option FaultRec := s.faults.find? (fun r => r.tp == s.cur && r.unit == u && r.pawn.isNone && r.queue.isNone)
  match f with
  | .pawn k => (s.faults.filter (fun r => r.pawn.isSome))[k]?
  | .aStream => unit 1
  | .eStream => unit 2
  | .bStream => unit 3
  | .chain u => unit u.code
  | .handle n => s.faults.find? (fun r => r.tp == s.cur && r.unit == 1 && r.handle == some n.toNat)
  | .media e => s.faults.find? (fun r => r.media == some e)
  | .launch q => s.faults.find? (fun r => r.queue == some q)

/-- Causes that the supervisor resolves by itself (R232). -/
def resolvable (cause : Nat) : Bool := cause == 0x00 || cause == 0x01 || cause == 0x05 || cause == 0x0B

/-- FAULT_RESOLVED (R239, R248, R249): a cause without a resolution ends the context with that cause (R232); cause 0x09
waits for the PRI response. -/
def execFaultResolved (f : FaultAt) (resolved : Bool) (s : State) : Host.Outcome State Fault Refusal :=
  match s.faultAt f with
  | none => .next s
  | some r =>
    if r.cause = 0x09 then .next s
    else if resolved && resolvable r.cause then .next (s.resumeFault r)
    else .next (s.fatal r.ctx r.record)

/-! ## PRI (R237, R241) -/

/-- What a page request asks for: the context, and the needs of its access (R237). -/
structure PriAsk where
  key : Nat
  ctx : Nat
  r : Bool
  w : Bool
deriving DecidableEq, Repr

/-- The oldest outstanding page request of a PASID for an address. -/
def State.priOut (s : State) (pasid va : Nat) : Option PriAsk :=
  s.requests.findSome? (fun e => match e.2 with
    | .pri p v c r w => if p == pasid && v == va / 4096 * 4096 then some ⟨e.1, c, r, w⟩ else none
    | _ => none)

/-- One more Success for a fault. -/
def State.countSuccess (s : State) (fr : FaultRec) : State :=
  let page := fr.va / 4096 * 4096
  let same (d : Denial) : Bool := d.ctx == fr.ctx && d.tp == fr.tp && d.unit == fr.unit && d.page == page && d.acck == fr.acck
  let n := match s.denied.find? same with
    | some d => d.count
    | none => 0
  { s with denied := ⟨fr.ctx, fr.tp, fr.unit, page, fr.acck, n + 1⟩ :: s.denied.filter (fun d => !same d) }

/-- The faults of cause 0x09 that a page request was sent for: of its context, with its needs. -/
def State.priFaults (s : State) (q : PriAsk) (va : Nat) : List FaultRec :=
  s.faults.filter (fun f => f.cause == 0x09 && f.ctx == q.ctx && f.va / 4096 == va / 4096 &&
    priNeeds f.acck == (q.r, q.w))

/-- PRI_RESPONSE (R237), on a secure stream (R288): Success makes the access again with a new translation request; any other code is cause 0x0A. -/
def execPriResponse (pasid : BitVec 20) (va : Dword) (code : PriCode) (s : State) : Host.Outcome State Fault Refusal :=
  match (if s.hostTalks then s.priOut pasid.toNat va.toNat else none) with
  | none => .next s
  | some q =>
    let s := { s with requests := Map.del s.requests q.key }
    let frs := s.priFaults q va.toNat
    match code with
    | .success =>
      let cs := s.ctxsOf pasid.toNat
      let lo := va.toNat / 4096 * 4096
      let s := { s with atc := s.atc.filter (fun e => !(e.pasid == pasid.toNat && e.page.inRange lo (lo + 4095))) }
      let s := s.mapTps (fun _ t => { t with tlb := t.tlb.filter (fun e =>
        !(cs.contains e.ctx && e.space == 1 && e.page.inRange lo (lo + 4095))) })
      .next (frs.foldl (fun s r => (s.countSuccess r).resumeFault r) s).askWaiting
    | _ => .next (frs.foldl (fun s r => s.fatal r.ctx (recause r.record 0x0A)) s).askWaiting

/-- PRI_TIMEOUT (R237, R241). -/
def execPriTimeout (pasid : BitVec 20) (va : Dword) (s : State) : Host.Outcome State Fault Refusal :=
  match s.priOut pasid.toNat va.toNat with
  | none => .next s
  | some q => .next ({ s with requests := Map.del s.requests q.key }.fatal q.ctx (portRecord q.ctx 0x65 0 s.time)).askWaiting

/-! ## Completions of other requests (R286) -/

/-- The outstanding non-posted request with a tag: its port, its context, and its IDE stream. Page requests are messages. -/
def State.requestOf (s : State) (tag : Nat) : Option (Port × Nat × Nat) :=
  match Map.find s.requests tag with
  | some (.nonPosted p c _ _ k) => some (p, c, k)
  | some (.ats _ _ c _) => some (.host, c, 0)
  | _ => none

/-- COMPLETION_TIMEOUT (R241, R286): of translation requests too. -/
def execCompletionTimeout (tag : Nat) (s : State) : Host.Outcome State Fault Refusal :=
  match s.requestOf tag with
  | none => .next s
  | some (p, ctx, _) =>
    let cause := match p with
      | .host => 0x66
      | .peer => 0x67
    .next ({ s with requests := Map.del s.requests tag }.fatal ctx (portRecord ctx cause 0 s.time))

/-- COMPLETION (R286) of a request that is not a translation request, on a secure stream (R288): an error status is cause 0x68,
reason 1; a poisoned one reason 2. -/
def execCompletion (tag : Nat) (st : CplStatus) (s : State) : Host.Outcome State Fault Refusal :=
  match Map.find s.requests tag with
  | some (.nonPosted p ctx _ _ k) =>
    if (match p with
      | .host => s.mod.host
      | .peer => s.mod.peer).insecure.contains k then .next s
    else
      let s := { s with requests := Map.del s.requests tag }
      match st with
      | .success => .next s
      | .unsupported | .abort => .next (s.fatal ctx (portRecord ctx 0x68 1 s.time))
      | .poisoned => .next (s.fatal ctx (portRecord ctx 0x68 2 s.time))
  | _ => .next s

end Sys2Proof.Machine
end

