-- ==== Sys2Proof/Machine/Bus.lean ====
section
/-!
DEFINITION. What the ports bring (09 R199, 12 R269, 13 R285 to R293, R296): inbound writes, reads and AtomicOps, configuration
requests, IDE failures, SPDM, function-level resets, MSI-X, link training.
-/
namespace Sys2Proof.Machine

/-- Whether the device takes memory requests: power states 3, 4 and 5 (R296). -/
def State.awake (s : State) : Bool := s.powered

/-- Whether requests come in through a port: its link is secure (R288), and its die works (R9, R15). -/
def State.takes (s : State) (port : Port) : Bool :=
  s.awake && (match port with
    | .host => !s.mod.host.insecure.contains 0
    | .peer => s.mod.pst == 4 && !(s.mod.peer.insecure.contains 0 && (!Config.peerSplit || s.mod.peer.insecure.contains 1)))

/-- The port that a window belongs to. -/
def portOf : InWindow → Port
  | .peerBar2 _ => .peer
  | _ => .host

/-! ## MSI-X (R269) -/

/-- A pending vector that is not masked sends its message. -/
def State.sendPending (s : State) (tenant v : Nat) : State :=
  let t := s.getTenant tenant
  if bitAt t.pba.toNat v && !t.masked v && !s.mod.host.insecure.contains 0 then
    (s.setTenant tenant { t with pba := BitVec.ofNat 64 (t.pba.toNat - 2 ^ v) }).raiseVector tenant v
  else s

/-- Every vector of a tenant. -/
def State.sendAllPending (s : State) (tenant : Nat) : State := (List.range 64).foldl (fun s v => s.sendPending tenant v) s

/-- MSIX_UNMASK (R269): a write of the host's, which the port takes in states 3 to 5 (R296). -/
def execMsixUnmask (tenant : BitVec 4) (v : BitVec 6) (s : State) : Host.Outcome State Fault Refusal :=
  let t := s.getTenant tenant.toNat
  let a := 16 * v.toNat + 12
  let w := Memory.read t.msix a 4
  if !s.takes .host then .next s
  else .next ((s.setTenant tenant.toNat { t with msix := Memory.write t.msix a 4 (w / 2 * 2) }).sendPending tenant.toNat v.toNat)

/-! ## Windows (R289, R291, R293) -/

/-- A memory BAR of a function: all are 64 bits wide (R289). -/
structure Bar where
  prefetchable : Bool
  size : Nat
deriving DecidableEq, Repr, Inhabited

/-- The least power of two that is not below a number. -/
def ceilPow2 (n : Nat) : Nat := if n ≤ 1 then 1 else 2 ^ ((n - 1).log2 + 1)

/-- BAR0 and BAR2 of a tenant's function (R289). -/
def Tenant.bars (t : Tenant) : Bar × Bar := (⟨false, 0x10000⟩, ⟨true, ceilPow2 (t.limit - t.base)⟩)

/-- The place in device memory of an offset of a memory window. -/
def State.windowPlace (s : State) (w : InWindow) (off n : Nat) : Option Nat :=
  let at_ (base size : Nat) : Option Nat := if off + n ≤ size && !s.offDie (base + off) n then some (base + off) else none
  match w with
  | .bar2 t =>
    let ten := s.getTenant t.toNat
    if off + n ≤ ten.bars.2.size then at_ ten.base (ten.limit - ten.base) else none
  | .peerBar2 k =>
    match Map.find s.mod.inbound k.toNat with
    | some (base, size) => at_ base size
    | none => none
  | _ => none

/-- DSTAT (R291). -/
def State.dstat (s : State) : Nat :=
  s.mod.pst.toNat + s.mod.ntp0.toNat * 2 ^ 8 + s.mod.ntp1.toNat * 2 ^ 16 + s.mod.hbmok.toNat * 2 ^ 24 + s.mod.ldeg.toNat * 2 ^ 25

/-- A byte of BAR0 of a tenant's function (R289, R290). -/
def Tenant.bar0 (t : Tenant) (a : Nat) : Byte :=
  if 0x1000 ≤ a && a < 0x1400 then Sparse.get t.msix (a - 0x1000)
  else if 0x2000 ≤ a && a < 0x2008 then byteOf t.pba.toNat (a - 0x2000)
  else if 0x3000 ≤ a && a < 0x4000 then Sparse.get t.mailbox (a - 0x3000)
  else 0

/-- A write to BAR0 of a tenant's function: byte by byte, but for the doorbell, which is written whole. -/
def State.writeBar0 (s : State) (tenant off : Nat) (data : List Byte) : State :=
  if off = 0 && data.length = 4 then s.doorbell tenant (leValue data)
  else
    let t := s.getTenant tenant
    let put (lo hi : Nat) (m : Memory) : Memory :=
      data.zipIdx.foldl (fun m e => if lo ≤ off + e.2 && off + e.2 < hi then Sparse.set m (off + e.2 - lo) e.1 else m) m
    let s := s.setTenant tenant { t with msix := put 0x1000 0x1400 t.msix, mailbox := put 0x3000 0x4000 t.mailbox }
    let s := if 0x1000 < off + data.length && off < 0x1400 then s.sendAllPending tenant else s
    if 0x3000 < off + data.length && off < 0x4000 then s.emit (.mailbox tenant) else s

/-- INBOUND_WRITE (R199, R289, R295): performed at the device home in order of arrival. -/
def execInboundWrite (w : InWindow) (off : Nat) (data : List Byte) (s : State) : Host.Outcome State Fault Refusal :=
  if !s.takes (portOf w) then .next s
  else
    match w with
    | .bar0 t => if off + data.length ≤ 0x10000 then .next (s.writeBar0 t.toNat off data) else .next (s.emit .unsupported)
    | .physBar0 => .next s
    | _ =>
      match s.windowPlace w off data.length with
      | some p => .next (s.writeInbound p data)
      | none => .next (s.emit .unsupported)

/-- INBOUND_READ (R289, R291): answered, or Unsupported Request; a poisoned word answers as poisoned (R266). -/
def execInboundRead (w : InWindow) (off len : Nat) (s : State) : Host.Outcome State Fault Refusal :=
  if !s.takes (portOf w) then .next s
  else
    match w with
    | .bar0 t => if 0x10000 < off + len then .next (s.emit .unsupported) else .next (s.emit (.completion ((List.range len).map (fun i => (s.getTenant t.toNat).bar0 (off + i)))))
    | .physBar0 => .next (s.emit (.completion ((List.range len).map (fun i => if off + i < 8 then byteOf s.dstat (off + i) else 0))))
    | _ =>
      match s.windowPlace w off len with
      | some p => .next (s.emit (if s.unreadable p len then .poisoned else .completion (Sparse.run s.mem p len)))
      | none => .next (s.emit .unsupported)

/-- Whether a port completes an AtomicOp of `n` bytes (R285). -/
def atomicSize : AtomicOp → Nat → Bool
  | .cas, n => n == 4 || n == 8 || n == 16
  | _, n => n == 4 || n == 8

/-- What an AtomicOp leaves. -/
def atomicResult (op : AtomicOp) (n old v cmp : Nat) : Nat :=
  match op with
  | .fetchAdd => (old + v) % 256 ^ n
  | .swap => v % 256 ^ n
  | .cas => if old = cmp % 256 ^ n then v % 256 ^ n else old

/-- INBOUND_ATOMICOP (R217, R219, R287): one access at the device home; the old value is the completion. -/
def execInboundAtomicop (w : InWindow) (off : Nat) (op : AtomicOp) (n v cmp : Nat) (s : State) :
    Host.Outcome State Fault Refusal :=
  if !s.takes (portOf w) then .next s
  else
    match (if atomicSize op n && off % n = 0 then s.windowPlace w off n else none) with
    | none => .next (s.emit .unsupported)
    | some p =>
      if s.unreadable p n then .next (s.emit .poisoned)
      else
        let old := Memory.read s.mem p n
        .next ((s.writeInbound p (leBytes n (atomicResult op n old v cmp))).emit (.completion (leBytes n old)))

/-! ## The functions -/

/-- The identifier of a capability, and whether it stands in the extended list (PCI Express; note 100). -/
def capId : Capability → Nat
  | .express => 0x10
  | .msix => 0x11
  | .sriov => 0x10
  | .ats => 0x0F
  | .pri => 0x13
  | .pasid => 0x1B
  | .doe => 0x2E
  | .ide => 0x30
def capExtended : Capability → Bool
  | .express | .msix => false
  | .sriov | .ats | .pri | .pasid | .doe | .ide => true

/-- Some bits of a number, replaced. -/
def putBitsAt (v lo n x : Nat) : Nat := v - bits v lo n * 2 ^ lo + x % 2 ^ n * 2 ^ lo

/-- The lists of a function's capabilities: the standard one, and the extended one, whose first header stands at dword 64. -/
def capList (fn : Nat) (extended : Bool) : List (Nat × Capability) :=
  let l := (Config.capabilities fn).filter (fun e => capExtended e.2 == extended)
  match extended, l with
  | true, e :: rest => (64, e.2) :: rest
  | _, _ => l

/-- The header in a dword, if one stands there: its capability, and the dword of the next header, 0 at the end. -/
def headerIn (reg : Nat) : List (Nat × Capability) → Option (Capability × Nat)
  | [] => none
  | e :: rest => if e.1 = reg then some (e.2, (rest.headD (0, default)).1) else headerIn reg rest

/-- A dword of configuration space with the capability headers in it (R285): what is not listed is absent, since no list leads
to it. -/
def withCapabilities (fn reg v : Nat) : Nat :=
  let v := if reg = 13 then putBitsAt v 0 8 (4 * ((capList fn false).headD (0, default)).1) else v
  let v := if reg = 64 && (capList fn true).isEmpty then 0 else v
  let v := match headerIn reg (capList fn false) with
    | some (c, next) => putBitsAt (putBitsAt v 0 8 (capId c)) 8 8 (4 * next)
    | none => v
  match headerIn reg (capList fn true) with
  | some (c, next) => putBitsAt (putBitsAt v 0 16 (capId c)) 20 12 (4 * next)
  | none => v

/-- A dword of configuration space with the kinds of the tenants' BARs in it (R289): a memory BAR of 64 bits, prefetchable or
not. -/
def withBars (fn reg v : Nat) : Nat :=
  let kind (b : Bar) : Nat := 4 + b2n b.prefetchable * 8
  let v := if (fn, reg) = Config.barAt 0 then putBitsAt v 0 4 (kind ({} : Tenant).bars.1) else v
  if (fn, reg) = Config.barAt 2 then putBitsAt v 0 4 (kind ({} : Tenant).bars.2) else v

/-- The answer to a configuration read: PCI Express content with the capabilities that R285 lists and no others, the kinds of the
BARs (R289), and MSI-X Enable and Function Mask of a tenant's function where its message control stands (R269; note 100). -/
def State.configRead (s : State) (fn reg : Nat) : Dword :=
  let v := withBars fn reg (withCapabilities fn reg (Config.configAnswer fn reg).toNat)
  if 1 ≤ fn && fn ≤ 16 && reg = Config.msixCap then
    let t := s.getTenant (fn - 1)
    BitVec.ofNat 64 (v % 2 ^ 30 + b2n t.msixMask * 2 ^ 30 + b2n t.msixOn * 2 ^ 31)
  else BitVec.ofNat 64 v

/-- A configuration write: MSI-X Enable and Function Mask of a tenant's function (R269); vectors that are then no longer masked
send their messages. -/
def State.configWrite (s : State) (fn reg : Nat) (v : BitVec 32) : State :=
  if 1 ≤ fn && fn ≤ 16 && reg = Config.msixCap then
    let t := s.getTenant (fn - 1)
    (s.setTenant (fn - 1) { t with msixOn := bitAt v.toNat 31, msixMask := bitAt v.toNat 30 }).sendAllPending (fn - 1)
  else s

/-- CONFIGURATION_REQUEST (R288, R296): nothing comes on an insecure stream; retry status while the function is not ready in power state 2; the content is that of
PCI Express. -/
def execConfigurationRequest (fn : Nat) (a : ConfigAccess) (s : State) : Host.Outcome State Fault Refusal :=
  let answer (s : State) : State := match a.data with
    | none => s.emit (.config (s.configRead fn a.reg))
    | some v => s.configWrite fn a.reg v
  if s.mod.host.insecure.contains 0 then .next s
  else if s.awake then .next (answer s)
  else if s.mod.pst != 2 || s.mod.perst then .next s
  else
    let r := s.takeBool
    .next (if r.1 then answer r.2 else r.2.emit .retryStatus)

/-- Whether a pending write is to leave on an IDE stream of a port. -/
def State.onStream (s : State) (w : WeakWrite) (port : Port) (stream : Nat) : Bool :=
  !inHbm w.place && inPeer w.place == (port == .peer) && s.ideStreamOf w.ctx w.space w.place == stream

/-- Contexts with an outstanding request on an IDE stream of a port, posted writes that have not been sent among them: ATS and
PRI requests leave on the host link's own stream. -/
def State.ctxsOn (s : State) (port : Port) (stream : Nat) : List Nat :=
  (s.requests.flatMap (fun e => match e.2 with
    | .nonPosted p c _ _ k => if p == port && k == stream then [c] else []
    | .ats _ _ c _ => if port == .host && stream == 0 then [c] else []
    | .pri _ _ c _ _ => if port == .host && stream == 0 then [c] else []) ++
    (s.weak.filter (fun w => s.onStream w port stream)).map (fun w => w.ctx)).eraseDups

/-- IDE_INTEGRITY_FAILURE (R288): the stream carries nothing until it is re-keyed; posted writes that had not been sent are lost
with their contexts (note 89). -/
def execIdeIntegrityFailure (i : IdeStream) (s : State) : Host.Outcome State Fault Refusal :=
  let hit := s.ctxsOn i.port i.stream
  let bad (l : Link) : Link := { l with insecure := i.stream :: l.insecure.filter (· != i.stream) }
  let m := match i.port with
    | .host => { s.mod with host := bad s.mod.host }
    | .peer => { s.mod with peer := bad s.mod.peer }
  let s := { s.setMod m with weak := s.weak.filter (fun w => !s.onStream w i.port i.stream) }
  .next (hit.foldl (fun s c => s.fatal c (portRecord c 0x69 0 s.time)) s)

/-- SPDM_REQUEST (R285, R288): the responder answers; tenant traffic goes on. -/
def execSpdmRequest (data : List Byte) (s : State) : Host.Outcome State Fault Refusal :=
  if s.mod.pst = 1 then .next s else .next (s.emit (.spdm (Config.spdmAnswer data)))

/-- The reset of a tenant's function (R292). -/
def State.resetTenant (s : State) (tenant : Nat) : State :=
  let cs := (s.ctxs.filter (fun e => e.2.tenant == tenant)).map (fun e => e.1)
  let s := cs.foldl State.stopContext s
  match Map.find s.tenants tenant with
  | none => s
  | some t => s.setTenant tenant { t with msix := ({} : Tenant).msix, pba := 0, msixOn := false, msixMask := false }

/-- FUNCTION_LEVEL_RESET (R292): function 0 is the physical one. -/
def execFunctionLevelReset (fn : BitVec 5) (s : State) : Host.Outcome State Fault Refusal :=
  if fn = 0 then .next ((List.range 16).foldl State.resetTenant s)
  else if fn.toNat ≤ 16 then .next (s.resetTenant (fn.toNat - 1))
  else .next s

/-- A link that has settled: link 1 only on a port of two links, which are x8 at most (R285). -/
def Link.settle (l : Link) (split : Bool) (r : LinkReport) : Link :=
  if r.link = 0 then { l with gts := r.gts, width := min r.width (if split then 8 else 16) }
  else if split then { l with gts1 := r.gts, width1 := min r.width 8 }
  else l

/-- Whether a port has a link below 32 GT/s. -/
def Link.slow (l : Link) : Bool := (l.gts != 0 && l.gts < 32) || (l.gts1 != 0 && l.gts1 < 32)

/-- LINK_TRAINING (R285, R291): a link below 32 GT/s is degraded. -/
def execLinkTraining (port : Port) (l : LinkReport) (s : State) : Host.Outcome State Fault Refusal :=
  if s.mod.pst = 1 then .next s
  else
    let m := match port with
      | .host => { s.mod with host := s.mod.host.settle false l }
      | .peer => { s.mod with peer := s.mod.peer.settle Config.peerSplit l }
    .next (s.setMod { m with ldeg := if m.host.slow || m.peer.slow then 1 else 0 })

end Sys2Proof.Machine
end

