-- ==== Sys2Proof/Machine/Flags.lean ====
section
/-!
DEFINITION. Conditions and predicate functions: CMP (16 R370), VCMP (19 R439), PLOG and VBIT (17 R410, 19 R437), PSET
(17 R412). The device has no arithmetic flags (02 R26).
-/
namespace Sys2Proof.Machine

/-- The condition of CMP (R370). -/
def scalarCond (fn : Nat) (a b : Dword) : Bool :=
  match fn with
  | 0 => a == b
  | 1 => a != b
  | 2 => a.slt b
  | 3 => !a.slt b
  | 4 => a.ult b
  | _ => !a.ult b

/-- The condition of VCMP on an order (R439). -/
def orderCond (fn : Nat) (o : Ordering) : Bool :=
  match fn with
  | 0 => o == .eq
  | 1 => o != .eq
  | 2 => o == .lt
  | 3 => o != .lt
  | 4 => o != .gt
  | 5 => o == .gt
  | _ => false

/-- The condition of VCMP on two elements: with a NaN only ne and uo hold (R439). -/
def elemCond (f : Fmt) (fn a b : Nat) : Bool :=
  let x := valueOf f a
  let y := valueOf f b
  if x.isNan || y.isNan then fn == 1 || fn == 6 else orderCond fn (cmpV false x y)

/-- The bit operation of PLOG (R410). -/
def logicOp {n : Nat} (fn : Nat) (a b : BitVec n) : BitVec n :=
  match fn with
  | 0 => a &&& b
  | 1 => a ||| b
  | 2 => a ^^^ b
  | 3 => a &&& ~~~b
  | 4 => a ||| ~~~b
  | 5 => ~~~(a &&& b)
  | 6 => ~~~(a ||| b)
  | _ => ~~~(a ^^^ b)

/-- A predicate from a function of the cell. -/
def predOf (f : Nat → Bool) : BitVec 1024 :=
  BitVec.ofNat 1024 ((List.range 1024).foldr (fun c v => 2 * v + b2n (f c)) 0)

/-- The pattern of PSET (R412). -/
def psetBits (imm : BitVec 16) : BitVec 1024 :=
  let v := imm.toNat
  match v / 2 ^ 14 with
  | 0 => if v % 2 = 1 then BitVec.allOnes 1024 else 0
  | 1 => BitVec.ofNat 1024 (2 ^ (v % 2048) - 1)
  | 2 => predOf (fun c => c % 64 < v % 128)
  | _ => BitVec.ofNat 1024 (2 ^ (64 * (v % 32)) - 1)

end Sys2Proof.Machine
end

