-- ==== Sys2Proof/Machine/EScalar.lean ====
section
/-!
DEFINITION. The scalar, control, predicate, queue and token words of the E stream (14 R316; entries of chapters 15 to 18).
-/
namespace Sys2Proof.Machine

/-! ## Scalar words -/

/-- A scalar ALU word (R336, R337): B is an immediate when I = 1. -/
def eAluWord (w : EWord) (s : State) (f : Dword → Dword → Dword) : Host.Outcome State Fault Refusal :=
  eToScalar s w (if w.i = 1 then [w.a] else [w.a, w.b]) (fun v => f (v.getD 0 0) (v.getD 1 w.immS))

def execEAdd (w : EWord) (s : State) : Host.Outcome State Fault Refusal := eAluWord w s (fun a b => a + b)
def execESub (w : EWord) (s : State) : Host.Outcome State Fault Refusal := eAluWord w s (fun a b => a - b)
def execEMul (w : EWord) (s : State) : Host.Outcome State Fault Refusal := eAluWord w s (fun a b => a * b)
def execEAnd (w : EWord) (s : State) : Host.Outcome State Fault Refusal := eAluWord w s (fun a b => a &&& b)
def execEOr (w : EWord) (s : State) : Host.Outcome State Fault Refusal := eAluWord w s (fun a b => a ||| b)
def execEXor (w : EWord) (s : State) : Host.Outcome State Fault Refusal := eAluWord w s (fun a b => a ^^^ b)
def execEShl (w : EWord) (s : State) : Host.Outcome State Fault Refusal := eAluWord w s (fun a b => a <<< (b.toNat % 64))
def execEShr (w : EWord) (s : State) : Host.Outcome State Fault Refusal := eAluWord w s (fun a b => a >>> (b.toNat % 64))
def execESra (w : EWord) (s : State) : Host.Outcome State Fault Refusal :=
  eAluWord w s (fun a b => a.sshiftRight (b.toNat % 64))
def execEMin (w : EWord) (s : State) : Host.Outcome State Fault Refusal := eAluWord w s (fun a b => if b.slt a then b else a)
def execEMax (w : EWord) (s : State) : Host.Outcome State Fault Refusal := eAluWord w s (fun a b => if a.slt b then b else a)

/-- LI (R403). -/
def execELi (w : EWord) (s : State) : Host.Outcome State Fault Refusal :=
  eToScalar s w [w.a] (fun v => (v.getD 0 0 <<< 16) + w.immS)

/-- SEL (R418). -/
def execESel (w : EWord) (s : State) : Host.Outcome State Fault Refusal :=
  eToScalar s w [w.a, w.b, w.c] (fun v => if v.getD 2 0 != 0 then v.getD 0 0 else v.getD 1 0)

/-- NOP (R408). -/
def execENop (w : EWord) (s : State) : Host.Outcome State Fault Refusal :=
  eScalarWord s w [] [] none (fun _ s => .ok s)

/-! ## Predicates -/

/-- CMP (R370). -/
def execECmp (w : EWord) (s : State) : Host.Outcome State Fault Refusal :=
  eToPred s w [w.a, w.b] []
    (fun v _ => if scalarCond w.fn (v.getD 0 0) (v.getD 1 0) then BitVec.allOnes 1024 else 0)

/-- PSET (R412). -/
def execEPset (w : EWord) (s : State) : Host.Outcome State Fault Refusal := eToPred s w [] [] (fun _ _ => psetBits w.imm)

/-- PLOG (R410). -/
def execEPlog (w : EWord) (s : State) : Host.Outcome State Fault Refusal :=
  eToPred s w [] [w.a, w.b] (fun _ s => logicOp w.fn (s.getP w.a.toNat) (s.getP w.b.toNat))

/-- PMOV (R411). -/
def execEPmov (w : EWord) (s : State) : Host.Outcome State Fault Refusal :=
  eToPred s w [] [w.a] (fun _ s => s.getP w.a.toNat)

/-! ## Control (R121, R122, R126, R127) -/

/-- Whether a branch word stands at the LEND of an active loop (R127). -/
def Ec.atLend (ec : Ec) : Bool :=
  match ec.loop with
  | some l => ec.pc == l.lend
  | none => false

/-- Whether a delay slot of a branch at pc is the LEND of an active loop (R127). -/
def Ec.slotAtLend (ec : Ec) : Bool :=
  match ec.loop with
  | some l => ec.npc == l.lend || ec.nnpc == l.lend
  | none => false

/-- A taken branch (R121): two delay slots, then the target; a target outside the body ends the loop (R127). -/
def State.eTake (s : State) (t : Dword) : Try State :=
  let ec := s.tp.ec
  if ec.slotAtLend then .error (.fatal 0x22 0 0)
  else
    let inBody := match ec.loop with
      | some l => l.start.toNat ≤ t.toNat && t.toNat ≤ l.lend.toNat
      | none => true
    .ok (s.setEc { ec with pc := ec.npc, npc := ec.nnpc, nnpc := t, a1 := ec.a2, a2 := false, slot1 := true, slot2 := true
                           loop := if inBody then ec.loop else none })

/-- The branch target of an immediate (R317). -/
def State.eTarget (s : State) (w : EWord) : Dword := s.tp.ec.pc + 8 * w.immS

/-- A control word: sources, and its effect on the triple. -/
def eControl (s : State) (w : EWord) (codes : List (BitVec 6)) (dst : Option Nat)
    (act : List Dword → State → Try State) : Host.Outcome State Fault Refusal :=
  ecStep s (fun s => s.eIssue w 6 1 1 (scalarKeys codes ++ [s.tp.ec.keyP w.pg.toNat]) dst
    (fun s => s.readScalars codes) (fun v s => if s.tp.ec.atLend then .error (.fatal 0x22 0 0) else act v s))

/-- BR (R356): taken exactly when its guard holds. -/
def execEBr (w : EWord) (s : State) : Host.Outcome State Fault Refusal :=
  eControl s w [] none (fun _ s => if s.guard0 w then s.eTake (s.eTarget w) else .ok s.eNext)

/-- BR.n: both slots are annulled when it is not taken (R122). -/
def execEBrN (w : EWord) (s : State) : Host.Outcome State Fault Refusal :=
  eControl s w [] none (fun _ s =>
    if s.guard0 w then s.eTake (s.eTarget w) else
      let t := s.eNext
      .ok (t.setEc { t.tp.ec with a1 := true, a2 := true }))

/-- JMP (R398). -/
def execEJmp (w : EWord) (s : State) : Host.Outcome State Fault Refusal :=
  eControl s w (if w.i = 1 then [] else [w.a]) none (fun v s => s.eTake (v.getD 0 (s.eTarget w)))

/-- JAL (R398): the link is the address of the word plus 24. -/
def execEJal (w : EWord) (s : State) : Host.Outcome State Fault Refusal :=
  eControl s w (if w.i = 1 then [] else [w.a]) (some (keyE w.d.toNat)) (fun v s =>
    let link := s.tp.ec.pc + 24
    match s.eTake (v.getD 0 (s.eTarget w)) with
    | .error e => .error e
    | .ok s => .ok (s.setE w.d.toNat link))

/-- LOOP (R126, R127, R404). -/
def State.startLoop (s : State) (w : EWord) (n : Nat) : Try State :=
  let ec := s.tp.ec
  let stages := w.fmt.toNat + 1
  let lend := s.eTarget w
  if ec.loop.isSome || ec.slot1 || 8 < stages || w.imm.toInt < 1 || 2 ^ 32 - 8 < n then .error (.fatal 0x22 0 0)
  else if n = 0 then
    .ok (s.setEc { ec with pc := lend + 8, npc := lend + 16, nnpc := lend + 24, a1 := false, a2 := false })
  else
    let p := (List.range 8).foldl (fun p k => Sparse.set p (8 + k) (if k = 0 then BitVec.allOnes 1024 else 0)) ec.p
    .ok (s.setEc { ec.advance with
      loop := some { lc := n + stages - 1, k := 0, n := n, s := stages, start := ec.pc + 8, lend := lend }
      prb := 0, p := p })

def execELoop (w : EWord) (s : State) : Host.Outcome State Fault Refusal :=
  eControl s w [w.a] none (fun v s => s.startLoop w (v.getD 0 0).toNat)

/-- HALT (R376): the stream ends; it has finished when every earlier word and the push of this one have retired. -/
def execEHalt (w : EWord) (s : State) : Host.Outcome State Fault Refusal :=
  eScalarWord s w [] [] none (fun _ s => .ok (s.setEc { s.tp.ec with status := .ended, loop := none }))

/-! ## Queues and tokens -/

/-- QIN (R415). -/
def execQin (w : EWord) (s : State) : Host.Outcome State Fault Refusal := eToScalar s w [w.a] (fun v => v.getD 0 0)

/-- The queue that a D field pushes (R312). -/
def pushQueue (d : BitVec 6) : Nat := d.toNat - 32

/-- Check the direction of an E-to-A push, and queue it for its retirement (R65, R66). -/
def State.eQueuePush (s : State) (q : Nat) (p : Push) : Try State :=
  if s.eToA q then .ok (s.setEc { s.tp.ec with pushes := s.tp.ec.pushes ++ [p] }) else .error (.fatal 0x47 0 0)

/-- QOUT (R415): whatever the guard. -/
def execQout (w : EWord) (s : State) : Host.Outcome State Fault Refusal :=
  eScalarWord s w [w.a] [] none (fun v s =>
    s.eQueuePush (pushQueue w.d) (.scalar (s.tp.ec.retireAt s.tp.ec.clock 1) (pushQueue w.d) (v.getD 0 0)))

/-- TOKP on the E stream (R427): its tokens wait for retirement. -/
def execTokpE (w : EWord) (s : State) : Host.Outcome State Fault Refusal :=
  eScalarWord s w [] [] none (fun _ s =>
    let t := Push.token (s.tp.ec.retireAt s.tp.ec.clock 1) (w.imm.toNat % 8)
    .ok (s.setEc { s.tp.ec with pushes := s.tp.ec.pushes ++ List.replicate (bits w.imm.toNat 4 4) t }))

/-- TOKW on the E stream (R427). -/
def execTokwE (w : EWord) (s : State) : Host.Outcome State Fault Refusal :=
  ecStep s (fun s => s.eIssue w 6 1 1 [] none
    (fun s => match s.popTokens (w.imm.toNat % 8) 2 (bits w.imm.toNat 4 4) with
      | .error e => .error e
      | .ok s => .ok ((), s)) (fun _ s => .ok s.eNext))

/-- TRAP n on the E stream (R255, R428): performed when it retires, so it issues once every earlier word has retired; the EC
is trapped after the word. A task that has ended takes no trap. -/
def execTrapE (w : EWord) (s : State) : Host.Outcome State Fault Refusal :=
  if !s.tp.ec.spec.isEmpty || !s.tp.ec.pushes.isEmpty then .next s.idleE
  else eScalarWord s w [] [] none (fun _ s =>
    if s.tp.ec.task != s.tp.cur then .ok s
    else
      .ok (s.trapUnit 2 (mkRecord { s.unitRecord 2 (0xA0 + w.imm.toNat % 32) with prec := true, res := true, detail := 2 }
        s.time)))

end Sys2Proof.Machine
end

