-- ==== Sys2Proof/Machine/Special.lean ====
section
/-!
DEFINITION. The special functions of R442. Each result is an interval-free exact value or a value with 300 or more correct
bits and a last bit for the rest; every rounding of R29 then gives the correctly rounded result (note 16).
-/
namespace Sys2Proof.Machine

/-- Bits after the point of the working numbers below. -/
def fxBits : Nat := 360

/-- ln 2 × 2^360, rounded down. -/
def ln2Fx : Nat := 0xb17217f7d1cf79abc9e3b39803f2f6af40f343267298b62d8a0d175b8baafa2be7b876206debac98559552fb4a

/-- Terms y^k / k! of the exponential series from the `k`th on, `fuel` of them, where `t` is the term before. -/
def expTerms (y : Nat) : Nat → Nat → Nat → Nat
  | 0, _, _ => 0
  | fuel + 1, k, t =>
    let u := t * y / 2 ^ fxBits / k
    u + expTerms y fuel (k + 1) u

/-- Square `n` times. -/
def squareFx : Nat → Nat → Nat
  | 0, v => v
  | n + 1, v => squareFx n (v * v / 2 ^ fxBits)

/-- e^r for 0 ≤ r ≤ 1: the series at r / 256, squared eight times. -/
def expFx (r : Nat) : Nat := squareFx 8 (2 ^ fxBits + expTerms (r / 256) 48 1 (2 ^ fxBits))

/-- Terms z^(2k+1) / (2k+1) of the inverse hyperbolic tangent, `fuel` of them; `t` is z^(2k+1). -/
def atanhTerms (z2 : Nat) : Nat → Nat → Nat → Nat
  | 0, _, _ => 0
  | fuel + 1, k, t => t / k + atanhTerms z2 fuel (k + 2) (t * z2 / 2 ^ fxBits)

/-- ln u for 1 ≤ u < 2, as 2 × atanh((u - 1) / (u + 1)). -/
def lnFx (u : Nat) : Nat :=
  let z := (u - 2 ^ fxBits) * 2 ^ fxBits / (u + 2 ^ fxBits)
  2 * atanhTerms (z * z / 2 ^ fxBits) 120 1 z

/-- A working number as an exact value whose last bit stands for the rest: 40 bits that errors may touch are dropped. -/
def fxVal (neg : Bool) (v : Nat) (e : Int) : Val := .fin neg (2 * (v / 2 ^ 40) + 1) (e + 39 - (fxBits : Int))

/-- A finite magnitude as a working number, exact for exponents from -360 up. -/
def toFx (m : Nat) (e : Int) : Nat :=
  if 0 ≤ e + (fxBits : Int) then m * 2 ^ (e + (fxBits : Int)).toNat else m / 2 ^ (-(e + (fxBits : Int))).toNat

/-- 2^a (R442). Arguments beyond ±2^16 give a representative past every format's range. -/
def exp2V : Val → Val
  | .nan => .nan
  | .inf neg => if neg then .fin false 0 0 else .inf false
  | .fin neg m e =>
    if m = 0 then .fin false 1 0
    else if 16 ≤ (m.log2 : Int) + e then .fin false 1 (if neg then -65536 else 65536)
    else
      let x := toFx m e
      let whole := x / 2 ^ fxBits
      let frac := x % 2 ^ fxBits
      if frac = 0 then .fin false 1 (if neg then -(whole : Int) else (whole : Int))
      else
        let f := if neg then 2 ^ fxBits - frac else frac
        let n : Int := if neg then -(whole : Int) - 1 else (whole : Int)
        fxVal false (expFx (f * ln2Fx / 2 ^ fxBits)) n

/-- log2 a (R442). -/
def log2V : Val → Val
  | .nan => .nan
  | .inf neg => if neg then .nan else .inf false
  | .fin neg m e =>
    if m = 0 then .inf true
    else if neg then .nan
    else
      let k : Int := (m.log2 : Int) + e
      let u := m * 2 ^ fxBits / 2 ^ m.log2
      if u = 2 ^ fxBits then ofInt k
      else
        let frac := lnFx u * 2 ^ fxBits / ln2Fx
        let v : Int := k * (2 ^ fxBits : Nat) + (frac : Int)
        fxVal (v < 0) v.natAbs 0

/-- 1 / a (R442). -/
def rcpV (a : Val) : Val := divV (.fin false 1 0) a

/-- 1 / √a (R442). -/
def rsqrtV : Val → Val
  | .nan => .nan
  | .inf neg => if neg then .nan else .fin false 0 0
  | .fin neg m e =>
    if m = 0 then .inf neg
    else if neg then .nan
    else
      let m1 := if e % 2 = 0 then m else 2 * m
      let e1 := if e % 2 = 0 then e else e - 1
      let k := 160 + m1.log2
      let n := 2 ^ (2 * k)
      let q := natSqrt (n / m1)
      .fin false (2 * q + (if q * q * m1 = n then 0 else 1)) (-(e1 / 2) - (k : Int) - 1)

/-- 1 / (1 + e^-a) (R442). Arguments beyond ±256 give a representative that every format rounds alike. -/
def sigmoidV : Val → Val
  | .nan => .nan
  | .inf neg => if neg then .fin false 0 0 else .fin false 1 0
  | .fin neg m e =>
    if m = 0 then .fin false 1 (-1)
    else if 8 ≤ (m.log2 : Int) + e then
      if neg then .fin false 1 (-360) else .fin false (2 ^ 360 - 1) (-360)
    else
      let y := toFx m e
      let n := y / ln2Fx
      let t := expFx (ln2Fx - y % ln2Fx)
      let one := 2 ^ (fxBits + n + 1)
      let num := if neg then t else one
      let q := num * 2 ^ (fxBits + 400) / (one + t)
      .fin false (2 * (q / 2 ^ 430) + 1) (429 - (fxBits : Int) - 400)

end Sys2Proof.Machine
end

