-- ==== Sys2Proof/Machine/ETile.lean ====
section
/-!
DEFINITION. Tile words of the E stream (19 R431 to R450; 02 R26 to R33, R38, R40, R42; 05 R123, R124).
-/
namespace Sys2Proof.Machine

/-! ## Elementwise words (R435) -/

/-- A word on elements: sources, and the result from the elements of its sources; latency 4. -/
def eElem (w : EWord) (s : State) (codes : List (BitVec 6)) (keys : List Nat) (f : State → Nat → List Nat → Nat) :
    Host.Outcome State Fault Refusal :=
  eTileWord s w codes keys 4 (fun s v c =>
    f s c ((List.range (codes.length + (if w.i = 1 then 1 else 0))).map (fun k => elem w.format (w.source v k c))))

/-- A result under FMT: exact in floats and rounded once, exact in integers and fitted (R28 to R30). -/
def eArith (w : EWord) (flt : List Val → Val) (int : List Int → Int) (l : List Nat) : Nat :=
  if w.format.isFloat then encode w.format w.rnd w.sat (flt (l.map (decodeFloat w.format)))
  else fitInt w.format w.sat (int (l.map (decodeInt w.format)))

/-- The value at a place of a list of values, of integers, of patterns. -/
def valAt (l : List Val) (k : Nat) : Val := (l[k]?).getD .nan
def intAt (l : List Int) (k : Nat) : Int := (l[k]?).getD 0
def natAt (l : List Nat) (k : Nat) : Nat := (l[k]?).getD 0

def execVadd (w : EWord) (s : State) : Host.Outcome State Fault Refusal :=
  eElem w s (w.tileCodes [w.a] w.b) [] (fun _ _ => eArith w (fun l => addV w.rnd (valAt l 0) (valAt l 1))
    (fun l => intAt l 0 + intAt l 1))

def execVsub (w : EWord) (s : State) : Host.Outcome State Fault Refusal :=
  eElem w s (w.tileCodes [w.a] w.b) [] (fun _ _ => eArith w (fun l => addV w.rnd (valAt l 0) (negV (valAt l 1)))
    (fun l => intAt l 0 - intAt l 1))

def execVmul (w : EWord) (s : State) : Host.Outcome State Fault Refusal :=
  eElem w s (w.tileCodes [w.a] w.b) [] (fun _ _ => eArith w (fun l => mulV (valAt l 0) (valAt l 1))
    (fun l => intAt l 0 * intAt l 1))

def execVfma (w : EWord) (s : State) : Host.Outcome State Fault Refusal :=
  eElem w s (w.tileCodes [w.a, w.b] w.c) [] (fun _ _ =>
    eArith w (fun l => addV w.rnd (mulV (valAt l 0) (valAt l 1)) (valAt l 2)) (fun l => intAt l 0 * intAt l 1 + intAt l 2))

def execVmin (w : EWord) (s : State) : Host.Outcome State Fault Refusal :=
  eElem w s (w.tileCodes [w.a] w.b) [] (fun _ _ => eArith w (fun l => minV (valAt l 0) (valAt l 1))
    (fun l => min (intAt l 0) (intAt l 1)))

def execVmax (w : EWord) (s : State) : Host.Outcome State Fault Refusal :=
  eElem w s (w.tileCodes [w.a] w.b) [] (fun _ _ => eArith w (fun l => maxV (valAt l 0) (valAt l 1))
    (fun l => max (intAt l 0) (intAt l 1)))

def execVabs (w : EWord) (s : State) : Host.Outcome State Fault Refusal :=
  eElem w s [w.a] [] (fun _ _ => eArith w (fun l => absV (valAt l 0)) (fun l => (intAt l 0).natAbs))

def execVneg (w : EWord) (s : State) : Host.Outcome State Fault Refusal :=
  eElem w s [w.a] [] (fun _ _ => eArith w (fun l => negV (valAt l 0)) (fun l => -intAt l 0))

/-! ## Patterns (R437, R438, R444, R445, R448, R449) -/

def execVbit (w : EWord) (s : State) : Host.Outcome State Fault Refusal :=
  eElem w s [w.a, w.b] [] (fun _ _ l =>
    elem w.format (logicOp w.fn (BitVec.ofNat 32 (natAt l 0)) (BitVec.ofNat 32 (natAt l 1))).toNat)

/-- The shift of R449 of an `n`-bit pattern by a signed count. -/
def shiftElem (fn n : Nat) (a : Nat) (k : Int) : Nat :=
  let m := k.natAbs
  if fn = 2 then
    let r := (k % (n : Int)).toNat
    (a * 2 ^ r % 2 ^ n) + a / 2 ^ (n - r)
  else if 0 ≤ k then (if n ≤ m then 0 else a * 2 ^ m % 2 ^ n)
  else if fn = 0 then (if n ≤ m then 0 else a / 2 ^ m)
  else wrapTo (signedOf a n / ((2 ^ m : Nat) : Int)) n

def execVshf (w : EWord) (s : State) : Host.Outcome State Fault Refusal :=
  eElem w s (w.tileCodes [w.a] w.b) [] (fun _ _ l =>
    shiftElem w.fn w.format.width (natAt l 0) (signedOf (natAt l 1) w.format.width))

def execVsel (w : EWord) (s : State) : Host.Outcome State Fault Refusal :=
  eElem w s [w.a, w.b] [s.tp.ec.keyP w.c.toNat] (fun s c l =>
    if (s.getP w.c.toNat).getLsbD c then natAt l 0 else natAt l 1)

def execVmov (w : EWord) (s : State) : Host.Outcome State Fault Refusal := eElem w s [w.a] [] (fun _ _ l => natAt l 0)

def execVli (w : EWord) (s : State) : Host.Outcome State Fault Refusal :=
  eTileWord s w [] [] 4 (fun _ _ c => elem w.format (immCell w.format w.imm (c % 64)))

/-- VCVT (R441): the source format is FN[3:0]. -/
def execVcvt (w : EWord) (s : State) : Host.Outcome State Fault Refusal :=
  eTileWord s w [w.a] [] 4 (fun _ v c =>
    let src := (Fmt.ofCode (w.fn % 16)).getD .fp32
    convert src w.format w.rnd w.sat (elem src (w.source v 0 c)))

/-- Set bits of a number below `n`. -/
def popcount (v n : Nat) : Nat := (List.range n).countP (fun i => bitAt v i)

/-- The width that VPOPC and VCLZ count over. -/
def eCountWidth (w : EWord) : Nat := if w.format = .bit then 32 else w.format.width

def execVpopc (w : EWord) (s : State) : Host.Outcome State Fault Refusal :=
  eElem w s [w.a] [] (fun _ _ l => popcount (natAt l 0) (eCountWidth w))

def execVclz (w : EWord) (s : State) : Host.Outcome State Fault Refusal :=
  eElem w s [w.a] [] (fun _ _ l => if natAt l 0 = 0 then eCountWidth w else eCountWidth w - 1 - (natAt l 0).log2)

/-! ## VCMP (R439) -/

def execVcmp (w : EWord) (s : State) : Host.Outcome State Fault Refusal :=
  let ec := s.tp.ec
  ecStep s (fun s => s.eIssue w 72 4 4 (ec.tileKeys [w.a, w.b] ++ [ec.keyP w.pg.toNat]) (some (ec.keyP w.d.toNat))
    (fun s => s.readTiles [w.a, w.b]) (fun v s =>
      let g := s.guard w
      let res := predOf (fun c => elemCond w.format w.fn (elem w.format (w.source v 0 c)) (elem w.format (w.source v 1 c)))
      let old := if w.zm then 0 else s.getP w.d.toNat
      .ok ((s.setP w.d.toNat ((g &&& res) ||| (~~~g &&& old))).eNext)))

/-! ## Lanes (R436, R443, R440, R450) -/

/-- A non-negative remainder. -/
def modN (k : Int) (n : Nat) : Nat := (k % (n : Int)).toNat

/-- A word that moves whole cells: `at_` is the cell of B that holds the amount of lane (i, j), `pick` the cell of A that
lane (i, j) takes. -/
def eMove (w : EWord) (s : State) (lat : Nat) (at_ : Nat → Nat → Nat) (pick : Nat → Nat → Int → Nat) :
    Host.Outcome State Fault Refusal :=
  eTileWord s w (w.tileCodes [w.a] w.b) [] lat (fun _ v c =>
    cellOf (v.getD 0 []) (pick (c / 64) (c % 64) (signedOf (w.source v 1 (at_ (c / 64) (c % 64))) 32)))

def execVrotr (w : EWord) (s : State) : Host.Outcome State Fault Refusal :=
  eMove w s 7 (fun _ j => j) (fun i j k => 64 * modN ((i : Int) - k) 16 + j)

def execVrotc (w : EWord) (s : State) : Host.Outcome State Fault Refusal :=
  eMove w s 10 (fun i _ => 64 * i) (fun i j k => 64 * i + modN ((j : Int) - k) 64)

def execVbcr (w : EWord) (s : State) : Host.Outcome State Fault Refusal :=
  eMove w s 7 (fun _ j => j) (fun _ j k => 64 * modN k 16 + j)

def execVbcc (w : EWord) (s : State) : Host.Outcome State Fault Refusal :=
  eMove w s 10 (fun i _ => 64 * i) (fun i _ k => 64 * i + modN k 64)

/-- The pad of lists of indexes: it matches nothing (R443). -/
def padCell : Nat := 0xFFFFFFFF

def execVisect (w : EWord) (s : State) : Host.Outcome State Fault Refusal :=
  eTileWord s w [w.a, w.b] [] 7 (fun _ v c =>
    let x := cellOf (v.getD 0 []) c
    if x = padCell then padCell
    else ((List.range 64).find? (fun k => cellOf (v.getD 1 []) (c / 64 * 64 + k) == x)).getD padCell)

/-- Columns of row `i` whose B cell is not zero, ascending (R440). -/
def chosen (b : Tile) (i : Nat) : List Nat := (List.range 64).filter (fun j => cellOf b (64 * i + j) != 0)

/-- The pad of VCMPR and VEXPD (R440). -/
def ePad (w : EWord) : Nat := if w.fn = 0 then 0 else padCell

def execVcmpr (w : EWord) (s : State) : Host.Outcome State Fault Refusal :=
  eTileWord s w [w.a, w.b] [] 10 (fun _ v c =>
    match (chosen (v.getD 1 []) (c / 64))[c % 64]? with
    | some j => cellOf (v.getD 0 []) (c / 64 * 64 + j)
    | none => ePad w)

def execVexpd (w : EWord) (s : State) : Host.Outcome State Fault Refusal :=
  eTileWord s w [w.a, w.b] [] 10 (fun _ v c =>
    match (chosen (v.getD 1 []) (c / 64)).findIdx? (fun j => j == c % 64) with
    | some n => cellOf (v.getD 0 []) (c / 64 * 64 + n)
    | none => ePad w)

/-- VXL (R450): a masked lane and one with an inactive source are unchanged whatever ZM. -/
def execVxl (w : EWord) (s : State) : Host.Outcome State Fault Refusal :=
  let ec := s.tp.ec
  ecStep s (fun s => s.eIssue w 72 4 10 (ec.tileKeys [w.a, w.b] ++ [ec.keyP w.pg.toNat]) (some (ec.keyW w.d.toNat))
    (fun s => s.readTiles [w.a, w.b]) (fun v s =>
      let g := (s.guard w).toNat
      let from_ (c : Nat) : Option Nat :=
        let k := signedOf (cellOf (v.getD 1 []) c) 32
        if 0 ≤ k && k < 1024 && bitAt g k.toNat then some k.toNat else none
      .ok ((s.writeW (s.tp.ec.tileReg w.d.toNat) (fun c => if bitAt g c then (from_ c).isSome else w.zm)
        (fun c => match bitAt g c, from_ c with
          | true, some k => BitVec.ofNat 32 (cellOf (v.getD 0 []) k)
          | _, _ => 0)).eNext)))

/-! ## Reductions and scans (R42, R447) -/

/-- A lane of a reduction: an exact binary32 value or an integer. -/
inductive Lane where
  | flt (v : Val)
  | int (v : Int)
deriving DecidableEq, Repr

/-- The lane of an element, or the identity. -/
def eLane (w : EWord) (on : Bool) (x : Nat) : Lane :=
  if w.format.isFloat then
    .flt (if on then decodeFloat w.format x
      else match w.fn with
        | 0 => .fin false 0 0
        | 1 => .inf false
        | _ => .inf true)
  else
    .int (if on then signedOf x 32
      else match w.fn with
        | 0 => 0
        | 1 => 2147483647
        | _ => -2147483648)

/-- The operation of FN on two lanes. -/
def eCombine (w : EWord) (a b : Lane) : Lane :=
  match a, b with
  | .flt x, .flt y =>
    .flt (match w.fn with
      | 0 => roundTo .fp32 w.rnd false (addV w.rnd x y)
      | 1 => minV x y
      | _ => maxV x y)
  | .int x, .int y =>
    .int (match w.fn with
      | 0 => signedOf (wrapTo (x + y) 32) 32
      | 1 => min x y
      | _ => max x y)
  | a, _ => a

/-- The cell of a lane's result. -/
def eLaneCell (w : EWord) : Lane → Nat
  | .flt v => encode w.format w.rnd w.sat v
  | .int v => wrapTo v 32

/-- The left fold of a scan (R447). -/
def scanLane (w : EWord) : List Lane → Lane
  | [] => .int 0
  | a :: l => l.foldl (eCombine w) a

/-- A word along an axis: the cells of the line of a cell in order, and the place of the cell in it. -/
def eLine (w : EWord) (s : State) (lat : Nat) (line : Nat → Nat → List Nat) (res : List Lane → Nat → Nat → Lane) :
    Host.Outcome State Fault Refusal :=
  eTileWord s w [w.a] [] lat (fun s v c =>
    let g := s.guard w
    let lanes := (line (c / 64) (c % 64)).map (fun k => eLane w (g.getLsbD k) (elem w.format (w.source v 0 k)))
    eLaneCell w (res lanes (c / 64) (c % 64)))

/-- The cells of column `j`, and of row `i`. -/
def columnCells (_ j : Nat) : List Nat := (List.range 16).map (fun r => 64 * r + j)
def rowCells (i _ : Nat) : List Nat := (List.range 64).map (fun k => 64 * i + k)

def execVredr (w : EWord) (s : State) : Host.Outcome State Fault Refusal :=
  eLine w s 7 columnCells (fun l _ _ => pair (eCombine w) 4 (.int 0) l)

def execVredc (w : EWord) (s : State) : Host.Outcome State Fault Refusal :=
  eLine w s 10 rowCells (fun l _ _ => pair (eCombine w) 6 (.int 0) l)

def execVscnr (w : EWord) (s : State) : Host.Outcome State Fault Refusal :=
  eLine w s 7 columnCells (fun l i _ => scanLane w (l.take (i + 1)))

def execVscnc (w : EWord) (s : State) : Host.Outcome State Fault Refusal :=
  eLine w s 10 rowCells (fun l _ j => scanLane w (l.take (j + 1)))

/-! ## Special functions (R124, R442) -/

/-- A special function: its destination is written at the start of cycle n + 12, and a read in that shadow is not
interlocked (R124). -/
def eSpecial (w : EWord) (s : State) (f : Val → Val) : Host.Outcome State Fault Refusal :=
  let ec := s.tp.ec
  let dst := ec.keyW w.d.toNat
  ecStep s (fun s =>
    match s.eIssue w 72 4 12 (ec.tileKeys [w.a] ++ [ec.keyP w.pg.toNat]) (some dst) (fun s => s.readTiles [w.a])
      (fun v s =>
        let g := s.guard w
        let res := Sparse.ofFn 1024 (fun c =>
          if g.getLsbD c then
            BitVec.ofNat 32 (encode w.format w.rnd w.sat (f (decodeFloat w.format (elem w.format (w.source v 0 c)))))
          else (0 : Word))
        let spec : SpecWrite := { due := s.tp.ec.clock + 12, reg := s.tp.ec.tileReg w.d.toNat,
                                  on := if w.zm then BitVec.allOnes 1024 else g, tile := res }
        .ok (s.setEc { s.tp.ec with spec := s.tp.ec.spec ++ [spec] }).eNext) with
    | .error e => .error e
    | .ok s => .ok (s.setEc { s.tp.ec with ready := Map.del s.tp.ec.ready dst }))

def execVexp2 (w : EWord) (s : State) : Host.Outcome State Fault Refusal := eSpecial w s exp2V
def execVlog2 (w : EWord) (s : State) : Host.Outcome State Fault Refusal := eSpecial w s log2V
def execVrcp (w : EWord) (s : State) : Host.Outcome State Fault Refusal := eSpecial w s rcpV
def execVrsq (w : EWord) (s : State) : Host.Outcome State Fault Refusal := eSpecial w s rsqrtV
def execVsig (w : EWord) (s : State) : Host.Outcome State Fault Refusal := eSpecial w s sigmoidV

/-! ## Tile queues (R446) -/

def execVqin (w : EWord) (s : State) : Host.Outcome State Fault Refusal :=
  eTileWord s w [w.a] [] 4 (fun _ v c => cellOf (v.getD 0 []) c)

/-- VQOUT: all of A, whatever the guard. -/
def execVqout (w : EWord) (s : State) : Host.Outcome State Fault Refusal :=
  let ec := s.tp.ec
  ecStep s (fun s => s.eIssue w 72 4 4 (ec.tileKeys [w.a] ++ [ec.keyP w.pg.toNat]) none (fun s => s.readTiles [w.a])
    (fun v s =>
      match s.eQueuePush (pushQueue w.d) (.tile (s.tp.ec.retireAt s.tp.ec.clock 4) (pushQueue w.d) (v.getD 0 [])) with
      | .error e => .error e
      | .ok s => .ok s.eNext))

end Sys2Proof.Machine
end

