-- ==== Sys2Proof/Machine/Power.lean ====
section
/-!
DEFINITION. Power states and self-test (13 R296 to R299), the banker, energy and caps (12 R271 to R282), temperature (12 R283,
R284), logical clocks (09 R208), soft errors (11 R266), the supervisor's interfaces and the service cores' accesses.
-/
namespace Sys2Proof.Machine

/-! ## Power states (R296, R297, R299) -/

/-- Device memory after a reset or a loss of power; memory of the host and of peers is not the device's. -/
def State.memoryLost (s : State) : Memory :=
  Sparse.canonical hbmTop (Config.memoryAfterReset s.free (s.mem.filter (fun e => inHbm e.1))) ++
    s.mem.filter (fun e => !inHbm e.1)

/-- The module after a reset, in a power state: all but memory and the model's own fields is as after reset. -/
def State.hardReset (s : State) (pst : BitVec 3) : State :=
  { State.reset with
    mem := s.memoryLost, mod := { ({} : Module) with pst := pst, perst := true }, turn := s.turn, steps := s.steps
    free := s.free + 1, inputs := s.inputs, out := s.out }

/-- POWER_GOOD (R296): with PERST# asserted, off goes to reset. -/
def execPowerGood (s : State) : Host.Outcome State Fault Refusal :=
  if s.mod.pst = 1 && s.mod.perst then .next (s.setMod { s.mod with pst := 2 }) else .next s

/-- PERST_ASSERT (R296). -/
def execPerstAssert (s : State) : Host.Outcome State Fault Refusal :=
  if s.mod.pst = 1 then .next (s.setMod { s.mod with perst := true }) else .next (s.hardReset 2)

/-- POWER_LOSS (R296). -/
def execPowerLoss (s : State) : Host.Outcome State Fault Refusal := .next (s.hardReset 1)

/-- PERST_DEASSERT (R296): link training and the boot test begin. -/
def execPerstDeassert (s : State) : Host.Outcome State Fault Refusal := .next (s.setMod { s.mod with perst := false })

/-- Reduced service or recovery (R15, R296, R297): the first 16 TPs of die 0, the units of die 0, both clocks at 1.3 GHz, which is a
change of theirs (R282). -/
def Module.reduced (m : Module) (now : Nat) (pst : BitVec 3) (tps : List Nat) : Module :=
  let tps := (tps.filter (· < 64)).take 16
  { m with pst := pst, tps := tps, ntp0 := BitVec.ofNat 8 tps.length, ntp1 := 0, vdes := m.vdes.filter (fun e => e.1 == 0)
           cmes := m.cmes.filter (fun e => e.1 == 0), arith := 3, fabric := 2
           arithAt := if m.arith = 3 then m.arithAt else some now, fabricAt := if m.fabric = 2 then m.fabricAt else some now }

/-- The units of one kind, die by die, that are not among those in service: the kind, the die and the number (R299). -/
def missing (kind dies n : Nat) (have_ : List (Nat × Nat)) : List (Nat × Nat × Nat) :=
  (List.range dies).flatMap (fun d =>
    ((List.range n).filter (fun i => !have_.contains (d, i))).map (fun i => (kind, d, i)))

/-- BOOT_TEST_COMPLETE (R296, R297), once the host link has trained. -/
def execBootTestComplete (passed vdes cmes : List Nat) (s : State) : Host.Outcome State Fault Refusal :=
  let tps := (List.range 64).filter passed.contains
  if s.mod.pst != 2 || s.mod.perst || s.mod.host.gts = 0 || tps.isEmpty then .next s
  else
    let die0 (n : Nat) (l : List Nat) : List (Nat × Nat) := ((List.range n).filter l.contains).map (fun i => (0, i))
    let m := { s.mod with
      bootTps := tps, vdes := die0 16 vdes, cmes := die0 8 cmes
      leftOut := missing 0 1 64 (tps.map (fun i => (0, i))) ++ missing 1 1 16 (die0 16 vdes) ++ missing 2 1 8 (die0 8 cmes) }
    .next (s.setMod (m.reduced s.time 3 tps))

/-- Every context stops with cause 0x6A (R296). -/
def State.stopAll (s : State) : State :=
  (s.ctxs.map (fun e => e.1)).foldl (fun s c => s.fatal c (portRecord c 0x6A 0 s.time)) s

/-- A TP leaves service: the contexts of its save images take cause 0x6A (R264). A task that it runs goes on to its end (R296,
note 90). -/
def State.loseTp (s : State) (n : Nat) : State :=
  ((s.getTp n).images.map (fun i => i.ctx)).foldl (fun s c => s.fatal c (portRecord c 0x6A 0 s.time)) s

/-- The TPs in service are these: one that is left out has no pile and no binding, and the dealers place its pawns (R94, R299). -/
def State.leaveOut (s : State) (tps : List Nat) : State :=
  let out := s.tpNumbers.filter (fun n => !tps.contains n)
  let s := out.foldl State.loseTp s
  let es := out.flatMap (fun n =>
    let t := s.getTp n
    (t.frame.chip ++ t.frame.spill ++ t.bulk.chip ++ t.bulk.spill).map (fun e => (n, e)))
  let s := s.mapTps (fun n t => if tps.contains n then t else { t with frame := {}, bulk := {} })
  es.reverse.foldl (fun s x => s.pushPawn x.1 x.2) s

/-- The TPs of die 0 that passed the boot test and that no self-test has left out (R297, R299). -/
def Module.bootLeft (m : Module) : List Nat := m.bootTps.filter (fun i => !m.leftOut.contains (0, 0, i))

/-- Entry to recovery (R296): the pending writes that the peer port had not sent are lost with their contexts. -/
def State.enterRecovery (s : State) (hbmok : BitVec 1) : State :=
  let s := s.stopAll
  let m := { s.mod with hbmok := hbmok }.reduced s.time 5 s.mod.bootLeft
  { (s.leaveOut m.tps).setMod m with weak := s.weak.filter (fun w => !inPeer w.place) }

/-- Pawns dealt from now on use both dies (R88, R296). -/
def Launch.bothDies (l : Launch) : Launch := if l.hasD && l.nd = 1 then { l with nd := 2, next1 := l.next0 } else l

/-- SELF_TEST_COMPLETE (R296, R299): full service, or recovery from reduced service. A unit that failed is left out in both, and
stands in the list that the host reads (R291). -/
def execSelfTestComplete (trained bridge : Bool) (die0 die1 : List Nat) (vdes cmes : List (Nat × Nat)) (s : State) :
    Host.Outcome State Fault Refusal :=
  let t0 := (List.range 64).filter die0.contains
  let t1 := (List.range 64).filter die1.contains
  let hbmok : BitVec 1 := if trained then 1 else 0
  let ve := vdes.filter (fun e => e.1 < 2 && e.2 < 16)
  let ce := cmes.filter (fun e => e.1 < 2 && e.2 < 8)
  let tps := t0 ++ t1.map (· + 64)
  let s' := s.setMod { s.mod with leftOut := missing 0 2 64 (tps.map (fun n => (n / 64, n % 64))) ++ missing 1 2 16 ve ++ missing 2 2 8 ce }
  if s.mod.pst != 3 && s.mod.pst != 5 then .next s
  else if trained && bridge && !t0.isEmpty && !t1.isEmpty then
    let s := s'.leaveOut tps
    .next { s.setMod { s.mod with
      pst := 4, tps := tps, ntp0 := BitVec.ofNat 8 t0.length, ntp1 := BitVec.ofNat 8 t1.length, hbmok := 1, vdes := ve
      cmes := ce } with launches := s.launches.map Launch.bothDies }
  else
    let s := if s.mod.pst = 3 then s'.stopAll else s'
    let m := { s.mod with hbmok := hbmok, vdes := s.mod.vdes.filter ve.contains, cmes := s.mod.cmes.filter ce.contains }.reduced
      s.time 5 s.mod.bootLeft
    .next ((s.leaveOut m.tps).setMod m)

/-- RECOVERY_ENTRY (R296): the context that consumed an error of the bridge takes cause 0x63 (R246), the others 0x6A. -/
def execRecoveryEntry (why : RecoveryWhy) (s : State) : Host.Outcome State Fault Refusal :=
  if s.mod.pst != 4 then .next s
  else
    match why with
    | .bridge c =>
      let live : Bool := (s.ctx? c.toNat).isSome
      .next ((if live then s.fatal c.toNat (portRecord c.toNat 0x63 0 s.time) else s).enterRecovery s.mod.hbmok)
    | .stack => .next (s.enterRecovery 0)
    | .supervisor => .next (s.enterRecovery s.mod.hbmok)

/-! ## The banker (R277 to R282) -/

/-- Filler on the BE of a TP is charged to the context that last issued a B word there (R280). -/
def State.chargeFiller (s : State) (tile n : Nat) : State :=
  match (s.getTp tile).be.lastCtx with
  | none => s
  | some c =>
    let live : Bool := (s.ctx? c).isSome && !(s.getCtx c).stopped
    if !live then s else (s.changeCtx c (fun x => { x with fill := x.fill + 108 * n })).chargeBy true c ((108 * n : Nat) : Int)

/-- The energy in 2^−16 µJ by which the butterfly rail may change from one step of 100 ns to the next: 2.5 A at the voltage of its
point (R279, R281). -/
def Module.slew (m : Module) : Nat := [12288, 11468, 10649, 9830].getD m.arith 12288

/-- BE cycles of filler that would keep the butterfly rail from falling faster (R279). -/
def Module.filler (m : Module) : Nat := ceilDiv (m.drawn - m.slew - m.work) 108

/-- BE cycles of a step of 100 ns at the arithmetic clock's point (R281). -/
def Module.stepCycles (m : Module) : Nat := [260, 220, 180, 130].getD m.arith 130

/-- Filler over some BEs, each as many cycles as a step has, the first ones first: who injects how many. -/
def fillerOn (cap : Nat) : Nat → List Nat → List (Nat × Nat)
  | _, [] => []
  | n, t :: rest => if n = 0 then [] else (t, min n cap) :: fillerOn cap (n - min n cap) rest

/-- The TPs in service whose BE is idle (R154), a named one first. -/
def State.idleBes (s : State) (tile : Nat) : List Nat :=
  (tile :: s.mod.tps.filter (fun n => n != tile)).filter (fun n => s.mod.tps.contains n && (s.getTp n).be.chain.isNone)

/-- The shares of the rails at full load in a step of 100 ns, in units of 2^−16 µJ, and the module's limit (R16): butterfly,
vector, SRAM, fabric. -/
def railShares : List Nat := [3571712, 720896, 786432, 720896]
def moduleStep : Nat := 7864320

/-- What the rails may draw in the next step (R16, R279): what the banker names, or a rail's share where it names nothing; the
shares bound each where together they would draw more than the module may (note 102). The butterfly rail rises by 2.5 A at
most. -/
def railLimits (top : Nat) (asked : List (Option Nat)) : List Nat :=
  let l := railShares.mapIdx (fun i share => (asked.getD i none).getD share)
  let l := if l.foldl (· + ·) 0 ≤ moduleStep then l else l.mapIdx (fun i g => min g (railShares.getD i 0))
  l.mapIdx (fun i g => if i = 0 then min g top else g)

/-- A rail's grant for a step: work that it owes from earlier steps draws on it first (R279, note 12). -/
def Module.grant (m : Module) (r g : Nat) : Module :=
  let owed := (Map.find m.owed r).getD 0
  let carried := min owed g
  { m with
    grants := Map.put m.grants r (g - carried), owed := Map.put m.owed r (owed - carried)
    work := if r = 0 then carried else m.work }

/-- BANKER_GRANT (R279, R280): a step ends with its filler, on idle BEs; then each rail has a grant. -/
def execBankerGrant (butterfly vector sram fabric : Option Nat) (tile : BitVec 7) (s : State) : Host.Outcome State Fault Refusal :=
  let fill := fillerOn s.mod.stepCycles s.mod.filler (s.idleBes tile.toNat)
  let drawn := fill.foldl (fun n e => n + 108 * e.2) s.mod.work
  let m := ((railLimits (drawn + s.mod.slew) [butterfly, vector, sram, fabric]).zipIdx).foldl (fun m e => m.grant e.2 e.1) s.mod
  .next (fill.foldl (fun s e => s.chargeFiller e.1 e.2) (s.setMod { m with drawn := drawn }))

/-- Whether a clock may change now: at most once every 100 µs (R282). -/
def mayChange (last : Option Nat) (now : Nat) : Bool :=
  match last with
  | some t => t + 100000 ≤ now
  | none => true

/-- A clock changes to a point (R281): 0 arithmetic, 1 fabric. -/
def Module.point (m : Module) (clock : BitVec 1) (p now : Nat) : Module :=
  if clock = 0 then { m with arith := p, arithAt := some now } else { m with fabric := p, fabricAt := some now }

/-- OPERATING_POINT_CHANGE (R281, R282): clock 0 arithmetic, 1 fabric; never above the supervisor's maximum, and held in
reduced service and in recovery. -/
def execOperatingPointChange (clock : BitVec 1) (point : BitVec 2) (s : State) : Host.Outcome State Fault Refusal :=
  let ok : Bool := if clock = 0 then s.mod.maxArith ≤ point.toNat && mayChange s.mod.arithAt s.time
    else point.toNat ≤ 2 && s.mod.maxFabric ≤ point.toNat && mayChange s.mod.fabricAt s.time
  if s.mod.pst = 4 && ok then .next (s.setMod (s.mod.point clock point.toNat s.time)) else .next s

/-- The supervisor sets the highest point of a clock (R282): a clock above it goes down to it at once, or when it may change
again. -/
def State.setMax (s : State) (clock : BitVec 1) (p : Nat) : State :=
  let m := if clock = 0 then { s.mod with maxArith := p } else { s.mod with maxFabric := p }
  let s := s.setMod m
  let above : Bool := if clock = 0 then m.arith < p && mayChange m.arithAt s.time else m.fabric < p && mayChange m.fabricAt s.time
  if m.pst = 4 && above then s.setMod (m.point clock p s.time) else s

/-- A difference shared among some contexts: each but the last takes a free part of what is left. -/
def State.shareDelta (s : State) (delta : Int) : List Nat → State
  | [] => s
  | [c] => s.chargeBy true c delta
  | c :: rest =>
    let r := s.takeNat
    let part : Int := delta.sign * ((r.1 % (delta.natAbs + 1) : Nat) : Int)
    State.shareDelta (r.2.chargeBy true c part) (delta - part) rest

/-- ENERGY_CORRECTION (R277): every 10 µs the energy metered on the rails of a TP is compared with the charges for its work; the
difference goes to the context that ran there. Of several each has a part, and the parts that no rule gives are free (note 103);
where no task ran it goes to none. -/
def execEnergyCorrection (tile : BitVec 7) (m : RailEnergy) (s : State) : Host.Outcome State Fault Refusal :=
  let t := s.getTp tile.toNat
  if !boundaryPassed 10000 t.meterAt s.time then .next s
  else
    let charged : Nat := t.spent.foldl (fun n e => n + e.2) 0
    let delta : Int := ((m.butterfly + m.vector + m.sram + m.fabric : Nat) : Int) - (charged : Int)
    let now := if t.cur = 0 then [] else [(t.taskOf t.cur).ctx]
    let s := s.setTp tile.toNat { t with spent := [], ran := now, meterAt := s.time }
    .next (s.shareDelta delta t.ran)

/-- The next boundary of a period after a time. -/
def nextBoundary (per last : Nat) : Nat := (last / max 1 per + 1) * per

/-- The refill at the end of a period (R276). -/
def Ctx.refill (c : Ctx) : Ctx :=
  { c with
    nper := if c.bal < 0 then c.nper + 1 else c.nper
    bal := (c.quota * 65536 : Nat) + min c.bal 0 }

/-- The boundary at which a setting that the supervisor has written takes effect: the next one of its own period (R276). -/
def Ctx.settleAt (c : Ctx) : Option (Dword × Nat) :=
  c.e0Next.map (fun e => (e.1, nextBoundary (bits e.1.toNat 0 20 * 1000) e.2))

/-- The next boundary of a context, if it has passed (R276): that of a new setting comes first where it is not later than the one
of the old period. -/
def Ctx.boundary (c : Ctx) (now : Nat) : Ctx :=
  let old := nextBoundary c.period c.lastEnd
  let keeps : Bool := c.quota != 0 && old ≤ now
  match c.settleAt with
  | some (v, b) =>
    if b ≤ now && (!keeps || b ≤ old) then
      let c := { c with e0 := v, e0Next := none, lastEnd := b }
      if c.quota = 0 then c else c.refill
    else if keeps then { c.refill with lastEnd := old } else c
  | none => if keeps then { c.refill with lastEnd := old } else c

/-- Every boundary that has passed, `fuel` at most. -/
def Ctx.upTo (now : Nat) : Nat → Ctx → Ctx
  | 0, c => c
  | fuel + 1, c => Ctx.upTo now fuel (c.boundary now)

/-- A context with its device fields up to date (R273): no period is shorter than 100 µs. -/
def Ctx.upToDate (c : Ctx) (now : Nat) : Ctx := Ctx.upTo now ((now - c.lastEnd) / 100000 + 2) c

/-- The energy settings of a context change: a balance then at or below zero stops the context's tasks (R275). -/
def State.changeEnergy (s : State) (ctx : Nat) (f : Ctx → Ctx) : State :=
  let s := s.changeCtx ctx f
  let c := s.getCtx ctx
  if c.quota != 0 && c.bal ≤ 0 then s.requestAll ctx else s

/-- QUOTA_PERIOD_END (R276): one boundary at a time. -/
def execQuotaPeriodEnd (ctx : BitVec 8) (s : State) : Host.Outcome State Fault Refusal :=
  .next (s.changeEnergy ctx.toNat (fun c => c.boundary s.time))

/-- CAP_WINDOW_END (R271). -/
def execCapWindowEnd (tenant : BitVec 4) (s : State) : Host.Outcome State Fault Refusal :=
  match Map.find s.tenants tenant.toNat with
  | none => .next s
  | some t =>
    if boundaryPassed t.window t.lastEnd s.time then
      .next (s.setTenant tenant.toNat { t with usedb := 0, passed := [], lastEnd := s.time })
    else .next s

/-- LOGICAL_CLOCK_ADVANCE (R208): every 20 µs, the clocks of the access cores and the service cores. -/
def execLogicalClockAdvance (s : State) : Host.Outcome State Fault Refusal :=
  if boundaryPassed 20000 s.lcAt s.time then
    .next { s.mapTps (fun _ t => { t with ac := { t.ac with lc := t.ac.lc + 4096 } }) with
      lcAt := nextBoundary 20000 s.lcAt
      cores := (List.range 16).foldl (fun m i =>
        let c := s.core i
        Map.put m i { c with lc := c.lc + 4096 }) s.cores }
  else .next s

/-! ## Temperature (R283, R284) -/

/-- Row of the table for a reading. -/
def rowOf : Option Nat → Nat
  | none => 3
  | some t => if 105 ≤ t then 3 else if 95 ≤ t then 2 else if 85 ≤ t then 1 else 0

/-- Lower bound of a row. -/
def rowBound (r : Nat) : Nat := if r = 1 then 85 else if r = 2 then 95 else 105

/-- A stack after a reading: up at once, down after two readings at least 3 °C below the bound. -/
def Stack.read (k : Stack) (c : Option Nat) : Stack :=
  let new := rowOf c
  let k := { k with reading := c.map (fun x => (x : Int)) }
  if k.row < new then { k with row := new, cool := 0 }
  else
    match c with
    | some t =>
      if k.row != 0 && t + 3 ≤ rowBound k.row then (if k.cool = 0 then { k with cool := 1 } else { k with row := new, cool := 0 })
      else { k with cool := 0 }
    | none => { k with cool := 0 }

/-- HBM_TEMPERATURE_READING (R269, R283, R284). -/
def execHbmTemperatureReading (stack : BitVec 3) (celsius : Option Nat) (s : State) : Host.Outcome State Fault Refusal :=
  let old := (Map.find s.mod.hbmStacks stack.toNat).getD {}
  let new := old.read celsius
  let s := s.setMod { s.mod with hbmStacks := Map.put s.mod.hbmStacks stack.toNat new }
  if new.row = 3 && old.row != 3 then
    .next ((s.tenants.filterMap (fun e => e.2.thermalVec.map (fun v => (e.1, v)))).foldl
      (fun s e => s.raiseVector e.1 e.2) (s.emit (.thermal stack.toNat)))
  else .next s

/-! ## Soft errors (R266) -/

/-- Poison a word of the TP in focus. -/
def State.poisonTp (s : State) (kind i : Nat) : State := { s with tp := { s.tp with poison := (kind, i) :: s.tp.poison } }

/-- SOFT_ERROR (R266), on the TP in focus. -/
def execSoftError (e : SoftErr) (s : State) : Host.Outcome State Fault Refusal :=
  match e with
  | .single => .next (s.setMod { s.mod with corrected := s.mod.corrected + 1 })
  | .hbm p => if inHbm p then .next (s.setMod { s.mod with poison := p / 8 * 8 :: s.mod.poison }) else .next s
  | .bank a => if a < 0x200000 then .next (s.poisonTp 0 (a / 8 * 8)) else .next s
  | .tile r c => if c < 1024 then .next (s.poisonTp 1 (r.toNat * 512 + c / 2)) else .next s
  | .acc r c => if c < 1024 then .next (s.poisonTp 2 (r.toNat * 1024 + c)) else .next s
  | .queue q entry => if entry < s.queueLen q.toNat then .next (s.poisonTp 3 (16 * q.toNat + entry)) else .next s
  | .control => .next { s with tp := { s.tp with parity := true } }
  | .tlb k => .next { s with tp := { s.tp with tlb := s.tp.tlb.eraseIdx k } }
  | .datapath r c b =>
    let v := Sparse.get (s.getAcc r.toNat) c
    if c < 1024 then .next (s.setAcc r.toNat (Sparse.set (s.getAcc r.toNat) c (v ^^^ BitVec.ofNat 64 (2 ^ b.toNat)))) else .next s

/-! ## The supervisor (R77, R160, R229, R234, R247, R253, R267 to R273) -/

/-- Answer of an interface that refuses a request: the old settings stay. -/
def State.refuseUnless (s : State) (b : Bool) (t : State) : State := if b then t else s.emit .refusedRequest

/-- An E0 that the context interface takes (R273). -/
def goodE0 (v : Dword) : Bool := bits v.toNat 21 11 == 0 && 100 ≤ bits v.toNat 0 20 && bits v.toNat 0 20 ≤ 1000000

/-- The energy block (R273). Between a write of E0 and the boundary at which its QUOTA and PER take effect, a read of E0 shows the
old ones: the manual does not say which it shows (DESIGN CHOICE, note 104). -/
def Ctx.block (c : Ctx) : List Dword :=
  [c.e0, BitVec.ofNat 64 (wrapTo c.bal 64), c.used, BitVec.ofNat 64 (c.fill / 65536 % 2 ^ 32 * 2 ^ 32 + c.nper.toNat)]

/-- Write E0: REPL holds at once, QUOTA and PER from a boundary of the new period (R276). -/
def Ctx.writeE0 (c : Ctx) (v : Dword) (now : Nat) : Ctx :=
  { c with
    e0 := BitVec.ofNat 64 (c.e0.toNat - bits c.e0.toNat 20 1 * 2 ^ 20 + bits v.toNat 20 1 * 2 ^ 20)
    e0Next := some (v, now) }

/-- A peer window entry that the supervisor takes (R294). -/
def goodWindow (w0 w1 : Dword) : Bool :=
  bits w0.toNat 2 14 == 0 && bits w1.toNat 32 32 == 0 && (!bitAt w0.toNat 0 || bits w1.toNat 0 32 != 0)

/-- RIDX and CIDX become WIDX (R253): the queue is not backlogged (R176). A descriptor, or a record of its stream, that cannot be
read is cause 0x60 (R266, R297). -/
def State.resetQueue (s : State) (q : Nat) (lq : LaunchQueue) : State :=
  if !s.queueReadable lq then s.launchStop q lq 0 (.fatal 0x60 0 0)
  else
    let w := Memory.read s.mem (lq.desc + 16) 4
    let s := (s.setIndex lq 24 w).setIndex lq 32 w
    { s with queues := Map.put s.queues q { lq with widx := w, faulted := false } }.cutIdle q

/-- The cap block takes a new V0 (R271): a window boundary that has passed comes first. -/
def Tenant.setCap (t : Tenant) (v0 : Dword) (now : Nat) : Tenant :=
  let gone : Bool := boundaryPassed t.window t.lastEnd now
  { t with v0 := v0, lastEnd := now, usedb := if gone then 0 else t.usedb, passed := if gone then [] else t.passed }

/-- A stream store is bound to a VDE, which holds 48 at most (R405). -/
def State.bindTo (s : State) (n c record : Nat) (vde : MediaEng) (codec : CodecId) : State :=
  let others := s.streams.filter (fun e => e.1 != n && e.2.vde == vde && e.2.held)
  s.setStream n { ctx := c, record := record, vde := vde, codec := codec, held := others.length < 48 }

/-- A request through an interface of the supervisor, in a state that accepts work. A cap block whose reserved field V0[31:20] is
not zero is refused whole, as one whose window is out of range: the manual states no fate for it (DESIGN CHOICE, note 62). -/
def State.serve (r : SupRequest) (s : State) : Host.Outcome State Fault Refusal :=
  match r with
  | .createContext c t root pasid svc =>
    let new : Ctx := { tenant := t.toNat, root := root.toNat, pasid := pasid.toNat, svc := svc }
    .next (s.refuseUnless (s.ctx? c.toNat).isNone { s with ctxs := Map.put s.ctxs c.toNat new })
  | .setServiceEntry c svc => .next (s.changeCtx c.toNat (fun c => { c with svc := svc }))
  | .setEnergy c e0 => .next (s.refuseUnless (goodE0 e0) (s.changeEnergy c.toNat (fun c => (c.upToDate s.time).writeE0 e0 s.time)))
  | .setCap t v0 =>
    let w := bits v0.toNat 0 20
    .next (s.refuseUnless (bits v0.toNat 20 12 == 0 && 1000 ≤ w && w ≤ 10000)
      (s.setTenant t.toNat ((s.getTenant t.toNat).setCap v0 s.time)))
  | .setFaultVector t v => .next (s.setTenant t.toNat { (s.getTenant t.toNat) with faultVec := v.toNat })
  | .setThermalVector t v => .next (s.setTenant t.toNat { (s.getTenant t.toNat) with thermalVec := v.map BitVec.toNat })
  | .setCarve t base limit =>
    .next (s.refuseUnless (base < limit && limit ≤ hbmTop && base % 2 ^ 29 == 0 && limit % 2 ^ 29 == 0)
      (s.setTenant t.toNat { (s.getTenant t.toNat) with base := base, limit := limit }))
  | .setPeerWindow c k w0 w1 =>
    .next (s.refuseUnless (goodWindow w0 w1)
      ((s.changeCtx c.toNat (fun x => { x with windows := Map.put x.windows k.toNat (w0, w1) })).mapTps
        (fun _ t => t.revoke (fun ctx space _ => ctx == c.toNat && space == k.toNat + 2))))
  | .setInboundWindow k base size =>
    .next (s.refuseUnless (base % 65536 == 0 && size % 65536 == 0 && base + size ≤ hbmTop)
      (s.setMod { s.mod with inbound := Map.put s.mod.inbound k.toNat (base, size) }))
  | .createQueue q c desc =>
    let new : LaunchQueue := { ctx := c.toNat, desc := desc, widx := Memory.read s.mem (desc + 24) 4 }
    let owner := bits (Memory.read s.mem (desc + 8) 8) 0 8
    .next (s.refuseUnless ((Map.find s.queues q.toNat).isNone && (s.ctx? c.toNat).isSome && owner == c.toNat && desc % 64 == 0 &&
        desc + 64 ≤ hbmTop && !s.unreadable desc 40)
      { s with queues := Map.put s.queues q.toNat new })
  | .resetQueue q =>
    match Map.find s.queues q.toNat with
    | some lq => .next (s.resetQueue q.toNat lq)
    | none => .next (s.emit .refusedRequest)
  | .restartContext c =>
    .next { (s.reportStop c.toNat).changeCtx c.toNat (fun c => { c with stopped := false, fatal := none }) with
      queues := s.queues.map (fun e => if e.2.ctx = c.toNat then (e.1, { e.2 with stopped := false }) else e) }
  | .bindStream n c record vde codec =>
    .next (s.refuseUnless ((s.ctx? c.toNat).isSome && record % 64 == 0 && record + 64 ≤ hbmTop && !vde.cme &&
        s.mediaInService vde)
      (s.bindTo n.toNat c.toNat record vde codec))
  | .releaseFrame f => .next (s.untrack f)
  | .readCounter c k => .next (s.emit (.value [((Sparse.get (s.getCtx c.toNat).counters k.toNat)).setWidth 64]))
  | .clearCounter c k => .next (s.changeCtx c.toNat (fun c => { c with counters := Sparse.set c.counters k.toNat 0 }))
  | .readEnergy c =>
    let s := s.changeEnergy c.toNat (fun c => c.upToDate s.time)
    .next (s.emit (.value (s.getCtx c.toNat).block))
  | .readTelemetry =>
    .next (s.emit (.value ((List.range 8).flatMap (fun i =>
      let k := (Map.find s.mod.hbmStacks i).getD {}
      [BitVec.ofNat 64 (wrapTo (k.reading.getD 0) 64), BitVec.ofNat 64 k.row]) ++
      s.mod.leftOut.map (fun u => BitVec.ofNat 64 (u.1 * 65536 + u.2.1 * 256 + u.2.2)))))
  | .rekey port stream =>
    let good (l : Link) : Link := { l with insecure := l.insecure.filter (· != stream) }
    match port with
    | .host =>
      let s := (s.setMod { s.mod with host := good s.mod.host }).askWaiting
      .next ((s.tenants.map (fun e => e.1)).foldl State.sendAllPending s)
    | .peer => .next (s.setMod { s.mod with peer := good s.mod.peer })
  | .requestService n =>
    let t := s.getTp n.toNat
    .next (if t.cur = 0 then s else s.setTp n.toNat { t with ac := { t.ac with svcReq := true } })
  | .setMaxPoint clock point =>
    .next (s.refuseUnless (clock == 0 || point.toNat ≤ 2) (s.setMax clock point.toNat))
  | .setMember n => .next (s.setMod { s.mod with member := n })
  | .setSpill n => .next (s.setMod { s.mod with spillCap := n })

/-- SUPERVISOR_INTERFACE_REQUEST (R273): the supervisor runs in power states 3 to 5 (R296). -/
def execSupervisorInterfaceRequest (r : SupRequest) (s : State) : Host.Outcome State Fault Refusal :=
  if s.awake then s.serve r else .next (s.emit .refusedRequest)

/-! ## Service cores (R198, R207, R208) -/

/-- A service core reads within one line (R207): its copy while the lease lasts, or the home, as its die sees it, with a new lease;
which, is free for each unit where both are allowed (R200). -/
def State.coreLoadLine (s : State) (n p k : Nat) : List Byte × State :=
  let c := s.core n
  let l := lineOf p
  let clock := c.lc + 1
  let copies (x : CLine) : List CLine := x :: c.cache.filter (fun y => y.line != l)
  let fresh (s : State) : List Byte × State :=
    let mem := s.view (64 * (n / 8)) (coreCode n)
    let r := s.leaseLine clock l mem
    (Sparse.run mem p k, r.2.2.setCore n { lc := r.1, cache := copies r.2.1 })
  match c.cache.find? (fun x => x.line == l && clock ≤ x.rts) with
  | none => fresh s
  | some x =>
    let m := s.takeNat
    let old := Sparse.run x.bytes p k
    if m.1 % 2 = 1 then (old, m.2.setCore n { c with lc := max clock x.wts })
    else
      let r := fresh m.2
      (mixUnits m.1 s.wide p old r.1, r.2)

/-- A service core reads some bytes, line by line. -/
def State.coreLoad (s : State) (n p k : Nat) : List Byte × State :=
  (linesOf p k).foldl (fun (acc : List Byte × State) l =>
    let lo := max p (l * 128)
    let r := acc.2.coreLoadLine n lo (min (p + k) (l * 128 + 128) - lo)
    (acc.1 ++ r.1, r.2)) ([], s)

/-- The contexts are 0 to 255; what a service core writes is the supervisor's. -/
def supervisorCtx : Nat := 256

/-- A service core's store (R200, R207), after its earlier ones and after the pending writes to its bytes that its die sees (R201):
one unit takes its place at once, and several wait, each for its own. -/
def State.coreStore (s : State) (n p : Nat) (bs : List Byte) : State :=
  let tp := 64 * (n / 8)
  let s := s.drain (fun w => w.agent == coreCode n || (w.seen tp (coreCode n) && w.overlaps p bs.length))
  let units := unitsOf p bs
  let w (u : Nat × List Byte) : WeakWrite :=
    { tp := tp, agent := coreCode n, path := 0, ctx := supervisorCtx, lid := 0, place := u.1, bytes := u.2 }
  if units.length ≤ 1 then units.foldl (fun s u => (s.beforeTracked u.1 u.2.length).performOne (w u)) s
  else { s with weak := s.weak ++ units.map w }

/-- Size of a leaf by its SZ code, as a power of two (R228). -/
def leafLog (sz : Nat) : Nat := [16, 16, 29, 42].getD sz 16

/-- Whether a service core works (R296). -/
def State.coreWorks (s : State) (core : Nat) : Bool := s.mod.pst = 4 || (s.awake && core < 8)

/-- SERVICE_CORE_LOAD_OR_STORE (R207, R224, R229): a path-C access; through a TC leaf the tracking bits of all its frames are set first. A
word that cannot be read answers as poisoned (R266, R297). -/
def execServiceCoreLoadOrStore (a : CoreAccess) (tc : Bool) (place : Nat) (data : List Byte) (s : State) :
    Host.Outcome State Fault Refusal :=
  if !s.coreWorks a.core.toNat then .next s
  else
    let size := 2 ^ leafLog a.leaf.toNat
    let base := place / size * size
    let s := if tc && inHbm place then s.track (frameOf base) (min size (hbmTop - base) / 0x10000) else s
    if a.store then .next (if s.offDie place data.length then s.emit .poisoned else s.coreStore a.core.toNat place data)
    else if s.unreadable place data.length then .next (s.emit .poisoned)
    else
      let s := s.drain (fun w => w.agent == coreCode a.core.toNat)
      let r := s.coreLoad a.core.toNat place data.length
      .next (r.2.emit (.completion r.1))

/-! ## Special functions (R124) -/

/-- SPECIAL_FUNCTION_WRITE (R124): the delayed writes whose cycle has come. -/
def execSpecialFunctionWrite (s : State) : Host.Outcome State Fault Refusal := .next s.settleE

end Sys2Proof.Machine
end

