-- ==== Sys2Proof/Machine/Stage.lean ====
section
/-!
DEFINITION. Words of the B stream (06 R131 to R155; 15 R338, R339, R346 to R358).
-/
namespace Sys2Proof.Machine

/-! ## Semirings (R145) -/

def oneV : Val := .fin false 1 0

/-- PROD of a semiring, in binary64. -/
def prodOf (semi : Nat) (w x : Val) : Val :=
  match semi with
  | 1 => add64 w x
  | 3 => if !w.isZero && !x.isZero then oneV else zeroV
  | _ => to64 (mulV w x)

/-- COMB of a semiring. -/
def combOf (semi : Nat) (a b : Val) : Val :=
  match semi with
  | 0 => add64 a b
  | 1 => minV a b
  | 2 => maxV a b
  | _ => if !a.isZero || !b.isZero then oneV else zeroV

/-- The identity of a semiring. -/
def identityOf (semi : Nat) : Val :=
  match semi with
  | 1 => .inf false
  | 2 => .inf true
  | _ => zeroV

/-! ## Geometry (R131, R132) -/

/-- Log2 of stride and block, and the axis: 1 rows. -/
structure Geo where
  k : Nat
  m : Nat
  ax : Nat
deriving DecidableEq, Repr

/-- The dense stage: s = b = 32 on the column axis. -/
def denseGeo : Geo := ⟨5, 5, 0⟩

/-- The geometry of a word. -/
def geoOf (w : BWord) : Geo := ⟨w.str.toNat, w.blk.toNat, w.ax.toNat⟩

/-- Elements of weights that a stage reads (R131). -/
def Geo.weights (g : Geo) : Nat := (if g.ax = 1 then 32 else 128) * 2 ^ g.m

/-- Pair, output number c, and first position of L of an output position (R131, R135). -/
def Geo.place (g : Geo) (pos : Nat) : Nat × Nat × Nat :=
  let s := 2 ^ g.k
  let b := 2 ^ g.m
  let run := pos / (2 * s)
  let o := pos % s
  (run * (s / b) + o / b, o % b + (if bitAt pos g.k then b else 0), run * (2 * s) + o / b * b)

/-- Position of input `q` of a pair with first position `lo` (R132). -/
def Geo.input (g : Geo) (lo q : Nat) : Nat := if q < 2 ^ g.m then lo + q else lo + 2 ^ g.k + (q - 2 ^ g.m)

/-- The cell of a position on the line of a cell (i, j). -/
def Geo.cell (g : Geo) (i j pos : Nat) : Nat := if g.ax = 1 then 64 * pos + j else 64 * i + pos

/-- The output of an element-level stage at cell (i, j) (R135, R150): a term that is not formed enters as +0. -/
def stageCell (g : Geo) (semi : Nat) (trn : Bool) (wts xs : Nat → Option Val) (i j : Nat) : Val :=
  let b := 2 ^ g.m
  let (p, c, lo) := g.place (if g.ax = 1 then i else j)
  let term (q : Nat) : Val :=
    let wi := p * 4 * b * b + (if trn then q * 2 * b + c else c * 2 * b + q)
    match wts wi, xs (g.cell i j (g.input lo q)) with
    | some w, some x => prodOf semi w x
    | _, _ => zeroV
  pair (combOf semi) (g.m + 1) zeroV ((List.range (2 * b)).map term)

/-- The position that BPRM moves to a position of an axis with `n` = 2^`l` positions (R144). -/
def permSource (fn : Nat) (g : Geo) (l pos : Nat) : Nat :=
  let n := 2 ^ l
  match fn with
  | 0 => if bitAt pos g.k then pos - 2 ^ g.k else pos + 2 ^ g.k
  | 1 => (List.range l).foldl (fun v t => v + (if bitAt pos t then 2 ^ (l - 1 - t) else 0)) 0
  | 2 => pos / 2 + pos % 2 * (n / 2)
  | _ => pos * 2 % n + pos / (n / 2)

/-! ## Timing as charges (R153, R176, R274) -/

/-- The factor f of a weight format. -/
def weightFactor (f : Fmt) : Nat :=
  match f with
  | .fp16 | .bf16 | .int16 => 2
  | .fp32 | .int32 => 4
  | _ => 1

/-- The speed-up of a sparse stage (R147). -/
def speedup (spm : Nat) (twt : Tensor) : Nat :=
  let w := if twt.spm = 1 || twt.spm = 2 then 4 else 2
  match spm with
  | 0 => 1
  | 1 => w
  | 2 => 2
  | _ => 2 * w

/-- Word cycles with `g` slices (R153). -/
def wordCycles (g b f sp : Nat) : Nat := max 1 (ceilDiv (b * f) (g * sp))

/-- A stage word: its fields, its geometry, whether it writes an accumulator, and whether it is BPRM. -/
structure StageWord where
  w : BWord
  geo : Geo
  toAcc : Bool
  perm : Bool
deriving DecidableEq, Repr

/-- The stage word of an instruction. -/
def stageWord : Instr → Option StageWord
  | .bstg w => some ⟨w, geoOf w, false, false⟩
  | .bstgAcc w => some ⟨w, geoOf w, true, false⟩
  | .bdns w => some ⟨w, denseGeo, false, false⟩
  | .bdnsAcc w => some ⟨w, denseGeo, true, false⟩
  | .bsem w => some ⟨w, geoOf w, false, false⟩
  | .bsemAcc w => some ⟨w, geoOf w, true, false⟩
  | .bspa w => some ⟨w, denseGeo, false, false⟩
  | .bspaAcc w => some ⟨w, denseGeo, true, false⟩
  | .bprm w => some ⟨w, geoOf w, false, true⟩
  | _ => none

/-- The words of the chain that stand from an address on, `fuel` at most. -/
def State.chainAhead (s : State) : Nat → Dword → List StageWord
  | 0, _ => []
  | fuel + 1, pc =>
    match s.fetch (s.tp.taskOf s.tp.be.task) pc.toNat 12 with
    | .error _ => []
    | .ok (bs, _) =>
      match Decode.decode .b bs with
      | .ok (i, _) =>
        match stageWord i with
        | some k => if k.w.pos = 2 then k :: State.chainAhead s fuel (pc + 12) else if k.w.pos = 3 then [k] else []
        | none => []
      | .error _ => []

/-- The task of the B stream. -/
def State.bTask (s : State) : Task := s.tp.taskOf s.tp.be.task

/-- Cycles of one word of a chain of `n` words, by the weights that its entry names now. -/
def State.cyclesOf (s : State) (n : Nat) (k : StageWord) : Nat :=
  if k.perm then 1
  else
    match s.tensor s.bTask k.w.twt.toNat with
    | .ok (t, _) => wordCycles (if n = 1 then 4 else if n = 2 then 2 else 1) (2 ^ k.geo.m) (weightFactor t.fmt)
        (speedup k.w.spm.toNat t)
    | .error _ => 1

/-- Cycles to next issue of the chain that begins with a word (R153). -/
def State.chainCycles (s : State) (k : StageWord) : Nat :=
  let l := if k.w.pos = 0 then [k] else k :: s.chainAhead 3 (s.tp.be.pc + 12)
  (l.map (s.cyclesOf l.length)).foldl max 1

/-- Subtract BE cycles from the deficit of the task's stream queue, and add them to its tenant's window (R176, R271): a record that
cannot be read is cause 0x60 (R266, R297). -/
def State.chargeDef (s : State) (k : Task) (n : Nat) : Try State :=
  match k.strm with
  | none => .ok s
  | some (ssid, _) =>
    match Map.find s.streams ssid with
    | none => .ok s
    | some st =>
      if s.unreadable st.record 64 then .error (.fatal 0x60 0 0)
      else
        let s := s.setDeficit ssid (s.deficit ssid - n)
        let id := (s.getCtx k.ctx).tenant
        let t := s.getTenant id
        .ok (s.setTenant id { t with usedb := min (t.usedb + n) (2 ^ 32 - 1) })

/-! ## Issue of a B word -/

/-- The issue of a B word up to its own effect: its token is there, its checks pass, the energy gate lets it pass (R275); then
it takes its token. What its checks found, and the state in which it acts. -/
def State.bReady {β : Type} (s : State) (from_ n : Nat) (check : State → Try (β × State)) (cost cycles : State → β → Nat) :
    Try (β × State) :=
  if from_ != 0 && (s.tokens from_ 3 < n || !s.tp.ownStream 3) then .error .wait
  else
    match check s with
    | .error e => .error e
    | .ok (b, s) =>
      let c := cycles s b
      match s.gate s.bTask.ctx 3 (cost s b) with
      | .error e => .error e
      | .ok s =>
        let s := if from_ = 0 then s else s.takeTokens from_ 3 n
        match (if c = 0 then .ok s else s.chargeDef s.bTask c) with
        | .error e => .error e
        | .ok s => .ok (b, s.setBe { s.tp.be with since := s.tp.be.since + 1, lastCtx := some s.bTask.ctx })

/-- Issue a B word, and its effect. -/
def State.bIssue {β : Type} (s : State) (from_ n : Nat) (check : State → Try (β × State)) (cost cycles : State → β → Nat)
    (act : β → State → Try State) : Try State :=
  match s.bReady from_ n check cost cycles with
  | .error e => .error e
  | .ok (b, s) => act b s

/-- A B word that stands between chains: 0x40 reason 1 inside one (R138). -/
def betweenChains (s : State) : Try State :=
  if s.tp.be.chain.isSome then .error (.fatal 0x40 1 0) else .ok s

/-- Push a token at retire, and move to the next word. -/
def State.bNext (s : State) (tkp : BitVec 3) : State :=
  s.setBe { s.tp.be with pc := s.tp.be.pc + 12
                         pushes := if tkp = 0 then s.tp.be.pushes else s.tp.be.pushes ++ [.token 0 tkp.toNat] }

/-- A B-stream word. -/
def beStep (s : State) (f : State → Try State) : Host.Outcome State Fault Refusal :=
  match f s with
  | .ok s' => .next s'
  | .error e => .next (s.stopUnit 3 none e)

/-- A word between chains issues: its own check passes as well. -/
def State.bReadyPlain (s : State) (w : BWord) (cycles : Nat) (check : State → Try State) : Try (Unit × State) :=
  s.bReady w.tkw.toNat 1
    (fun s => match betweenChains s with
      | .error e => .error e
      | .ok s => match check s with
        | .error e => .error e
        | .ok s => .ok ((), s))
    (fun _ _ => 108 * cycles) (fun _ _ => cycles)

/-- A word between chains with its cost in cycles. -/
def bWord (s : State) (w : BWord) (cycles : Nat) (check : State → Try State) (act : State → Try State) :
    Host.Outcome State Fault Refusal :=
  beStep s (fun s => match s.bReadyPlain w cycles check with
    | .error e => .error e
    | .ok (_, s) => act s)

/-- The tile of a word with the open loops' adjustment (R353). -/
def State.tileOfWord (s : State) (w : BWord) : Nat :=
  (s.tp.be.loops.foldl (fun n l => n + l.k * l.inc) w.tile.toNat) % 2 ^ 15

/-! ## Checks of a word's tensors (R473) -/

/-- Bank group of a tensor. -/
def Tensor.group (t : Tensor) : Nat := t.addr / 0x80000

/-- A format is allowed as TIN or TWT (R136, R145). -/
def Tensor.inputOk (t : Tensor) (semi : Nat) (weights : Bool) : Bool :=
  t.fmtOk &&
    (if semi = 3 then (t.fcode == 5 || t.fcode == 6) && t.saddr == 0 && t.sbase == 0x3F800000
      else t.fcode != 10 && (t.fcode != 9 || (weights && semi == 0)))

/-- A tensor is allowed as TOUT (R137). -/
def Tensor.outputOk (t : Tensor) : Bool :=
  t.fmtOk && t.fcode != 9 && t.saddr == 0 && t.sbase == 0x3F800000 && t.spm == 0

/-- A tensor is local with its arrays, and all of it lies in operand banks (R55, R56). -/
def Tp.inOperand (tp : Tp) (t : Tensor) : Bool :=
  t.kind == 2 && tp.inRoles [2] t.addr t.extent &&
    (t.saddr == 0 || (t.sloc && tp.inRoles [2] t.saddr t.scaleBytes)) &&
    (t.spm == 0 || (t.iloc && tp.inRoles [2] t.iaddr t.indexBytes))

/-- A tensor's arrays lie in its own group (R61). -/
def Tensor.ownGroup (t : Tensor) : Bool :=
  (t.saddr == 0 || t.saddr / 0x80000 == t.group) && (t.spm == 0 || t.iaddr / 0x80000 == t.group)

/-- The tensors that a word names. -/
structure Named where
  tin : Option Tensor
  twt : Option Tensor
  tout : Option Tensor
deriving Inhabited

/-- A condition on a tensor, when it is named. -/
def whenNamed (t : Option Tensor) (f : Tensor → Bool) : Bool :=
  match t with
  | some t => f t
  | none => true

/-- Read an entry when a word names it. -/
def State.bEntry (s : State) (named : Bool) (n : BitVec 8) : Try (Option Tensor × State) :=
  if !named then .ok (none, s)
  else
    match s.tensor s.bTask n.toNat with
    | .error e => .error e
    | .ok (t, s) => .ok (some t, s)

/-- The entries that a word names, in the order TIN, TWT, TOUT. -/
def State.bEntries (s : State) (w : BWord) (tin twt tout : Bool) : Try (Named × State) :=
  match s.bEntry tin w.tin with
  | .error e => .error e
  | .ok (a, s) =>
    match s.bEntry twt w.twt with
    | .error e => .error e
    | .ok (b, s) =>
      match s.bEntry tout w.tout with
      | .error e => .error e
      | .ok (c, s) => .ok (⟨a, b, c⟩, s)

/-- Steps 3 and 4 of R473: formats, banks. -/
def State.bFormats (s : State) (n : Named) (semi : Nat) : Try Unit :=
  if !(whenNamed n.tin (fun t => t.inputOk semi false) && whenNamed n.twt (fun t => t.inputOk semi true) &&
      whenNamed n.tout Tensor.outputOk) then .error (.fatal 0x41 0 0)
  else if !(whenNamed n.tin s.tp.inOperand && whenNamed n.twt s.tp.inOperand && whenNamed n.tout s.tp.inOperand) then
    .error (.fatal 0x43 0 0)
  else .ok ()

/-- COLS of the weights (R136, reason 4 of R155): 64 for a word other than BSPA, 8N of compressed weights for BSPA. Dense weights
of a BSPA of SPM 2 have 64, as the dense stage that it stands for (note 85). -/
def weightCols (w : BWord) (t : Tensor) : Bool :=
  if w.spm = 0 then t.cols == 64
  else if 1 ≤ t.spm && t.spm ≤ 4 then t.cols == 8 * t.kept
  else t.spm != 0 || w.spm != 2 || t.cols == 64

/-- Weights: COLS (note 85), the last logical row, and WOFF of compressed weights, SPM 1 to 4 (R148; reason 4 of R155). -/
def weightsOk (w : BWord) (t : Tensor) (elements : Nat) : Bool :=
  weightCols w t && w.woff.toNat + ceilDiv elements 64 ≤ t.rows * t.planes &&
    (t.spm == 0 || 5 ≤ t.spm || w.woff.toNat % t.unit == 0)

/-- The entries agree with SPM of the word (R147). -/
def sparseOk (spm : Nat) (n : Named) : Bool :=
  whenNamed n.twt (fun t => if spm = 1 || spm = 3 then 1 ≤ t.spm && t.spm ≤ 4 else t.spm == 0) &&
    whenNamed n.tin (fun t => if 2 ≤ spm then t.spm == 5 else t.spm == 0)

/-! ## Compressed operands (R148, R149) -/

/-- Index `k` of some index bytes: a nibble. -/
def nibble (bs : List Byte) (k : Nat) : Nat := bits (bs.getD (k / 2) 0).toNat (4 * (k % 2)) 4

/-- Values rise strictly. -/
def rises : List Nat → Bool
  | a :: b :: l => a < b && rises (b :: l)
  | _ => true

/-- The weights of logical row `r` by dense input, of dense weights the first `m`: none where no weight is kept. -/
def State.keptWeights (s : State) (t : Tensor) (r m : Nat) : Try (List (Option Val)) :=
  match s.bankValues t (r / t.rows) (r % t.rows) 0 (if t.spm = 0 then min m t.cols else t.cols) with
  | .error e => .error e
  | .ok vs =>
    if t.spm = 0 then .ok (vs.map some)
    else
      let n := t.kept
      match s.bankBytes (t.iaddr + r / t.unit * (4 * n)) (4 * n) with
      | .error e => .error e
      | .ok bs =>
        let idx (g : Nat) : List Nat := (List.range n).map (fun k => nibble bs (g * n + k))
        if (List.range 8).all (fun g => rises (idx g) && (idx g).all (fun v => v < 8)) then
          .ok ((List.range 64).map (fun q =>
            match (idx (q / 8)).findIdx? (fun v => v == q % 8) with
            | some k => vs[q / 8 * n + k]?
            | none => none))
        else .error (.fatal 0x41 0 0)

/-- The weights of a stage by linear element (R132): of its last row as many as it reads. -/
def State.stageWeights (s : State) (t : Tensor) (woff elements : Nat) : Try (List (Option Val)) :=
  foldTry (fun acc k =>
    match s.keptWeights t (woff + k) (elements - 64 * k) with
    | .error e => .error e
    | .ok l => .ok (acc ++ l)) [] (List.range (ceilDiv elements 64))

/-- The dense row of compressed activations: none where no column is kept (R149, R150). No column of a row at or after ROWS is
kept, and its index bytes are not read (note 86). -/
def State.keptRow (s : State) (t : Tensor) (tile i : Nat) (vs : List Val) : Try (List (Option Val)) :=
  if t.rows ≤ (t.tileAt tile).2.1 + i then .ok (List.replicate 64 none)
  else
    match s.bankBytes (t.iaddr + tile * 128 + i * 8) 8 with
    | .error e => .error e
    | .ok bs =>
      let a (h : Nat) : Nat := nibble bs h % 4
      let b (h : Nat) : Nat := nibble bs h / 4
      if (List.range 16).all (fun h => a h < b h) then
        .ok ((List.range 64).map (fun q =>
          if a (q / 4) = q % 4 then vs[2 * (q / 4)]? else if b (q / 4) = q % 4 then vs[2 * (q / 4) + 1]? else none))
      else .error (.fatal 0x41 0 0)

/-- The input of a stage by cell. -/
def State.stageInput (s : State) (t : Tensor) (tile : Nat) : Try (List (Option Val)) :=
  if t.spm = 5 then
    match s.bankTile t tile 32 with
    | .error e => .error e
    | .ok vs =>
      foldTry (fun acc i =>
        match s.keptRow t tile i ((vs.drop (32 * i)).take 32) with
        | .error e => .error e
        | .ok l => .ok (acc ++ l)) [] (List.range 16)
  else
    match s.bankTile t tile 64 with
    | .error e => .error e
    | .ok vs => .ok (vs.map some)

/-! ## Accumulators -/

/-- An accumulator cell as a value. -/
def State.accVal (s : State) (a c : Nat) : Val := decodeFloat .f64 (Sparse.get (s.getAcc a) c).toNat

/-- Whether an accumulator holds a poisoned cell (R266). -/
def State.accOk (s : State) (a : Nat) : Try Unit :=
  if s.tp.poison.any (fun q => q.1 == 2 && q.2 / 1024 == a) then .error (.fatal 0x61 0 0) else .ok ()

/-- Write every cell of an accumulator. -/
def State.putAcc (s : State) (a : Nat) (f : Nat → Val) : State :=
  let s := s.setAcc a (Sparse.ofFn 1024 (fun c => BitVec.ofNat 64 (encodeFloat .f64 .rne false (f c))))
  { s with tp := { s.tp with poison := s.tp.poison.filter (fun q => !(q.1 == 2 && q.2 / 1024 == a)) } }

/-- Write or combine an accumulator (R139). -/
def State.accumulate (s : State) (a : Nat) (add : Bool) (semi : Nat) (y : Nat → Val) : Try State :=
  if add then
    match s.accOk a with
    | .error e => .error e
    | .ok () => .ok (s.putAcc a (fun c => combOf semi (s.accVal a c) (y c)))
  else .ok (s.putAcc a y)

/-! ## Stage words (R347, R348) -/

/-- Sequence and composition of the chain (R138), as the word issues: the chain so far. -/
def State.chainRule (s : State) (k : StageWord) : Try (Option BChain) :=
  let start := k.w.pos = 0 || k.w.pos = 1
  match s.tp.be.chain with
  | none => if start then .ok none else .error (.fatal 0x40 1 0)
  | some c =>
    if start || c.count = 4 then .error (.fatal 0x40 1 0)
    else if (!k.perm && c.named && c.semi != k.w.semi.toNat) || 2 ≤ k.w.spm.toNat then .error (.fatal 0x40 2 0)
    else if (if k.perm then c.named && c.semi = 3 && k.w.ifmt = 1 else k.w.semi = 3 && c.narrow) then .error (.fatal 0x21 0 0)
    else .ok (some c)

/-- The group rule of a chain (R61, R151) at a word other than BPRM, which takes part in none (R144). -/
def groupRule (c : Option BChain) (n : Named) : Bool :=
  let weights := (n.twt.map Tensor.group).toList ++ (match c with
    | some c => c.groups
    | none => [])
  let input := match c with
    | some c => c.group
    | none => n.tin.map Tensor.group
  whenNamed n.tin Tensor.ownGroup && whenNamed n.twt Tensor.ownGroup &&
    (match input with
      | some g => !weights.contains g
      | none => true) &&
    whenNamed n.tout (fun t => !weights.contains t.group)

/-- The checks of an element-level stage word, and its tensors. -/
def State.stageCheck (s : State) (k : StageWord) : Try ((Option BChain × Named) × State) :=
  match s.chainRule k with
  | .error e => .error e
  | .ok c =>
    let last := k.w.pos = 0 || k.w.pos = 3
    match s.bEntries k.w c.isNone (!k.perm) (last && !k.toAcc) with
    | .error e => .error e
    | .ok (n, s) =>
      match s.bFormats n (if k.perm then 0 else k.w.semi.toNat) with
      | .error e => .error e
      | .ok () =>
        let te := match c with
          | some c => c.tile
          | none => s.tileOfWord k.w
        if !k.perm && !groupRule c n then .error (.fatal 0x42 0 0)
        else if !(whenNamed n.tin (fun t => te < t.tiles) && whenNamed n.tout (fun t => te < t.tiles)) then
          .error (.fatal 0x40 3 0)
        else if !whenNamed n.twt (fun t => weightsOk k.w t k.geo.weights) then .error (.fatal 0x40 4 0)
        else if !sparseOk k.w.spm.toNat n then .error (.fatal 0x40 6 0)
        else .ok ((c, n), s)

/-- The input of a word: its tile, or the values that the chain passes. -/
def State.wordInput (s : State) (k : StageWord) (c : Option BChain) (n : Named) : Try (List (Option Val)) :=
  match c, n.tin with
  | some c, _ => .ok ((List.range 1024).map (fun e => some (decodeFloat .f64 (Sparse.get c.vals e).toNat)))
  | none, some t => s.stageInput t (s.tileOfWord k.w)
  | none, none => .ok []

/-- The output of a word: its stage (R135, R150) or its permutation (R144), cell by cell. -/
def stageOutput (k : StageWord) (wts xs : Array (Option Val)) : List Val :=
  (List.range 1024).map (fun e =>
    let i := e / 64
    let j := e % 64
    if k.perm then
      let fn := k.w.woff.toNat % 4
      let pos := if k.geo.ax = 1 then permSource fn k.geo 4 i else permSource fn k.geo 6 j
      ((xs[k.geo.cell i j pos]?).getD none).getD zeroV
    else
      stageCell k.geo k.w.semi.toNat (k.w.trn = 1) (fun q => (wts[q]?).getD none) (fun q => (xs[q]?).getD none) i j)

/-- The format that a first or middle word rounds to (R139, R297). -/
def State.passFormat (s : State) (w : BWord) : Fmt :=
  if w.ifmt = 1 || s.mod.pst = 3 || s.mod.pst = 5 then .bf16 else .fp32

/-- What becomes of a word's output: it passes on, or it is written (R139, R348). -/
def State.stageEnd (s : State) (k : StageWord) (c : Option BChain) (n : Named) (ys : List Val) : Try State :=
  let y := ys.toArray
  let at_ (e : Nat) : Val := (y[e]?).getD zeroV
  let tile := match c with
    | some c => c.tile
    | none => s.tileOfWord k.w
  if k.w.pos = 1 || k.w.pos = 2 then
    let f := s.passFormat k.w
    let old : BChain := c.getD ⟨0, tile, 0, false, false, if k.perm then none else n.tin.map Tensor.group, [], []⟩
    .ok (s.setBe { s.tp.be with chain := some { old with
      count := old.count + 1
      semi := if k.perm then old.semi else k.w.semi.toNat
      named := old.named || !k.perm
      narrow := old.narrow || k.w.ifmt = 1
      groups := (n.twt.map Tensor.group).toList ++ old.groups
      vals := Sparse.ofFn 1024 (fun e => BitVec.ofNat 64 (encodeFloat .f64 .rne false (roundTo f .rne false (at_ e)))) } })
  else
    let s := s.setBe { s.tp.be with chain := none, chains := s.tp.be.chains + 1 }
    if k.toAcc then s.accumulate k.w.acc.toNat (k.w.aov = 1) k.w.semi.toNat at_
    else
      match n.tout with
      | some t => .ok (s.writeBankTile t tile (fun e => encode t.fmt (Rnd.ofCode k.w.rnd.toNat) (k.w.sat = 1) (at_ e)))
      | none => .ok s

/-- An element-level stage word or BPRM issues: the chain so far, its tensors, and the state in which it acts. -/
def State.bReadyStage (s : State) (k : StageWord) : Try ((Option BChain × Named) × State) :=
  let begins := k.w.pos = 0 || k.w.pos = 1
  s.bReady k.w.tkw.toNat 1 (fun s => s.stageCheck k)
    (fun s _ => if begins then 108 * s.chainCycles k else 0) (fun s _ => if begins then s.chainCycles k else 0)

/-- The weights of a word by linear element; BPRM has none. -/
def State.wordWeights (s : State) (k : StageWord) (n : Named) : Try (List (Option Val)) :=
  match n.twt with
  | some t => s.stageWeights t k.w.woff.toNat k.geo.weights
  | none => .ok []

/-- An element-level stage word or BPRM. -/
def bStageWord (k : StageWord) (s : State) : Host.Outcome State Fault Refusal :=
  beStep s (fun s =>
    match s.bReadyStage k with
    | .error e => .error e
    | .ok (b, s) =>
      match s.wordInput k b.1 b.2 with
      | .error e => .error e
      | .ok xs =>
        match s.wordWeights k b.2 with
        | .error e => .error e
        | .ok ws =>
          match s.stageEnd k b.1 b.2 (stageOutput k ws.toArray xs.toArray) with
          | .error e => .error e
          | .ok s => .ok (s.bNext k.w.tkp))

/-! ## Tile-level stages (R141) -/

/-- Cycles of a tile-level stage (R153). -/
def tileCycles (tiles : Nat) (t : Tensor) : Nat := tiles / 2 * max 1 (weightFactor t.fmt / 2)

/-- Whether a number is a power of two. -/
def isPow2 (n : Nat) : Bool := n != 0 && 2 ^ n.log2 == n

/-- The checks of a tile-level stage. -/
def State.tileCheck (s : State) (w : BWord) : Try (Named × State) :=
  if s.tp.be.chain.isSome then .error (.fatal 0x40 1 0)
  else
    match s.bEntries w true true true with
    | .error e => .error e
    | .ok (n, s) =>
      match s.bFormats n 0 with
      | .error e => .error e
      | .ok () =>
        match n.tin, n.twt, n.tout with
        | some a, some t, some o =>
          let sd := (s.getSd (w.str.toNat % 8)).toNat
          if !groupRule none n then .error (.fatal 0x42 0 0)
          else if !weightsOk w t (256 * (a.tiles / 2)) then .error (.fatal 0x40 4 0)
          else if !isPow2 sd || a.tiles % (2 * sd) != 0 || o.tiles != a.tiles || 4096 < tileCycles a.tiles t then
            .error (.fatal 0x40 5 0)
          else if !sparseOk 0 n then .error (.fatal 0x40 6 0)
          else .ok (n, s)
        | _, _, _ => .ok (n, s)

/-- One pair of tiles: each output is one rounding to binary64 and one to the destination. -/
def State.tilePair (s : State) (w : BWord) (a t o : Tensor) (p lower upper : Nat) : Try State :=
  match s.bankTile a lower 64, s.bankTile a upper 64, s.stageWeights t (w.woff.toNat + 4 * p) 256 with
  | .ok xa, .ok xu, .ok ws =>
    let xa := xa.toArray
    let xu := xu.toArray
    let ws := ws.toArray
    let wt (r j : Nat) : Val := ((ws[64 * r + j]?).getD none).getD zeroV
    let out (r0 r1 e : Nat) : Nat :=
      encode o.fmt (Rnd.ofCode w.rnd.toNat) (w.sat = 1)
        (to64 (addV .rne (mulV (wt r0 (e % 64)) ((xa[e]?).getD zeroV)) (mulV (wt r1 (e % 64)) ((xu[e]?).getD zeroV))))
    let (r1, r2) := if w.trn = 1 then (2, 1) else (1, 2)
    .ok ((s.writeBankTile o lower (out 0 r1)).writeBankTile o upper (out r2 3))
  | .error e, _, _ => .error e
  | _, .error e, _ => .error e
  | _, _, .error e => .error e

/-- A tile-level stage issues: its tensors, and the state in which it acts. -/
def State.bReadyTile (s : State) (w : BWord) : Try (Named × State) :=
  let cycles (n : Named) : Nat := match n.tin, n.twt with
    | some a, some t => tileCycles a.tiles t
    | _, _ => 0
  s.bReady w.tkw.toNat 1 (fun s => s.tileCheck w) (fun _ n => 108 * cycles n) (fun _ n => cycles n)

/-- The pairs of a tile-level stage, ascending. -/
def State.tilePairs (s : State) (w : BWord) (a t o : Tensor) : Try State :=
  let sd := (s.getSd (w.str.toNat % 8)).toNat
  let lowers := (List.range a.tiles).filter (fun i => i / sd % 2 = 0)
  foldTry (fun (s : State) x => s.tilePair w a t o x.2 x.1 (x.1 + sd)) s lowers.zipIdx

/-- A tile-level stage: its pairs in ascending order. -/
def bTileWord (w : BWord) (s : State) : Host.Outcome State Fault Refusal :=
  beStep s (fun s =>
    match s.bReadyTile w with
    | .error e => .error e
    | .ok (n, s) =>
      match n.tin, n.twt, n.tout with
      | some a, some t, some o =>
        match s.tilePairs w a t o with
        | .error e => .error e
        | .ok s => .ok (s.bNext w.tkp)
      | _, _, _ => .ok (s.bNext w.tkp))

def execBstg (w : BWord) (s : State) : Host.Outcome State Fault Refusal :=
  if w.lvl = 1 then bTileWord w s else bStageWord ⟨w, geoOf w, false, false⟩ s
def execBstgAcc (w : BWord) (s : State) : Host.Outcome State Fault Refusal := bStageWord ⟨w, geoOf w, true, false⟩ s
def execBdns (w : BWord) (s : State) : Host.Outcome State Fault Refusal := bStageWord ⟨w, denseGeo, false, false⟩ s
def execBdnsAcc (w : BWord) (s : State) : Host.Outcome State Fault Refusal := bStageWord ⟨w, denseGeo, true, false⟩ s
def execBsem (w : BWord) (s : State) : Host.Outcome State Fault Refusal := bStageWord ⟨w, geoOf w, false, false⟩ s
def execBsemAcc (w : BWord) (s : State) : Host.Outcome State Fault Refusal := bStageWord ⟨w, geoOf w, true, false⟩ s
def execBspa (w : BWord) (s : State) : Host.Outcome State Fault Refusal := bStageWord ⟨w, denseGeo, false, false⟩ s
def execBspaAcc (w : BWord) (s : State) : Host.Outcome State Fault Refusal := bStageWord ⟨w, denseGeo, true, false⟩ s
def execBprm (w : BWord) (s : State) : Host.Outcome State Fault Refusal := bStageWord ⟨w, geoOf w, false, true⟩ s

/-! ## Words between chains -/

/-- The tensor of a word that names one, checked by R473: its format by `fmt`, its banks, its tile. -/
def State.oneTensor (s : State) (n : BitVec 8) (te : Nat) (fmt : Tensor → Bool) : Try (Tensor × State) :=
  match s.tensor s.bTask n.toNat with
  | .error e => .error e
  | .ok (t, s) =>
    if !fmt t then .error (.fatal 0x41 0 0)
    else if !s.tp.inOperand t then .error (.fatal 0x43 0 0)
    else if t.tiles ≤ te then .error (.fatal 0x40 3 0)
    else .ok (t, s)

/-- A word between chains that names one tensor issues: the tensor, and the state in which it acts. -/
def State.bReadyTensor (s : State) (w : BWord) (cycles : Nat) (n : BitVec 8) (fmt : Tensor → Bool) : Try (Tensor × State) :=
  s.bReady w.tkw.toNat 1
    (fun s => match betweenChains s with
      | .error e => .error e
      | .ok s => s.oneTensor n (s.tileOfWord w) fmt)
    (fun _ _ => 108 * cycles) (fun _ _ => cycles)

/-- A word between chains that names one tensor. -/
def bTensorWord (s : State) (w : BWord) (cycles : Nat) (n : BitVec 8) (fmt : Tensor → Bool) (act : Tensor → State → Try State) :
    Host.Outcome State Fault Refusal :=
  beStep s (fun s =>
    match s.bReadyTensor w cycles n fmt with
    | .error e => .error e
    | .ok (t, s) =>
      match act t s with
      | .error e => .error e
      | .ok s => .ok (s.bNext w.tkp))

/-- BACC (R140, R338, R339): load, combine, or the identity. -/
def execBacc (w : BWord) (s : State) : Host.Outcome State Fault Refusal :=
  let semi := w.semi.toNat
  if w.spm = 2 then
    bWord s w 2 (fun s => .ok s) (fun s => .ok ((s.putAcc w.acc.toNat (fun _ => identityOf semi)).bNext w.tkp))
  else
    bTensorWord s w 2 w.tin (fun t => t.inputOk semi false) (fun t s =>
      if t.spm != 0 then .error (.fatal 0x40 6 0)
      else
        match s.bankTile t (s.tileOfWord w) 64 with
        | .error e => .error e
        | .ok vs =>
          let v := vs.toArray
          s.accumulate w.acc.toNat (w.spm = 1) semi (fun c => (v[c]?).getD zeroV))

/-- BOUT (R140, R355). -/
def execBout (w : BWord) (s : State) : Host.Outcome State Fault Refusal :=
  bTensorWord s w 2 w.tout Tensor.outputOk (fun t s =>
    let a := w.acc.toNat
    match s.accOk a with
    | .error e => .error e
    | .ok () =>
      let t1 := s.writeBankTile t (s.tileOfWord w) (fun c => encode t.fmt (Rnd.ofCode w.rnd.toNat) (w.sat = 1) (s.accVal a c))
      .ok (if w.aov = 1 then t1.putAcc a (fun _ => zeroV) else t1))

/-- The patterns of the first 256 cells of a tile, which begins at plane, row and column `a`; +0 outside the tensor. -/
def State.tableCells (s : State) (t : Tensor) (a : Nat × Nat × Nat) : Try (List Nat) :=
  foldTry (fun acc i =>
    let m := if a.2.1 + i < t.rows then min 64 (t.cols - a.2.2) else 0
    if m = 0 then .ok (acc ++ List.replicate 64 0)
    else
      match s.bankRow t a.1 (a.2.1 + i) a.2.2 m with
      | .error e => .error e
      | .ok xs => .ok (acc ++ xs ++ List.replicate (64 - m) 0)) [] (List.range 4)

/-- BCBK (R146, R346): a bit copy of 256 cells. -/
def execBcbk (w : BWord) (s : State) : Host.Outcome State Fault Refusal :=
  bTensorWord s w 16 w.tin (fun t => t.fmtOk && t.fcode == 8) (fun t s =>
    if t.spm != 0 then .error (.fatal 0x40 6 0)
    else
      let a := t.tileAt (s.tileOfWord w)
      match s.tableCells t a with
      | .error e => .error e
      | .ok xs =>
        let v := xs.toArray
        .ok (s.setCb w.acc.toNat (Sparse.ofFn 256 (fun k => BitVec.ofNat 32 ((v[k]?).getD 0)))))

/-- BSTR (R143, R358). -/
def execBstr (w : BWord) (s : State) : Host.Outcome State Fault Refusal :=
  bWord s w 1 (fun s => .ok s) (fun s => .ok ((s.setSd (w.str.toNat % 8) w.woff).bNext w.tkp))

/-- BNOP (R354). -/
def execBnop (w : BWord) (s : State) : Host.Outcome State Fault Refusal :=
  bWord s w 1 (fun s => .ok s) (fun s => .ok (s.bNext w.tkp))

/-- BLOOP (R352, R353). -/
def execBloop (w : BWord) (s : State) : Host.Outcome State Fault Refusal :=
  bWord s w 1 (fun s => if 2 ≤ s.tp.be.loops.length then .error (.fatal 0x25 0 0) else .ok s) (fun s =>
    let n := if w.lvl = 1 then (s.bTask.tcounts.getD (w.str.toNat % 8) 0).toNat else w.woff.toNat
    let s := s.bNext w.tkp
    .ok (s.setBe (if n = 0 then { s.tp.be with skip := 1 }
      else { s.tp.be with loops := { cnt := n, k := 0, inc := w.tile.toNat, body := s.tp.be.pc } :: s.tp.be.loops })))

/-- BEND (R350, R353). -/
def execBend (w : BWord) (s : State) : Host.Outcome State Fault Refusal :=
  bWord s w 1 (fun s => if s.tp.be.loops.isEmpty then .error (.fatal 0x25 0 0) else .ok s) (fun s =>
    let s := s.bNext w.tkp
    match s.tp.be.loops with
    | [] => .ok s
    | l :: rest =>
      .ok (s.setBe (if l.k + 1 < l.cnt then { s.tp.be with loops := { l with k := l.k + 1 } :: rest, pc := l.body }
        else { s.tp.be with loops := rest })))

/-- TOKP on the B stream (R427). -/
def execTokpB (w : BWord) (s : State) : Host.Outcome State Fault Refusal :=
  bWord s w 1 (fun s => .ok s) (fun s =>
    let l := List.replicate (bits w.woff.toNat 4 4) (Push.token 0 (w.woff.toNat % 8))
    .ok ((s.setBe { s.tp.be with pushes := s.tp.be.pushes ++ l }).bNext 0))

/-- TOKW on the B stream (R427). -/
def execTokwB (w : BWord) (s : State) : Host.Outcome State Fault Refusal :=
  beStep s (fun s => s.bIssue (w.woff.toNat % 8) (bits w.woff.toNat 4 4)
    (fun s => match betweenChains s with
      | .error e => .error e
      | .ok s => .ok ((), s)) (fun _ _ => 108) (fun _ _ => 1) (fun _ s => .ok (s.bNext 0)))

/-- BHALT (R351): the stream ends; it has finished when its push is made. -/
def execBhalt (w : BWord) (s : State) : Host.Outcome State Fault Refusal :=
  beStep s (fun s => s.bIssue w.tkw.toNat 1
    (fun s => match betweenChains s with
      | .error e => .error e
      | .ok s => if s.tp.be.loops.isEmpty then .ok ((), s) else .error (.fatal 0x25 0 0))
    (fun _ _ => 0) (fun _ _ => 1)
    (fun _ s => let s := s.bNext w.tkp; .ok (s.setBe { s.tp.be with status := .ended })))

end Sys2Proof.Machine
end

