-- ==== Sys2Proof/Machine/Dispatch.lean ====
section
/-!
DEFINITION. The dispatch: one arm for each constructor of `Instr`, each a direct call of its meaning.
-/
namespace Sys2Proof.Machine

def exec (i : Instr) (s : State) : Host.Outcome State Fault Refusal :=
  match i with
  | .hld hn imm rs1 w rd => Sys2Proof.Machine.execHld hn imm rs1 w rd s
  | .hst hn imm rs1 rs2 w => Sys2Proof.Machine.execHst hn imm rs1 rs2 w s
  | .hstRl hn imm rs1 rs2 w => Sys2Proof.Machine.execHstRl hn imm rs1 rs2 w s
  | .hamo op ty hn rs2 rs1 rd => Sys2Proof.Machine.execHamo op ty hn rs2 rs1 rd s
  | .hcas hn w rs2 rs1 rd => Sys2Proof.Machine.execHcas hn w rs2 rs1 rd s
  | .xlat hn rs1 rs2 => Sys2Proof.Machine.execXlat hn rs1 rs2 s
  | .hrel hn => Sys2Proof.Machine.execHrel hn s
  | .ldq hn rs1 q => Sys2Proof.Machine.execLdq hn rs1 q s
  | .stq hn rs1 q => Sys2Proof.Machine.execStq hn rs1 q s
  | .tldq hn rs1 rs2 q => Sys2Proof.Machine.execTldq hn rs1 rs2 q s
  | .tstq hn rs1 rs2 q => Sys2Proof.Machine.execTstq hn rs1 rs2 q s
  | .qput rs1 q => Sys2Proof.Machine.execQput rs1 q s
  | .qget rd q => Sys2Proof.Machine.execQget rd q s
  | .ldqLocal rs1 q => Sys2Proof.Machine.execLdqLocal rs1 q s
  | .stqLocal rs1 q => Sys2Proof.Machine.execStqLocal rs1 q s
  | .tldqLocal rs1 rs2 q => Sys2Proof.Machine.execTldqLocal rs1 rs2 q s
  | .tstqLocal rs1 rs2 q => Sys2Proof.Machine.execTstqLocal rs1 rs2 q s
  | .chain u rs1 => Sys2Proof.Machine.execChain u rs1 s
  | .renq rs1 rs2 => Sys2Proof.Machine.execRenq rs1 rs2 s
  | .spawn rs1 => Sys2Proof.Machine.execSpawn rs1 s
  | .join rs1 => Sys2Proof.Machine.execJoin rs1 s
  | .park rs1 => Sys2Proof.Machine.execPark rs1 s
  | .region rs1 rs2 => Sys2Proof.Machine.execRegion rs1 rs2 s
  | .commit => Sys2Proof.Machine.execCommit s
  | .launch rd rs1 rs2 => Sys2Proof.Machine.execLaunch rd rs1 rs2 s
  | .trig rs1 => Sys2Proof.Machine.execTrig rs1 s
  | .tend => Sys2Proof.Machine.execTend s
  | .xfence src dst scope => Sys2Proof.Machine.execXfence src dst scope s
  | .efence um => Sys2Proof.Machine.execEfence um s
  | .tokp u n => Sys2Proof.Machine.execTokp u n s
  | .tokw u n => Sys2Proof.Machine.execTokw u n s
  | .bari g hn rs1 rs2 => Sys2Proof.Machine.execBari g hn rs1 rs2 s
  | .bara g hn rs1 => Sys2Proof.Machine.execBara g hn rs1 s
  | .barw g hn rs1 => Sys2Proof.Machine.execBarw g hn rs1 s
  | .tidset rs1 rs2 => Sys2Proof.Machine.execTidset rs1 rs2 s
  | .tidget rs1 rs2 => Sys2Proof.Machine.execTidget rs1 rs2 s
  | .trap n => Sys2Proof.Machine.execTrap n s
  | .tret rs1 => Sys2Proof.Machine.execTret rs1 s
  | .svcw rs1 => Sys2Proof.Machine.execSvcw rs1 s
  | .sret => Sys2Proof.Machine.execSret s
  | .eNop w => Sys2Proof.Machine.execENop w s
  | .eAdd w => Sys2Proof.Machine.execEAdd w s
  | .eSub w => Sys2Proof.Machine.execESub w s
  | .eMul w => Sys2Proof.Machine.execEMul w s
  | .eAnd w => Sys2Proof.Machine.execEAnd w s
  | .eOr w => Sys2Proof.Machine.execEOr w s
  | .eXor w => Sys2Proof.Machine.execEXor w s
  | .eShl w => Sys2Proof.Machine.execEShl w s
  | .eShr w => Sys2Proof.Machine.execEShr w s
  | .eSra w => Sys2Proof.Machine.execESra w s
  | .eMin w => Sys2Proof.Machine.execEMin w s
  | .eMax w => Sys2Proof.Machine.execEMax w s
  | .eLi w => Sys2Proof.Machine.execELi w s
  | .eSel w => Sys2Proof.Machine.execESel w s
  | .eCmp w => Sys2Proof.Machine.execECmp w s
  | .eBr w => Sys2Proof.Machine.execEBr w s
  | .eBrN w => Sys2Proof.Machine.execEBrN w s
  | .eJmp w => Sys2Proof.Machine.execEJmp w s
  | .eJal w => Sys2Proof.Machine.execEJal w s
  | .eLoop w => Sys2Proof.Machine.execELoop w s
  | .eHalt w => Sys2Proof.Machine.execEHalt w s
  | .ePset w => Sys2Proof.Machine.execEPset w s
  | .ePlog w => Sys2Proof.Machine.execEPlog w s
  | .ePmov w => Sys2Proof.Machine.execEPmov w s
  | .vadd w => Sys2Proof.Machine.execVadd w s
  | .vsub w => Sys2Proof.Machine.execVsub w s
  | .vmul w => Sys2Proof.Machine.execVmul w s
  | .vfma w => Sys2Proof.Machine.execVfma w s
  | .vmin w => Sys2Proof.Machine.execVmin w s
  | .vmax w => Sys2Proof.Machine.execVmax w s
  | .vabs w => Sys2Proof.Machine.execVabs w s
  | .vneg w => Sys2Proof.Machine.execVneg w s
  | .vbit w => Sys2Proof.Machine.execVbit w s
  | .vshf w => Sys2Proof.Machine.execVshf w s
  | .vcmp w => Sys2Proof.Machine.execVcmp w s
  | .vsel w => Sys2Proof.Machine.execVsel w s
  | .vmov w => Sys2Proof.Machine.execVmov w s
  | .vli w => Sys2Proof.Machine.execVli w s
  | .vcvt w => Sys2Proof.Machine.execVcvt w s
  | .vrotr w => Sys2Proof.Machine.execVrotr w s
  | .vrotc w => Sys2Proof.Machine.execVrotc w s
  | .vbcr w => Sys2Proof.Machine.execVbcr w s
  | .vbcc w => Sys2Proof.Machine.execVbcc w s
  | .vredr w => Sys2Proof.Machine.execVredr w s
  | .vredc w => Sys2Proof.Machine.execVredc w s
  | .vscnr w => Sys2Proof.Machine.execVscnr w s
  | .vscnc w => Sys2Proof.Machine.execVscnc w s
  | .vxl w => Sys2Proof.Machine.execVxl w s
  | .vexp2 w => Sys2Proof.Machine.execVexp2 w s
  | .vlog2 w => Sys2Proof.Machine.execVlog2 w s
  | .vrcp w => Sys2Proof.Machine.execVrcp w s
  | .vrsq w => Sys2Proof.Machine.execVrsq w s
  | .vsig w => Sys2Proof.Machine.execVsig w s
  | .vpopc w => Sys2Proof.Machine.execVpopc w s
  | .vclz w => Sys2Proof.Machine.execVclz w s
  | .visect w => Sys2Proof.Machine.execVisect w s
  | .vcmpr w => Sys2Proof.Machine.execVcmpr w s
  | .vexpd w => Sys2Proof.Machine.execVexpd w s
  | .qin w => Sys2Proof.Machine.execQin w s
  | .qout w => Sys2Proof.Machine.execQout w s
  | .vqin w => Sys2Proof.Machine.execVqin w s
  | .vqout w => Sys2Proof.Machine.execVqout w s
  | .tokpE w => Sys2Proof.Machine.execTokpE w s
  | .tokwE w => Sys2Proof.Machine.execTokwE w s
  | .trapE w => Sys2Proof.Machine.execTrapE w s
  | .bnop w => Sys2Proof.Machine.execBnop w s
  | .bstg w => Sys2Proof.Machine.execBstg w s
  | .bstgAcc w => Sys2Proof.Machine.execBstgAcc w s
  | .bdns w => Sys2Proof.Machine.execBdns w s
  | .bdnsAcc w => Sys2Proof.Machine.execBdnsAcc w s
  | .bsem w => Sys2Proof.Machine.execBsem w s
  | .bsemAcc w => Sys2Proof.Machine.execBsemAcc w s
  | .bspa w => Sys2Proof.Machine.execBspa w s
  | .bspaAcc w => Sys2Proof.Machine.execBspaAcc w s
  | .bprm w => Sys2Proof.Machine.execBprm w s
  | .bacc w => Sys2Proof.Machine.execBacc w s
  | .bout w => Sys2Proof.Machine.execBout w s
  | .bstr w => Sys2Proof.Machine.execBstr w s
  | .bcbk w => Sys2Proof.Machine.execBcbk w s
  | .bloop w => Sys2Proof.Machine.execBloop w s
  | .bend w => Sys2Proof.Machine.execBend w s
  | .tokpB w => Sys2Proof.Machine.execTokpB w s
  | .tokwB w => Sys2Proof.Machine.execTokwB w s
  | .bhalt w => Sys2Proof.Machine.execBhalt w s
  | .knop w => Sys2Proof.Machine.execKnop w s
  | .kloop w => Sys2Proof.Machine.execKloop w s
  | .kend w => Sys2Proof.Machine.execKend w s
  | .kjmp w => Sys2Proof.Machine.execKjmp w s
  | .kif w => Sys2Proof.Machine.execKif w s
  | .kstop w => Sys2Proof.Machine.execKstop w s
  | .tokpChain w => Sys2Proof.Machine.execTokpChain w s
  | .tokwChain w => Sys2Proof.Machine.execTokwChain w s
  | .baraChain w => Sys2Proof.Machine.execBaraChain w s
  | .ccpy w => Sys2Proof.Machine.execCcpy w s
  | .cgrw w => Sys2Proof.Machine.execCgrw w s
  | .cmcp w => Sys2Proof.Machine.execCmcp w s
  | .cper w => Sys2Proof.Machine.execCper w s
  | .cfil w => Sys2Proof.Machine.execCfil w s
  | .cxps w => Sys2Proof.Machine.execCxps w s
  | .igat w => Sys2Proof.Machine.execIgat w s
  | .isct w => Sys2Proof.Machine.execIsct w s
  | .isca w => Sys2Proof.Machine.execIsca w s
  | .ihac w => Sys2Proof.Machine.execIhac w s
  | .ihrd w => Sys2Proof.Machine.execIhrd w s
  | .hprj w => Sys2Proof.Machine.execHprj w s
  | .hkey w => Sys2Proof.Machine.execHkey w s
  | .hgat w => Sys2Proof.Machine.execHgat w s
  | .hclr w => Sys2Proof.Machine.execHclr w s
  | .hsts w => Sys2Proof.Machine.execHsts w s
  | .hstsDrift w => Sys2Proof.Machine.execHstsDrift w s
  | .msub w => Sys2Proof.Machine.execMsub w s
  | .mdec w => Sys2Proof.Machine.execMdec w s
  | .cmbl w => Sys2Proof.Machine.execCmbl w s
  | .cmsm w => Sys2Proof.Machine.execCmsm w s
  | .cmsmDrift w => Sys2Proof.Machine.execCmsmDrift w s
  | .mediaCommandStart e => Sys2Proof.Machine.execMediaCommandStart e s
  | .shadowToActive u => Sys2Proof.Machine.execShadowToActive u s
  | .commandCompletes u => Sys2Proof.Machine.execCommandCompletes u s
  | .doorbell tenant data => Sys2Proof.Machine.execDoorbell tenant data s
  | .launchStart => Sys2Proof.Machine.execLaunchStart s
  | .deal die => Sys2Proof.Machine.execDeal die s
  | .launchCompletion lid => Sys2Proof.Machine.execLaunchCompletion lid s
  | .taskStart => Sys2Proof.Machine.execTaskStart s
  | .regionRelease die => Sys2Proof.Machine.execRegionRelease die s
  | .parkWake k => Sys2Proof.Machine.execParkWake k s
  | .pileBinding die tile cls ctx => Sys2Proof.Machine.execPileBinding die tile cls ctx s
  | .brrWrite v => Sys2Proof.Machine.execBrrWrite v s
  | .roleChangeTimeout u => Sys2Proof.Machine.execRoleChangeTimeout u s
  | .roleChangeComplete => Sys2Proof.Machine.execRoleChangeComplete s
  | .qdirWrite v => Sys2Proof.Machine.execQdirWrite v s
  | .localWindowStore addr v => Sys2Proof.Machine.execLocalWindowStore addr v s
  | .serviceEntry => Sys2Proof.Machine.execServiceEntry s
  | .preemptionRequest why => Sys2Proof.Machine.execPreemptionRequest why s
  | .preemptionEngineTimeout u => Sys2Proof.Machine.execPreemptionEngineTimeout u s
  | .contextSaved => Sys2Proof.Machine.execContextSaved s
  | .restore => Sys2Proof.Machine.execRestore s
  | .walkComplete hn => Sys2Proof.Machine.execWalkComplete hn s
  | .walkRetry hn => Sys2Proof.Machine.execWalkRetry hn s
  | .atsCompletion pasid va st size bus r w => Sys2Proof.Machine.execAtsCompletion pasid va st size bus r w s
  | .atsInvalidationRequest pasid lo hi => Sys2Proof.Machine.execAtsInvalidationRequest pasid lo hi s
  | .invalidationCompletion => Sys2Proof.Machine.execInvalidationCompletion s
  | .priResponse pasid va code => Sys2Proof.Machine.execPriResponse pasid va code s
  | .priTimeout pasid va => Sys2Proof.Machine.execPriTimeout pasid va s
  | .faultResolved f resolved => Sys2Proof.Machine.execFaultResolved f resolved s
  | .completionTimeout tag => Sys2Proof.Machine.execCompletionTimeout tag s
  | .completion tag st => Sys2Proof.Machine.execCompletion tag st s
  | .inboundWrite w off data => Sys2Proof.Machine.execInboundWrite w off data s
  | .inboundRead w off len => Sys2Proof.Machine.execInboundRead w off len s
  | .inboundAtomicop w off op n v cmp => Sys2Proof.Machine.execInboundAtomicop w off op n v cmp s
  | .configurationRequest fn a => Sys2Proof.Machine.execConfigurationRequest fn a s
  | .ideIntegrityFailure e => Sys2Proof.Machine.execIdeIntegrityFailure e s
  | .spdmRequest data => Sys2Proof.Machine.execSpdmRequest data s
  | .functionLevelReset fn => Sys2Proof.Machine.execFunctionLevelReset fn s
  | .msixUnmask tenant v => Sys2Proof.Machine.execMsixUnmask tenant v s
  | .powerGood => Sys2Proof.Machine.execPowerGood s
  | .perstAssert => Sys2Proof.Machine.execPerstAssert s
  | .powerLoss => Sys2Proof.Machine.execPowerLoss s
  | .perstDeassert => Sys2Proof.Machine.execPerstDeassert s
  | .bootTestComplete passed vdes cmes => Sys2Proof.Machine.execBootTestComplete passed vdes cmes s
  | .selfTestComplete trained bridge die0 die1 vdes cmes => Sys2Proof.Machine.execSelfTestComplete trained bridge die0 die1 vdes cmes s
  | .recoveryEntry why => Sys2Proof.Machine.execRecoveryEntry why s
  | .bankerGrant butterfly vector sram fabric tile => Sys2Proof.Machine.execBankerGrant butterfly vector sram fabric tile s
  | .operatingPointChange clock point => Sys2Proof.Machine.execOperatingPointChange clock point s
  | .energyCorrection tile m => Sys2Proof.Machine.execEnergyCorrection tile m s
  | .quotaPeriodEnd ctx => Sys2Proof.Machine.execQuotaPeriodEnd ctx s
  | .capWindowEnd tenant => Sys2Proof.Machine.execCapWindowEnd tenant s
  | .logicalClockAdvance => Sys2Proof.Machine.execLogicalClockAdvance s
  | .hbmTemperatureReading stack celsius => Sys2Proof.Machine.execHbmTemperatureReading stack celsius s
  | .rv64gc w => Sys2Proof.Machine.execRv64gc w s
  | .serviceCoreLoadOrStore a tc place data => Sys2Proof.Machine.execServiceCoreLoadOrStore a tc place data s
  | .supervisorInterfaceRequest r => Sys2Proof.Machine.execSupervisorInterfaceRequest r s
  | .softError e => Sys2Proof.Machine.execSoftError e s
  | .linkTraining port l => Sys2Proof.Machine.execLinkTraining port l s
  | .specialFunctionWrite => Sys2Proof.Machine.execSpecialFunctionWrite s

end Sys2Proof.Machine
end

