-- ==== Sys2Proof/Machine/Step.lean ====
section
/-!
DEFINITION. One step of the machine, and a state whose next step fetches a given instruction.
-/
namespace Sys2Proof.Machine

/-- One step: whoever has the turn acts, then the turn passes on. -/
def step (s : State) : Host.Outcome State Fault Refusal :=
  match s.plan with
  | .run i s' =>
    match exec i s' with
    | .next t => .next t.tick
    | .fault f => .fault f
    | .refused r => .refused r
  | .still s' => .next s'.tick
  | .notEvent => .fault .inputNotEvent

/-- The state with an instruction placed where the next step fetches (note 8): a TP in service runs a task, the stream or
engine that the instruction belongs to is at it, and its agent has the turn. -/
def State.withFetchWord (s : State) (nbits w : Nat) : State :=
  s.stage (Decode.sourceOf nbits w) (Decode.tableBytes nbits w)

end Sys2Proof.Machine
end

