-- ==== Sys2Proof/Safety.lean ====
section
/-!
DEFINITION. What a safe run is, and the terms that statements use: canonical stores, what an access leaves unchanged, when a
step ends in a next state.
-/
namespace Sys2Proof.Machine

/-- Memory is in its canonical form: addresses rise strictly, and no entry holds what an unlisted address reads as. -/
def State.MemoryOk (s : State) : Prop := Memory.wf s.mem = true

/-- A step that ends in a next state. -/
def Runs (s : State) : Prop := ∃ t, step s = .next t

/-- A TP without what an access may change besides its own effect: cached translations and lines, earlier values that engines
hold, the meter of energy, the logical clock and the read set of path C, and a pre-emption request that an exhausted balance
brings (R206, R207, R209, R235, R275, R277). -/
def Tp.calm (t : Tp) : Tp :=
  { t with tlb := [], cache := [], stale := [], spent := [], preempt := none, holdAt := 0, ac := { t.ac with lc := 0, readSet := [] } }

/-- A state without what an access may change besides its own effect: accounts of energy and events (R247, R273), grants,
timestamps, the lines' writers, tracking bits, outstanding requests, free values, and the same on the other TPs. Two states with one calm part
agree in every register of the TP, its banks, queues and tokens, in memory and in the writes pending to it. -/
def State.calm (s : State) : State :=
  { s with ctxs := [], requests := [], free := 0, lines := [], tracked := [], others := [], mediaStale := [], writers := [], wide := []
           mod := { s.mod with grants := [], owed := [], work := 0 }, tp := s.tp.calm }

/-- A chain engine of a TP. -/
def Tp.chainOf (t : Tp) (u : ChainUnit) : Chain :=
  match u with
  | .ce => t.ce
  | .ie => t.ie
  | .he => t.he

/-- No line of a range lies in a tracked frame: a write there performs nothing else first (R224). -/
def State.Untracked (s : State) (p n : Nat) : Prop := ∀ l ∈ linesOf p n, s.isTracked (frameOf (l * 128)) = false

/-- No byte of memory changes. -/
def SameMemory (s t : State) : Prop := ∀ a, Sparse.get t.mem a = Sparse.get s.mem a

/-- No byte of memory changes outside `n` bytes from a place. -/
def SameMemoryBut (s t : State) (p n : Nat) : Prop := ∀ a, ¬(p ≤ a ∧ a < p + n) → Sparse.get t.mem a = Sparse.get s.mem a

/-- No byte of the banks changes outside `n` bytes from a window address. -/
def SameBanksBut (s t : State) (p n : Nat) : Prop :=
  ∀ a, ¬(p ≤ a ∧ a < p + n) → Sparse.get t.tp.banks a = Sparse.get s.tp.banks a

/-- The pending writes of the running task's access core for a store of several units (R200). -/
def State.pendingC (s : State) (space p : Nat) (bs : List Byte) : List WeakWrite :=
  (unitsOf p bs).map (fun u =>
    { tp := s.cur, agent := 1, path := 0, ctx := s.task.ctx, lid := s.task.lid, place := u.1, bytes := u.2
      space := space })

/-- The pending write of an atomic of the running task's access core at a scope (R219). -/
def State.pendingAt (s : State) (scope p : Nat) (bs : List Byte) : WeakWrite :=
  { tp := s.cur, agent := 1, path := 0, ctx := s.task.ctx, lid := s.task.lid, place := p, bytes := bs, scope := scope
    atom := true }

/-- What had issued when the A stream's word did (R85, R98, R216): as it noted it, or as it is now. -/
def State.markAt (s : State) : Mark := s.tp.ac.mark.getD s.markNow

/-- The state without that note. -/
def State.unmarked (s : State) : State := s.setAc { s.tp.ac with mark := none }

/-- The state with it: the word waits. -/
def State.marked (s : State) : State := s.setAc { s.tp.ac with mark := some s.markAt }

/-- Every register of the access core is unchanged but the integer registers listed and the pc: integer and floating-point
registers, FCSR, mode, the registers of exceptions, handles, the trap record and PEND. -/
structure SameAc (s t : State) (xs : List (BitVec 5)) : Prop where
  x : ∀ r, r ∉ xs → t.getX r = s.getX r
  f : ∀ r, t.getF r = s.getF r
  fcsr : t.tp.ac.fcsr = s.tp.ac.fcsr
  sup : t.tp.ac.sup = s.tp.ac.sup
  sstatus : t.tp.ac.sstatus = s.tp.ac.sstatus
  sepc : t.tp.ac.sepc = s.tp.ac.sepc
  scause : t.tp.ac.scause = s.tp.ac.scause
  stval : t.tp.ac.stval = s.tp.ac.stval
  stvec : t.tp.ac.stvec = s.tp.ac.stvec
  sscratch : t.tp.ac.sscratch = s.tp.ac.sscratch
  handles : t.tp.ac.handles = s.tp.ac.handles
  trec : t.tp.ac.trec = s.tp.ac.trec
  pend : t.tp.ac.pend = s.tp.ac.pend

/-- The other units of the TP, its banks, queues and control registers are unchanged. -/
structure SameUnits (s t : State) : Prop where
  ec : t.tp.ec = s.tp.ec
  be : t.tp.be = s.tp.be
  ce : t.tp.ce = s.tp.ce
  ie : t.tp.ie = s.tp.ie
  he : t.tp.he = s.tp.he
  slots : t.tp.slots = s.tp.slots
  queues : t.tp.queues = s.tp.queues
  tokens : t.tp.tokens = s.tp.tokens
  brr : t.tp.brr = s.tp.brr
  qdir : t.tp.qdir = s.tp.qdir
  svwm : t.tp.svwm = s.tp.svwm

/-- An A-stream word of `len` bytes that writes a value to an integer register and changes nothing else; a write to x0 is
discarded. -/
structure WritesX (s t : State) (rd : BitVec 5) (v : Dword) (len : Nat) : Prop where
  x : t.getX rd = if rd = 0 then 0 else v
  pc : t.tp.ac.pc = s.tp.ac.pc + BitVec.ofNat 64 len
  ac : SameAc s t [rd]
  units : SameUnits s t
  mem : SameMemory s t
  banks : t.tp.banks = s.tp.banks

/-- The 64-bit results of the RISC-V operations on two registers (R302). -/
structure RvOpResults (a b : Dword) : Prop where
  add : rvOp .add a b = a + b
  sub : rvOp .sub a b = a - b
  sll : rvOp .sll a b = a <<< (b.toNat % 64)
  slt : rvOp .slt a b = if a.toInt < b.toInt then 1 else 0
  sltu : rvOp .sltu a b = if a.toNat < b.toNat then 1 else 0
  xor : rvOp .xor a b = a ^^^ b
  srl : rvOp .srl a b = a >>> (b.toNat % 64)
  sra : (rvOp .sra a b).toInt = a.toInt / 2 ^ (b.toNat % 64)
  or : rvOp .or a b = a ||| b
  and : rvOp .and a b = a &&& b
  mul : rvOp .mul a b = a * b
  mulh : rvOp .mulh a b = BitVec.ofInt 64 (a.toInt * b.toInt / 2 ^ 64)
  mulhsu : rvOp .mulhsu a b = BitVec.ofInt 64 (a.toInt * b.toNat / 2 ^ 64)
  mulhu : rvOp .mulhu a b = BitVec.ofNat 64 (a.toNat * b.toNat / 2 ^ 64)
  div : b ≠ 0 → rvOp .div a b = BitVec.ofInt 64 (a.toInt.tdiv b.toInt)
  divu : b ≠ 0 → rvOp .divu a b = BitVec.ofNat 64 (a.toNat / b.toNat)
  rem : b ≠ 0 → rvOp .rem a b = BitVec.ofInt 64 (a.toInt.tmod b.toInt)
  remu : b ≠ 0 → rvOp .remu a b = BitVec.ofNat 64 (a.toNat % b.toNat)
  div0 : rvOp .div a 0 = BitVec.allOnes 64 ∧ rvOp .divu a 0 = BitVec.allOnes 64 ∧ rvOp .rem a 0 = a ∧ rvOp .remu a 0 = a
  shadd : rvOp .sh1add a b = 2 * a + b ∧ rvOp .sh2add a b = 4 * a + b ∧ rvOp .sh3add a b = 8 * a + b
  adduw : rvOp .addUw a b = (a.setWidth 32).setWidth 64 + b ∧ rvOp .sh1addUw a b = 2 * (a.setWidth 32).setWidth 64 + b ∧
    rvOp .sh2addUw a b = 4 * (a.setWidth 32).setWidth 64 + b ∧ rvOp .sh3addUw a b = 8 * (a.setWidth 32).setWidth 64 + b
  andn : rvOp .andn a b = a &&& ~~~b
  orn : rvOp .orn a b = a ||| ~~~b
  xnor : rvOp .xnor a b = ~~~(a ^^^ b)
  max : rvOp .max a b = if a.toInt < b.toInt then b else a
  maxu : rvOp .maxu a b = if a.toNat < b.toNat then b else a
  min : rvOp .min a b = if a.toInt < b.toInt then a else b
  minu : rvOp .minu a b = if a.toNat < b.toNat then a else b
  rol : ∀ i, i < 64 → (rvOp .rol a b).getLsbD ((i + b.toNat) % 64) = a.getLsbD i
  ror : ∀ i, i < 64 → (rvOp .ror a b).getLsbD i = a.getLsbD ((i + b.toNat) % 64)
  czeroEqz : rvOp .czeroEqz a b = if b = 0 then 0 else a
  czeroNez : rvOp .czeroNez a b = if b = 0 then a else 0

/-- The 32-bit results of the RISC-V operations on two registers: sign-extended (R302). -/
structure RvOpWResults (a b : Dword) : Prop where
  addw : rvOpW .addw a b = (a.setWidth 32 + b.setWidth 32).signExtend 64
  subw : rvOpW .subw a b = (a.setWidth 32 - b.setWidth 32).signExtend 64
  mulw : rvOpW .mulw a b = (a.setWidth 32 * b.setWidth 32).signExtend 64
  sllw : rvOpW .sllw a b = (a.setWidth 32 <<< (b.toNat % 32)).signExtend 64
  srlw : rvOpW .srlw a b = (a.setWidth 32 >>> (b.toNat % 32)).signExtend 64
  sraw : (rvOpW .sraw a b).toInt = (a.setWidth 32).toInt / 2 ^ (b.toNat % 32)
  divw : b.setWidth 32 ≠ 0 → rvOpW .divw a b = (BitVec.ofInt 32 ((a.setWidth 32).toInt.tdiv (b.setWidth 32).toInt)).signExtend 64
  divuw : b.setWidth 32 ≠ 0 →
    rvOpW .divuw a b = (BitVec.ofNat 32 ((a.setWidth 32).toNat / (b.setWidth 32).toNat)).signExtend 64
  remw : b.setWidth 32 ≠ 0 → rvOpW .remw a b = (BitVec.ofInt 32 ((a.setWidth 32).toInt.tmod (b.setWidth 32).toInt)).signExtend 64
  remuw : b.setWidth 32 ≠ 0 →
    rvOpW .remuw a b = (BitVec.ofNat 32 ((a.setWidth 32).toNat % (b.setWidth 32).toNat)).signExtend 64
  div0 : b.setWidth 32 = 0 → rvOpW .divw a b = BitVec.allOnes 64 ∧ rvOpW .divuw a b = BitVec.allOnes 64 ∧
    rvOpW .remw a b = (a.setWidth 32).signExtend 64 ∧ rvOpW .remuw a b = (a.setWidth 32).signExtend 64
  rolw : ∃ r : Word, rvOpW .rolw a b = r.signExtend 64 ∧ ∀ i, i < 32 → r.getLsbD ((i + b.toNat) % 32) = a.getLsbD i
  rorw : ∃ r : Word, rvOpW .rorw a b = r.signExtend 64 ∧ ∀ i, i < 32 → r.getLsbD i = a.getLsbD ((i + b.toNat) % 32)

/-- The results of the RISC-V operations on one register (R302). -/
structure RvUnResults (a : Dword) : Prop where
  clz : ∃ n, n ≤ 64 ∧ rvUn .clz a = BitVec.ofNat 64 n ∧ (∀ i, 64 - n ≤ i → i < 64 → a.getLsbD i = false) ∧
    (n < 64 → a.getLsbD (63 - n) = true)
  ctz : ∃ n, n ≤ 64 ∧ rvUn .ctz a = BitVec.ofNat 64 n ∧ (∀ i, i < n → a.getLsbD i = false) ∧ (n < 64 → a.getLsbD n = true)
  cpop : rvUn .cpop a = BitVec.ofNat 64 ((List.range 64).countP a.getLsbD)
  clzw : ∃ n, n ≤ 32 ∧ rvUn .clzw a = BitVec.ofNat 64 n ∧ (∀ i, 32 - n ≤ i → i < 32 → a.getLsbD i = false) ∧
    (n < 32 → a.getLsbD (31 - n) = true)
  ctzw : ∃ n, n ≤ 32 ∧ rvUn .ctzw a = BitVec.ofNat 64 n ∧ (∀ i, i < n → a.getLsbD i = false) ∧ (n < 32 → a.getLsbD n = true)
  cpopw : rvUn .cpopw a = BitVec.ofNat 64 ((List.range 32).countP a.getLsbD)
  sextb : rvUn .sextb a = (a.setWidth 8).signExtend 64
  sexth : rvUn .sexth a = (a.setWidth 16).signExtend 64
  zexth : rvUn .zexth a = (a.setWidth 16).setWidth 64
  orcb : ∀ i, i < 64 → (rvUn .orcb a).getLsbD i = decide (a.extractLsb' (8 * (i / 8)) 8 ≠ 0)
  rev8 : ∀ i, i < 64 → (rvUn .rev8 a).getLsbD i = a.getLsbD (8 * (7 - i / 8) + i % 8)

/-- A window range of `n` bytes within one bank in scratchpad or operand role (R48, R55). -/
structure InBank (s : State) (a n : Nat) : Prop where
  window : a < 0x200000
  one : a / 0x10000 = (a + n - 1) / 0x10000
  usable : s.tp.usable a n = true

/-- What a B word keeps that writes none of them: accumulators, tables, banks, memory, the AC's registers, the other units. -/
structure BeKept (s t : State) : Prop where
  acc : t.tp.be.acc = s.tp.be.acc
  cb : t.tp.be.cb = s.tp.be.cb
  chain : t.tp.be.chain = s.tp.be.chain
  banks : t.tp.banks = s.tp.banks
  mem : t.mem = s.mem
  acx : t.tp.ac.x = s.tp.ac.x
  ec : t.tp.ec = s.tp.ec

/-- The element-level stage words and BPRM with the stage that each stands for (R347 to R349, R357). -/
def stageWords (w : BWord) : List (Instr × StageWord) :=
  (if w.lvl = 1 then [] else [(.bstg w, ⟨w, geoOf w, false, false⟩)]) ++
  [ (.bstgAcc w, ⟨w, geoOf w, true, false⟩), (.bdns w, ⟨w, ⟨5, 5, 0⟩, false, false⟩), (.bdnsAcc w, ⟨w, ⟨5, 5, 0⟩, true, false⟩),
    (.bsem w, ⟨w, geoOf w, false, false⟩), (.bsemAcc w, ⟨w, geoOf w, true, false⟩), (.bspa w, ⟨w, ⟨5, 5, 0⟩, false, false⟩),
    (.bspaAcc w, ⟨w, ⟨5, 5, 0⟩, true, false⟩), (.bprm w, ⟨w, geoOf w, false, true⟩) ]

/-! ## Chain commands (R119, R250) -/

/-- What performing unit of work `k` of `n` does to the active command of an engine: the next unit is at hand, or the command
has generated its accesses and is in flight. -/
structure Advances (s t : State) (u : ChainUnit) (n k : Nat) : Prop where
  more : k + 1 < n → n < 2 ^ 31 → (t.eng u).av = (s.eng u).av ∧ (t.eng u).unitAt = k + 1 ∧ (t.eng u).infl = (s.eng u).infl
  last : n ≤ k + 1 → (t.eng u).av = false ∧ ∃ f, (t.eng u).infl = (s.eng u).infl ++ [f] ∧ f.entry = (s.eng u).act

/-- What a state holds beside its chain engines and its account: memory, pending writes, banks, projection slots, and the
registers of AC, EC and BE. -/
structure SameOutside (s t : State) : Prop where
  mem : t.mem = s.mem
  weak : t.weak = s.weak
  banks : t.tp.banks = s.tp.banks
  slots : t.tp.slots = s.tp.slots
  ac : t.tp.ac = s.tp.ac
  ec : t.tp.ec = s.tp.ec
  be : t.tp.be = s.tp.be

/-- A record that differs from another one in SECN alone (R243, R252). -/
def SameButSecn (p q : TrapRec) : Prop :=
  p.length = q.length ∧ (∀ i, i ≠ 0 → p[i]? = q[i]?) ∧ bits (p.getD 0 0).toNat 0 40 = bits (q.getD 0 0).toNat 0 40 ∧
    bits (p.getD 0 0).toNat 48 16 = bits (q.getD 0 0).toNat 48 16

/-- The runs of one unit of work, one after another, each a relation of the state before and after it (R260). -/
def RunsTo (run : State → Nat → State → Prop) : List Nat → State → State → Prop
  | [], s, t => t = s
  | k :: l, s, t => ∃ m, run s k m ∧ RunsTo run l m t

/-- Plane, row and first column of the 32 columns that unit `k` of a tile command moves, from tile `first` on (R360). -/
def runAt (t : Tensor) (first k : Nat) : Nat × Nat × Nat :=
  let x := t.tileAt (first + k / 32)
  (x.1, x.2.1 + k % 32 / 2, x.2.2 + k % 2 * 32)

/-- Address of a linear element of a tensor of 32-bit elements (R20, R389). -/
def wordAt (t : Tensor) (e : Nat) : Nat := t.rowStart (t.linear e).1 (t.linear e).2.1 + 4 * (t.linear e).2.2

/-- A tensor of 32-bit integers in banks in scratchpad or operand role, none of its words poisoned (R55, R76, R266). -/
structure LocalWords (s : State) (t : Tensor) : Prop where
  kind : t.kind = 2
  code : t.fcode = 8
  fmt : t.fmt = .int32
  usable : ∀ e, e < t.elements → s.tp.usable (wordAt t e) 4 = true
  clean : ∀ e, e < t.elements → s.tp.bankPoisoned (wordAt t e) 4 = false

/-! ## E-stream words that issue: their registers, token, operands and energy are there (R121, R123, R275) -/

/-- A scalar word with these sources issues: its source values, and the state in which it acts. -/
def State.eReadyScalar (s : State) (w : EWord) (codes : List (BitVec 6)) (dst : Option Nat) : Try (List Dword × State) :=
  s.eReady w 6 (scalarKeys codes ++ s.tp.ec.keyP w.pg.toNat :: []) dst (fun s => s.readScalars codes)

/-- A word that writes a predicate issues; it reads scalars and predicates. -/
def State.eReadyPred (s : State) (w : EWord) (codes preds : List (BitVec 6)) : Try (List Dword × State) :=
  s.eReady w 6 (scalarKeys codes ++ s.tp.ec.keyP w.pg.toNat :: preds.map (fun p => s.tp.ec.keyP p.toNat))
    (some (s.tp.ec.keyP w.d.toNat)) (fun s => s.readScalars codes)

/-- A control word issues. -/
def State.eReadyControl (s : State) (w : EWord) (codes : List (BitVec 6)) (dst : Option Nat) : Try (List Dword × State) :=
  s.eReady w 6 (scalarKeys codes ++ [s.tp.ec.keyP w.pg.toNat]) dst (fun s => s.readScalars codes)

/-- A tile word issues: its source tiles, and the state in which it acts. -/
def State.eReadyTile (s : State) (w : EWord) (codes : List (BitVec 6)) (keys : List Nat) (dst : Option Nat) :
    Try (List Tile × State) :=
  s.eReady w 72 (s.tp.ec.tileKeys codes ++ s.tp.ec.keyP w.pg.toNat :: keys) dst (fun s => s.readTiles codes)

/-- The words that write an e register: sources, and the result from their values (R336 to R338, R403, R415, R418). -/
def eScalarTable (w : EWord) : List (Instr × List (BitVec 6) × (List Dword → Dword)) :=
  let ab := if w.i = 1 then [w.a] else [w.a, w.b]
  let two (f : Dword → Dword → Dword) (v : List Dword) : Dword := f (v.getD 0 0) (v.getD 1 (w.imm.signExtend 64))
  [ (.eAdd w, ab, two (fun a b => BitVec.ofInt 64 (a.toInt + b.toInt))),
    (.eSub w, ab, two (fun a b => BitVec.ofInt 64 (a.toInt - b.toInt))),
    (.eMul w, ab, two (fun a b => BitVec.ofInt 64 (a.toInt * b.toInt))),
    (.eAnd w, ab, two (fun a b => a &&& b)), (.eOr w, ab, two (fun a b => a ||| b)), (.eXor w, ab, two (fun a b => a ^^^ b)),
    (.eShl w, ab, two (fun a b => BitVec.ofNat 64 (a.toNat * 2 ^ (b.toNat % 64)))),
    (.eShr w, ab, two (fun a b => BitVec.ofNat 64 (a.toNat / 2 ^ (b.toNat % 64)))),
    (.eSra w, ab, two (fun a b => BitVec.ofInt 64 (a.toInt / 2 ^ (b.toNat % 64)))),
    (.eMin w, ab, two (fun a b => if a.toInt ≤ b.toInt then a else b)),
    (.eMax w, ab, two (fun a b => if a.toInt ≤ b.toInt then b else a)),
    (.eLi w, [w.a], fun v => BitVec.ofNat 64 ((v.getD 0 0).toNat * 65536) + w.imm.signExtend 64),
    (.eSel w, [w.a, w.b, w.c], fun v => if v.getD 2 0 = 0 then v.getD 1 0 else v.getD 0 0),
    (.qin w, [w.a], fun v => v.getD 0 0) ]

/-- Cell `c` of a line's lanes with their guards: the lanes of a reduction or scan (R42, R447). -/
def lanesOf (w : EWord) (s : State) (v : List Tile) (line : List Nat) : List Lane :=
  line.map (fun k => eLane w ((s.guard w).getLsbD k) (elem w.format (w.source v 0 k)))

/-- A tile word: its sources, further predicates read, latency, and its cells. -/
abbrev TileRow := Instr × List (BitVec 6) × List (BitVec 6) × Nat × (State → List Tile → Nat → Nat)

/-- The words that write a tile register cell by cell: sources, further predicates read, latency, and the cell (R435 to R450). -/
def tileTable (w : EWord) : List TileRow :=
  let fmt := w.format
  let ab := w.tileCodes [w.a] w.b
  let x (v : List Tile) (k c : Nat) : Nat := elem fmt (w.source v k c)
  let arith (n : Nat) (flt : List Val → Val) (int : List Int → Int) : State → List Tile → Nat → Nat := fun _ v c =>
    let l := (List.range n).map (fun k => x v k c)
    if fmt.isFloat then encode fmt w.rnd w.sat (flt (l.map (decodeFloat fmt))) else fitInt fmt w.sat (int (l.map (decodeInt fmt)))
  let amount (v : List Tile) (c : Nat) : Int := signedOf (w.source v 1 c) 32
  let cellA (v : List Tile) (c : Nat) : Nat := cellOf (v.getD 0 []) c
  [ (.vadd w, ab, [], 4, arith 2 (fun l => addV w.rnd (valAt l 0) (valAt l 1)) (fun l => intAt l 0 + intAt l 1)),
    (.vsub w, ab, [], 4, arith 2 (fun l => addV w.rnd (valAt l 0) (negV (valAt l 1))) (fun l => intAt l 0 - intAt l 1)),
    (.vmul w, ab, [], 4, arith 2 (fun l => mulV (valAt l 0) (valAt l 1)) (fun l => intAt l 0 * intAt l 1)),
    (.vfma w, w.tileCodes [w.a, w.b] w.c, [], 4, arith 3 (fun l => addV w.rnd (mulV (valAt l 0) (valAt l 1)) (valAt l 2))
      (fun l => intAt l 0 * intAt l 1 + intAt l 2)),
    (.vmin w, ab, [], 4, arith 2 (fun l => minV (valAt l 0) (valAt l 1)) (fun l => min (intAt l 0) (intAt l 1))),
    (.vmax w, ab, [], 4, arith 2 (fun l => maxV (valAt l 0) (valAt l 1)) (fun l => max (intAt l 0) (intAt l 1))),
    (.vabs w, [w.a], [], 4, arith 1 (fun l => absV (valAt l 0)) (fun l => (intAt l 0).natAbs)),
    (.vneg w, [w.a], [], 4, arith 1 (fun l => negV (valAt l 0)) (fun l => -intAt l 0)),
    (.vbit w, [w.a, w.b], [], 4, fun _ v c =>
      elem fmt (logicOp w.fn (BitVec.ofNat 32 (x v 0 c)) (BitVec.ofNat 32 (x v 1 c))).toNat),
    (.vsel w, [w.a, w.b], [w.c], 4, fun s v c => if (s.getP w.c.toNat).getLsbD c then x v 0 c else x v 1 c),
    (.vmov w, [w.a], [], 4, fun _ v c => x v 0 c),
    (.vpopc w, [w.a], [], 4, fun _ v c => popcount (x v 0 c) (eCountWidth w)),
    (.vclz w, [w.a], [], 4, fun _ v c => if x v 0 c = 0 then eCountWidth w else eCountWidth w - 1 - (x v 0 c).log2),
    (.vshf w, ab, [], 4, fun _ v c => shiftElem w.fn fmt.width (x v 0 c) (signedOf (x v 1 c) fmt.width)),
    (.vli w, [], [], 4, fun _ _ c => elem fmt (immCell fmt w.imm (c % 64))),
    (.vcvt w, [w.a], [], 4, fun _ v c =>
      let src := (Fmt.ofCode (w.fn % 16)).getD .fp32
      convert src fmt w.rnd w.sat (elem src (w.source v 0 c))),
    (.vrotr w, ab, [], 7, fun _ v c => cellA v (64 * modN ((c / 64 : Nat) - amount v (c % 64)) 16 + c % 64)),
    (.vrotc w, ab, [], 10, fun _ v c => cellA v (64 * (c / 64) + modN ((c % 64 : Nat) - amount v (64 * (c / 64))) 64)),
    (.vbcr w, ab, [], 7, fun _ v c => cellA v (64 * modN (amount v (c % 64)) 16 + c % 64)),
    (.vbcc w, ab, [], 10, fun _ v c => cellA v (64 * (c / 64) + modN (amount v (64 * (c / 64))) 64)),
    (.visect w, [w.a, w.b], [], 7, fun _ v c =>
      if cellA v c = padCell then padCell
      else ((List.range 64).find? (fun k => cellOf (v.getD 1 []) (c / 64 * 64 + k) == cellA v c)).getD padCell),
    (.vcmpr w, [w.a, w.b], [], 10, fun _ v c =>
      match (chosen (v.getD 1 []) (c / 64))[c % 64]? with
      | some j => cellA v (c / 64 * 64 + j)
      | none => ePad w),
    (.vexpd w, [w.a, w.b], [], 10, fun _ v c =>
      match (chosen (v.getD 1 []) (c / 64)).findIdx? (fun j => j == c % 64) with
      | some n => cellA v (c / 64 * 64 + n)
      | none => ePad w),
    (.vredr w, [w.a], [], 7, fun s v c =>
      eLaneCell w (pair (eCombine w) 4 (.int 0) (lanesOf w s v (columnCells (c / 64) (c % 64))))),
    (.vredc w, [w.a], [], 10, fun s v c =>
      eLaneCell w (pair (eCombine w) 6 (.int 0) (lanesOf w s v (rowCells (c / 64) (c % 64))))),
    (.vscnr w, [w.a], [], 7, fun s v c =>
      eLaneCell w (scanLane w ((lanesOf w s v (columnCells (c / 64) (c % 64))).take (c / 64 + 1)))),
    (.vscnc w, [w.a], [], 10, fun s v c =>
      eLaneCell w (scanLane w ((lanesOf w s v (rowCells (c / 64) (c % 64))).take (c % 64 + 1)))),
    (.vqin w, [w.a], [], 4, fun _ v c => cellA v c) ]

/-- What a step adds to the outcome of the instruction that it runs: the turn passes on. -/
def ticked : Host.Outcome State Fault Refusal → Host.Outcome State Fault Refusal
  | .next t => .next t.tick
  | .fault f => .fault f
  | .refused r => .refused r

/-- The BE after the pushes that are due (R66, R113). -/
def State.settleB (s : State) : State :=
  let r := s.flush 3 0 s.tp.be.pushes
  r.1.setBe { r.1.tp.be with pushes := r.2, pushed := s.tp.be.pushed + (s.tp.be.pushes.length - r.2.length) }

end Sys2Proof.Machine

namespace Sys2Proof

/-- The agent that a chain engine is. -/
def ChainUnit.agent : ChainUnit → Agent
  | .ce => .ce
  | .ie => .ie
  | .he => .he

end Sys2Proof
end

