-- ==== Sys2Proof/Certificates/Slice0/Obligations.lean ====
section
/-!
DEFINITION. The statements for the provers. Each says of which rules of the manual it speaks. `Legal` hypotheses are
conditions on the state and the operands; "readable" is said by the machine's own read of an operand giving a value.
-/
open Sys2Proof Sys2Proof.Machine

/-! ## RISC-V words of the A stream (R302) -/

/-- R302: integer words write their result to rd (x0 keeps reading zero), move the pc past the word and leave every other
register, the other units, memory and the banks as they were. The results of every operation are those of RvOpResults,
RvOpWResults and RvUnResults: 32-bit results are sign-extended; a division by zero gives all ones, and its remainder the
dividend. -/
def Obligations.RvIntegerWordsWriteRd : Prop :=
  ∀ (s : State) (rd rs1 rs2 : BitVec 5),
    (∀ o : RvOp, ∃ t, exec (.rv64gc (.full (.op o rd rs1 rs2))) s = .next t ∧
      WritesX s t rd (rvOp o (s.getX rs1) (s.getX rs2)) 4) ∧
    (∀ o : RvOpW, ∃ t, exec (.rv64gc (.full (.opW o rd rs1 rs2))) s = .next t ∧
      WritesX s t rd (rvOpW o (s.getX rs1) (s.getX rs2)) 4) ∧
    (∀ (o : RvImm) (imm : BitVec 12), ∃ t, exec (.rv64gc (.full (.opImm o rd rs1 imm))) s = .next t ∧
      WritesX s t rd (rvImm o (s.getX rs1) (imm.signExtend 64)) 4) ∧
    (∀ imm : BitVec 12, ∃ t, exec (.rv64gc (.full (.addiw rd rs1 imm))) s = .next t ∧
      WritesX s t rd (((s.getX rs1 + imm.signExtend 64).setWidth 32).signExtend 64) 4) ∧
    (∀ (o : RvShift) (sh : BitVec 6), ∃ t, exec (.rv64gc (.full (.shift o rd rs1 sh))) s = .next t ∧
      WritesX s t rd (rvShift o (s.getX rs1) sh.toNat) 4) ∧
    (∀ (o : RvShiftW) (sh : BitVec 5), ∃ t, exec (.rv64gc (.full (.shiftW o rd rs1 sh))) s = .next t ∧
      WritesX s t rd (rvShiftW o (s.getX rs1) sh.toNat) 4) ∧
    (∀ o : RvUn, ∃ t, exec (.rv64gc (.full (.un o rd rs1))) s = .next t ∧ WritesX s t rd (rvUn o (s.getX rs1)) 4) ∧
    (∀ imm : BitVec 20, ∃ t, exec (.rv64gc (.full (.lui rd imm))) s = .next t ∧
      WritesX s t rd ((imm ++ (0 : BitVec 12)).signExtend 64) 4) ∧
    (∀ imm : BitVec 20, ∃ t, exec (.rv64gc (.full (.auipc rd imm))) s = .next t ∧
      WritesX s t rd (s.tp.ac.pc + (imm ++ (0 : BitVec 12)).signExtend 64) 4) ∧
    (∀ a b : Dword, RvOpResults a b ∧ RvOpWResults a b ∧ RvUnResults a ∧
      (∀ sh, sh < 64 → rvShift .slli a sh = a <<< sh ∧ rvShift .srli a sh = a >>> sh ∧
        (rvShift .srai a sh).toInt = a.toInt / 2 ^ sh ∧ rvShift .slliUw a sh = (a.setWidth 32).setWidth 64 <<< sh ∧
        ∀ i, i < 64 → (rvShift .rori a sh).getLsbD i = a.getLsbD ((i + sh) % 64)) ∧
      (∀ sh, sh < 32 → rvShiftW .slliw a sh = ((a.setWidth 32) <<< sh).signExtend 64 ∧
        rvShiftW .srliw a sh = ((a.setWidth 32) >>> sh).signExtend 64 ∧
        (rvShiftW .sraiw a sh).toInt = (a.setWidth 32).toInt / 2 ^ sh ∧
        ∃ r : Word, rvShiftW .roriw a sh = r.signExtend 64 ∧ ∀ i, i < 32 → r.getLsbD i = a.getLsbD ((i + sh) % 32)) ∧
      rvImm .addi a b = a + b ∧ rvImm .slti a b = (if a.toInt < b.toInt then 1 else 0) ∧
      rvImm .sltiu a b = (if a.toNat < b.toNat then 1 else 0) ∧ rvImm .xori a b = a ^^^ b ∧ rvImm .ori a b = a ||| b ∧
      rvImm .andi a b = a &&& b)

/-- R302: a jump links the address of the next word and goes to its target; a branch goes to its target exactly when its
condition holds. Nothing else changes. -/
def Obligations.RvJumpsAndBranches : Prop :=
  ∀ (s : State) (rd rs1 rs2 : BitVec 5),
    (∀ off : BitVec 20, ∃ t, exec (.rv64gc (.full (.jal rd off))) s = .next t ∧
      t = (s.setX rd (s.tp.ac.pc + 4)).setPc (s.tp.ac.pc + (off ++ (0 : BitVec 1)).signExtend 64)) ∧
    (∀ imm : BitVec 12, ∃ t, exec (.rv64gc (.full (.jalr rd rs1 imm))) s = .next t ∧
      t = (s.setX rd (s.tp.ac.pc + 4)).setPc ((s.getX rs1 + imm.signExtend 64) &&& ~~~1)) ∧
    (∀ (o : RvBr) (off : BitVec 12), ∃ t, exec (.rv64gc (.full (.br o rs1 rs2 off))) s = .next t ∧
      t = s.setPc (if rvBranch o (s.getX rs1) (s.getX rs2) then s.tp.ac.pc + (off ++ (0 : BitVec 1)).signExtend 64
        else s.tp.ac.pc + 4)) ∧
    (∀ a b : Dword, rvBranch .beq a b = decide (a = b) ∧ rvBranch .bne a b = decide (a ≠ b) ∧
      rvBranch .blt a b = decide (a.toInt < b.toInt) ∧ rvBranch .bge a b = decide (b.toInt ≤ a.toInt) ∧
      rvBranch .bltu a b = decide (a.toNat < b.toNat) ∧ rvBranch .bgeu a b = decide (b.toNat ≤ a.toNat))

/-- R47, R48, R55: a load or store of the AC addresses the TP-local window. Within one bank in scratchpad or operand role a
load gives the little-endian bytes, sign- or zero-extended, and a store writes its low bytes there and no others; on a
naturally aligned address LR reserves, an SC under its reservation stores and gives 0, another SC gives 1 and stores nothing,
and an AMO gives the old value and writes the new one. Outside such banks the access ends the context with cause 0x43, across
a bank bound with 0x44. That an SC fails only without its reservation is the model's choice (note 28). R62, with the model's
reading of which earlier values a unit may hold (note 91): of an aligned 8-byte unit whose earlier value the AC still holds a read gives that value whole;
where it holds none, the bytes of the banks. -/
def Obligations.RvWindowAccesses : Prop :=
  ∀ (s : State) (rd rs1 rs2 : BitVec 5) (imm : BitVec 12) (dw : BitVec 1) (ord : BitVec 2),
    (∀ w : RvLd, InBank s (s.ea rs1 imm) (rvLoad w).1 → s.tp.bankPoisoned (s.ea rs1 imm) (rvLoad w).1 = false →
      ∃ t, exec (.rv64gc (.full (.load w rd rs1 imm))) s = .next t ∧
        WritesX s t rd (extend (rvLoad w).1 (rvLoad w).2 (leValue (s.shownBank (s.ea rs1 imm) (rvLoad w).1))) 4) ∧
    (∀ a n, (∀ x ∈ s.tp.bankStale, x.within (unitOfAgent s.turn.agent) a n = false) → s.shownBank a n = s.readBank a n) ∧
    (∀ x a, s.tp.bankStale = [x] → x.within (unitOfAgent s.turn.agent) a 8 = true → x.bytes.length = 8 → a % 8 = 0 →
      s.shownBank a 8 = x.bytes) ∧
    (∀ w : RvSt, InBank s (s.ea rs1 imm) (rvStore w) →
      ∃ t, exec (.rv64gc (.full (.store w rs1 rs2 imm))) s = .next t ∧ t.tp.ac.pc = s.tp.ac.pc + 4 ∧ SameAc s t [] ∧
        SameUnits s t ∧ SameMemory s t ∧ SameBanksBut s t (s.ea rs1 imm) (rvStore w) ∧
        ∀ i, i < rvStore w → Sparse.get t.tp.banks (s.ea rs1 imm + i) = byteOf (s.getX rs2).toNat i) ∧
    (∀ w : RvLd, s.ea rs1 imm < 0x200000 → s.ea rs1 imm / 0x10000 ≠ (s.ea rs1 imm + (rvLoad w).1 - 1) / 0x10000 →
      exec (.rv64gc (.full (.load w rd rs1 imm))) s = .next (s.takeFatal 1 0x44 0 0)) ∧
    (∀ w : RvLd, s.ea rs1 imm < 0x200000 → s.ea rs1 imm / 0x10000 = (s.ea rs1 imm + (rvLoad w).1 - 1) / 0x10000 →
      s.tp.usable (s.ea rs1 imm) (rvLoad w).1 = false →
      exec (.rv64gc (.full (.load w rd rs1 imm))) s = .next (s.takeFatal 1 0x43 0 0)) ∧
    (InBank s (s.getX rs1).toNat (amoBytes dw) → (s.getX rs1).toNat % amoBytes dw = 0 →
      (s.tp.bankPoisoned (s.getX rs1).toNat (amoBytes dw) = false →
        ∃ t, exec (.rv64gc (.full (.lr dw ord rd rs1))) s = .next t ∧ t.tp.ac.resv = some ((s.getX rs1).toNat, amoBytes dw) ∧
          WritesX s t rd (extend (amoBytes dw) true (leValue (s.shownBank (s.getX rs1).toNat (amoBytes dw)))) 4) ∧
      (s.tp.ac.resv = some ((s.getX rs1).toNat, amoBytes dw) →
        ∃ t, exec (.rv64gc (.full (.sc dw ord rd rs1 rs2))) s = .next t ∧ t.tp.ac.resv = none ∧
          t.getX rd = 0 ∧ t.tp.ac.pc = s.tp.ac.pc + 4 ∧ SameAc s t [rd] ∧ SameUnits s t ∧ SameMemory s t ∧
          SameBanksBut s t (s.getX rs1).toNat (amoBytes dw) ∧
          ∀ i, i < amoBytes dw → Sparse.get t.tp.banks ((s.getX rs1).toNat + i) = byteOf (s.getX rs2).toNat i) ∧
      (s.tp.ac.resv ≠ some ((s.getX rs1).toNat, amoBytes dw) →
        ∃ t, exec (.rv64gc (.full (.sc dw ord rd rs1 rs2))) s = .next t ∧ t.tp.ac.resv = none ∧ WritesX s t rd 1 4) ∧
      (∀ op : RvAmo, s.tp.bankPoisoned (s.getX rs1).toNat (amoBytes dw) = false →
        ∃ t, exec (.rv64gc (.full (.amo op dw ord rd rs1 rs2))) s = .next t ∧
          t.getX rd = (if rd = 0 then 0 else extend (amoBytes dw) true (leValue (s.shownBank (s.getX rs1).toNat (amoBytes dw)))) ∧
          t.tp.ac.pc = s.tp.ac.pc + 4 ∧ SameAc s t [rd] ∧ SameUnits s t ∧ SameMemory s t ∧
          SameBanksBut s t (s.getX rs1).toNat (amoBytes dw) ∧
          ∀ i, i < amoBytes dw → Sparse.get t.tp.banks ((s.getX rs1).toNat + i) =
            byteOf (rvAmo op (amoBytes dw) (leValue (s.shownBank (s.getX rs1).toNat (amoBytes dw))) (s.getX rs2).toNat) i))

/-- R302: a 16-bit word does what the 32-bit word it stands for does, and moves the pc by 2 where that one moves it by 4; its
jumps link and its branches fall through to the address two past its own. -/
def Obligations.RvCompressedWords : Prop :=
  ∀ (s : State) (c : RvC),
    (∀ t, s.runRv 4 (expand c) = .ok t → expand c ≠ .ebreak → (∀ rd off, expand c ≠ .jal rd off) →
      (∀ rd rs1 imm, expand c ≠ .jalr rd rs1 imm) → (∀ o rs1 rs2 off, expand c ≠ .br o rs1 rs2 off) →
      exec (.rv64gc (.full (expand c))) s = .next t ∧
        exec (.rv64gc (.comp c)) s = .next (t.setPc (s.tp.ac.pc + 2))) ∧
    (∀ rd off, expand c = .jal rd off → exec (.rv64gc (.comp c)) s =
      .next ((s.setX rd (s.tp.ac.pc + 2)).setPc (s.tp.ac.pc + (off ++ (0 : BitVec 1)).signExtend 64))) ∧
    (∀ rd rs1 imm, expand c = .jalr rd rs1 imm → exec (.rv64gc (.comp c)) s =
      .next ((s.setX rd (s.tp.ac.pc + 2)).setPc ((s.getX rs1 + imm.signExtend 64) &&& ~~~1))) ∧
    (∀ o rs1 rs2 off, expand c = .br o rs1 rs2 off → exec (.rv64gc (.comp c)) s =
      .next (s.setPc (if rvBranch o (s.getX rs1) (s.getX rs2) then s.tp.ac.pc + (off ++ (0 : BitVec 1)).signExtend 64
        else s.tp.ac.pc + 2)))

/-- R26, R302: a floating-point word on registers writes its rounded result to f register rd and leaves FCSR, every integer
register, memory and the other units as they were. R254 (the set of CSRs is the model's, notes 14 and 15): CSRRW of FCSR
swaps it with rd; CSRRW of sscratch swaps it with rd in service code and is cause 0x20 in a task. -/
def Obligations.RvFloatAndCsrWords : Prop :=
  ∀ (s : State) (rd rs1 rs2 rs3 : BitVec 5),
    (∀ (f : RvFmt) (rm : BitVec 3) (m : Rnd), rounding rm = .ok m →
      (∀ o : RvFop, ∃ t, exec (.rv64gc (.full (.farith o f rm rd rs1 rs2))) s = .next t ∧
        t = (s.setFp f rd (encodeFloat (RvFmt.fmt f) m false (fpArith o m (s.fpVal f rs1) (s.fpVal f rs2)))).setPc
          (s.tp.ac.pc + 4) ∧
        t.tp.ac.fcsr = s.tp.ac.fcsr ∧ (∀ r, t.getX r = s.getX r) ∧ (∀ r, r ≠ rd → t.getF r = s.getF r) ∧ SameUnits s t ∧
        SameMemory s t) ∧
      (∀ k : RvFma, ∃ t, exec (.rv64gc (.full (.fma k f rm rd rs1 rs2 rs3))) s = .next t ∧
        t = (s.setFp f rd (encodeFloat (RvFmt.fmt f) m false (fmaV k m (s.fpVal f rs1) (s.fpVal f rs2) (s.fpVal f rs3)))).setPc
          (s.tp.ac.pc + 4) ∧ t.tp.ac.fcsr = s.tp.ac.fcsr)) ∧
    (∃ t, exec (.rv64gc (.full (.csr .rw rd rs1 0x003))) s = .next t ∧
      t.tp.ac.fcsr = BitVec.ofNat 32 ((s.getX rs1).toNat % 256) ∧
      t.getX rd = (if rd = 0 then 0 else BitVec.ofNat 64 (s.tp.ac.fcsr.toNat % 256)) ∧ t.tp.ac.pc = s.tp.ac.pc + 4 ∧
      (∀ r, r ≠ rd → t.getX r = s.getX r) ∧ SameUnits s t ∧ SameMemory s t) ∧
    (s.tp.ac.sup = true → ∃ t, exec (.rv64gc (.full (.csr .rw rd rs1 0x140))) s = .next t ∧
      t.tp.ac.sscratch = s.getX rs1 ∧ t.getX rd = (if rd = 0 then 0 else s.tp.ac.sscratch) ∧
      t.tp.ac.pc = s.tp.ac.pc + 4 ∧ (∀ r, r ≠ rd → t.getX r = s.getX r) ∧ SameUnits s t ∧ SameMemory s t) ∧
    (s.tp.ac.sup = false → exec (.rv64gc (.full (.csr .rw rd rs1 0x140))) s = .next (s.takeFatal 1 0x20 0 0))


/-! ## Handles (R235, R236, R377 to R387) -/

/-- R384, R236, R233: HLD writes the loaded bytes, sign- or zero-extended, to rd and changes no other register, no memory
and no bank. Past the commit point, with no cached copy, the bytes are those of memory at the handle's place, with the pending
writes that the access core sees over it; a discarded page reads as zeros. -/
def Obligations.HldLoadsThroughHandle : Prop :=
  ∀ (hn : BitVec 4) (imm : BitVec 8) (rs1 : BitVec 5) (w : BitVec 3) (rd : BitVec 5) (s : State),
    (∀ bs s1, s.handleLoad hn (s.handleOff rs1 imm) (2 ^ (w.toNat % 4)) = .ok (bs, s1) →
      ∃ t, exec (.hld hn imm rs1 w rd) s = .next t ∧
        WritesX s t rd (extend (2 ^ (w.toNat % 4)) (w.toNat < 4) (leValue bs)) 4) ∧
    (∀ p, s.handlePiece hn (s.handleOff rs1 imm) (2 ^ (w.toNat % 4)) 1 = .ok p → s.tp.ac.phase ≠ .replay →
      s.tp.ac.cbufAt = [] → s.tp.cache = [] → p.zero = false → inHbm p.place = true →
      s.unreadable p.place (2 ^ (w.toNat % 4)) = false →
      ∃ t, exec (.hld hn imm rs1 w rd) s = .next t ∧
        WritesX s t rd (extend (2 ^ (w.toNat % 4)) (w.toNat < 4) (Memory.read (s.view s.cur 1) p.place (2 ^ (w.toNat % 4)))) 4) ∧
    (∀ p, s.handlePiece hn (s.handleOff rs1 imm) (2 ^ (w.toNat % 4)) 1 = .ok p → s.tp.ac.phase ≠ .replay → p.zero = true →
      ∃ t, exec (.hld hn imm rs1 w rd) s = .next t ∧ WritesX s t rd 0 4)

/-- R387, R200, R209, R310: HST past the commit point, and its release form. Within one aligned 8-byte unit they write the low
bytes of rs2 at the handle's place, no other byte of memory and no register, once the access core's own pending writes and
those that it sees in that unit are performed (none, where nothing is pending). Across units memory stays: the units become
pending writes of the access core. Before the commit point HST only buffers its bytes. A place behind a port needs the port
to carry traffic. -/
def Obligations.HstStoresThroughHandle : Prop :=
  ∀ (hn : BitVec 4) (imm : BitVec 8) (rs1 rs2 : BitVec 5) (w : BitVec 2) (s : State) (p : Piece),
    let bs := leBytes (2 ^ w.toNat) (s.getX rs2).toNat
    let u := s.beforeStore [(p.place, bs)]
    s.handlePiece hn (s.handleOff rs1 imm) (2 ^ w.toNat) 2 = .ok p → s.portOpen s.task.ctx p.place p.space = true →
    (s.weak = [] → u = s) ∧
    (s.tp.ac.phase ≠ .replay → p.place % 8 + 2 ^ w.toNat ≤ 8 → u.Untracked p.place (2 ^ w.toNat) →
      ∀ i ∈ [Instr.hst hn imm rs1 rs2 w, Instr.hstRl hn imm rs1 rs2 w],
      ∃ t, exec i s = .next t ∧ t.tp.ac.pc = u.tp.ac.pc + 4 ∧ SameAc u t [] ∧ SameUnits u t ∧ t.tp.banks = u.tp.banks ∧
        SameMemoryBut u t p.place (2 ^ w.toNat) ∧
        ∀ k, k < 2 ^ w.toNat → Sparse.get t.mem (p.place + k) = byteOf (s.getX rs2).toNat k) ∧
    (s.tp.ac.phase ≠ .replay → 8 < p.place % 8 + 2 ^ w.toNat →
      ∀ i ∈ [Instr.hst hn imm rs1 rs2 w, Instr.hstRl hn imm rs1 rs2 w],
      ∃ t, exec i s = .next t ∧ t.tp.ac.pc = s.tp.ac.pc + 4 ∧ SameAc s t [] ∧ SameUnits s t ∧ t.tp.banks = s.tp.banks ∧
        SameMemory s t ∧ t.weak = s.weak ++ s.pendingC p.space p.place bs) ∧
    (s.tp.ac.phase = .replay → s.tp.ac.storeOver [p] = false →
      ∃ t, exec (.hst hn imm rs1 rs2 w) s = .next t ∧ t.tp.ac.pc = s.tp.ac.pc + 4 ∧ SameAc s t [] ∧ SameUnits s t ∧
        SameMemory s t ∧ t.tp.banks = s.tp.banks ∧
        ∀ k, k < 2 ^ w.toNat → Sparse.get t.tp.ac.cbuf (p.place + k) = byteOf (s.getX rs2).toNat k ∧
          (p.place + k) ∈ t.tp.ac.cbufAt)

/-- R377, R378, R217, R219, R310: HAMO on a naturally aligned location of device memory, or one that a port carries as an
AtomicOp, past the commit point, gives the old value to rd. From device scope on the new value stands at the location and
nothing else changes, once the pending writes that come first are performed; at a narrower scope memory stays, the path-C writes
that the access core sees are performed at that scope, and the new value is pending there, after the writes to its bytes that
were read. -/
def Obligations.HamoUpdatesMemory : Prop :=
  ∀ (op : BitVec 4) (ty : BitVec 2) (hn : BitVec 4) (rs2 rs1 rd : BitVec 5) (s s0 : State) (p : Piece) (n : Nat),
    let home := atomicScope (s.getHandle hn).scope p.place
    let wide := 5 ≤ home
    let u := s0.beforeAtomic home p.place n
    let old := Memory.read (u.view u.cur 1) p.place n
    let new := hamoValue op.toNat ty.toNat old (s.getX rs2).toNat
    n = (if ty = 1 then 8 else 4) → s.tp.ac.phase ≠ .replay →
    (((s.getHandle hn).va + (s.getX rs1).toNat) % 2 ^ 64) % n = 0 → s.handlePiece hn (s.getX rs1) n 4 = .ok p →
    (inHbm p.place = true ∨ ((op = 0 ∨ op = 8) ∧ ty ≠ 2)) → s.sendNonPosted s.task.ctx p.place p.space = .ok s0 →
    s.unreadable p.place n = false → (wide → u.Untracked p.place n) →
    ∃ t, exec (.hamo op ty hn rs2 rs1 rd) s = .next t ∧ t.getX rd = (if rd = 0 then 0 else extend n (ty = 0) old) ∧
      t.tp.ac.pc = u.tp.ac.pc + 4 ∧ SameAc u t [rd] ∧ SameUnits u t ∧ t.tp.banks = u.tp.banks ∧
      (wide → SameMemoryBut u t p.place n ∧ ∀ k, k < n → Sparse.get t.mem (p.place + k) = byteOf new k) ∧
      (¬wide → SameMemory s t ∧ t.weak = placeAtomic (s.pendingAt home p.place (leBytes n new)) (fun y => y.seen s.cur 1) u.weak)

/-- R379, R217, R219: HCAS on a naturally aligned location of device memory, or behind a port, past the commit point, gives the
old value to rd (to a pair of registers for 16 bytes); it writes rs2's value (the pair's) exactly when the old value equals
rd's, and otherwise no byte of memory: at the location from device scope on, pending at a narrower scope. -/
def Obligations.HcasComparesAndSwaps : Prop :=
  ∀ (hn : BitVec 4) (w : BitVec 2) (rs2 rs1 rd : BitVec 5) (s s0 : State) (p : Piece) (n : Nat),
    let home := atomicScope (s.getHandle hn).scope p.place
    let wide := 5 ≤ home
    let u := s0.beforeAtomic home p.place n
    let old := Memory.read (u.view u.cur 1) p.place n
    let pair (r : BitVec 5) : Nat := (s.getX r).toNat + (if w = 2 then (s.getX (r + 1)).toNat * 2 ^ 64 else 0)
    let new := pair rs2 % 2 ^ (8 * n)
    n = 4 * 2 ^ w.toNat → w ≠ 3 → s.tp.ac.phase ≠ .replay →
    (((s.getHandle hn).va + (s.getX rs1).toNat) % 2 ^ 64) % n = 0 → s.handlePiece hn (s.getX rs1) n 4 = .ok p →
    s.sendNonPosted s.task.ctx p.place p.space = .ok s0 → s.unreadable p.place n = false → (wide → u.Untracked p.place n) →
    (w = 2 → rd.toNat % 2 = 0 ∧ rs2.toNat % 2 = 0) →
    ∃ t, exec (.hcas hn w rs2 rs1 rd) s = .next t ∧
      t.getX rd = (if rd = 0 then 0 else if w = 2 then BitVec.ofNat 64 old else extend n (w = 0) old) ∧
      (w = 2 → t.getX (rd + 1) = BitVec.ofNat 64 (old / 2 ^ 64)) ∧
      t.tp.ac.pc = u.tp.ac.pc + 4 ∧ SameAc u t (if w = 2 then [rd, rd + 1] else [rd]) ∧ SameUnits u t ∧
      t.tp.banks = u.tp.banks ∧
      (old ≠ pair rd % 2 ^ (8 * n) → SameMemory u t ∧ t.weak = u.weak) ∧
      (old = pair rd % 2 ^ (8 * n) → wide →
        SameMemoryBut u t p.place n ∧ ∀ k, k < n → Sparse.get t.mem (p.place + k) = byteOf new k) ∧
      (old = pair rd % 2 ^ (8 * n) → ¬wide → SameMemory s t ∧
        t.weak = placeAtomic (s.pendingAt home p.place (leBytes n new)) (fun y => y.seen s.cur 1) u.weak)

/-- R235, R386, R453: XLAT makes handle hn valid when the TLB or a peer window holds its page, faulted with cause 0x07 or 0x08
when space, scope or window are wrong, and pending otherwise; HREL frees a handle. Every other register stays. -/
def Obligations.XlatAndHrelSetHandle : Prop :=
  ∀ (hn : BitVec 4) (rs1 rs2 : BitVec 5) (s : State),
    (∃ t, exec (.xlat hn rs1 rs2) s = .next t ∧ t.tp.ac.pc = s.tp.ac.pc + 4 ∧ t.tp.ac.x = s.tp.ac.x ∧ SameUnits s t ∧
      SameMemory s t ∧ t.tp.banks = s.tp.banks ∧ (∀ m, m ≠ hn → t.getHandle m = s.getHandle m) ∧
      (let space := bits (s.getX rs2).toNat 0 8
       let scope := bits (s.getX rs2).toNat 8 4
       let va := (s.getX rs1).toNat
       (t.getHandle hn).va = va ∧ (t.getHandle hn).space = space ∧
       (18 ≤ space ∨ 10 ≤ scope → (t.getHandle hn).st = .faulted 0x07) ∧
       (2 ≤ space → space < 18 → scope < 10 → (t.getHandle hn).st =
         if (peerPage (s.getCtx s.task.ctx) space va).isSome then .valid else .faulted 0x08) ∧
       (space < 2 → scope < 10 → (t.getHandle hn).st =
         if (s.tp.tlbFind s.task.ctx space va).isSome then .valid else .pending))) ∧
    (∃ t, exec (.hrel hn) s = .next t ∧ (t.getHandle hn).st = .free ∧ t.tp.ac.pc = s.tp.ac.pc + 4 ∧
      t.tp.ac.x = s.tp.ac.x ∧ (∀ m, m ≠ hn → t.getHandle m = s.getHandle m) ∧ SameUnits s t ∧ SameMemory s t)

/-! ## Queues (R63 to R70, R402, R414, R420, R425) -/

/-- R65, R66, R402, R414: QPUT, LDQ and LDQ from the window push a scalar at the tail of a queue that runs from A to E and has
room; QGET pops the head of one that runs from E to A. A queue of 16 entries makes a push wait, an empty one a pop; the wrong
direction is cause 0x47. R366: where LDQ reads the bit of a completion event and finds it clear, no earlier value of the banks is
held for the AC any more. -/
def Obligations.ScalarQueueWords : Prop :=
  ∀ (q : BitVec 2) (rs1 rd : BitVec 5) (hn : BitVec 4) (s : State),
    (s.eToA q.toNat = false → (s.scalarQ q.toNat).length < 16 →
      exec (.qput rs1 q) s =
        .next ((s.setScalarQ q.toNat (s.scalarQ q.toNat ++ [s.getX rs1])).setPc (s.tp.ac.pc + 4))) ∧
    (∀ a n, s.tp.events = [] → s.heed a n = s) ∧
    (s.eToA q.toNat = false → 16 ≤ (s.scalarQ q.toNat).length → exec (.qput rs1 q) s = .next s) ∧
    (s.eToA q.toNat = true → exec (.qput rs1 q) s = .next (s.takeFatal 1 0x47 0 0)) ∧
    (∀ v l, s.eToA q.toNat = true → s.scalarQ q.toNat = v :: l → s.queueOk q.toNat 1 = .ok () →
      exec (.qget rd q) s = .next ((((s.setScalarQ q.toNat l).movePoison q.toNat 1).setX rd v).setPc (s.tp.ac.pc + 4))) ∧
    (s.eToA q.toNat = true → s.scalarQ q.toNat = [] → exec (.qget rd q) s = .next s) ∧
    (s.eToA q.toNat = false → exec (.qget rd q) s = .next (s.takeFatal 1 0x47 0 0)) ∧
    (∀ bs s1, s.eToA q.toNat = false → (s.scalarQ q.toNat).length < 16 → s.handleLoad hn (s.getX rs1) 8 = .ok (bs, s1) →
      ∃ t, exec (.ldq hn rs1 q) s = .next t ∧ SameMemory s t ∧
        t.calm = ((s.setScalarQ q.toNat (s.scalarQ q.toNat ++ [BitVec.ofNat 64 (leValue bs)])).setPc (s.tp.ac.pc + 4)).calm) ∧
    (∀ v, s.eToA q.toNat = false → (s.scalarQ q.toNat).length < 16 → s.windowLoad (s.getX rs1).toNat 8 = .ok v →
      exec (.ldqLocal rs1 q) s =
        .next (((s.heed (s.getX rs1).toNat 8).setScalarQ q.toNat (s.scalarQ q.toNat ++ [BitVec.ofNat 64 v])).setPc (s.tp.ac.pc + 4)))

/-- R420, R200: STQ pops the head of a queue from E to A and stores its eight bytes, through a handle or in the window. In the
window, and through a handle at an aligned place past the commit point, they are there and nothing else changes, once the
pending writes that come first are performed; at another place the two units are pending. -/
def Obligations.StqStoresHead : Prop :=
  ∀ (q : BitVec 2) (rs1 : BitVec 5) (hn : BitVec 4) (s : State) (v : Dword) (l : List Dword),
    s.eToA q.toNat = true → s.scalarQ q.toNat = v :: l → s.queueOk q.toNat 1 = .ok () → s.tp.ac.heldScalar = none →
    (∀ p, s.handlePiece hn (s.getX rs1) 8 2 = .ok p → s.portOpen s.task.ctx p.place p.space = true → s.tp.ac.phase ≠ .replay →
      let u := s.beforeStore [(p.place, leBytes 8 v.toNat)]
      ∃ t, exec (.stq hn rs1 q) s = .next t ∧ t.tp.ac.x = s.tp.ac.x ∧ t.scalarQ q.toNat = l ∧ t.tp.ac.heldScalar = none ∧
        t.tp.banks = s.tp.banks ∧ t.tp.ac.pc = s.tp.ac.pc + 4 ∧
        (p.place % 8 = 0 → u.Untracked p.place 8 → SameMemoryBut u t p.place 8 ∧
          ∀ k, k < 8 → Sparse.get t.mem (p.place + k) = byteOf v.toNat k) ∧
        (p.place % 8 ≠ 0 → SameMemory s t ∧ t.weak = s.weak ++ s.pendingC p.space p.place (leBytes 8 v.toNat))) ∧
    (InBank s (s.getX rs1).toNat 8 →
      ∃ t, exec (.stqLocal rs1 q) s = .next t ∧ t.tp.ac.pc = s.tp.ac.pc + 4 ∧ t.tp.ac.x = s.tp.ac.x ∧ t.scalarQ q.toNat = l ∧
        t.tp.ac.heldScalar = none ∧ SameMemory s t ∧ SameBanksBut s t (s.getX rs1).toNat 8 ∧
        ∀ k, k < 8 → Sparse.get t.tp.banks ((s.getX rs1).toNat + k) = byteOf v.toNat k)

/-- R425, R200, R458: TLDQ loads 16 rows of 256 bytes, a stride apart, through a handle, and pushes the tile of them at the tail of a
queue from A to E; how many rows a step moves is free (note 5), and one that moves some waits for the rest. TSTQ pops the head
tile of a queue from E to A and stores its rows in the same way: past the commit point each row's units are pending writes of
the access core, and memory stays until they are performed. In the banks all rows are moved at once; with a stride of 256 the
4,096 bytes there hold the tile row by row, cells little-endian, and no other byte changes. -/
def Obligations.TileQueueWords : Prop :=
  ∀ (q : BitVec 2) (rs1 rs2 : BitVec 5) (hn : BitVec 4) (s : State),
    let base := s.getX rs1
    let stride := s.getX rs2
    let k := 4 + q.toNat
    let load (a : State) (i : Nat) (b : State) : Prop := State.loadRow hn base stride a i = .ok b
    let store (a : State) (i : Nat) (b : State) : Prop := State.storeRow hn base stride a i = .ok b
    (s.tp.ac.rows.length < 16 → 1 ≤ s.rowCount.1 ∧ s.tp.ac.rows.length + s.rowCount.1 ≤ 16 ∧ s.rowCount.2.calm = s.calm) ∧
    (∀ i p bs s1, s.handlePiece hn (base + BitVec.ofNat 64 i * stride) 256 1 = .ok p → s.loadPieces [p] = .ok (bs, s1) →
      ∃ u, load s i u ∧ SameMemory s u ∧ u.calm = (s.setAc { s.tp.ac with rows := s.tp.ac.rows ++ [bs] }).calm) ∧
    (∀ u, s.eToA k = false → s.tp.ac.rows.length < 16 →
      RunsTo load (List.range' s.tp.ac.rows.length s.rowCount.1) s.rowCount.2 u →
      (s.tp.ac.rows.length + s.rowCount.1 < 16 → exec (.tldq hn rs1 rs2 q) s = .next u) ∧
      (s.tp.ac.rows.length + s.rowCount.1 = 16 → (u.tileQ k).length < 4 → exec (.tldq hn rs1 rs2 q) s =
        .next (((u.setTileQ k (u.tileQ k ++ [tileOfBytes u.tp.ac.rows.flatten])).setAc { u.tp.ac with rows := [] }).setPc
          (u.tp.ac.pc + 4)))) ∧
    (∀ bs, s.eToA k = false → (s.tileQ k).length < 4 → s.localCheck base stride = .ok () → s.localRows base stride = .ok bs →
      exec (.tldqLocal rs1 rs2 q) s =
        .next ((((List.range 16).foldl (fun t i => t.heed (base + BitVec.ofNat 64 i * stride).toNat 256) s).setTileQ k
          (s.tileQ k ++ [tileOfBytes bs])).setPc (s.tp.ac.pc + 4))) ∧
    (∀ i p, s.handlePiece hn (base + BitVec.ofNat 64 i * stride) 256 2 = .ok p → s.portOpen s.task.ctx p.place p.space = true →
      s.tp.ac.phase ≠ .replay →
      ∃ u, store s i u ∧ u.weak = s.weak ++ s.pendingC p.space p.place (tileRow (s.tp.ac.heldTile.getD []) i) ∧ SameMemory s u ∧
        u.tp.banks = s.tp.banks ∧ u.tp.ac.x = s.tp.ac.x ∧ u.tp.ac.heldTile = s.tp.ac.heldTile ∧
        u.tp.ac.rows = s.tp.ac.rows ++ [[]]) ∧
    (∀ v l, s.eToA k = true → s.tileQ k = v :: l → s.queueOk k 1 = .ok () → s.tp.ac.heldTile = none →
      (let s1 := ((s.setTileQ k l).movePoison k 1).setAc { s.tp.ac with heldTile := some v }
       ∀ u, s1.tp.ac.rows.length < 16 → RunsTo store (List.range' s1.tp.ac.rows.length s1.rowCount.1) s1.rowCount.2 u →
        (s1.tp.ac.rows.length + s1.rowCount.1 < 16 → exec (.tstq hn rs1 rs2 q) s = .next u) ∧
        (s1.tp.ac.rows.length + s1.rowCount.1 = 16 → exec (.tstq hn rs1 rs2 q) s = .next (u.dropHeld.setPc (u.tp.ac.pc + 4)))) ∧
      (InBank s base.toNat 4096 → stride = 256 →
        ∃ t, exec (.tstqLocal rs1 rs2 q) s = .next t ∧ t.tp.ac.pc = s.tp.ac.pc + 4 ∧ t.tp.ac.x = s.tp.ac.x ∧
          t.tileQ k = l ∧ t.tp.ac.heldTile = none ∧ SameMemory s t ∧ SameBanksBut s t base.toNat 4096 ∧
          ∀ c n, c < 1024 → n < 4 → Sparse.get t.tp.banks (base.toNat + 4 * c + n) = byteOf (Sparse.get v c).toNat n)) ∧
    (∀ v u, s.eToA k = true → s.tp.ac.heldTile = some v → s.tp.ac.rows.length < 16 →
      RunsTo store (List.range' s.tp.ac.rows.length s.rowCount.1) s.rowCount.2 u →
      (s.tp.ac.rows.length + s.rowCount.1 < 16 → exec (.tstq hn rs1 rs2 q) s = .next u) ∧
      (s.tp.ac.rows.length + s.rowCount.1 = 16 → exec (.tstq hn rs1 rs2 q) s = .next (u.dropHeld.setPc (u.tp.ac.pc + 4))))

/-! ## Handing work over (R79, R84, R85, R97 to R103, R110, R117) -/

/-- R117, R365: CHAIN hands a head in usable banks to an engine whose list has room for it; a full list makes it wait; a bad
head is cause 0x4D. R103, R417: RENQ past the commit point sends a block of 1 to 16 entries to an engine of a TP in service
that has room; the block's entries are those of the banks, its binding is the sender's, and no memory, bank or register
changes. -/
def Obligations.ChainAndRenqSendEntries : Prop :=
  ∀ (u : ChainUnit) (rs1 rs2 : BitVec 5) (s : State) (a d n tp : Nat),
    a = (s.getX rs1).toNat → d = (s.getX rs2).toNat → n = bits d 8 8 → tp = bits d 0 7 →
    (a < 0x200000 → a % 16 = 0 → s.tp.usable a 16 = true → (s.eng u).heads.length < 4 →
      ∃ t, exec (.chain u rs1) s = .next t ∧ (t.eng u).heads = (s.eng u).heads ++ [(a, s.tp.cur)] ∧
        (∀ v, v ≠ u → t.eng v = s.eng v) ∧ t.tp.ac.pc = s.tp.ac.pc + 4 ∧ SameAc s t [] ∧ SameMemory s t ∧
        t.tp.banks = s.tp.banks) ∧
    (a < 0x200000 → a % 16 = 0 → s.tp.usable a 16 = true → 4 ≤ (s.eng u).heads.length →
      exec (.chain u rs1) s = .next s) ∧
    (0x200000 ≤ a ∨ a % 16 ≠ 0 ∨ s.tp.usable a 16 = false → exec (.chain u rs1) s = .next (s.takeFatal 1 0x4D 0 0)) ∧
    (s.tp.ac.phase ≠ .replay → 0 < n → n ≤ 16 → a % 16 = 0 → InBank s a (16 * n) → ChainUnit.ofCode (bits d 16 3) = some u →
      s.tp.bankPoisoned a (16 * n) = false →
      s.inService tp = true → ((s.getTp tp).chainOf u).blocks.length < 8 →
      ∃ t, exec (.renq rs1 rs2) s = .next t ∧ t.tp.ac.pc = s.tp.ac.pc + 4 ∧ SameAc s t [] ∧ SameMemory s t ∧
        t.tp.banks = s.tp.banks ∧ t.cur = s.cur ∧
        ((t.getTp tp).chainOf u).blocks = ((s.getTp tp).chainOf u).blocks ++
          [{ entries := entriesOf (s.shownBank a (16 * n)), task := { s.task with block := true } }])

/-- R97, R101, R102, R209: SPAWN reads a pawn of 32 aligned bytes of the banks. Before the commit point it holds pawn and
declarations. After it, a pawn without declarations goes on top of the TP's pile of the task's class, with CLS and LID of the
spawner and CONT and the region fields zero, unless an earlier serial pawn of its launch stands on the die, which holds it (R102);
its launch has one pawn more. The path-C writes that the spawner sees are performed first: all of them, which is the model's
reading of R221 (note 26). REGION makes its declarations wait for the next SPAWN. -/
def Obligations.SpawnAndRegion : Prop :=
  ∀ (rs1 rs2 : BitVec 5) (s : State),
    let a := (s.getX rs1).toNat
    let p := Pawn.ofBytes (s.shownBank a 32)
    let u := s.drain (fun w => w.path == 0 && w.seen s.cur 1)
    (InBank s a 32 → s.tp.bankPoisoned a 32 = false → a % 32 = 0 → p.clean = true →
      (s.tp.ac.phase = .replay →
        ∃ t, exec (.spawn rs1) s = .next t ∧ t.tp.ac.heldSpawns = s.tp.ac.heldSpawns ++ [⟨p, s.tp.ac.decls⟩] ∧
          t.tp.ac.decls = [] ∧ t.tp.ac.pc = s.tp.ac.pc + 4 ∧ SameAc s t [] ∧ SameUnits s t ∧ SameMemory s t ∧
          t.tp.frame = s.tp.frame ∧ t.tp.bulk = s.tp.bulk) ∧
      (s.tp.ac.phase ≠ .replay → s.tp.ac.decls = [] → s.serialStands (dieOf s.cur) s.task.entry.launchKey s.nextRegion = false →
        (s.tp.pile s.task.entry.pawn.cls).ctx = some s.task.entry.ctx →
        (s.tp.pile s.task.entry.pawn.cls).chip.length < 64 →
        ∃ t, exec (.spawn rs1) s = .next t ∧ t.tp.ac.pc = s.tp.ac.pc + 4 ∧ SameAc u t [] ∧ SameUnits u t ∧
          SameMemory u t ∧ t.tp.banks = s.tp.banks ∧ (s.weak = [] → u = s) ∧
          (t.tp.pile s.task.entry.pawn.cls).chip =
            { pawn := p.stamp s.task.entry.pawn.cls 0 s.task.entry.pawn.lid 0 0, ctx := s.task.entry.ctx,
              bind := s.task.entry.bind } :: (s.tp.pile s.task.entry.pawn.cls).chip ∧
          (s.task.entry.bind = none → t.launches = s.launches.map (fun l =>
            if l.lid = s.task.entry.pawn.lid then { l with live := l.live + 1 } else l)))) ∧
    (∀ n ds, (s.getX rs2).toNat = n → 0 < n → n ≤ 8 → InBank s a (32 * n) → s.tp.bankPoisoned a (32 * n) = false →
      a % 32 = 0 →
      (List.range n).map (fun i => Decl.ofBytes (((s.shownBank a (32 * n)).drop (32 * i)).take 32)) = ds.map some →
      ∃ t, exec (.region rs1 rs2) s = .next t ∧ t.tp.ac.decls = ds ∧ t.tp.ac.pc = s.tp.ac.pc + 4 ∧ SameAc s t [] ∧
        SameUnits s t ∧ SameMemory s t ∧ t.tp.banks = s.tp.banks)

/-- R210 to R212, R372: COMMIT past the commit point only moves the pc. Before it, with every line of the read set unchanged,
no held spawn and untracked lines, the buffered bytes and no others are in memory, every line stored takes one timestamp above
lc and above its lease plus 1, and the task is committed; pending writes that come before the stores are performed first. With
a changed line the task is aborted: the TP is idle and memory is as before. The model's readings: a revoked translation of a
buffered store aborts too (note 73), and while a port that a buffered byte goes to carries no traffic COMMIT waits (notes 59 and
87). -/
def Obligations.CommitPerformsOrAborts : Prop :=
  ∀ (s : State),
    let u := if s.tp.ac.cbufAt = [] then s else s.beforeStore s.tp.ac.buffered
    let open_ : Prop := ∀ p ∈ s.tp.ac.cbufAt ++ (s.tp.ac.heldBaris.filter (fun h => h.global)).map (fun h => h.place),
      s.portOpen s.task.ctx p (s.tp.ac.bufSpace p) = true
    (s.weak = [] → u = s) ∧
    (s.tp.ac.phase ≠ .replay → exec .commit s = .next (s.setPc (s.tp.ac.pc + 4))) ∧
    (s.tp.ac.phase = .replay → s.readsValid = true → ¬open_ → exec .commit s = .next s) ∧
    (s.tp.ac.phase = .replay → s.readsValid = true → open_ → s.tp.ac.heldSpawns = [] → s.tp.ac.heldBaris = [] →
      (∀ p ∈ s.tp.ac.cbufAt, u.Untracked p 1) →
      ∃ t, exec .commit s = .next t ∧ t.tp.ac.phase = .committed ∧ t.tp.ac.cbufAt = [] ∧ t.tp.ac.readSet = [] ∧
        t.tp.ac.pc = s.tp.ac.pc + 4 ∧ SameAc u t [] ∧ SameUnits u t ∧ t.tp.banks = s.tp.banks ∧
        (∀ a, Sparse.get t.mem a = if a ∈ s.tp.ac.cbufAt then Sparse.get s.tp.ac.cbuf a else Sparse.get u.mem a) ∧
        (∀ p ∈ s.tp.ac.cbufAt, (t.ts (lineOf p)).wts = t.tp.ac.lc ∧ (s.ts (lineOf p)).rts + 1 < t.tp.ac.lc ∧
          s.tp.ac.lc < t.tp.ac.lc)) ∧
    (s.tp.ac.phase = .replay → s.readsValid = false →
      ∃ t, exec .commit s = .next t ∧ t = s.abortCommit ∧ t.tp.cur = 0 ∧ t.tp.ac.status = .off ∧ SameMemory s t)

/-- R98, R399: JOIN past the commit point notes what had issued on the units of its mask and waits for it. Once that is done,
and the task's pending writes on those units are performed, it decrements the count of a record of 16 bytes by one; it reads
CPAWN only when the count was 1. Where it takes the count to 0 and CPAWN is not 0, the 32 bytes there become a continuation of the
launch and class, which goes on top of the TP's pile (unless a serial pawn holds it, R102). A count of 0 is cause 0x4B. That all
pending writes of those units are performed is the model's reading (note 26). -/
def Obligations.JoinDecrementsCount : Prop :=
  ∀ (rs1 : BitVec 5) (s s1 : State) (p : Piece) (rest : List Piece),
    let va := (s.getX rs1).toNat
    s.tp.ac.phase ≠ .replay → va % 16 = 0 → s.pieces true s.task.ctx 0 4 17 va 16 = .ok (p :: rest, s1) →
    (s.tp.issuedDone s.tmask s.tp.cur s.markAt = false → ∃ t, exec (.join rs1) s = .next t ∧ SameMemory s t ∧
      t.tp.ac.pc = s.tp.ac.pc ∧ t.tp.ac.mark = some s.markAt ∧ SameAc s t [] ∧ SameUnits s t ∧ t.tp.banks = s.tp.banks) ∧
    (∀ v u, s.tp.issuedDone s.tmask s.tp.cur s.markAt = true →
      ((s1.unmarked.drain (fun w => w.tp == s.cur && w.agent < 8 && bitAt s.tmask (w.agent - 1))).beforeStore
        [(p.place, List.replicate 16 0)]).homeRead s.task.ctx p.place 16 = .ok (v, u) → u.Untracked p.place 4 →
      (∀ c, bits v 0 32 = c → 0 < c → (c ≠ 1 ∨ v / 2 ^ 64 = 0) →
        ∃ t, exec (.join rs1) s = .next t ∧ t.tp.ac.pc = s.tp.ac.pc + 4 ∧ SameAc u t [] ∧ SameUnits u t ∧
          t.tp.banks = s.tp.banks ∧ SameMemoryBut u t p.place 4 ∧
          ∀ k, k < 4 → Sparse.get t.mem (p.place + k) = byteOf (c - 1) k) ∧
      (∀ b u2, bits v 0 32 = 1 → v / 2 ^ 64 ≠ 0 → u.readSpace (v / 2 ^ 64) 32 = .ok (b, u2) →
        let t := (u2.cPerform [(p.place, leBytes 4 0)]).pushContinuation (Pawn.ofBytes (leBytes 32 b)) true
        exec (.join rs1) s = .next (t.setPc (t.tp.ac.pc + 4))) ∧
      (bits v 0 32 = 0 → exec (.join rs1) s = .next (s.takeFatal 1 0x4B 0 0))) ∧
    (∀ (m : State) (q : Pawn), let k := m.task
      let e : Entry := { pawn := q.continuation k.entry.pawn.cls k.lid, ctx := k.ctx, bind := k.entry.bind, bridged := true }
      let t := m.pushContinuation q true
      m.serialStands (dieOf m.cur) e.launchKey m.nextRegion = false → (m.tp.pile k.entry.pawn.cls).ctx = some k.ctx →
      (m.tp.pile k.entry.pawn.cls).chip.length < 64 →
      (t.tp.pile k.entry.pawn.cls).chip = e :: (m.tp.pile k.entry.pawn.cls).chip ∧ SameMemory m t ∧ SameAc m t [] ∧
        (k.entry.bind = none → t.launches = m.launches.map (fun l =>
          if l.lid = k.entry.pawn.lid then { l with live := l.live + 1 } else l)))

/-- R95, R110, R235, R422: TEND in user mode past the commit point, with the units of the trailer mask done and no join record,
ends the task: the TP is idle, the A stream off, the launch has one pawn less, handles, memory and banks stay. With a join record it
ends the task after the steps of JOIN. It waits for those units, and the pending region set is gone before it does. In service code
it is cause 0x24. -/
def Obligations.TendEndsTask : Prop :=
  ∀ (s : State),
    (s.tp.ac.sup = false → s.tp.ac.phase ≠ .replay → s.tp.maskDone s.tmask s.tp.cur = true → s.task.entry.pawn.jrec = 0 →
      ∃ t, exec .tend s = .next t ∧ t.tp.cur = 0 ∧ t.tp.ac.status = .off ∧ t.tp.ac.handles = s.tp.ac.handles ∧ SameMemory s t ∧
        t.tp.banks = s.tp.banks ∧ t.tp.ec = s.tp.ec ∧ t.tp.be = s.tp.be ∧ (∀ r, t.getX r = s.getX r) ∧
        (s.task.entry.bind = none → t.launches = s.launches.map (fun l =>
          if l.lid = s.task.entry.pawn.lid then { l with live := l.live - 1 } else l))) ∧
    (∀ u, s.tp.ac.sup = false → s.tp.ac.phase ≠ .replay → s.tp.maskDone s.tmask s.tp.cur = true → s.task.entry.pawn.jrec ≠ 0 →
      (s.setAc { s.tp.ac with decls := [] }).joinAt s.task.entry.pawn.jrec = .ok u → exec .tend s = .next u.endTask) ∧
    (s.tp.ac.sup = false → s.tp.ac.phase ≠ .replay → s.tp.maskDone s.tmask s.tp.cur = false →
      exec .tend s = .next (s.setAc { s.tp.ac with decls := [] })) ∧
    (s.tp.ac.sup = true → exec .tend s = .next (s.takeFatal 1 0x24 0 0))

/-- R99, R409: PARK past the commit point on a clean record of 64 aligned bytes, with a free watch and device memory that
still holds the value, registers a watch of the place with the pawn as a continuation, and ends the task. Of an address whose eight
bytes cross a page the model watches the first piece (note 29). -/
def Obligations.ParkRegistersWatch : Prop :=
  ∀ (rs1 : BitVec 5) (s s1 : State) (pc : Piece) (rest : List Piece),
    let a := (s.getX rs1).toNat
    let bs := s.shownBank a 64
    let p := Pawn.ofBytes (bs.take 32)
    let addr := leValue ((bs.drop 32).take 8)
    let value : Dword := BitVec.ofNat 64 (leValue ((bs.drop 40).take 8))
    s.tp.ac.phase ≠ .replay → InBank s a 64 → s.tp.bankPoisoned a 64 = false → a % 64 = 0 → p.clean = true →
    leValue (bs.drop 48) = 0 → s.tp.maskDone s.tmask s.tp.cur = true →
    s.pieces true s.task.ctx 0 1 9 addr 8 = .ok (pc :: rest, s1) → inHbm pc.place = true → pc.zero = false →
    s.watchesUsed (dieOf s.cur) < 4096 → Memory.read s.mem pc.place 8 = value.toNat →
    ∃ t, exec (.park rs1) s = .next t ∧ t.tp.cur = 0 ∧ t.tp.ac.status = .off ∧ SameMemory s t ∧ t.tp.banks = s.tp.banks ∧
      t.watches = s.watches ++ [{ die := dieOf s.cur, tp := s.cur, place := pc.place, value := value,
                                  entry := { pawn := p.continuation s.task.entry.pawn.cls s.task.lid, ctx := s.task.ctx,
                                             bind := s.task.entry.bind, watched := some pc.place }
                                  seq := s.nextRegion }]

/-- R79, R85, R401, R430: LAUNCH on a full ring gives 1 and changes no memory; on a queue that does not exist or is another
context's, or with a nonzero bit [63:12] of rs2, it is cause 0x48, reason 8. Where the ring has room LAUNCH gives 0, and the
record's 128 bytes stand in the slot of WIDX, WIDX is one more and the device knows it; no other byte of memory changes but, of a
stream queue that stood idle, the deficit (R176). TRIG waits for the commands that had issued on the paths of its mask; then the
writes that may happen before it are performed, which is the model's reading (note 26), it counts once for the task's launch and
releases it when its count is reached. -/
def Obligations.LaunchAndTrig : Prop :=
  ∀ (rd rs1 rs2 : BitVec 5) (s : State), s.tp.ac.phase ≠ .replay →
    (∀ lq, (s.getX rs1).toNat % 8 = 0 → InBank s (s.getX rs1).toNat 128 →
      s.tp.bankPoisoned (s.getX rs1).toNat 128 = false → (s.getX rs2).toNat < 4096 →
      Map.find s.queues (s.getX rs2).toNat = some lq → lq.ctx = s.task.ctx → s.unreadable lq.desc 64 = false →
      (2 ^ bits (Memory.read s.mem (lq.desc + 8) 8) 8 5 ≤
          (Memory.read s.mem (lq.desc + 16) 4 + 2 ^ 32 - Memory.read s.mem (lq.desc + 24) 4) % 2 ^ 32 →
        ∃ t, exec (.launch rd rs1 rs2) s = .next t ∧ WritesX s t rd 1 4) ∧
      (∀ t1, s.enqueue (s.getX rs2).toNat lq (s.shownBank (s.getX rs1).toNat 128) = .ok (0, t1) →
        exec (.launch rd rs1 rs2) s = .next ((t1.setX rd 0).setPc (t1.tp.ac.pc + 4))) ∧
      (let n := 2 ^ bits (Memory.read s.mem (lq.desc + 8) 8) 8 5
       let widx := Memory.read s.mem (lq.desc + 16) 4
       let deficit (a : Nat) : Prop := ∃ k st, s.queueStream lq = some k ∧ Map.find s.streams k = some st ∧
         st.record + 56 ≤ a ∧ a < st.record + 60
       ∀ p s1, (widx + 2 ^ 32 - Memory.read s.mem (lq.desc + 24) 4) % 2 ^ 32 < n → s.weak = [] →
        s.pieces true s.task.ctx 0 2 129 ((Memory.read s.mem lq.desc 8 + 128 * (widx % n)) % 2 ^ 64) 128 = .ok ([p], s1) →
        s.portOpen s.task.ctx p.place = true → (p.place + 128 ≤ lq.desc ∨ lq.desc + 64 ≤ p.place) → p.len = 128 →
        ∃ t, exec (.launch rd rs1 rs2) s = .next t ∧ t.tp.ac.pc = s.tp.ac.pc + 4 ∧ t.getX rd = 0 ∧
          (∀ r, r ≠ rd → t.getX r = s.getX r) ∧ t.tp.banks = s.tp.banks ∧
          (∀ k, k < 128 → ¬deficit (p.place + k) →
            Sparse.get t.mem (p.place + k) = ((s.shownBank (s.getX rs1).toNat 128)[k]?).getD 0) ∧
          (∀ k, k < 4 → ¬deficit (lq.desc + 16 + k) → Sparse.get t.mem (lq.desc + 16 + k) = byteOf (widx + 1) k) ∧
          (∀ a, ¬(p.place ≤ a ∧ a < p.place + 128) → ¬(lq.desc + 16 ≤ a ∧ a < lq.desc + 20) → ¬deficit a →
            Sparse.get t.mem a = Sparse.get s.mem a))) ∧
    (∀ lq, (s.getX rs1).toNat % 8 = 0 → InBank s (s.getX rs1).toNat 128 → s.tp.bankPoisoned (s.getX rs1).toNat 128 = false →
      Map.find s.queues (s.getX rs2).toNat = some lq → lq.ctx ≠ s.task.ctx →
      exec (.launch rd rs1 rs2) s = .next (s.takeFatal 1 0x48 8 0)) ∧
    ((s.getX rs1).toNat % 8 = 0 → InBank s (s.getX rs1).toNat 128 → s.tp.bankPoisoned (s.getX rs1).toNat 128 = false →
      (4096 ≤ (s.getX rs2).toNat ∨ Map.find s.queues (s.getX rs2).toNat = none) → exec (.launch rd rs1 rs2) s = .next (s.takeFatal 1 0x48 8 0)) ∧
    (let on (p : Nat) : Bool := bitAt (s.getX rs1).toNat p
     let busy : Bool := s.tp.ce.issuedBusy s.tp.cur s.markAt.cmd on || s.tp.ie.issuedBusy s.tp.cur s.markAt.cmd on ||
       s.tp.he.issuedBusy s.tp.cur s.markAt.cmd on
     let u := s.unmarked.drain (fun w => 1 ≤ w.scope || (w.tp == s.cur && on w.path))
     (busy = true → exec (.trig rs1) s = .next s.marked) ∧
     (busy = false → ∃ t, exec (.trig rs1) s = .next t ∧ t.tp.ac.pc = s.tp.ac.pc + 4 ∧
       SameAc u t [] ∧ SameUnits u t ∧ SameMemory u t ∧ t.weak = u.weak ∧
       (s.task.entry.bind = none →
         t.launches = s.launches.map (fun l => if l.lid = s.task.entry.pawn.lid then l.trigger else l)) ∧
       (s.task.entry.bind ≠ none → t.launches = s.launches)) ∧
     (∀ l : Launch, let n := bits (l.dwords.getD 0 0).toNat 48 16
       (l.trig < n → l.trigger = { l with trig := l.trig + 1, released := l.released || l.trig + 1 = n }) ∧
       (n ≤ l.trig → l.trigger = l)))

/-! ## Fences, tokens and barriers (R111 to R115, R215, R216, R340 to R345, R375, R427, R451) -/

/-- R206, R215 to R218, R451, R452: XFENCE past the commit point (or without path C in its source mask) performs the pending writes
that it covers on the paths of its source mask at its scope, from device scope on at their home; a destination mask with path C
moves the logical clock by 4,096, and no engine of its other paths holds a value any more that an agent in its scope has
overwritten. With path P at peer scope or above it first sends its zero-length reads and waits for them; it waits for a stalled
command on a source path. EFENCE notes what had issued on the units of its mask, waits for it, and passes once it is done. The
model's readings: all pending writes of those paths, not those alone that happen before the fence (note 26), and which RENQ blocks
EFENCE waits for (note 30). -/
def Obligations.FencesOrder : Prop :=
  ∀ (src dst um : BitVec 6) (scope : BitVec 4) (s : State),
    let f := s.fenced src.toNat (max 1 scope.toNat)
    let u := s.widen f (max 1 scope.toNat)
    let now : Prop := s.tp.ac.phase ≠ .replay ∨ bitAt src.toNat 0 = false
    let gone (x : Stale) : Bool := u.writtenIn (max 1 scope.toNat) (lineOf (8 * x.unit))
    (now → (bitAt src.toNat 5 = false ∨ scope.toNat < 7 ∨ s.tp.peersReached = [] ∧ s.peerReads s.task.ctx = false) →
      (s.pathStalled src.toNat = true → exec (.xfence src dst scope) s = .next s) ∧
      (s.pathStalled src.toNat = false →
      ∃ t, exec (.xfence src dst scope) s = .next t ∧ t.tp.ac.pc = s.tp.ac.pc + 4 ∧ t.weak = u.weak ∧ t.mem = u.mem ∧
        (5 ≤ scope.toNat → ∀ w ∈ t.weak, f w = false) ∧ (∀ w ∈ t.weak, f w = true → max 1 scope.toNat ≤ w.scope) ∧
        (bitAt dst.toNat 0 = true → t.tp.ac.lc = u.tp.ac.lc + 4096) ∧ (bitAt dst.toNat 0 = false → t.tp.ac.lc = u.tp.ac.lc) ∧
        (∀ x ∈ t.tp.stale, gone x = true → (x.agent = 4 → bitAt dst.toNat 1 = false ∧ bitAt dst.toNat 5 = false) ∧
          (x.agent = 5 → bitAt dst.toNat 2 = false) ∧ (x.agent = 6 → bitAt dst.toNat 3 = false)) ∧
        (5 ≤ scope.toNat → ∀ x, gone x = true) ∧
        (4 ≤ scope.toNat → bitAt dst.toNat 4 = true → ∀ x ∈ t.mediaStale, gone x = false) ∧
        t.tp.ac.x = s.tp.ac.x ∧ SameUnits s t ∧ t.tp.banks = s.tp.banks)) ∧
    (∀ u2, now → bitAt src.toNat 5 = true → 7 ≤ scope.toNat → s.tp.peersReached ≠ [] → s.sendZeroReads = .ok u2 →
      exec (.xfence src dst scope) s = .next u2 ∧ u2.tp.peersReached = []) ∧
    (now → bitAt src.toNat 5 = true → 7 ≤ scope.toNat → s.tp.peersReached = [] →
      s.peerReads s.task.ctx = true → exec (.xfence src dst scope) s = .next s) ∧
    (s.tp.fenceDone um.toNat s.tp.cur s.markAt = true → ∃ t, exec (.efence um) s = .next t ∧
      t.tp.ac.pc = s.tp.ac.pc + 4 ∧ t.tp.ac.mark = none ∧ (∀ x ∈ t.tp.bankStale, x.agent ≠ 1) ∧ t.weak = s.weak ∧
      SameAc s t [] ∧ SameUnits s t ∧ SameMemory s t ∧ t.tp.banks = s.tp.banks) ∧
    (s.tp.fenceDone um.toNat s.tp.cur s.markAt = false → exec (.efence um) s = .next s.marked)

/-- R111, R112, R427: TOKP on the A stream adds its tokens to the FIFO of unit u when 15 hold them, TOKW takes its tokens or
waits; no other FIFO changes. The FIFO from producer p to
consumer c has the index 5 (p − 1) + (c − 1), less 1 if c > p; thirty FIFOs, and each holds up to 15 tokens. -/
def Obligations.TokensOfAStream : Prop :=
  (∀ (u : BitVec 3) (n : BitVec 4) (s : State), 2 ≤ u.toNat → u.toNat ≤ 6 →
    (s.tp.ac.tokpLeft = 0 → s.tokens 1 u.toNat + n.toNat ≤ 15 →
      ∃ t, exec (.tokp u n) s = .next t ∧ t.tokens 1 u.toNat = s.tokens 1 u.toNat + n.toNat ∧
        (∀ p c, 1 ≤ p → p ≤ 6 → 1 ≤ c → c ≤ 6 → p ≠ c → (p, c) ≠ (1, u.toNat) → t.tokens p c = s.tokens p c) ∧
        t.tp.ac.pc = s.tp.ac.pc + 4 ∧ SameAc s t [] ∧ SameMemory s t ∧ t.tp.banks = s.tp.banks) ∧
    (n.toNat ≤ s.tokens u.toNat 1 →
      ∃ t, exec (.tokw u n) s = .next t ∧ t.tokens u.toNat 1 = s.tokens u.toNat 1 - n.toNat ∧
        (∀ p c, 1 ≤ p → p ≤ 6 → 1 ≤ c → c ≤ 6 → p ≠ c → (p, c) ≠ (u.toNat, 1) → t.tokens p c = s.tokens p c) ∧
        t.tp.ac.pc = s.tp.ac.pc + 4 ∧ SameAc s t [] ∧ SameMemory s t ∧ t.tp.banks = s.tp.banks) ∧
    (s.tokens u.toNat 1 < n.toNat → exec (.tokw u n) s = .next s)) ∧
  (∀ p c, 1 ≤ p → p ≤ 6 → 1 ≤ c → c ≤ 6 → p ≠ c →
    tokenIndex p c = 5 * (p - 1) + (c - 1) - (if c > p then 1 else 0) ∧ tokenIndex p c < 30 ∧
    (∀ s : State, s.tokens p c ≤ 15) ∧
    ∀ q d, 1 ≤ q → q ≤ 6 → 1 ≤ d → d ≤ 6 → q ≠ d → tokenIndex q d = tokenIndex p c → q = p ∧ d = c)

/-- R340 to R345: on a barrier object in the banks, BARI sets LEFT and COUNT and clears EXTRA, BARA counts one arrive, BARW
passes exactly when LEFT is 0. -/
def Obligations.BarriersInBanks : Prop :=
  ∀ (hn : BitVec 4) (rs1 rs2 : BitVec 5) (s : State),
    let a := (s.getX rs1).toNat / 16 * 16
    InBank s a 16 → s.tp.bankPoisoned a 8 = false →
    (∃ t, exec (.bari 0 hn rs1 rs2) s = .next t ∧ t.tp.ac.pc = s.tp.ac.pc + 4 ∧ SameAc s t [] ∧ SameUnits s t ∧ SameMemory s t ∧
      SameBanksBut s t a 16 ∧ t.bankValue a 8 = bits (s.getX rs2).toNat 0 32 ∧
      t.bankValue (a + 8) 8 = 2 ^ 32 + bits (s.getX rs2).toNat 0 32) ∧
    (s.tp.ac.phase ≠ .replay →
      ∃ t, exec (.bara 0 hn rs1) s = .next t ∧ t.tp.ac.pc = s.tp.ac.pc + 4 ∧ SameAc s t [] ∧ SameUnits s t ∧ SameMemory s t ∧
        SameBanksBut s t a 8 ∧
        (∀ left extra, s.bankValue a 8 = extra * 2 ^ 32 + left → left < 2 ^ 32 → extra + 1 < 2 ^ 32 →
          t.bankValue a 8 = if left = 0 then (extra + 1) * 2 ^ 32 else extra * 2 ^ 32 + (left - 1))) ∧
    (bits (s.bankValue a 8) 0 32 = 0 →
      ∃ t, exec (.barw 0 hn rs1) s = .next t ∧ t.tp.ac.pc = s.tp.ac.pc + 4 ∧ SameAc s t [] ∧ SameUnits s t ∧ SameMemory s t ∧
        t.tp.banks = s.tp.banks) ∧
    (bits (s.bankValue a 8) 0 32 ≠ 0 → exec (.barw 0 hn rs1) s = .next s)

/-! ## Tensor entries and traps (R243 to R258, R421 to R429) -/

/-- R424, R72: TIDGET of an entry that the task holds writes its 64 bytes to the banks; TIDSET makes the task's copy the 64
bytes of the banks. -/
def Obligations.TensorEntryWords : Prop :=
  ∀ (rs1 rs2 : BitVec 5) (s : State),
    let a := (s.getX rs1).toNat
    let n := (s.getX rs2).toNat % 256
    InBank s a 64 → a % 64 = 0 →
    (∀ ds, Map.find s.task.tit n = some ds → ds.length = 8 →
      ∃ t, exec (.tidget rs1 rs2) s = .next t ∧ t.tp.ac.pc = s.tp.ac.pc + 4 ∧ SameAc s t [] ∧ SameUnits s t ∧ SameMemory s t ∧
        SameBanksBut s t a 64 ∧ ∀ k, k < 8 → t.bankValue (a + 8 * k) 8 = ((ds[k]?).getD 0).toNat) ∧
    (∀ ps s1 s2, s.tp.bankPoisoned a 64 = false → s.titPieces n 2 = .ok (ps, s1) →
      s1.storePieces ps (s.shownBank a 64) = .ok s2 →
      ∃ t, exec (.tidset rs1 rs2) s = .next t ∧ t.tp.ac.pc = s2.tp.ac.pc + 4 ∧ t.mem = s2.mem ∧ t.weak = s2.weak ∧
        t.tp.ac.cbuf = s2.tp.ac.cbuf ∧ t.tp.banks = s2.tp.banks ∧ SameAc s2 t [] ∧ SameUnits s2 t ∧
        t.tp.tasks = (s2.changeTask s2.tp.cur
          (fun k => { k with tit := Map.put k.tit n (dwordsOf 8 (s.shownBank a 64)) })).tp.tasks)

/-- R254, R428: TRAP n in user mode past the commit point enters service code: SEPC holds the pc of the TRAP, SCAUSE 24,
SSTATUS clears SIE, the mode is supervisor, the pc is the handler, TREC holds the record with cause 0xA0 + n. ECALL and EBREAK do
the same with SCAUSE 8 and 3. No other register, no memory. R258: in service code each is cause 0x24. That SPP and SPIE keep the old
mode and interrupt enable is RISC-V's, presumed (note 15). -/
def Obligations.OwnTrapsEnterService : Prop :=
  ∀ (s : State) (n : BitVec 5),
    (s.tp.ac.sup = true → ∀ i ∈ [Instr.trap n, .rv64gc (.full .ecall), .rv64gc (.full .ebreak), .rv64gc (.comp .ebreak)],
      exec i s = .next (s.takeFatal 1 0x24 0 0)) ∧
    (s.tp.ac.sup = false → s.tp.ac.phase ≠ .replay → s.tp.ac.stvec.toNat % 4 = 0 →
      ∀ i c, (i, c) ∈ [(Instr.trap n, 24), (.rv64gc (.full .ecall), 8), (.rv64gc (.full .ebreak), 3)] →
        ∃ t, exec i s = .next t ∧ t.tp.ac.sup = true ∧ t.tp.ac.sepc = s.tp.ac.pc ∧ t.tp.ac.scause = BitVec.ofNat 64 c ∧
          t.tp.ac.pc = s.tp.ac.stvec ∧ bitAt t.tp.ac.sstatus.toNat 8 = false ∧
          bitAt t.tp.ac.sstatus.toNat 5 = bitAt s.tp.ac.sstatus.toNat 1 ∧ bitAt t.tp.ac.sstatus.toNat 1 = false ∧
          t.tp.ac.x = s.tp.ac.x ∧ t.tp.ac.f = s.tp.ac.f ∧ t.tp.ac.fcsr = s.tp.ac.fcsr ∧ t.tp.ac.stvec = s.tp.ac.stvec ∧
          t.tp.ac.sscratch = s.tp.ac.sscratch ∧ SameMemory s t ∧ t.tp.banks = s.tp.banks ∧
          (c = 24 → bits (t.tp.ac.trec.getD 0 0).toNat 0 8 = 0xA0 + n.toNat) ∧ (c ≠ 24 → t.tp.ac.trec = s.tp.ac.trec))

/-- R254, R257: at the boundary of an A-stream instruction in user mode, a trap of another unit enters service code with the
oldest record in TREC, SCAUSE 2^63 + 24 and SEPC the pc; SRET gives back the pc of SEPC and goes on in the mode before; in user mode
it is illegal (cause 0x20). That SPP holds that mode, and SPIE the interrupt enable that comes back, is RISC-V's, presumed
(note 15). -/
def Obligations.ServiceEntryAndReturn : Prop :=
  ∀ (s : State),
    (∀ u r, s.tp.ac.sup = false → s.tp.cur ≠ 0 → s.tp.ac.phase ≠ .replay → s.oldestTrap = some (u, r) →
      ∃ t, exec .serviceEntry s = .next t ∧ t.tp.ac.sup = true ∧ t.tp.ac.sepc = s.tp.ac.pc ∧
        t.tp.ac.scause = BitVec.ofNat 64 (2 ^ 63 + 24) ∧ t.tp.ac.trec = r ∧ t.tp.ac.x = s.tp.ac.x ∧ SameMemory s t ∧
        t.tp.svwmAt = s.tp.svwm) ∧
    (s.tp.ac.sup = true →
      ∃ t, exec .sret s = .next t ∧ t.tp.ac.pc = s.tp.ac.sepc ∧ t.tp.ac.sup = bitAt s.tp.ac.sstatus.toNat 8 ∧
        bitAt t.tp.ac.sstatus.toNat 1 = bitAt s.tp.ac.sstatus.toNat 5 ∧ t.tp.ac.x = s.tp.ac.x ∧ t.tp.ac.f = s.tp.ac.f ∧
        t.tp.ac.trec = s.tp.ac.trec ∧ t.tp.ac.stvec = s.tp.ac.stvec ∧ SameMemory s t ∧ t.tp.banks = s.tp.banks) ∧
    (s.tp.ac.sup = false → exec .sret s = .next (s.takeFatal 1 0x20 0 0))

/-- R129, R256, R421, R429: SVCW writes the low 40 bits of rs1 to SVWM; TRET in service code, naming a trapped EC or BE with its
cause, clears the unit's PEND bit and lets it run; in user mode TRET is cause 0x2E. -/
def Obligations.TretAndSvcw : Prop :=
  ∀ (rs1 : BitVec 5) (s : State),
    (∃ t, exec (.svcw rs1) s = .next t ∧ t.tp.svwm = BitVec.ofNat 64 ((s.getX rs1).toNat % 2 ^ 40) ∧
      t.tp.ac.pc = s.tp.ac.pc + 4 ∧ SameAc s t [] ∧ t.tp.ec = s.tp.ec ∧ t.tp.be = s.tp.be ∧ SameMemory s t) ∧
    (s.tp.ac.sup = false → exec (.tret rs1) s = .next (s.takeFatal 1 0x2E 0 0)) ∧
    (∀ r, s.tp.ac.sup = true → (s.getX rs1).toNat = causeOf r * 256 + 2 * 16 → s.tp.ec.trec = some r →
      ∃ t, exec (.tret rs1) s = .next t ∧ t.tp.ec.status = .running ∧ t.tp.ec.trec = none ∧
        t.tp.ac.pend = s.tp.ac.pend &&& ~~~4 ∧ t.tp.ac.pc = s.tp.ac.pc + 4 ∧ t.tp.ac.x = s.tp.ac.x ∧ t.tp.be = s.tp.be ∧
        SameMemory s t) ∧
    (∀ r, s.tp.ac.sup = true → (s.getX rs1).toNat = causeOf r * 256 + 3 * 16 → s.tp.be.trec = some r →
      ∃ t, exec (.tret rs1) s = .next t ∧ t.tp.be.status = .running ∧ t.tp.be.trec = none ∧
        t.tp.ac.pend = s.tp.ac.pend &&& ~~~8 ∧ t.tp.ac.pc = s.tp.ac.pc + 4 ∧ t.tp.ac.x = s.tp.ac.x ∧ t.tp.ec = s.tp.ec ∧
        SameMemory s t)

/-! ## Enxis words (R121 to R128, R312 to R317, R336 to R338, R356, R370, R376, R398, R403, R404, R408 to R418, R427) -/

/-- R337, R403, R415, R418, R455: a scalar word that issues (`eScalarTable` gives each word its sources and function) writes its
result to e register D when its guard holds in cell (0, 0), and nothing otherwise; e0 keeps reading zero. No other e register, no
memory and no bank changes; outside the last word of a loop no predicate does, and the triple moves on. LI has I = 1 and no other
operand than D and A. -/
def Obligations.EScalarResults : Prop :=
  (∀ (w : EWord) (s : State) (codes : List (BitVec 6)) (v : List Dword) (s1 : State) (i : Instr) (f : List Dword → Dword),
    (i, codes, f) ∈ eScalarTable w → s.eReadyScalar w codes (some (keyE w.d.toNat)) = .ok (v, s1) →
    ∃ t, exec i s = .next t ∧
      t.getE w.d.toNat = (if w.d.toNat = 0 then 0 else if s1.guard0 w then f v else s.getE w.d.toNat) ∧
      (∀ r, r ≠ w.d.toNat → t.getE r = s.getE r) ∧ t.tp.ec.w = s1.tp.ec.w ∧ SameMemory s t ∧ t.tp.banks = s.tp.banks ∧
      t.tp.ac.x = s.tp.ac.x ∧ (s.tp.ec.atLend = false → t.tp.ec.p = s.tp.ec.p ∧ t.tp.ec.pc = s.tp.ec.npc ∧
        t.tp.ec.npc = s.tp.ec.nnpc ∧ t.tp.ec.nnpc = s.tp.ec.nnpc + 8)) ∧
  ∀ w : EWord, WellFormed.instr (.eLi w) = true → w.i = 1 ∧ w.d.toNat < 32 ∧ w.b = 0 ∧ w.c = 0 ∧ w.fmt = 0

/-- R370, R410, R411, R412: a predicate word that issues writes the whole of predicate D when its guard holds in cell (0, 0); p0
keeps reading all ones; e registers, memory and banks stay. (The last word of a loop also turns the predicates' numbering, R126.)
PMOV has I = 0 and no other operand than D and A. -/
def Obligations.EPredicateWords : Prop :=
  (∀ (w : EWord) (s : State),
    (∀ v s1 cond, s.eReadyPred w [w.a, w.b] [] = .ok (v, s1) → cond = scalarCond w.fn (v.getD 0 0) (v.getD 1 0) →
      ∃ t, exec (.eCmp w) s = .next t ∧ t.tp.ec.e = s.tp.ec.e ∧ SameMemory s t ∧ t.tp.banks = s.tp.banks ∧
        (s.tp.ec.atLend = false → t.getP w.d.toNat = if w.d.toNat = 0 then BitVec.allOnes 1024
          else if s1.guard0 w then (if cond then BitVec.allOnes 1024 else 0) else s.getP w.d.toNat)) ∧
    (∀ v s1, s.eReadyPred w [] [] = .ok (v, s1) →
      ∃ t, exec (.ePset w) s = .next t ∧ t.tp.ec.e = s.tp.ec.e ∧ SameMemory s t ∧ t.tp.banks = s.tp.banks ∧
        (s.tp.ec.atLend = false → t.getP w.d.toNat = if w.d.toNat = 0 then BitVec.allOnes 1024
          else if s1.guard0 w then psetBits w.imm else s.getP w.d.toNat)) ∧
    (∀ v s1, s.eReadyPred w [] [w.a, w.b] = .ok (v, s1) →
      ∃ t, exec (.ePlog w) s = .next t ∧ t.tp.ec.e = s.tp.ec.e ∧ SameMemory s t ∧ t.tp.banks = s.tp.banks ∧
        (s.tp.ec.atLend = false → t.getP w.d.toNat = if w.d.toNat = 0 then BitVec.allOnes 1024
          else if s1.guard0 w then logicOp w.fn (s.getP w.a.toNat) (s.getP w.b.toNat) else s.getP w.d.toNat)) ∧
    (∀ v s1, s.eReadyPred w [] [w.a] = .ok (v, s1) →
      ∃ t, exec (.ePmov w) s = .next t ∧ t.tp.ec.e = s.tp.ec.e ∧ SameMemory s t ∧ t.tp.banks = s.tp.banks ∧
        (s.tp.ec.atLend = false → t.getP w.d.toNat = if w.d.toNat = 0 then BitVec.allOnes 1024
          else if s1.guard0 w then s.getP w.a.toNat else s.getP w.d.toNat))) ∧
  ∀ w : EWord, WellFormed.instr (.ePmov w) = true →
    w.i = 0 ∧ w.b = 0 ∧ w.c = 0 ∧ w.fmt = 0 ∧ w.imm = 0 ∧ w.d.toNat < 16 ∧ w.a.toNat < 16

/-- R121, R122, R356, R398: outside a hardware loop, a taken branch lets the two words after it run and then goes to its target:
the triple (pc, npc, nnpc) becomes (npc, nnpc, target). BR is taken exactly when its guard holds; BR.n annuls both slots when
it is not taken; JMP and JAL always go; JAL links the address of the word plus 24. -/
def Obligations.EBranches : Prop :=
  ∀ (w : EWord) (s : State), s.tp.ec.loop = none →
    (∀ v s1, s.eReadyControl w [] none = .ok (v, s1) →
      (∃ t, exec (.eBr w) s = .next t ∧ t.tp.ec.e = s.tp.ec.e ∧ t.tp.ec.p = s.tp.ec.p ∧ SameMemory s t ∧
        t.tp.ec.pc = s.tp.ec.npc ∧ t.tp.ec.npc = s.tp.ec.nnpc ∧ t.tp.ec.a1 = s.tp.ec.a2 ∧ t.tp.ec.a2 = false ∧
        t.tp.ec.nnpc = if s1.guard0 w then s.tp.ec.pc + 8 * w.imm.signExtend 64 else s.tp.ec.nnpc + 8) ∧
      (∃ t, exec (.eBrN w) s = .next t ∧ t.tp.ec.e = s.tp.ec.e ∧ t.tp.ec.p = s.tp.ec.p ∧ SameMemory s t ∧
        t.tp.ec.pc = s.tp.ec.npc ∧ t.tp.ec.npc = s.tp.ec.nnpc ∧
        (s1.guard0 w = true → t.tp.ec.nnpc = s.tp.ec.pc + 8 * w.imm.signExtend 64 ∧ t.tp.ec.a1 = s.tp.ec.a2 ∧ t.tp.ec.a2 = false) ∧
        (s1.guard0 w = false → t.tp.ec.nnpc = s.tp.ec.nnpc + 8 ∧ t.tp.ec.a1 = true ∧ t.tp.ec.a2 = true))) ∧
    (∀ v s1 target, s.eReadyControl w (if w.i = 1 then [] else [w.a]) none = .ok (v, s1) →
      target = v.getD 0 (s.tp.ec.pc + 8 * w.imm.signExtend 64) →
      ∃ t, exec (.eJmp w) s = .next t ∧ t.tp.ec.e = s.tp.ec.e ∧ SameMemory s t ∧ t.tp.ec.pc = s.tp.ec.npc ∧
        t.tp.ec.npc = s.tp.ec.nnpc ∧ t.tp.ec.nnpc = target ∧ t.tp.ec.slot1 = true ∧ t.tp.ec.slot2 = true) ∧
    (∀ v s1 target, s.eReadyControl w (if w.i = 1 then [] else [w.a]) (some (keyE w.d.toNat)) = .ok (v, s1) →
      target = v.getD 0 (s.tp.ec.pc + 8 * w.imm.signExtend 64) →
      ∃ t, exec (.eJal w) s = .next t ∧ t.tp.ec.pc = s.tp.ec.npc ∧ t.tp.ec.npc = s.tp.ec.nnpc ∧ t.tp.ec.nnpc = target ∧
        t.getE w.d.toNat = (if w.d.toNat = 0 then 0 else s.tp.ec.pc + 24) ∧ (∀ r, r ≠ w.d.toNat → t.getE r = s.getE r) ∧
        SameMemory s t)

/-- R126, R127, R404: LOOP outside a loop and outside a delay slot starts a loop of N + S − 1 passes whose body ends at its
target, with the predicate rotation cleared, p8 all ones and p9 to p15 zero; N = 0 goes past the body. Inside a loop, in a
delay slot, with a bad stage count, target or N it is cause 0x22. -/
def Obligations.ELoopStarts : Prop :=
  ∀ (w : EWord) (s : State) (v : List Dword) (s1 : State) (n : Nat),
    s.eReadyControl w [w.a] none = .ok (v, s1) → n = (v.getD 0 0).toNat → s1.tp.ec.atLend = false →
    (s.tp.ec.loop = none → s.tp.ec.slot1 = false → w.fmt.toNat < 8 → 0 < w.imm.toInt → 0 < n → n ≤ 2 ^ 32 - 8 →
      ∃ t, exec (.eLoop w) s = .next t ∧
        t.tp.ec.loop = some ⟨n + w.fmt.toNat, 0, n, w.fmt.toNat + 1, s.tp.ec.pc + 8, s.tp.ec.pc + 8 * w.imm.signExtend 64⟩ ∧
        t.tp.ec.pc = s.tp.ec.npc ∧ t.tp.ec.npc = s.tp.ec.nnpc ∧ t.tp.ec.prb = 0 ∧ t.getP 8 = BitVec.allOnes 1024 ∧
        (∀ k, 9 ≤ k → k < 16 → t.getP k = 0) ∧ (∀ k, k < 8 → t.getP k = s.getP k) ∧ t.tp.ec.e = s.tp.ec.e ∧ SameMemory s t) ∧
    (s.tp.ec.loop = none → s.tp.ec.slot1 = false → w.fmt.toNat < 8 → 0 < w.imm.toInt → n = 0 →
      ∃ t, exec (.eLoop w) s = .next t ∧ t.tp.ec.loop = none ∧ t.tp.ec.pc = s.tp.ec.pc + 8 * w.imm.signExtend 64 + 8 ∧
        t.tp.ec.e = s.tp.ec.e ∧ SameMemory s t) ∧
    ((s.tp.ec.loop ≠ none ∨ s.tp.ec.slot1 = true ∨ 8 ≤ w.fmt.toNat ∨ w.imm.toInt < 1 ∨ 2 ^ 32 - 8 < n) →
      exec (.eLoop w) s = .next (s.takeFatal 2 0x22 0 0))

/-- R113, R376, R408, R413, R415, R427: NOP changes no register; HALT ends the stream; QOUT and TOKP wait with their pushes for
retirement, when the tokens go to the FIFO from the EC to the unit named; TOKW takes its tokens. TRAP, performed when it retires (R255), lets cycles pass while an earlier word has not retired, then
stops the EC with its record. -/
def Obligations.EStreamWords : Prop :=
  ∀ (w : EWord) (s : State),
    (∀ codes v s1, s.eReadyScalar w codes none = .ok (v, s1) →
      (codes = [] → ∃ t, exec (.eNop w) s = .next t ∧ t.tp.ec.e = s.tp.ec.e ∧ t.tp.ec.w = s1.tp.ec.w ∧ SameMemory s t ∧
        t.tp.banks = s.tp.banks ∧ t.tp.ec.status = s.tp.ec.status) ∧
      (codes = [] → ∃ t, exec (.eHalt w) s = .next t ∧ t.tp.ec.status = .ended ∧ t.tp.ec.loop = none ∧ t.tp.ec.e = s.tp.ec.e ∧
        SameMemory s t ∧ t.tp.banks = s.tp.banks) ∧
      (codes = [w.a] → s1.eToA (w.d.toNat - 32) = true →
        ∃ t, exec (.qout w) s = .next t ∧ SameMemory s t ∧ t.tp.ec.e = s.tp.ec.e ∧
          (Push.scalar (s1.tp.ec.retireAt s1.tp.ec.clock 1) (w.d.toNat - 32) (v.getD 0 0)) ∈ t.tp.ec.pushes) ∧
      (codes = [] → ∃ t, exec (.tokpE w) s = .next t ∧ t.tp.ec.e = s.tp.ec.e ∧ SameMemory s t ∧
        t.tp.ec.pushes = s1.tp.ec.pushes ++
          List.replicate (bits w.imm.toNat 4 4) (Push.token (s1.tp.ec.retireAt s1.tp.ec.clock 1) (w.imm.toNat % 8)) ++
          (if w.tkp = 0 then [] else [Push.token (s1.tp.ec.retireAt s1.tp.ec.clock 1) w.tkp.toNat])) ∧
      (codes = [] → s.tp.ec.task = s.tp.cur → s.tp.ec.spec = [] → s.tp.ec.pushes = [] →
        ∃ t, exec (.trapE w) s = .next t ∧ t.tp.ec.status = .trapped ∧ t.tp.ec.e = s.tp.ec.e ∧ SameMemory s t ∧
          bitAt t.tp.ac.pend.toNat 2 = true ∧
          (∀ r, t.tp.ec.trec = some r → causeOf r = 0xA0 + w.imm.toNat % 32) ∧ t.tp.ec.trec.isSome = true)) ∧
    (∀ d u l, d ≤ s.tp.ec.clock → s.tp.ec.task = s.tp.cur → s.tokens 2 u < 15 →
      s.flush 2 s.tp.ec.clock (.token d u :: l) = (s.setTokens 2 u (s.tokens 2 u + 1)).flush 2 s.tp.ec.clock l) ∧
    (s.tp.ec.spec ≠ [] ∨ s.tp.ec.pushes ≠ [] → exec (.trapE w) s = .next s.idleE) ∧
    (∀ s1, s.eReady w 6 [] none (fun s => match s.popTokens (w.imm.toNat % 8) 2 (bits w.imm.toNat 4 4) with
        | .error e => .error e
        | .ok s => .ok ((), s)) = .ok ((), s1) →
      ∃ t, exec (.tokwE w) s = .next t ∧ t.tp.tokens = s1.tp.tokens ∧ t.tp.ec.e = s.tp.ec.e ∧ SameMemory s t)

/-! ## Tile words (R431 to R450) -/

/-- R431, R432, R435 to R450: a tile word that issues writes the cells of tile register D where its guard holds, each with the
word's function of its sources' cells; with ZM the other cells become zero, without it they keep their value. -/
def Obligations.TileWordsWriteCells : Prop :=
  ∀ (w : EWord) (s : State) (i : Instr) (codes : List (BitVec 6)) (preds : List (BitVec 6)) (lat : Nat)
    (f : State → List Tile → Nat → Nat) (v : List Tile) (s1 : State),
    (i, codes, preds, lat, f) ∈ tileTable w → w.d.toNat < 32 →
    s.eReadyTile w codes (preds.map (fun p => s.tp.ec.keyP p.toNat)) (some (s.tp.ec.keyW w.d.toNat)) = .ok (v, s1) →
    ∃ t, exec i s = .next t ∧ t.tp.ec.e = s.tp.ec.e ∧ SameMemory s t ∧ t.tp.banks = s.tp.banks ∧ t.tp.ac.x = s.tp.ac.x ∧
      (s.tp.ec.atLend = false → t.tp.ec.p = s.tp.ec.p ∧ t.tp.ec.pc = s.tp.ec.npc ∧
        (∀ c, c < 1024 → Sparse.get (t.getW w.d.toNat) c =
          if (s1.guard w).getLsbD c then BitVec.ofNat 32 (f s1 v c) else if w.zm then 0 else Sparse.get (s1.getW w.d.toNat) c) ∧
        (∀ n, n < 32 → n ≠ w.d.toNat → t.getW n = s1.getW n))

/-- R28, R29, R435: elementwise words on INT32 cells: sums, differences, products, fused products, minima, maxima, magnitudes and
negations, wrapped to 32 bits, or clamped to the range with SAT. -/
def Obligations.TileIntegerArithmetic : Prop :=
  ∀ (w : EWord) (s : State) (a b c : Tile) (k : Nat), w.fmt = 8 → w.i = 0 →
    let x := (Sparse.get a k).toInt
    let y := (Sparse.get b k).toInt
    let z := (Sparse.get c k).toInt
    let fit (n : Int) : Word :=
      BitVec.ofInt 32 (if bitAt w.imm.toNat 3 then max (-2147483648) (min 2147483647 n) else n)
    let r (i : Instr) (v : List Tile) : Option Word :=
      ((tileTable w).find? (fun e => e.1 == i)).map (fun e => BitVec.ofNat 32 (e.2.2.2.2 s v k))
    r (.vadd w) [a, b] = some (fit (x + y)) ∧ r (.vsub w) [a, b] = some (fit (x - y)) ∧ r (.vmul w) [a, b] = some (fit (x * y)) ∧
      r (.vfma w) [a, b, c] = some (fit (x * y + z)) ∧ r (.vmin w) [a, b] = some (fit (min x y)) ∧
      r (.vmax w) [a, b] = some (fit (max x y)) ∧ r (.vabs w) [a] = some (fit x.natAbs) ∧ r (.vneg w) [a] = some (fit (-x)) ∧
      r (.vmov w) [a] = some (Sparse.get a k)

/-- R439, R446, R450: VCMP writes predicate D where its guard holds; VXL gives an active lane the cell of A that B names, when
that lane is active too; VQOUT pushes all of its tile when it retires. -/
def Obligations.VcmpVxlVqout : Prop :=
  ∀ (w : EWord) (s : State),
    (∀ v s1, s.eReadyTile w [w.a, w.b] [] (some (s.tp.ec.keyP w.d.toNat)) = .ok (v, s1) → s.tp.ec.atLend = false → w.d.toNat ≠ 0 →
      w.d.toNat < 16 →
      ∃ t, exec (.vcmp w) s = .next t ∧ t.tp.ec.e = s.tp.ec.e ∧ t.tp.ec.w = s1.tp.ec.w ∧ SameMemory s t ∧
        t.tp.banks = s.tp.banks ∧
        (∀ c, c < 1024 → (t.getP w.d.toNat).getLsbD c =
          if (s1.guard w).getLsbD c then
            elemCond w.format w.fn (elem w.format (w.source v 0 c)) (elem w.format (w.source v 1 c))
          else if w.zm then false else (s.getP w.d.toNat).getLsbD c) ∧
        (∀ n, n < 16 → n ≠ w.d.toNat → t.getP n = s.getP n)) ∧
    (∀ v s1, s.eReadyTile w [w.a, w.b] [] (some (s.tp.ec.keyW w.d.toNat)) = .ok (v, s1) → s.tp.ec.atLend = false →
      ∃ t, exec (.vxl w) s = .next t ∧ t.tp.ec.e = s.tp.ec.e ∧ t.tp.ec.p = s.tp.ec.p ∧ SameMemory s t ∧
        ∀ c, c < 1024 → Sparse.get (t.getW w.d.toNat) c =
          (let k := (Sparse.get (v.getD 1 []) c).toInt
           if (s1.guard w).getLsbD c then
             (if 0 ≤ k ∧ k < 1024 ∧ (s1.guard w).getLsbD k.toNat then Sparse.get (v.getD 0 []) k.toNat
              else Sparse.get (s1.getW w.d.toNat) c)
           else if w.zm then 0 else Sparse.get (s1.getW w.d.toNat) c)) ∧
    (∀ v s1, s.eReadyTile w [w.a] [] none = .ok (v, s1) → s1.eToA (w.d.toNat - 32) = true →
      ∃ t, exec (.vqout w) s = .next t ∧ SameMemory s t ∧ t.tp.ec.e = s.tp.ec.e ∧ t.tp.ec.w = s1.tp.ec.w ∧
        (Push.tile (s1.tp.ec.retireAt s1.tp.ec.clock 4) (w.d.toNat - 32) (v.getD 0 [])) ∈ t.tp.ec.pushes)

/-- R124, R431, R442: a special function that issues at cycle n leaves its destination as it was; its write is due at cycle n + 12:
where its guard holds the function of the source's cell, and elsewhere nothing, or zero with ZM. The write is made, in those cells
alone, when that cycle has come, and not before. -/
def Obligations.SpecialFunctionsWriteLate : Prop :=
  (∀ (w : EWord) (s : State) (v : List Tile) (s1 : State) (i : Instr) (f : Val → Val),
    (i, f) ∈ [(Instr.vexp2 w, exp2V), (.vlog2 w, log2V), (.vrcp w, rcpV), (.vrsq w, rsqrtV), (.vsig w, sigmoidV)] →
    s.eReadyTile w [w.a] [] (some (s.tp.ec.keyW w.d.toNat)) = .ok (v, s1) →
    ∃ t, exec i s = .next t ∧ t.tp.ec.w = s1.tp.ec.w ∧ t.tp.ec.e = s.tp.ec.e ∧ SameMemory s t ∧ t.tp.banks = s.tp.banks ∧
      (s.tp.ec.atLend = false → t.tp.ec.p = s.tp.ec.p ∧ t.tp.ec.pc = s.tp.ec.npc) ∧
      ∃ sp, t.tp.ec.spec = s1.tp.ec.spec ++ [sp] ∧ sp.due = s1.tp.ec.clock + 12 ∧ sp.reg = s1.tp.ec.tileReg w.d.toNat ∧
        ∀ c, c < 1024 →
          sp.on.getLsbD c = ((s1.guard w).getLsbD c || w.zm) ∧
          ((s1.guard w).getLsbD c = true → Sparse.get sp.tile c =
            BitVec.ofNat 32 (encode w.format w.rnd w.sat (f (decodeFloat w.format (elem w.format (w.source v 0 c)))))) ∧
          ((s1.guard w).getLsbD c = false → Sparse.get sp.tile c = 0)) ∧
  ∀ (s : State) (sp : SpecWrite), s.tp.ec.spec = [sp] →
    (sp.due ≤ s.tp.ec.clock → s.settleE.tp.ec.spec = [] ∧ (∀ r, r ≠ sp.reg → Map.find s.settleE.tp.ec.w r = Map.find s.tp.ec.w r) ∧
      ∀ c, c < 1024 → Sparse.get ((Map.find s.settleE.tp.ec.w sp.reg).getD []) c =
        if sp.on.getLsbD c then Sparse.get sp.tile c else Sparse.get ((Map.find s.tp.ec.w sp.reg).getD []) c) ∧
    (s.tp.ec.clock < sp.due → s.settleE.tp.ec.spec = [sp] ∧ s.settleE.tp.ec.w = s.tp.ec.w)

/-! ## Stage words (R131 to R155, R338, R339, R346 to R358, R427) -/

/-- R351 to R354, R358, R427: a word between chains of a task without a bound stream, once it issues, moves past its 12 bytes:
BNOP does nothing else, BSTR writes one stride register, TOKP makes its tokens wait for retirement, TOKW and BHALT take tokens and
end the stream. No memory, bank, accumulator or table changes. -/
def Obligations.BStreamWords : Prop :=
  ∀ (w : BWord) (s : State), s.bTask.strm = none →
    (∀ s1, s.bReadyPlain w 1 (fun s => .ok s) = .ok ((), s1) →
      (∃ t, exec (.bnop w) s = .next t ∧ t.tp.be.pc = s.tp.be.pc + 12 ∧ BeKept s t ∧ t.tp.be.sd = s.tp.be.sd ∧
        t.tp.be.loops = s.tp.be.loops) ∧
      (∃ t, exec (.bstr w) s = .next t ∧ t.tp.be.pc = s.tp.be.pc + 12 ∧ BeKept s t ∧ t.getSd (w.str.toNat % 8) = w.woff ∧
        (∀ k, k ≠ w.str.toNat % 8 → t.getSd k = s.getSd k) ∧ t.tp.be.loops = s.tp.be.loops) ∧
      (∃ t, exec (.tokpB w) s = .next t ∧ t.tp.be.pc = s.tp.be.pc + 12 ∧ BeKept s t ∧
        t.tp.be.pushes = s1.tp.be.pushes ++ List.replicate (bits w.woff.toNat 4 4) (.token 0 (w.woff.toNat % 8)))) ∧
    (s.tp.be.chain = none → s.tp.be.loops = [] → ∀ s1,
      s.bReady w.tkw.toNat 1 (fun s => .ok ((), s)) (fun _ _ => 0) (fun _ _ => 1) = .ok ((), s1) →
      ∃ t, exec (.bhalt w) s = .next t ∧ t.tp.be.pc = s.tp.be.pc + 12 ∧ BeKept s t ∧ t.tp.be.status = .ended) ∧
    (s.tp.be.chain = none → ∀ s1,
      s.bReady (w.woff.toNat % 8) (bits w.woff.toNat 4 4) (fun s => .ok ((), s)) (fun _ _ => 108) (fun _ _ => 1) = .ok ((), s1) →
      ∃ t, exec (.tokwB w) s = .next t ∧ t.tp.be.pc = s.tp.be.pc + 12 ∧ BeKept s t ∧ t.tp.tokens = s1.tp.tokens)

/-- R350, R352, R353: BLOOP with fewer than two loops open opens a loop whose body begins at the next word, or, with a count of
0, skips to its BEND; BEND goes back to the body until the count is reached, then closes the innermost loop. A third BLOOP and a
BEND without a loop are cause 0x25. -/
def Obligations.BLoops : Prop :=
  ∀ (w : BWord) (s : State), s.bTask.strm = none →
    (∀ s1 n, s.bReadyPlain w 1 (fun s => if 2 ≤ s.tp.be.loops.length then .error (.fatal 0x25 0 0) else .ok s) = .ok ((), s1) →
      n = (if w.lvl = 1 then (s.bTask.tcounts.getD (w.str.toNat % 8) 0).toNat else w.woff.toNat) →
      ∃ t, exec (.bloop w) s = .next t ∧ t.tp.be.pc = s.tp.be.pc + 12 ∧ BeKept s t ∧
        (n = 0 → t.tp.be.skip = 1 ∧ t.tp.be.loops = s.tp.be.loops) ∧
        (n ≠ 0 → t.tp.be.loops = ⟨n, 0, w.tile.toNat, s.tp.be.pc + 12⟩ :: s.tp.be.loops)) ∧
    (∀ s1 l rest, s.bReadyPlain w 1 (fun s => if s.tp.be.loops.isEmpty then .error (.fatal 0x25 0 0) else .ok s) = .ok ((), s1) →
      s.tp.be.loops = l :: rest →
      ∃ t, exec (.bend w) s = .next t ∧ BeKept s t ∧
        (l.k + 1 < l.cnt → t.tp.be.pc = l.body ∧ t.tp.be.loops = { l with k := l.k + 1 } :: rest) ∧
        (l.cnt ≤ l.k + 1 → t.tp.be.pc = s.tp.be.pc + 12 ∧ t.tp.be.loops = rest)) ∧
    (s.tp.be.chain = none → w.tkw = 0 → 2 ≤ s.tp.be.loops.length → exec (.bloop w) s = .next (s.takeFatal 3 0x25 0 0)) ∧
    (s.tp.be.chain = none → w.tkw = 0 → s.tp.be.loops = [] → exec (.bend w) s = .next (s.takeFatal 3 0x25 0 0))

/-- R135, R138, R139, R144, R347, R348: an element-level stage word or BPRM that issues, with its input and weights read, forms
its 1,024 outputs. A first or middle word passes them on, rounded to the pass format; a last or single word writes them to its
accumulator (replacing, or combining cell by cell) or to its tile of TOUT, and ends the chain. The pc moves by 12; memory and the
AC's registers stay. -/
def Obligations.StageWordsWrite : Prop :=
  ∀ (k : StageWord) (i : Instr) (s s1 : State) (c : Option BChain) (n : Named) (xs ws : List (Option Val)),
    (i, k) ∈ stageWords k.w → s.bTask.strm = none → s.bReadyStage k = .ok ((c, n), s1) → s1.wordInput k c n = .ok xs →
    s1.wordWeights k n = .ok ws →
    let ys := stageOutput k ws.toArray xs.toArray
    let last := k.w.pos = 0 ∨ k.w.pos = 3
    (¬last → ∃ t ch, exec i s = .next t ∧ t.tp.be.chain = some ch ∧ ch.count = (c.map BChain.count).getD 0 + 1 ∧
      (∀ e, e < 1024 → Sparse.get ch.vals e =
        BitVec.ofNat 64 (encodeFloat .f64 .rne false (roundTo (s.passFormat k.w) .rne false ((ys[e]?).getD zeroV)))) ∧
      t.tp.be.acc = s.tp.be.acc ∧ t.tp.banks = s.tp.banks ∧ t.tp.be.pc = s.tp.be.pc + 12 ∧ SameMemory s t ∧
      t.tp.ac.x = s.tp.ac.x) ∧
    (last → k.toAcc = true → (k.w.aov = 1 → s.accOk k.w.acc.toNat = .ok ()) →
      ∃ t, exec i s = .next t ∧ t.tp.be.chain = none ∧
      (∀ e, e < 1024 → Sparse.get (t.getAcc k.w.acc.toNat) e = BitVec.ofNat 64 (encodeFloat .f64 .rne false
        (if k.w.aov = 1 then combOf k.w.semi.toNat (s.accVal k.w.acc.toNat e) ((ys[e]?).getD zeroV)
          else (ys[e]?).getD zeroV))) ∧
      (∀ a, a ≠ k.w.acc.toNat → t.getAcc a = s.getAcc a) ∧ t.tp.banks = s.tp.banks ∧ t.tp.be.pc = s.tp.be.pc + 12 ∧
      SameMemory s t ∧ t.tp.ac.x = s.tp.ac.x) ∧
    (∀ o, last → k.toAcc = false → n.tout = some o →
      ∃ t, exec i s = .next t ∧ t.tp.be.chain = none ∧ t.tp.be.acc = s.tp.be.acc ∧
      t.tp.banks = (s.writeBankTile o ((c.map BChain.tile).getD (s.tileOfWord k.w))
        (fun e => encode o.fmt (Rnd.ofCode k.w.rnd.toNat) (k.w.sat = 1) ((ys[e]?).getD zeroV))).tp.banks ∧
      t.tp.be.pc = s.tp.be.pc + 12 ∧ SameMemory s t ∧ t.tp.ac.x = s.tp.ac.x)

/-- R141: a tile-level BSTG that issues runs its pairs in ascending order of their lower tiles, S apart, and moves past its word; each
pair writes its two output tiles from its input tiles and the weight rows WOFF + 4p on, w01 and w10 exchanged with TRN; a cell of an
output tile of 32-bit elements stands at its place in the banks. R140, R146, R338, R339, R346,
R355: BACC replaces an accumulator with a tile, combines the tile into it, or fills it with the semiring's identity; BOUT writes
an accumulator to a tile and with AOV zeroes it; BCBK copies 256 cells into a table. -/
def Obligations.TileAndAccumulatorWords : Prop :=
  ∀ (w : BWord) (s : State), s.bTask.strm = none →
    (∀ n s1 s2 a t o, w.lvl = 1 → s.bReadyTile w = .ok (n, s1) → n.tin = some a → n.twt = some t → n.tout = some o →
      s1.tilePairs w a t o = .ok s2 →
      ∃ u, exec (.bstg w) s = .next u ∧ u.tp.banks = s2.tp.banks ∧ u.tp.be.acc = s.tp.be.acc ∧
        u.tp.be.pc = s.tp.be.pc + 12 ∧ SameMemory s u) ∧
    (∀ s1 s2 a t o, let d := (s1.getSd (w.str.toNat % 8)).toNat
      0 < d → a.tiles % (2 * d) = 0 →
      RunsTo (fun x p y => x.tilePair w a t o p (2 * d * (p / d) + p % d) (2 * d * (p / d) + p % d + d) = .ok y)
        (List.range (a.tiles / 2)) s1 s2 → s1.tilePairs w a t o = .ok s2) ∧
    (∀ (m : State) (a t o : Tensor) (p lower upper : Nat) (xa xu : List Val) (ws : List (Option Val)),
      m.bankTile a lower 64 = .ok xa → m.bankTile a upper 64 = .ok xu → m.stageWeights t (w.woff.toNat + 4 * p) 256 = .ok ws →
      let x (l : List Val) (e : Nat) : Val := (l[e]?).getD zeroV
      let wt (r j : Nat) : Val := ((ws[64 * r + j]?).getD none).getD zeroV
      let cell (r0 r1 e : Nat) : Nat := encode o.fmt (Rnd.ofCode w.rnd.toNat) (w.sat = 1)
        (to64 (addV .rne (mulV (wt r0 (e % 64)) (x xa e)) (mulV (wt r1 (e % 64)) (x xu e))))
      m.tilePair w a t o p lower upper = .ok ((m.writeBankTile o lower (cell 0 (if w.trn = 1 then 2 else 1))).writeBankTile o
        upper (cell (if w.trn = 1 then 1 else 2) 3))) ∧
    (∀ (m : State) (o : Tensor) (te e : Nat) (f : Nat → Nat), o.fmt.width = 32 → 4 * o.cols ≤ o.rstr → e < 1024 →
      (o.tileAt te).2.1 + e / 64 < o.rows → (o.tileAt te).2.2 + e % 64 < o.cols →
      Memory.read (m.writeBankTile o te f).tp.banks
        (o.rowStart (o.tileAt te).1 ((o.tileAt te).2.1 + e / 64) + 4 * ((o.tileAt te).2.2 + e % 64)) 4 = f e % 2 ^ 32) ∧
    (∀ s1, w.spm = 2 → s.bReadyPlain w 2 (fun s => .ok s) = .ok ((), s1) →
      ∃ u, exec (.bacc w) s = .next u ∧ u.tp.be.pc = s.tp.be.pc + 12 ∧ u.tp.banks = s.tp.banks ∧ SameMemory s u ∧
        (∀ e, e < 1024 → Sparse.get (u.getAcc w.acc.toNat) e =
          BitVec.ofNat 64 (encodeFloat .f64 .rne false (identityOf w.semi.toNat))) ∧
        (∀ a, a ≠ w.acc.toNat → u.getAcc a = s.getAcc a)) ∧
    (∀ t s1 vs, w.spm ≠ 2 → s.bReadyTensor w 2 w.tin (fun t => t.inputOk w.semi.toNat false) = .ok (t, s1) → t.spm = 0 →
      s1.bankTile t (s.tileOfWord w) 64 = .ok vs → (w.spm = 1 → s.accOk w.acc.toNat = .ok ()) →
      ∃ u, exec (.bacc w) s = .next u ∧ u.tp.be.pc = s.tp.be.pc + 12 ∧ u.tp.banks = s.tp.banks ∧ SameMemory s u ∧
        (∀ e, e < 1024 → Sparse.get (u.getAcc w.acc.toNat) e = BitVec.ofNat 64 (encodeFloat .f64 .rne false
          (if w.spm = 1 then combOf w.semi.toNat (s.accVal w.acc.toNat e) ((vs[e]?).getD zeroV) else (vs[e]?).getD zeroV))) ∧
        (∀ a, a ≠ w.acc.toNat → u.getAcc a = s.getAcc a)) ∧
    (∀ t s1, s.bReadyTensor w 2 w.tout Tensor.outputOk = .ok (t, s1) → s.accOk w.acc.toNat = .ok () →
      ∃ u, exec (.bout w) s = .next u ∧ u.tp.be.pc = s.tp.be.pc + 12 ∧ SameMemory s u ∧
        u.tp.banks = (s.writeBankTile t (s.tileOfWord w) (fun e => encode t.fmt (Rnd.ofCode w.rnd.toNat) (w.sat = 1)
          (s.accVal w.acc.toNat e))).tp.banks ∧
        (w.aov = 0 → u.tp.be.acc = s.tp.be.acc) ∧ (w.aov = 1 → ∀ e, e < 1024 → Sparse.get (u.getAcc w.acc.toNat) e = 0)) ∧
    (∀ t s1 xs, s.bReadyTensor w 16 w.tin (fun t => t.fmtOk && t.fcode == 8) = .ok (t, s1) → t.spm = 0 →
      s1.tableCells t (t.tileAt (s.tileOfWord w)) = .ok xs →
      ∃ u, exec (.bcbk w) s = .next u ∧ u.tp.be.pc = s.tp.be.pc + 12 ∧ SameMemory s u ∧ u.tp.banks = s.tp.banks ∧
        u.tp.be.acc = s.tp.be.acc ∧
        (∀ e, e < 256 → Sparse.get (u.getCb w.acc.toNat) e = BitVec.ofNat 32 ((xs[e]?).getD 0)) ∧
        (∀ a, a ≠ w.acc.toNat → u.getCb a = s.getCb a))


/-! ## Chains and their commands (R112, R115, R117 to R120, R359 to R400, R427) -/

/-- R118, R120, R400: the control entries of a chain. KNOP passes; KLOOP opens a loop or, with a count of 0, goes past the
KEND at its argument; KEND goes back to the body until the count has run out; KJMP goes to its argument; KIF passes when its
dword, as it was read with the entry, is not 0 and else jumps; KSTOP, once every command of the chain has completed, ends the chain. A fifth loop, a KEND
without a loop and a jump out of usable banks are cause 0x4D. Nothing else changes. -/
def Obligations.ControlEntries : Prop :=
  ∀ (w : KWord) (s : State) (u : ChainUnit) (c : Chain), u = s.walker → c = s.eng u → c.running = none → w.tkp = 0 →
    let a := bits w.arg.toNat 0 21
    let v := (Sparse.get c.lsk (c.ldep.toNat - 1)).toNat
    let test := bits w.arg.toNat 32 21
    let on : Chain := { c with ent := c.ent + 1, popped := false, ahead := none, state := 1 }
    let at_ (x : Nat) : Chain := { c with ent := BitVec.ofNat 17 (x / 16), popped := false, ahead := none, state := 1 }
    let seen : Nat := match c.ahead with
      | some (_, some r) => r.toNat
      | _ => leValue (s.shownBank test 8)
    exec (.knop w) s = .next (s.setEng u on) ∧
    (w.count ≠ 0 → c.ldep.toNat < 4 → exec (.kloop w) s = .next (s.setEng u { on with
      lsk := Sparse.set c.lsk c.ldep.toNat (lskOf w.count.toNat (16 * (c.ent.toNat + 1))), ldep := c.ldep + 1 })) ∧
    (w.count ≠ 0 → 4 ≤ c.ldep.toNat → exec (.kloop w) s = .next (s.walkFatal u 0x4D)) ∧
    (w.count = 0 → s.tp.usable a 16 = true → exec (.kloop w) s = .next (s.setEng u { at_ a with ent := (at_ a).ent + 1 })) ∧
    (0 < c.ldep.toNat → bits v 32 16 = 1 → exec (.kend w) s = .next (s.setEng u { on with
      lsk := Sparse.set c.lsk (c.ldep.toNat - 1) (lskOf 0 (bits v 0 21)), ldep := c.ldep - 1 })) ∧
    (0 < c.ldep.toNat → bits v 32 16 ≠ 1 → exec (.kend w) s = .next (s.setEng u { at_ (bits v 0 21) with
      lsk := Sparse.set c.lsk (c.ldep.toNat - 1) (lskOf ((bits v 32 16 + 65535) % 65536) (bits v 0 21)) })) ∧
    (c.ldep = 0 → exec (.kend w) s = .next (s.walkFatal u 0x4D)) ∧
    (s.tp.usable a 16 = true → exec (.kjmp w) s = .next (s.setEng u (at_ a))) ∧
    (s.tp.usable a 16 = false → exec (.kjmp w) s = .next (s.walkFatal u 0x4D)) ∧
    (test % 8 = 0 → s.tp.usable test 8 = true → s.tp.bankPoisoned test 8 = false →
      (seen ≠ 0 → exec (.kif w) s = .next (s.setEng u on)) ∧
      (seen = 0 → s.tp.usable a 16 = true → exec (.kif w) s = .next (s.setEng u (at_ a)))) ∧
    (test % 8 ≠ 0 ∨ s.tp.usable test 8 = false → exec (.kif w) s = .next (s.walkFatal u 0x4D)) ∧
    (c.drained = true → ∃ t, exec (.kstop w) s = .next t ∧ (t.eng u).heads = c.heads.drop 1 ∧ (t.eng u).walking = false ∧
      (t.eng u).ldep = 0 ∧ (∀ x, x ≠ u → t.eng x = s.eng x) ∧ t.mem = s.mem ∧ t.tp.banks = s.tp.banks ∧ t.tp.ac = s.tp.ac) ∧
    (c.drained = false → exec (.kstop w) s = .next s)

/-- R112, R115, R118, R119, R343, R427: tokens and barriers of a chain. A control entry with TKP adds one token to its FIFO,
and TOKW takes its tokens, or the walk waits. TOKP and BARA, once they issue, are in flight with nothing in flight before them.
The shadow set moves into a free active set. A command that completes leaves the list of those in flight, clears its event bit
and pushes its tokens; nothing else changes in banks or memory. -/
def Obligations.TokensAndBarriersOfChains : Prop :=
  ∀ (w : KWord) (s : State) (u : ChainUnit) (c : Chain), c = s.eng u →
    (u = s.walker → c.running = none → w.tkp ≠ 0 → (s.tp.walkTask c).id = s.tp.cur → s.tokens u.code w.tkp.toNat < 15 →
      exec (.knop w) s = .next ((s.setTokens u.code w.tkp.toNat (s.tokens u.code w.tkp.toNat + 1)).setEng u
        { c with ent := c.ent + 1, popped := false, ahead := none, state := 1 })) ∧
    (u = s.walker → c.running = none → ∀ p n, p = bits w.arg.toNat 0 3 → n = bits w.arg.toNat 4 4 →
      (s.tokensFor u (s.tp.walkTask c) p n = true → exec (.tokwChain w) s =
        .next ((s.takeTokens p u.code n).setEng u
          { c with ent := c.ent + 1, popped := false, ahead := none, closed := none, state := 1 }) ∧
        (s.takeTokens p u.code n).tokens p u.code = s.tokens p u.code - n) ∧
      (s.tokensFor u (s.tp.walkTask c) p n = false → exec (.tokwChain w) s = .next (s.setEng u { c with state := 2 }))) ∧
    (u = s.walker → c.aprg = 0 → ∀ s1, issueAlone u w (bareCost u) s = .ok s1 → ∀ i ∈ [Instr.tokpChain w, .baraChain w],
      ∃ t f, exec i s = .next t ∧ (t.eng u).av = false ∧ (t.eng u).infl = [f] ∧ f.entry = c.act ∧ SameOutside s1 t) ∧
    (c.av = false → c.sv = true → ∃ t, exec (.shadowToActive u) s = .next t ∧ (t.eng u).act = c.shd ∧
      (t.eng u).actAddr = c.shdAddr ∧ (t.eng u).actId = c.shdId ∧ (t.eng u).actBlock = c.shdBlock ∧ (t.eng u).av = true ∧
      (t.eng u).sv = false ∧ (t.eng u).aprg = 0 ∧ (t.eng u).infl = c.infl ∧ SameOutside s t) ∧
    (∀ f rest, c.infl = f :: rest → f.media = false → f.status = none → f.bar = none → f.block = none →
      (((Decode.kFields f.entry).cev = 0 ∨ s.tp.usable (f.addr + 14) 1 = true) →
       (f.pushes = 0 ∨ (1 ≤ f.target ∧ f.target ≤ 6 ∧ f.target ≠ u.code ∧ (s.tp.taskOf f.task).id = s.tp.cur ∧
         s.tokens u.code f.target + f.pushes ≤ 15)) →
      ∃ t, exec (.commandCompletes u) s = .next t ∧ (t.eng u).infl = rest ∧ t.mem = s.mem ∧ t.tp.ac = s.tp.ac ∧
        (f.pushes ≠ 0 → t.tokens u.code f.target = s.tokens u.code f.target + f.pushes) ∧
        ((Decode.kFields f.entry).cev = 0 → t.tp.banks = s.tp.banks) ∧
        ((Decode.kFields f.entry).cev ≠ 0 → SameBanksBut s t (f.addr + 14) 1 ∧
          t.bankValue (f.addr + 14) 1 = s.bankValue (f.addr + 14) 1 / 2 * 2)))

/-- R119, R260, R359 to R364, R369, R373, R374, R170: a unit of work of an issued copy command whose tensors it read at issue:
one or more runs, up to 128 bytes. A run of CCPY and CPER moves 32 columns of a row of a tile as they are between tensors of one
format (R149: as many as its tile has), of CFIL writes its value into 32 columns, of CGRW moves a part of the row that its index
names, or zeros for 0xFFFFFFFF, of CXPS writes half a row of a square as a part of a column, of CMCP moves half a row of 64 columns of
the source tile of its vector. On 32-bit elements: in banks CFIL writes its 32 words, CCPY between two tensors that do not overlap
those of its source, CXPS each word of its half row to its place in the column, and no other byte; in memory CMCP writes the 128
bytes of its source, which its engine sees from then on. -/
def Obligations.CopyCommands : Prop :=
  ∀ (w : KWord) (s : State) (k n : Nat), (s.eng .ce).aprg ≠ 0 → k = (s.eng .ce).unitAt → n = 32 * w.count.toNat →
    let who (p : Nat) (x : State) : Who := x.whoOf .ce (x.work .ce) p
    (∀ a b s2 i path, let g := runsOf [a, b]
      (i, path) ∈ [(Instr.ccpy w, 1), (.cper w, 5)] → k < ceilDiv n g → s.namedAll .ce [w.ta, w.tb] = .ok [a, b] →
      a.fcode = b.fcode →
      RunsTo (fun x r y => ∃ v x1, let d := runAt a (tileDt w) r; let e := runAt b (tileSt w) r
          x.getBits (who path x) b e.1 e.2.1 e.2.2 (b.tileRun (r % 2 * 32)) = .ok (v, x1) ∧
          x1.copyBits (who path x) (overlapSpans a b (b.tileRanges (tileSt w) w.count.toNat)) a d.1 d.2.1 d.2.2
            (a.tileRun (r % 2 * 32)) v = .ok y)
        (unitRuns g n k) s s2 →
      ∃ t, exec i s = .next t ∧ SameOutside s2 t ∧ Advances s t .ce (ceilDiv n g) k) ∧
    (∀ a b s2, let g := runsOf [a, b]
      k < ceilDiv n g → s.namedAll .ce [w.ta, w.tb] = .ok [a, b] → a.fcode ≠ b.fcode →
      RunsTo (fun x r y => x.convertRun (who 1 x) w a b (overlapSpans a b (b.tileRanges (tileSt w) w.count.toNat) ++
          scaleOverlap a b (b.scaleRanges (tileSt w) w.count.toNat))
          (runAt a (tileDt w) r) (runAt b (tileSt w) r) (a.tileRun (r % 2 * 32)) (b.tileRun (r % 2 * 32)) = .ok y)
        (unitRuns g n k) s s2 →
      ∃ t, exec (.ccpy w) s = .next t ∧ SameOutside s2 t ∧ Advances s t .ce (ceilDiv n g) k) ∧
    (∀ a b p i j q x y, k < n → s.namedAll .ce [w.ta, w.tb] = .ok [a, b] → LocalWords s a → LocalWords s b → a.spm ≠ 5 → b.spm ≠ 5 →
      runAt a (tileDt w) k = (p, i, j) → runAt b (tileSt w) k = (q, x, y) → p < a.planes → i < a.rows → j + 32 ≤ a.cols →
      q < b.planes → x < b.rows → y + 32 ≤ b.cols → s.tp.usable (a.rowStart p i + 4 * j) 128 = true →
      s.tp.usable (b.rowStart q x + 4 * y) 128 = true → s.tp.bankPoisoned (b.rowStart q x + 4 * y) 128 = false →
      (∀ r ∈ b.tileRanges (tileSt w) w.count.toNat, a.rowStart p i + 4 * j + 136 ≤ r.1 / 8 * 8 ∨
        r.1 + r.2 + 8 ≤ a.rowStart p i + 4 * j) →
      ∃ t, exec (.ccpy w) s = .next t ∧ t.mem = s.mem ∧ SameBanksBut s t (a.rowStart p i + 4 * j) 128 ∧ t.tp.ac = s.tp.ac ∧
        t.readBank (a.rowStart p i + 4 * j) 128 = s.shownBank (b.rowStart q x + 4 * y) 128) ∧
    (∀ a s2, let g := runsOf [a]
      k < ceilDiv n g → s.namedAll .ce [w.ta] = .ok [a] →
      RunsTo (fun x r y => let d := runAt a (cfilFirst w) r
          x.putBits (who 1 x) a d.1 d.2.1 d.2.2 (a.tileRun (r % 2 * 32)) ((List.range 32).foldl (fun v i => v + cfilVal w % 2 ^ a.bitw * 2 ^ (i * a.bitw)) 0) = .ok y)
        (unitRuns g n k) s s2 →
      ∃ t, exec (.cfil w) s = .next t ∧ SameOutside s2 t ∧ Advances s t .ce (ceilDiv n g) k) ∧
    (∀ a p i j, k < n → s.named .ce w.ta = .ok a → a.kind = 2 → a.fcode = 8 → a.spm ≠ 5 → runAt a (cfilFirst w) k = (p, i, j) →
      p < a.planes → i < a.rows → j + 32 ≤ a.cols → s.tp.usable (a.rowStart p i + 4 * j) 128 = true →
      ∃ t, exec (.cfil w) s = .next t ∧ t.mem = s.mem ∧ SameBanksBut s t (a.rowStart p i + 4 * j) 128 ∧ t.tp.ac = s.tp.ac ∧
        Advances s t .ce n k ∧ ∀ e, e < 32 → t.bankValue (a.rowStart p i + 4 * (j + e)) 4 = cfilVal w) ∧
    (∀ a b c s2, let g := if a.runs = 1 then max 1 (1024 / (a.cols * a.bitw)) else 1
      let total := w.count.toNat * a.runs
      s.namedAll .ce [w.ta, w.tb, w.tc] = .ok [a, b, c] → k < ceilDiv total g → a.sameMemory b = false →
      RunsTo (fun x q y => let r := q / a.runs; let j := q % a.runs * a.runCols; let d := cgrwRow w + r
          ∃ ix x1, x.getBits (who 1 x) c 0 0 r 1 = .ok (ix, x1) ∧
          ∃ v x2, ((ix = 0xFFFFFFFF ∧ v = 0 ∧ x2 = x1) ∨
            (ix ≠ 0xFFFFFFFF ∧ ix < b.rows * b.planes ∧
             x1.getBits (who 1 x) b (ix / b.rows) (ix % b.rows) j b.runCols = .ok (v, x2))) ∧
          x2.copyBits (who 1 x) (overlapSpans a c [c.bytesOf 0 0 0 w.count.toNat]) a (d / a.rows) (d % a.rows) j a.runCols v =
            .ok y)
        (unitRuns g total k) s s2 →
      ∃ t, exec (.cgrw w) s = .next t ∧ SameOutside s2 t ∧ Advances s t .ce (ceilDiv total g) k) ∧
    (∀ a b s2, let g := runsOf [a, b]; let c := w.count.toNat; let total := b.planes * c * 128
      s.namedAll .ce [w.ta, w.tb] = .ok [a, b] → k < ceilDiv total g →
      RunsTo (fun x r y => x.transposeRun (who 1 x) w a b (r / 128 / c) (r / 128 % c) (r % 128 / 2) (r % 2) = .ok y)
        (unitRuns g total k) s s2 →
      ∃ t, exec (.cxps w) s = .next t ∧ SameOutside s2 t ∧ Advances s t .ce (ceilDiv total g) k) ∧
    (∀ a b, let m := w.count.toNat
      let p := k / 128 / m; let col := cxpsCol w + 64 * (k / 128 % m) + 32 * (k % 2); let row := cxpsRow w + k % 128 / 2
      let from_ := b.rowStart p row + 4 * col
      let to_ (c : Nat) : Nat := a.rowStart p (col + c) + 4 * row
      s.namedAll .ce [w.ta, w.tb] = .ok [a, b] → LocalWords s a → LocalWords s b → k < b.planes * m * 128 → p < a.planes →
      row < b.rows → col + 32 ≤ b.cols → col + 32 ≤ a.rows → row < a.cols → 4 * a.cols ≤ a.rstr →
      s.tp.usable from_ 128 = true → s.tp.bankPoisoned from_ 128 = false →
      (∀ r ∈ cxpsSource w b, ∀ c, c < 32 → to_ c + 12 ≤ r.1 / 8 * 8 ∨ r.1 + r.2 + 8 ≤ to_ c) →
      ∃ t, exec (.cxps w) s = .next t ∧ t.mem = s.mem ∧ t.tp.ac = s.tp.ac ∧
        (∀ c, c < 32 → t.bankValue (to_ c) 4 = leValue (((s.shownBank from_ 128).drop (4 * c)).take 4)) ∧
        ∀ x, (∀ c, c < 32 → ¬(to_ c ≤ x ∧ x < to_ c + 4)) → Sparse.get t.tp.banks x = Sparse.get s.tp.banks x) ∧
    (∀ a b s2 m, let g := runsOf [a, b]; let total := a.planes * 32
      s.namedAll .ce [w.ta, w.tb] = .ok [a, b] → k < ceilDiv total g →
      Map.find (s.eng .ce).tits 256 = some [BitVec.ofNat 64 m.w, BitVec.ofNat 64 m.h] → m.w < 2 ^ 64 → m.h < 2 ^ 64 →
      RunsTo (fun x r y => x.motionRun (who 1 x) (ListEntry.ofArg w.arg.toNat) m a b (r / 2) (r % 2) = .ok y)
        (unitRuns g total k) s s2 →
      ∃ t, exec (.cmcp w) s = .next t ∧ SameOutside s2 t ∧ Advances s t .ce (ceilDiv total g) k) ∧
    (∀ (a b : Tensor) m sx sy (src dst : Piece) s1 s2, let e := ListEntry.ofArg w.arg.toNat
      let ts := k / 32 * m.cap + sy.toNat / 4 * m.ntx + sx.toNat / 4
      let td := k / 32 * m.cap + e.yt * m.ntx + e.xt
      let from_ := b.rowStart (b.tileAt ts).1 ((b.tileAt ts).2.1 + (4 * (sy.toNat % 4) + sx.toNat % 4)) +
        4 * ((b.tileAt ts).2.2 + 32 * (k % 2))
      let to_ := a.rowStart (a.tileAt td).1 ((a.tileAt td).2.1 + (4 * (k % 32 / 2 / 4) + k % 32 / 2 % 4)) +
        4 * ((a.tileAt td).2.2 + 32 * (k % 2))
      let ctx := (s.work .ce).ctx
      s.namedAll .ce [w.ta, w.tb] = .ok [a, b] → k < a.planes * 32 →
      Map.find (s.eng .ce).tits 256 = some [BitVec.ofNat 64 m.w, BitVec.ofNat 64 m.h] → m.w < 2 ^ 64 → m.h < 2 ^ 64 →
      e.source m (k % 32 / 2 % 4) (k % 32 / 2 / 4) = some (sx, sy) →
      (∀ t ∈ [a, b], t.kind = 3 ∧ t.fcode = 8 ∧ t.spm ≠ 5 ∧ t.aspace = 0) →
      b.inside (b.tileAt ts).1 ((b.tileAt ts).2.1 + (4 * (sy.toNat % 4) + sx.toNat % 4)) ((b.tileAt ts).2.2 + 32 * (k % 2)) 32 = 32 →
      a.inside (a.tileAt td).1 ((a.tileAt td).2.1 + (4 * (k % 32 / 2 / 4) + k % 32 / 2 % 4)) ((a.tileAt td).2.2 + 32 * (k % 2)) 32 =
        32 →
      s.pieces true ctx 0 1 129 (from_ % 2 ^ 64) 128 = .ok ([src], s1) → src.len = 128 → src.zero = false →
      inHbm src.place = true → s.unreadable src.place 128 = false → s.tp.stale = [] →
      s1.pieces true ctx 0 2 129 (to_ % 2 ^ 64) 128 = .ok ([dst], s2) → dst.len = 128 → inHbm dst.place = true →
      ∃ t, exec (.cmcp w) s = .next t ∧ t.mem = s.mem ∧ t.tp.banks = s.tp.banks ∧ t.tp.ac = s.tp.ac ∧ t.cur = s.cur ∧
        ∀ i, i < 128 → Sparse.get (t.view s.cur 4) (dst.place + i) = Sparse.get (s.view s.cur 4) (src.place + i))

/-- R389 to R397: a unit of work of an issued index command. IGAT writes to element VOFF + k the element that its index names,
or zero bits for 0xFFFFFFFF; ISCT writes element VOFF + k at its index, where of two elements of one index either stays; ISCA adds it
there; IHAC inserts a pair into its table or counts it as dropped, and keeps the number of the first pair dropped; IHRD reads the
pairs out, and with CLR empties their slots; both end with their status dword. In banks, IGAT and ISCA on 32-bit words write one word
and no other byte. The units themselves, and that ISCA reads a local element in one and writes it in the next, are the model's choice
(note 35). -/
def Obligations.IndexCommands : Prop :=
  ∀ (w : KWord) (s : State) (k n : Nat) (a b c : Tensor), (s.eng .ie).aprg ≠ 0 → k = (s.eng .ie).unitAt → n = w.count.toNat →
    s.namedAll .ie [w.ta, w.tb, w.tc] = .ok [a, b, c] →
    let who := s.whoOf .ie (s.work .ie) 2
    let kept := (s.eng .ie).kept
    (k < n → ∀ ix s1 v s2 s3, s.indexAt who w c b k = .ok (ix, s1) →
      (ix = none → v = 0 ∧ s2 = s1) → (∀ e, ix = some e → s1.getElem who b e = .ok (v, s2)) → s2.putElem who a (voffOf w + k) v = .ok s3 →
      ∃ t, exec (.igat w) s = .next t ∧ SameOutside s3 t ∧ Advances s t .ie n k) ∧
    (k < n → LocalWords s a → LocalWords s b → LocalWords s c → voffOf w + k < a.elements → ioffOf w + k < c.elements →
      ∀ e, leValue (s.shownBank (wordAt c (ioffOf w + k)) 4) = e → e < b.elements → e ≠ 0xFFFFFFFF →
      ∃ t, exec (.igat w) s = .next t ∧ t.mem = s.mem ∧ SameBanksBut s t (wordAt a (voffOf w + k)) 4 ∧ t.tp.ac = s.tp.ac ∧
        t.bankValue (wordAt a (voffOf w + k)) 4 = leValue (s.shownBank (wordAt b e) 4)) ∧
    (k < n → ∀ e s1 v s2 s3, s.indexAt who w c a k = .ok (some e, s1) → s1.namedBefore who w c e k = .ok false →
      s1.getElem who b (voffOf w + k) = .ok (v, s2) → s2.putElem who a e v = .ok s3 →
      ∃ t, exec (.isct w) s = .next t ∧ SameOutside s3 t ∧ Advances s t .ie n k) ∧
    (k < n → ∀ e s1 v s2 s3, s.indexAt who w c a k = .ok (some e, s1) → s1.namedBefore who w c e k = .ok true →
      s1.takeBool.2.getElem who b (voffOf w + k) = .ok (v, s2) → s2.putElem who a e v = .ok s3 →
      ∃ t, exec (.isct w) s = .next t ∧ (SameOutside s1 t ∨ SameOutside s3 t) ∧ Advances s t .ie n k) ∧
    (k < n → ∀ s1, s.indexAt who w c a k = .ok (none, s1) →
      ∃ t, exec (.isct w) s = .next t ∧ SameOutside s1 t ∧ Advances s t .ie n k) ∧
    (k < 2 * n → k % 2 = 0 → ∀ s1, s.indexAt who w c a (k / 2) = .ok (none, s1) →
      ∃ t, exec (.isca w) s = .next t ∧ SameOutside s1 t ∧ t.scaKept 0 = 0) ∧
    (k < 2 * n → k % 2 = 0 → LocalWords s a → LocalWords s c → ioffOf w + k / 2 < c.elements →
      ∀ e, leValue (s.shownBank (wordAt c (ioffOf w + k / 2)) 4) = e → e < a.elements → e ≠ 0xFFFFFFFF →
      ∃ t, exec (.isca w) s = .next t ∧ SameOutside s t ∧ t.scaKept 0 = e + 1 ∧
        t.scaKept 1 = leValue (s.shownBank (wordAt a e) 4)) ∧
    (k < 2 * n → k % 2 = 1 → s.scaKept 0 = 0 → ∃ t, exec (.isca w) s = .next t ∧ SameOutside s t ∧ Advances s t .ie (2 * n) k) ∧
    (k < 2 * n → k % 2 = 1 → LocalWords s a → LocalWords s b → voffOf w + k / 2 < b.elements →
      ∀ e, s.scaKept 0 = e + 1 → e < a.elements →
      ∃ t, exec (.isca w) s = .next t ∧ t.mem = s.mem ∧ SameBanksBut s t (wordAt a e) 4 ∧ t.tp.ac = s.tp.ac ∧
        Advances s t .ie (2 * n) k ∧
        t.bankValue (wordAt a e) 4 = (s.scaKept 1 + leValue (s.shownBank (wordAt b (voffOf w + k / 2)) 4)) % 2 ^ 32) ∧
    (k < 2 * n → k % 2 = 1 → a.kind ≠ 2 → ∀ e v s2 s3, s.scaKept 0 = e + 1 → s.getElem who b (voffOf w + k / 2) = .ok (v, s2) →
      s2.addHome who (bits w.arg.toNat 60 4) a e v = .ok s3 →
      ∃ t, exec (.isca w) s = .next t ∧ SameOutside s3 t ∧ Advances s t .ie (2 * n) k) ∧
    (k < n → kept % 65536 ≤ k → ∀ key v s1 s2, let fp := bitAt w.arg.toNat 56
      s.getElem who b (ioffOf w + k) = .ok (key, s1) → s1.getElem who c (ioffOf w + k) = .ok (v, s2) → key ≠ 0xFFFFFFFF →
      ∀ ok s3, s2.probe who a fp key v (bits w.arg.toNat 52 4 + 1) (firstSlot key a.rows) = .ok (ok, s3) →
      ∃ t, exec (.ihac w) s = .next t ∧ SameOutside s3 t ∧ Advances s t .ie (n + 1) k ∧
        (ok = true → (t.eng .ie).kept = kept) ∧
        (ok = false → (t.eng .ie).kept % 65536 = kept % 65536 + 1 ∧
          (t.eng .ie).kept / 65536 = if kept % 65536 = 0 then k else kept / 65536)) ∧
    (k = n → s.tp.usable (statOf w) 8 = true →
      ∃ t, exec (.ihac w) s = .next t ∧ t.mem = s.mem ∧ SameBanksBut s t (statOf w) 8 ∧ (t.eng .ie).av = false ∧
        t.bankValue (statOf w) 8 = (if kept % 65536 = 0 then 0xFFFFFFFF else kept / 65536) * 2 ^ 32 + kept % 65536) ∧
    (k < a.rows → a.rows < 2 ^ 31 → kept ≤ k → ∀ key v s1 s2 s3, s.slotOf who a k = .ok (key, v, s1) →
      (if key ≠ 0xFFFFFFFF ∧ kept < n then
        ∃ x, s1.putElem who b (bits w.arg.toNat 0 28 + kept) key = .ok x ∧
          x.putElem who c (bits w.arg.toNat 0 28 + kept) v = .ok s2
       else s2 = s1) →
      (if bitAt w.arg.toNat 55 then s2.putSlot who a k 0xFFFFFFFF 0xFFFFFFFF = .ok s3 else s3 = s2) →
      ∃ t, exec (.ihrd w) s = .next t ∧ SameOutside s3 t ∧ Advances s t .ie (a.rows + 1) k ∧
        (t.eng .ie).kept = if key = 0xFFFFFFFF then kept else kept + 1) ∧
    (k = a.rows → s.tp.usable (statOf w) 8 = true →
      ∃ t, exec (.ihrd w) s = .next t ∧ t.mem = s.mem ∧ SameBanksBut s t (statOf w) 8 ∧
        t.bankValue (statOf w) 8 = kept ∧ (t.eng .ie).av = false)

/-- R178 to R197, R260, R380 to R388: a unit of work of an issued hash command. HPRJ loads its slot from a checked descriptor; HKEY
writes a token's rows and inserts its identifier table by table. HGAT reads one square or record of the buckets that it has still to
walk, an acquire, whose identifiers within WIN of the query row's position become candidates; then it writes its list, which is the
M largest candidates, descending, behind a cell that counts them; then each fetched row, the head's row of candidate c or zeros; then
each row of its mask, bit c of which says that the query row hit candidate c; and it completes after its last step. HCLR zeroes one
square or sets the device fields, as a release; HSTS writes 32 bytes to the banks, or, as a drift report within the budget, nothing.
That these are the units of work is the model's choice (notes 35 and 96); so is, by a free value, the order of an HGAT's walks and an
HCLR's clears, which R193 leaves open (note 6). -/
def Obligations.HashCommands : Prop :=
  ∀ (w : KWord) (s : State) (k : Nat), (s.eng .he).aprg ≠ 0 → k = (s.eng .he).unitAt →
    (k = 0 → ∀ h s1, s.hprjHead w = .ok (h, s1) →
      (bitAt w.count.toNat 2 = true → ∃ t, exec (.hprj w) s = .next t ∧ t.mem = s1.mem ∧ t.tp.banks = s1.tp.banks ∧
        t.slot (hprjSlot w) = ⟨true, h.addr, h.l, h.b, h.d, seedSigns h⟩ ∧
        (∀ m, m ≠ hprjSlot w → t.slot m = s1.slot m) ∧ (t.eng .he).av = false) ∧
      (bitAt w.count.toNat 2 = false → ∀ g s2, s1.signArray h = .ok (g, s2) →
        ∃ t, exec (.hprj w) s = .next t ∧ t.mem = s2.mem ∧ t.slot (hprjSlot w) = ⟨true, h.addr, h.l, h.b, h.d, g⟩ ∧
          (t.eng .he).av = false)) ∧
    (∀ h tk tv s1 a b, let l := (s.slot (hkeySlot w)).l
      let i := k / (l + 1); let id := (((Map.find (s.eng .he).tits 256).getD []).getD i 0).toNat
      k < w.count.toNat * (l + 1) → s.headFull (hkeySlot w) = .ok (h, tk, tv, s1) →
      s1.namedAll .he [w.ta, w.tb] = .ok [a, b] →
      (k % (l + 1) = 0 → ∀ s2, s1.hkeyRows h a b tk tv (16 * hkeyRb w + i) id = .ok s2 →
        ∃ t, exec (.hkey w) s = .next t ∧ SameOutside s2 t) ∧
      (k % (l + 1) ≠ 0 → ∀ vs s2 s3, s1.rowValues a (16 * hkeyRb w + i) = .ok (vs, s2) →
        s2.insertId h (k % (l + 1) - 1) ((s.slot (hkeySlot w)).bucket vs (k % (l + 1) - 1)) id = .ok s3 →
        ∃ t, exec (.hkey w) s = .next t ∧ SameOutside s3 t)) ∧
    (s.gather.step = 0 ∨ s.gather.step < s.gather.total → ∀ s1, s.gatherStep w = .ok s1 →
      ∃ t, exec (.hgat w) s = .next t ∧ SameOutside s1 t ∧
        (s.gather.step ≠ 0 → s.gather.step + 1 = s.gather.total → (t.eng .he).av = false)) ∧
    (s.gather.step ≠ 0 → s.gather.total ≤ s.gather.step →
      ∃ t, exec (.hgat w) s = .next t ∧ SameOutside s t ∧ (t.eng .he).av = false) ∧
    (∀ h tk tv s1 ts, let a := nth ts 0; let q := s1.walks.getD (s1.takeNat.1 % max 1 s1.walks.length) ⟨0, 0, 0⟩
      let i := (hgatRows w a).getD (q.bucket / h.l) 0; let table := q.bucket % h.l
      s.gather.step = 1 → 3 ≤ s.gather.total → s.headFull (hgatSlot w) = .ok (h, tk, tv, s1) → s1.namedAll .he (hgatIds w) = .ok ts →
      ∀ va s2 r s3,
        ((q.link ≠ 0 ∧ va = h.pool + 64 * (q.link - 1) ∧ s2 = s1.takeNat.2) ∨
         (q.link = 0 ∧ ∃ vs, s1.takeNat.2.rowValues a (16 * hgatRb w + i) = .ok (vs, s2) ∧
           va = h.sq + 64 * (table * 2 ^ h.b + (s2.slot (hgatSlot w)).bucket vs table))) →
        s2.readBucket h va 1 = .ok (r, s3) →
        ∃ t, exec (.hgat w) s = .next t ∧ SameOutside s3 t ∧ (t.eng .he).av = (s.eng .he).av ∧
          t.hits i = s.hits i ++ r.ids.filter (fun id : Nat => decide ((((hgatQpos w + i : Nat) : Int) - (id : Int)).natAbs ≤ h.win)) ∧
          (∀ m, m < 16 → m ≠ i → t.hits m = s.hits m)) ∧
    (∀ m, let l := s.gatherList m
      l.Pairwise (fun x y => y < x) ∧ l.length ≤ m ∧ (∀ x ∈ l, ∃ i, i < 16 ∧ x ∈ s.hits i) ∧
        ∀ i, i < 16 → ∀ x ∈ s.hits i, x ∈ l ∨ (l.length = m ∧ ∀ y ∈ l, x < y)) ∧
    (∀ h tk tv s1 ts, let l := s.gatherList h.m; let rows := if hgatFk w then 2 * h.m else 0
      2 ≤ s.gather.step → s.gather.step < s.gather.total → s.headFull (hgatSlot w) = .ok (h, tk, tv, s1) →
      s1.namedAll .he (hgatIds w) = .ok ts → (∀ x ∈ l, x < 2 ^ 32) →
      (s.gather.step = 2 → ∀ check s2, s1.countGather h = .ok (check, s2) →
        ∃ v, bits v 0 32 = l.length + (if check then 2 ^ 30 else 0) ∧
          (∀ c, c < h.m → bits v (32 * (c + 1)) 32 = l.getD c 0xFFFFFFFF) ∧
          ∀ s3, s2.putBits s2.heWho (nth ts 1) 0 0 0 (h.m + 1) v = .ok s3 → ∃ t, exec (.hgat w) s = .next t ∧ SameOutside s3 t) ∧
      (∀ c odd v s2 s3, let src := if odd = 0 then tk else tv; let dst := if odd = 0 then nth ts 2 else nth ts 3
        hgatFk w = true → odd < 2 → c < h.m → s.gather.step = 3 + 2 * c + odd →
        ((c < l.length ∧ s1.getBits s1.heWho src 0 (l.getD c 0 % src.rows) 0 src.cols = .ok (v, s2)) ∨
          (l.length ≤ c ∧ v = 0 ∧ s2 = s1)) →
        s2.putBits s2.heWho dst 0 c 0 dst.cols v = .ok s3 → ∃ t, exec (.hgat w) s = .next t ∧ SameOutside s3 t) ∧
      (∀ i, s.gather.step = 3 + rows + i → ∃ v, (∀ c, c < l.length → bitAt v c = (s.hits i).contains (l.getD c 0)) ∧
        v < 2 ^ l.length ∧ ∀ s2, s1.putBits s1.heWho (hgatMask w ts) 0 i 0 h.m v = .ok s2 →
          ∃ t, exec (.hgat w) s = .next t ∧ SameOutside s2 t)) ∧
    (∀ h s1, let p := s.slot (hclrSlot w); let n := p.l * 2 ^ p.b
      let left := s1.toClear n; let j := s1.takeNat.1 % max 1 left.length; let q := left.getD j n
      let s2 := s1.takeNat.2.widen (fun x => x.own s1.cur 6 && x.path == 3) h.scp
      s.headOf (hclrSlot w) = .ok (h, s1) → k ≤ n →
      ∀ s3, (q ≠ n ∧ s2.putBucket h (h.sq + 64 * q) 0 = .ok s3 ∨ q = n ∧ s2.clearFields h = .ok s3) →
        ∃ t, exec (.hclr w) s = .next t ∧ SameOutside s3 t ∧ (k < n → n < 2 ^ 31 - 1 → t.toClear n = (left.eraseIdx j).map (· % 2 ^ 64)) ∧
          (k = n → (t.eng .he).av = false)) ∧
    (k = 0 → ∀ h s1 v s2, let a := bits (hstsVal w) 0 21
      s.headOf (hstsSlot w) = .ok (h, s1) → s1.homeBytes (h.addr + 56) 24 1 = .ok (v, s2) → s.tp.usable a 32 = true →
      ∃ t, exec (.hsts w) s = .next t ∧ t.mem = s2.mem ∧ SameBanksBut s t a 32 ∧ (t.eng .he).av = false ∧
        t.bankValue a 32 = v % 2 ^ 192) ∧
    (k = 0 → ∀ h s1, s.headOf (hstsSlot w) = .ok (h, s1) → exceeds (hstsVal w) h.budget = false →
      ∃ t, exec (.hstsDrift w) s = .next t ∧ SameOutside s1 t ∧ (t.eng .he).av = false)

/-- R163, R367, R368, R371, R405 to R407: a media command that its CE issues is passed to the engine that its entry names: it
stands in the engine's list and in flight on the CE. The engine performs the earliest command passed to it whose stream is not
locked; what it did is in the state. One whose event waits for its CE (R173, R255) holds back no other. An MSUB from the
banks appends LEN bytes to its stream's input. -/
def Obligations.MediaCommands : Prop :=
  (∀ (w : KWord) (s s1 : State) (i : Instr) (cme : Bool) (r : Dword × Dword) (issue : Try ((Dword × Dword) × State)),
    (i, cme, issue) ∈ [(Instr.msub w, false, s.mediaIssue w false [w.ta] (msubCheck w) (msubCost w)),
      (.mdec w, false, s.mediaIssue w false [] (mdecCheck w) (mdecCost w)),
      (.cmbl w, true, s.mediaIssue w true [] freeCheck (cmblCost w)),
      (.cmsm w, true, s.mediaIssue w true [] freeCheck (fun _ => 256)),
      (.cmsmDrift w, true, s.mediaIssue w true [] (fun s _ => s.reportBlock w) (fun _ => 256))] →
    issue = .ok (r, s1) →
    ∃ t m f, exec i s = .next t ∧ t.media = s1.media ++ [m] ∧ m.eng = mediaEng w cme ∧ m.entry = (s1.eng .ce).act ∧
      m.tp = s1.cur ∧ m.report = r ∧ (t.eng .ce).av = false ∧ (t.eng .ce).infl = (s1.eng .ce).infl ++ [f] ∧ f.media = true ∧
      f.mid = m.id ∧ SameOutside s1 t) ∧
  (∀ (s : State) (m : MediaCmd) (st : Stream), s.media = [m] → m.tp = s.cur → m.stalled = false → m.trapped = false →
    m.raised = false → (∀ x ∈ s.weak, x.own m.tp (mediaCode m.eng) = false) → (m.begun = true ∨ st.locked = false) → bits m.entry.toNat 120 8 = 0x70 → s.tp.images = [] →
    Map.find s.streams (ssidOf m.entry.toNat) = some st → st.ctx = m.task.ctx → st.boundTo m = true →
    (let t := Tensor.ofDwords m.tensor; let len := bits m.entry.toNat 0 32
     t.kind = 2 → t.fmt = .uint8 → t.rows = 1 → t.planes = 1 → len ≤ t.cols → len ≤ st.freeBytes →
     s.tp.bankPoisoned t.addr len = false → s.tp.ce.infl.any (fun f => f.mid == m.id) = true →
     ∃ t' st', exec (.mediaCommandStart m.eng) s = .next t' ∧ t'.media = [] ∧ t'.mem = s.mem ∧ t'.tp.banks = s.tp.banks ∧
       Map.find t'.streams (ssidOf m.entry.toNat) = some st' ∧ st'.data = st.data ++ Sparse.run s.tp.banks t.addr len ∧
       st'.locked = false)) ∧
  (∀ (s t' : State) (m : MediaCmd) (earlier later : List MediaCmd), s.media = earlier ++ m :: later → m.tp = s.cur →
    (∀ x ∈ earlier, x.eng ≠ m.eng ∨ x.stalled = true ∨ x.trapped = true ∨ (x.raised = true ∧ s.ceTrapped x = true) ∨
      (x.begun = false ∧ ∃ st, Map.find s.streams (ssidOf x.entry.toNat) = some st ∧ st.locked = true)) →
    m.stalled = false → m.trapped = false → (m.raised = true → s.ceTrapped m = false) →
    (m.begun = true ∨ ∀ st, Map.find s.streams (ssidOf m.entry.toNat) = some st → st.locked = false) →
    ((s.beginMedia m).changeMedia m.id (fun x => { x with passed := 0 })).mediaWork m = .ok t' → t'.cur = s.cur →
    exec (.mediaCommandStart m.eng) s = .next t')

/-! ## Launches, tasks, pre-emption (R57 to R64, R77 to R102, R109, R223, R259 to R265, R272, R290) -/

/-- R77 to R92, R94, R95, R99, R102, R109, R272, R290: a doorbell of the queue's tenant makes the device read WIDX; the start
of a launch adds it to those under way and moves RIDX by one; a round of stream queues gives each its share first; a dealer
pushes the launch's next pawn on a pile, or has it held behind a serial pawn; a completed
launch is gone and CIDX has moved by one. An idle TP starts the task of its next pawn as its header says. A pawn that a region
held, or a watch that a write has met, is pushed, unless a serial pawn holds it; the supervisor binds a pile. (Which of several held
pawns goes first, that a start with BRR as it stands makes no role change, and which registers a start leaves are the model's choices,
notes 77 and 44.) -/
def Obligations.LaunchAndTaskEvents : Prop :=
  ∀ (s : State),
    (∀ (ten : BitVec 4) (data : BitVec 32), let q := data.toNat % 4096
      let works : Bool := (s.mod.pst == 3 || s.mod.pst == 4 || s.mod.pst == 5) && !s.mod.host.insecure.contains 0
      (∀ lq, works = true → Map.find s.queues q = some lq → (s.ctx? lq.ctx).isSome = true →
        (s.getCtx lq.ctx).tenant = ten.toNat → s.unreadable lq.desc 40 = false →
        ∃ t, exec (.doorbell ten data) s = .next t ∧
          Map.find t.queues q = some { lq with widx := Memory.read (s.cutIdle q).mem (lq.desc + 16) 4 } ∧
          (∀ p, p ≠ q → Map.find t.queues p = Map.find s.queues p) ∧ t.mem = (s.cutIdle q).mem ∧
          (s.idleCredit q lq = false → t.mem = s.mem ∧ t.tp = s.tp) ∧
          (s.idleCredit q lq = true → ∀ n, s.queueStream lq = some n → s.cutIdle q = s.setDeficit n 0)) ∧
      (works = false ∨ Map.find s.queues q = none → exec (.doorbell ten data) s = .next s)) ∧
    (∀ back c v, let s0 := s.queues.foldl (fun s e => s.cutIdle e.1) s
      (s.mod.pst = 3 ∨ s.mod.pst = 4 ∨ s.mod.pst = 5) → s0.readyQueues = (back, none) →
      (s0.countPassed back).roundDue back = some (c, v) →
      exec .launchStart s = .next ((s0.countPassed back).beginRound back c v)) ∧
    (∀ back r u l s1 s2 d, let s0 := s.queues.foldl (fun s e => s.cutIdle e.1) s
      (s.mod.pst = 3 ∨ s.mod.pst = 4 ∨ s.mod.pst = 5) → s0.readyQueues = (back, none) →
      (s0.countPassed back).roundDue back = none → (s0.countPassed back).chooseStart back = some (r, u) →
      (s0.countPassed back).nextRecord r.queue = .ok (d, s1) → s1.resolveLaunch r.num r.queue r.dwords = .ok (l, s2) →
      ∃ t l', exec .launchStart s = .next t ∧ t.launches = s2.launches ++ [l'] ∧ l'.lid = l.lid ∧ l'.index = l.index ∧
        l'.dwords = l.dwords ∧ l'.tcounts = l.tcounts ∧ l'.live = l.live ∧
        Memory.read t.mem (r.queue.desc + 24) 4 = (l.index + 1) % 2 ^ 32) ∧
    (∀ (die : BitVec 1) l i n, let ls := s.dealable die.toNat; let cls := clsOf l.dwords
      let e : Entry := { pawn := l.pawn i, ctx := l.ctx, bridged := true }
      let serial := (s.dropEnded (dieOf n)).serialStands (dieOf n) e.launchKey s.nextRegion
      ls[s.turn.pick % max 1 ls.length]? = some (l, i, n) →
      ∃ t, exec (.deal die) s = .next t ∧ t.mem = s.mem ∧
        (s.regions = [] ∨ serial = false → ((t.getTp n).pile cls).chip = e :: ((s.getTp n).pile cls).chip) ∧
        (serial = true → s.regions ≠ [] → t.tp = s.tp ∧ t.others = s.others ∧
          ∃ r, t.regions = (s.dropEnded (dieOf n)).regions ++ [r] ∧ r.held = some ({ e with region := s.nextRegion }, n)) ∧
        t.launches = s.launches.map (fun k => if k.lid = l.lid then
          (if die = 0 then { k with next0 := i + 1 } else { k with next1 := i + 1 }) else k)) ∧
    (∀ (lid : BitVec 16) l t1, s.launches.find? (fun l => l.lid == lid.toNat) = some l → l.faulted = false →
      s.launchDone l = true → (s.drain (fun w => w.lid == l.lid && w.ctx == l.ctx)).completionWrites l = .ok t1 →
      t1.endReadable l = .ok () →
      ∃ t, exec (.launchCompletion lid) s = .next t ∧ (∀ k ∈ t.launches, k.lid ≠ l.lid) ∧
        (∀ q, l.strm = none → Map.find t1.queues l.queue = some q →
          Memory.read t.mem (q.desc + 32) 4 = (Memory.read t1.mem (q.desc + 32) 4 + 1) % 2 ^ 32)) ∧
    (∀ e s1 p rest s2, s.hasTask = false → s.inService s.cur = true →
      (s.takeClass 1 = some (e, s1) ∨ (s.takeClass 1 = none ∧ s.takeClass 0 = some (e, s1))) →
      s1.pieces true e.ctx 0 1 65 e.pawn.taskh 64 = .ok (p :: rest, s2) → p.zero = false → ∀ v s3, s2.deviceLoad e.ctx p.place 64 = .ok (v, s3) →
      let h := dwordsOf 8 (leBytes 64 v)
      headerOk h = true → badBrr (h.getD 3 0) = false →
      ∃ t, exec .taskStart s = .next t ∧ t.tp.cur = s.nextTask ∧ t.tp.ac.pc = h.getD 0 0 ∧ t.tp.ac.sup = false ∧
        t.tp.ac.status = .running ∧ t.getX 10 = e.pawn.p1 ∧ t.getX 11 = BitVec.ofNat 64 e.pawn.iter ∧
        t.getX 12 = BitVec.ofNat 64 e.pawn.jrec ∧ t.getX 13 = BitVec.ofNat 64 (e.pawn.lid + e.pawn.cls * 65536) ∧
        (∀ r : BitVec 5, 1 ≤ r.toNat → r.toNat < 10 → t.getX r = 0) ∧ t.tp.ac.handles = [] ∧ t.tp.tokens = [] ∧
        t.tp.queues = {} ∧ t.tp.qdir = 0x88 ∧ t.tp.svwm = 0xFFFFFFFFFF ∧
        t.tp.ac.phase = (if 2 ≤ e.aborts then .direct else .replay) ∧ t.mem = s.mem ∧ t.tp.banks = s.tp.banks ∧
        (s2.tp.be.idle = true → t.tp.be = s2.tp.be.fresh) ∧ (s2.tp.he.earlierWork s2.nextTask = false → t.tp.slots = []) ∧
        (h.getD 3 0 = s.tp.brr → t.tp.role = none) ∧ (h.getD 3 0 ≠ s.tp.brr → t.tp.role = some ⟨h.getD 3 0, true⟩)) ∧
    (∀ (die : BitVec 1) (pre : List Region) (r : Region) (post : List Region) (e : Entry) (n : Nat), let all := (s.dropEnded die.toNat).regions
      all = pre ++ r :: post → (∀ q ∈ pre, q.held = none ∨ q.die ≠ die.toNat ∨
        ∃ p ∈ all, p.die = q.die ∧ p.lid = q.lid ∧ p.seq < q.seq ∧ p.holdsBack q.serial q.decls = true) → r.held = some (e, n) → r.die = die.toNat →
      (∀ q ∈ all, q.die = r.die → q.lid = r.lid → q.seq < r.seq → q.holdsBack r.serial r.decls = false) →
      exec (.regionRelease die) s = .next ({ s with
        regions := all.map (fun (q : Region) => if q.seq = r.seq then { q with held := none } else q) }.pushPawn n e)) ∧
    (∀ k w, let s0 : State := { s with watches := s.watches.eraseIdx k }
      let serial := (s0.dropEnded (dieOf w.tp)).serialStands (dieOf w.tp) w.entry.launchKey w.seq
      s.watches[k]? = some w →
      (w.fired = true → s.regions = [] ∨ serial = false → ((s.getTp w.tp).pile w.entry.pawn.cls).ctx = some w.entry.ctx →
        ((s.getTp w.tp).pile w.entry.pawn.cls).chip.length < 64 →
        ∃ t, exec (.parkWake k) s = .next t ∧ t.watches = s.watches.eraseIdx k ∧ t.mem = s.mem ∧
          ((t.getTp w.tp).pile w.entry.pawn.cls).chip = w.entry :: ((s.getTp w.tp).pile w.entry.pawn.cls).chip) ∧
      (w.fired = true → s.regions ≠ [] → serial = true →
        ∃ t r, exec (.parkWake k) s = .next t ∧ t.watches = s.watches.eraseIdx k ∧ t.tp = s.tp ∧ t.others = s.others ∧
          t.mem = s.mem ∧ t.regions = (s0.dropEnded (dieOf w.tp)).regions ++ [r] ∧ r.held = some ({ w.entry with region := w.seq }, w.tp)) ∧
      (w.fired = false → exec (.parkWake k) s = .next s)) ∧
    (∀ (die : BitVec 1) (tile : BitVec 6) (cls : BitVec 1) (ctx : BitVec 8), let n := 64 * die.toNat + tile.toNat
      ((s.ctx? ctx.toNat).isSome = true → (s.getCtx ctx.toNat).stopped = false → s.mod.tps.contains n = true →
        (s.getTp n).mayBind cls.toNat ctx.toNat = true → s.homeless = [] →
        ∃ t, exec (.pileBinding die tile cls ctx) s = .next t ∧ ((t.getTp n).pile cls.toNat).ctx = some ctx.toNat ∧
          ((t.getTp n).pile cls.toNat).chip = ((s.getTp n).pile cls.toNat).chip ∧ t.mem = s.mem) ∧
      ((s.getTp n).mayBind cls.toNat ctx.toNat = false →
        exec (.pileBinding die tile cls ctx) s = .next (s.emit .refusedRequest)))

/-- R52, R57 to R60, R64, R120, R223, R259 to R265: a write of BRR is cause 0x45 when it is not a legal value, and starts a role
change when it is a new one; the roles stay as they were; once the units stand, the roles are the new ones, banks that keep
their role keep their bytes, and a byte of another bank is 0 or what the task's own context had placed there; no line stays cached
in a bank that is no cache bank any more. QDIR turns only empty queues; other values are cause 0x47. 10,400 cycles after the hold
of a role change, which are 4.0 µs at 2.6 GHz and 8.0 µs at 1.3 GHz, and 4.0 µs after that of a pre-emption, an engine's active
command stops at its next access. A task past its commit point whose units stand is saved: the TP is idle and
the image holds its registers and its usable banks; a restore brings them back. -/
def Obligations.RoleChangesAndPreemption : Prop :=
  ∀ (s : State) (v : Dword) (u : ChainUnit),
    ((bits v.toNat 0 2 ≠ 0 ∨ ∃ b, b < 32 ∧ bits v.toNat (2 * b) 2 = 3) →
      exec (.brrWrite v) s = .next (s.takeFatal 1 0x45 0 0) ∧ (s.takeFatal 1 0x45 0 0).tp.brr = s.tp.brr) ∧
    (badBrr v = false → v = s.tp.brr → exec (.brrWrite v) s = .next s) ∧
    (badBrr v = false → v ≠ s.tp.brr →
      ∃ t, exec (.brrWrite v) s = .next t ∧ t.tp.role = some ⟨v, false⟩ ∧ t.tp.brr = s.tp.brr ∧ t.tp.holdAt = s.time ∧
        SameOutside s t) ∧
    (∀ r, s.tp.role = some r →
      (s.roleDrained r.start = false → exec .roleChangeComplete s = .next s) ∧
      (s.roleDrained r.start = true →
        ∃ t, exec .roleChangeComplete s = .next t ∧ t.tp.brr = r.brr ∧ t.tp.role = none ∧ t.mem = s.mem ∧
          t.tp.ac.x = s.tp.ac.x ∧ t.tp.ac.pc = s.tp.ac.pc ∧
          (r.start = false → t.tp.ac = s.tp.ac ∧ ∀ c ∈ t.tp.cache, ∀ b, c.bank = some b → roleOf r.brr b = 0) ∧
          ∀ a, (changesRole s.tp.brr r.brr a = false → Sparse.get t.tp.banks a = Sparse.get s.tp.banks a) ∧
            (changesRole s.tp.brr r.brr a = true → Sparse.get t.tp.banks a = 0 ∨
              (Sparse.get t.tp.banks a = Sparse.get s.tp.banks a ∧ s.tp.placedBy s.task.ctx a = true)))) ∧
    ((s.mod.arith = 0 → s.roleLimit = 4000) ∧ (s.mod.arith = 3 → s.roleLimit = 8000)) ∧
    (s.timeUp s.roleLimit = true →
      ∀ b, s.tp.role = some ⟨b, false⟩ → ∃ t, exec (.roleChangeTimeout u) s = .next t ∧ u.code ∈ t.tp.stopNow ∧
        SameOutside s t ∧ ∀ x, t.eng x = s.eng x) ∧
    (s.timeUp s.roleLimit = false → exec (.roleChangeTimeout u) s = .next s) ∧
    (s.tp.holdAt + 4000 ≤ s.time →
      (∀ y, s.tp.preempt = some y → s.tp.role = none → ∃ t, exec (.preemptionEngineTimeout u) s = .next t ∧
        u.code ∈ t.tp.stopNow ∧ SameOutside s t ∧ ∀ x, t.eng x = s.eng x)) ∧
    (s.time < s.tp.holdAt + 4000 → exec (.preemptionEngineTimeout u) s = .next s) ∧
    (v.toNat < 256 → (∀ q, q < 8 → s.eToA q = bitAt v.toNat q ∨ s.queueLen q = 0) →
      ∃ t, exec (.qdirWrite v) s = .next t ∧ t.tp.qdir = v ∧ SameOutside s t ∧ t.tp.queues = s.tp.queues) ∧
    (256 ≤ v.toNat ∨ (∃ q, q < 8 ∧ s.eToA q ≠ bitAt v.toNat q ∧ s.queueLen q ≠ 0) →
      exec (.qdirWrite v) s = .next (s.takeFatal 1 0x47 0 0)) ∧
    (∀ a : Dword, InBank s a.toNat 8 →
      ∃ t, exec (.localWindowStore a v) s = .next t ∧ SameBanksBut s t a.toNat 8 ∧ t.bankValue a.toNat 8 = v.toNat ∧
        t.mem = s.mem ∧ t.tp.ac = s.tp.ac) ∧
    (∀ why, s.hasTask = true → s.tp.preempt = none →
      ∃ t, exec (.preemptionRequest why) s = .next t ∧ t.tp.preempt = some why ∧ SameOutside s t) ∧
    (∀ why, (s.hasTask = false ∨ s.tp.preempt ≠ none) → exec (.preemptionRequest why) s = .next s) ∧
    (s.hasTask = true → s.tp.preempt ≠ none → s.tp.role = none →
      (s.tp.ac.phase ≠ .replay → s.saveReady = false → exec .contextSaved s = .next s) ∧
      (s.tp.ac.phase = .replay → s.byReplay s.task.ctx = true → exec .contextSaved s = .next s.abortReplay) ∧
      (s.tp.ac.phase ≠ .replay → s.saveReady = true → ∃ t i, exec .contextSaved s = .next t ∧ t.tp.cur = 0 ∧
        t.tp.ac.status = .off ∧ t.tp.images = i :: s.tp.images ∧ i.ctx = s.task.ctx ∧ i.cur = s.tp.cur ∧
        i.ac.x = s.tp.ac.x ∧ i.ac.f = s.tp.ac.f ∧ i.ac.pc = s.tp.ac.pc ∧ i.ec = s.tp.ec ∧ i.be = s.tp.be ∧
        i.brr = s.tp.brr ∧ i.tokens = s.tp.tokens ∧
        (∀ a, s.tp.usable a 1 = true → Sparse.get i.banks a = Sparse.get s.tp.banks a) ∧
        t.out = s.out ++ [.saved s.cur s.task.ctx])) ∧
    (∀ i, s.imageNext = some i → s.tp.vacant = true → s.inService s.cur = true →
      ∃ t, exec .restore s = .next t ∧ t.tp.cur = i.cur ∧ t.tp.ac.x = i.ac.x ∧ t.tp.ac.f = i.ac.f ∧ t.tp.ac.pc = i.ac.pc ∧
        t.tp.ac.lc = s.tp.ac.lc + 4096 ∧ t.tp.ec = i.ec ∧ t.tp.be = { i.be with lastCtx := s.tp.be.lastCtx } ∧ t.tp.cache = [] ∧ t.tp.banks = i.banks ∧ t.tp.brr = i.brr ∧
        t.tp.tokens = i.tokens ∧ t.mem = s.mem)

/-! ## Translation, faults, ports (R230 to R251, R285 to R295) -/

/-- R230 to R241, R248, R249, R251, R252, R286: the walk of a pending handle of space 0 makes it valid with its page or faulted with the
walk's cause; a translation that the host sends fills the ATC and the handles that wait for it; an invalidation empties the ATC
and the TLB of its range at once and is answered when no read of its contexts is outstanding. A resolved fault is no longer
held; one that cannot be resolved, a denied page, a timeout or a bad completion stops its context with the cause of the rule:
the context holds its record, a later fault counts in its SECN until the supervisor gets it, memory stays. (A port's record names unit
0: the model's choice, note 57; requests of a PASID beyond 32 at a time are not taken, note 101.) -/
def Obligations.TranslationAndFaultEvents : Prop :=
  ∀ (s : State),
    (∀ (hn : BitVec 4) i, i ∈ [Instr.walkComplete hn, .walkRetry hn] → s.hasTask = true → (s.getHandle hn).st = .pending →
      (s.getHandle hn).space = 0 →
      (∀ p s1, walk s s.task.ctx (s.getHandle hn).va = (.page p, s1) →
        ∃ t, exec i s = .next t ∧ t.getHandle hn = { s.getHandle hn with st := .valid, page := p } ∧
          (∀ m, m ≠ hn → t.getHandle m = s.getHandle m) ∧ t.mem = s.mem ∧ t.tp.ac.x = s.tp.ac.x) ∧
      (∀ c s1, walk s s.task.ctx (s.getHandle hn).va = (.fault c, s1) →
        ∃ t, exec i s = .next t ∧ t.getHandle hn = { s.getHandle hn with st := .faulted c } ∧
          (∀ m, m ≠ hn → t.getHandle m = s.getHandle m) ∧ t.mem = s.mem) ∧
      (∀ s1, walk s s.task.ctx (s.getHandle hn).va = (.again, s1) → exec i s = .next s)) ∧
    (∀ (pasid : BitVec 20) (va : Dword) (size bus key : Nat) (r w : Bool) c, s.hostTalks = true →
      s.atsOut pasid.toNat va.toNat = some (key, c, 0) → (r || w) = true →
      let n := max size 4096
      let page : Page := { va := va.toNat / n * n, size := n, place := hostBase + bus, r := r, w := w }
      ∃ t, exec (.atsCompletion pasid va .success size bus r w) s = .next t ∧ t.atc.head? = some ⟨pasid.toNat, page, false⟩ ∧
        Map.find t.requests key = none ∧ t.mem = s.mem ∧ t.tp.ac.x = s.tp.ac.x ∧
        ∀ m h, Map.find s.tp.ac.handles m = some h → h.st = .pending → h.space = 1 → page.holds h.va = true →
          (∃ c, s.tp.acCtx = some c ∧ c ∈ s.ctxsOf pasid.toNat) →
          Map.find t.tp.ac.handles m = some { h with st := .valid, page := page }) ∧
    (∀ (pasid : BitVec 20) (va : Dword) st (size bus : Nat) (r w : Bool), s.hostTalks = false ∨ s.atsOut pasid.toNat va.toNat = none →
      exec (.atsCompletion pasid va st size bus r w) s = .next s) ∧
    (∀ (pasid : BitVec 20) (lo hi : Dword), s.hostTalks = false ∨ 32 ≤ s.invalidations.length →
      exec (.atsInvalidationRequest pasid lo hi) s = .next s) ∧
    (∀ (pasid : BitVec 20) (lo hi : Dword), s.hostTalks = true → s.invalidations.length < 32 →
      ∃ t, exec (.atsInvalidationRequest pasid lo hi) s = .next t ∧
      t.invalidations = s.invalidations ++ [(pasid.toNat, lo.toNat, hi.toNat)] ∧
      (∀ e ∈ t.atc, e.pasid = pasid.toNat → e.page.inRange lo.toNat hi.toNat = false) ∧
      (∀ e ∈ t.tp.tlb, e.ctx ∈ s.ctxsOf pasid.toNat → e.space = 1 → e.page.inRange lo.toNat hi.toNat = false) ∧
      t.mem = s.mem ∧ t.tp.ac.x = s.tp.ac.x) ∧
    (∀ p lo hi rest, s.invalidations = (p, lo, hi) :: rest →
      (s.hostTalks = true → (∀ e ∈ s.requests, ∀ c a x k, e.2 = .nonPosted .host c a x k → c ∉ s.ctxsOf p) →
        ∃ t, exec .invalidationCompletion s = .next t ∧ t.invalidations = rest ∧
          t.out = s.out ++ [.invalidationCompletion p]) ∧
      (∀ e ∈ s.requests, ∀ c a x k, e.2 = .nonPosted .host c a x k → c ∈ s.ctxsOf p → exec .invalidationCompletion s = .next s)) ∧
    (∀ (pasid : BitVec 20) (va : Dword) q, s.priOut pasid.toNat va.toNat = some q →
      let s1 := { s with requests := Map.del s.requests q.key }
      (∀ f, s.hostTalks = true → s.priFaults q va.toNat = [f] → f.pawn = none →
        ∃ u : State, exec (.priResponse pasid va .success) s = .next u.askWaiting ∧ u.faults = s.faults.erase f ∧
          Map.find u.requests q.key = none ∧ u.mem = s.mem ∧ u.askWaiting.mem = s.mem ∧ u.askWaiting.tp = u.tp) ∧
      (∀ f code, s.hostTalks = true → code ≠ .success → s.priFaults q va.toNat = [f] →
        exec (.priResponse pasid va code) s = .next (s1.fatal f.ctx (recause f.record 0x0A)).askWaiting) ∧
      (s.hostTalks = false → ∀ code, exec (.priResponse pasid va code) s = .next s) ∧
      exec (.priTimeout pasid va) s = .next (s1.fatal q.ctx (portRecord q.ctx 0x65 0 s.time)).askWaiting) ∧
    (∀ f r, s.faultAt f = some r → r.cause ≠ 0x09 →
      (resolvable r.cause = true → r.pawn = none → ∃ t, exec (.faultResolved f true) s = .next t ∧ t.faults = s.faults.erase r ∧
        t.mem = s.mem ∧ t.tp.ac.x = s.tp.ac.x) ∧
      (exec (.faultResolved f false) s = .next (s.fatal r.ctx r.record)) ∧
      (resolvable r.cause = false → exec (.faultResolved f true) s = .next (s.fatal r.ctx r.record))) ∧
    (∀ tag p c a x k, Map.find s.requests tag = some (.nonPosted p c a x k) →
      let s1 := { s with requests := Map.del s.requests tag }
      let secure : Bool := !(if p = .host then s.mod.host else s.mod.peer).insecure.contains k
      (secure = true → exec (.completion tag .success) s = .next s1 ∧
        (∀ st, st = .unsupported ∨ st = .abort → exec (.completion tag st) s = .next (s1.fatal c (portRecord c 0x68 1 s.time))) ∧
        exec (.completion tag .poisoned) s = .next (s1.fatal c (portRecord c 0x68 2 s.time))) ∧
      (secure = false → ∀ st, exec (.completion tag st) s = .next s) ∧
      exec (.completionTimeout tag) s =
        .next (s1.fatal c (portRecord c (if p = .host then 0x66 else 0x67) 0 s.time))) ∧
    (∀ tag p v c n, Map.find s.requests tag = some (.ats p v c n) → exec (.completionTimeout tag) s =
      .next ({ s with requests := Map.del s.requests tag }.fatal c (portRecord c 0x66 0 s.time))) ∧
    (∀ c x r, s.ctx? c = some x →
      (x.stopped = false → ∃ y, (s.fatal c r).ctx? c = some y ∧ y.stopped = true ∧
        y.fatal = some r ∧ y.owed = true ∧ (s.fatal c r).mem = s.mem ∧ (∀ d, d ≠ c → (s.fatal c r).ctx? d = s.ctx? d)) ∧
      (∀ q, x.stopped = true → x.owed = true → x.fatal = some q → ∃ p, (s.fatal c r).ctx? c = some { x with fatal := some p } ∧
        SameButSecn p q ∧ bits (p.getD 0 0).toNat 40 8 = min 255 (bits (q.getD 0 0).toNat 40 8 + (if q = [] then 0 else 1))) ∧
      (∀ q, x.owed = true → x.fatal = some q → .record q ∈ (s.reportStop c).out ∧ (s.reportStop c).mem = s.mem ∧
        (s.reportStop c).ctx? c = some { x with owed := false } ∧
        ∃ l, s.out ++ [.record q] ++ l = (s.reportStop c).out ∧
          ((s.getTenant x.tenant).masked (s.getTenant x.tenant).faultVec = false → s.mod.host.insecure = [] → l ≠ [])))

/-- R199, R217, R269, R285 to R296: an inbound write of a window in device memory writes its bytes there and no others; an
inbound read gives them and changes nothing; an AtomicOp gives the old value and writes the new one; a request outside its
window is unsupported, and one that its port does not take, in power state 1 or 2, over an insecure link, or at die 1 out of full
service, changes nothing. A configuration request is answered, by data or by retry status; it reads and writes Function Mask and
MSI-X Enable. An integrity failure makes its stream insecure and stops the contexts with a request on it; the SPDM responder
answers; a function-level reset stops the contexts of its tenant and no others; a vector whose mask bit is cleared sends what was
pending, unless the function masks it; a link below 32 GT/s is degraded. (That the peer port stands on die 1, which requests an
insecure stream holds back, the layout of configuration space, and that an integrity failure stops contexts for posted writes too
are the model's choices, notes 87, 59, 100 and 89.) -/
def Obligations.PortEvents : Prop :=
  ∀ (s : State),
    (∀ (k : BitVec 4) (off : Nat) (data : List Byte), let base := (s.getTenant k.toNat).base
      let size := (s.getTenant k.toNat).limit - base
      s.takes .host = true → off + data.length ≤ size → s.offDie (base + off) data.length = false →
      (s.Untracked (base + off) data.length →
        ∃ t, exec (.inboundWrite (.bar2 k) off data) s = .next t ∧ SameMemoryBut s t (base + off) data.length ∧
          t.tp.ac = s.tp.ac ∧ t.tp.banks = s.tp.banks ∧
          ∀ i, i < data.length → Sparse.get t.mem (base + off + i) = (data[i]?).getD 0) ∧
      (s.unreadable (base + off) data.length = false →
        exec (.inboundRead (.bar2 k) off data.length) s = .next (s.emit (.completion (Sparse.run s.mem (base + off) data.length))))) ∧
    (∀ (k : BitVec 4) (off n : Nat) (data : List Byte), s.takes .host = true →
      (s.getTenant k.toNat).limit - (s.getTenant k.toNat).base < off + n → n = data.length →
      exec (.inboundWrite (.bar2 k) off data) s = .next (s.emit .unsupported) ∧
      exec (.inboundRead (.bar2 k) off n) s = .next (s.emit .unsupported)) ∧
    (∀ p, s.awake = false ∨ (p = .host ∧ 0 ∈ s.mod.host.insecure) ∨ (p = .peer ∧ s.mod.pst ≠ 4) → s.takes p = false) ∧
    (∀ w off data n op v cmp, s.takes (portOf w) = false → exec (.inboundWrite w off data) s = .next s ∧
      exec (.inboundRead w off n) s = .next s ∧ exec (.inboundAtomicop w off op n v cmp) s = .next s) ∧
    (s.takes .host = true → exec (.inboundRead .physBar0 0 8) s = .next (s.emit (.completion (leBytes 8 s.dstat)))) ∧
    (∀ (k : BitVec 4) (off n v cmp : Nat) op p, s.takes .host = true → atomicSize op n = true → off % n = 0 →
      s.windowPlace (.bar2 k) off n = some p → s.unreadable p n = false → s.Untracked p n →
      ∃ t, exec (.inboundAtomicop (.bar2 k) off op n v cmp) s = .next t ∧ SameMemoryBut s t p n ∧
        t.out = s.out ++ [.completion (leBytes n (Memory.read s.mem p n))] ∧
        Memory.read t.mem p n = (match op with
          | .fetchAdd => (Memory.read s.mem p n + v) % 256 ^ n
          | .swap => v % 256 ^ n
          | .cas => if Memory.read s.mem p n = cmp % 256 ^ n then v % 256 ^ n else Memory.read s.mem p n)) ∧
    (∀ fn reg data, 0 ∈ s.mod.host.insecure → exec (.configurationRequest fn ⟨reg, data⟩) s = .next s) ∧
    (∀ fn reg, 0 ∉ s.mod.host.insecure →
      (s.awake = true →
        exec (.configurationRequest fn ⟨reg, none⟩) s = .next (s.emit (.config (s.configRead fn reg)))) ∧
      (s.mod.pst = 2 → s.mod.perst = false → ∃ t a, exec (.configurationRequest fn ⟨reg, none⟩) s = .next t ∧ t.out = s.out ++ [a] ∧
        (a = .retryStatus ∨ a = .config (s.configRead fn reg)) ∧ t.mem = s.mem ∧ t.tp = s.tp) ∧
      (reg ≠ Config.msixCap ∨ fn = 0 ∨ 16 < fn →
        ∀ v, s.awake = true → exec (.configurationRequest fn ⟨reg, some v⟩) s = .next s) ∧
      (1 ≤ fn → fn ≤ 16 → reg = Config.msixCap →
        bitAt (s.configRead fn reg).toNat 31 = (s.getTenant (fn - 1)).msixOn ∧
        bitAt (s.configRead fn reg).toNat 30 = (s.getTenant (fn - 1)).msixMask ∧
        ∀ v, s.awake = true → ∃ t, exec (.configurationRequest fn ⟨reg, some v⟩) s = .next t ∧
          (t.getTenant (fn - 1)).msixOn = bitAt v.toNat 31 ∧ (t.getTenant (fn - 1)).msixMask = bitAt v.toNat 30 ∧
          t.mem = s.mem ∧ t.tp = s.tp) ∧
      ((fn, reg) = Config.barAt 2 → bits (s.configRead fn reg).toNat 0 4 = 12) ∧
      ((fn, reg) = Config.barAt 0 → Config.barAt 0 ≠ Config.barAt 2 → bits (s.configRead fn reg).toNat 0 4 = 4) ∧
      (∀ c next, (fn, reg) ≠ Config.barAt 0 → (fn, reg) ≠ Config.barAt 2 → reg ≠ Config.msixCap →
        (headerIn reg (capList fn true) = some (c, next) →
          bits (s.configRead fn reg).toNat 0 16 = capId c ∧ bits (s.configRead fn reg).toNat 20 12 = 4 * next % 4096) ∧
        (headerIn reg (capList fn true) = none → headerIn reg (capList fn false) = some (c, next) →
          bits (s.configRead fn reg).toNat 0 8 = capId c ∧ bits (s.configRead fn reg).toNat 8 8 = 4 * next % 256))) ∧
    (∀ port stream,
      (s.ctxsOn port stream = [] → ∃ t, exec (.ideIntegrityFailure ⟨port, stream⟩) s = .next t ∧ t.mem = s.mem ∧ t.tp = s.tp ∧
        (port = .host → stream ∈ t.mod.host.insecure ∧ t.mod.peer = s.mod.peer) ∧
        (port = .peer → stream ∈ t.mod.peer.insecure ∧ t.mod.host = s.mod.host)) ∧
      (∀ c x, c ∈ s.ctxsOn port stream → s.ctx? c = some x → ∃ t, exec (.ideIntegrityFailure ⟨port, stream⟩) s = .next t ∧
        (t.getCtx c).stopped = true)) ∧
    (∀ data, s.mod.pst ≠ 1 → ∃ a, exec (.spdmRequest data) s = .next (s.emit (.spdm a))) ∧
    (∀ fn : BitVec 5, fn ≠ 0 → fn.toNat ≤ 16 → (s.ctxs.map (fun e => e.1)).Nodup →
      ∃ t, exec (.functionLevelReset fn) s = .next t ∧ t.mem = s.mem ∧ ∀ c x, s.ctx? c = some x →
        (x.tenant = fn.toNat - 1 → (t.getCtx c).stopped = true) ∧ (x.tenant ≠ fn.toNat - 1 → t.ctx? c = some x)) ∧
    (∀ (k : BitVec 4) (v : BitVec 6), s.takes .host = false → exec (.msixUnmask k v) s = .next s) ∧
    (∀ (k : BitVec 4) (v : BitVec 6), s.takes .host = true → ∃ t, exec (.msixUnmask k v) s = .next t ∧ t.mem = s.mem ∧ t.tp = s.tp ∧
      bitAt (Memory.read (t.getTenant k.toNat).msix (16 * v.toNat + 12) 4) 0 = false ∧
      (let goes : Bool := bitAt (s.getTenant k.toNat).pba.toNat v.toNat && (s.getTenant k.toNat).msixOn &&
          !(s.getTenant k.toNat).msixMask && !s.mod.host.insecure.contains 0
       (goes = false → t.out = s.out ∧ (t.getTenant k.toNat).pba = (s.getTenant k.toNat).pba) ∧
       (goes = true → bitAt (t.getTenant k.toNat).pba.toNat v.toNat = false ∧
         ∃ a d, t.out = s.out ++ [.msix k.toNat v.toNat a d]))) ∧
    (∀ port link gts width, s.mod.pst ≠ 1 → ∃ t, exec (.linkTraining port ⟨link, gts, width⟩) s = .next t ∧
      (port = .host → link = 0 → t.mod.host.gts = gts ∧ t.mod.host.width = min width 16) ∧
      (port = .peer → link = 0 → t.mod.peer.gts = gts ∧ t.mod.peer.width = min width (if Config.peerSplit then 8 else 16)) ∧
      t.mod.ldeg = (if [t.mod.host.gts, t.mod.host.gts1, t.mod.peer.gts, t.mod.peer.gts1].any (fun g => g != 0 && g < 32) then 1
        else 0) ∧ t.mem = s.mem ∧ t.tp = s.tp)

/-! ## The module (R208, R266, R271 to R284, R291, R296 to R299) -/

/-- R246, R296, R297, R299: power good leads to reset; PERST# brings every other state than off to reset, with no context, queue,
launch or task left and host memory as it was; power loss to off. A passed boot test, once the host link has trained, brings reduced
service on at most 16 TPs of die 0; a self-test with a TP on each die, the stacks trained and the bridge working brings full service
on the TPs that passed, otherwise recovery on the first 16 TPs of die 0 that passed the boot test and this one; a TP that is left out has
no pile. A recovery
entry stops every context; the one that consumed an error of the bridge with cause 0x63, whose record counts the entry's own cause in SECN. (What a second reset leaves
in device memory and the registers without a reset value are the model's choices, notes 1 and 2; a port's record names unit 0, note
57.) -/
def Obligations.PowerEvents : Prop :=
  ∀ (s : State),
    (s.mod.pst = 1 → s.mod.perst = true → ∃ t, exec .powerGood s = .next t ∧ t.mod.pst = 2 ∧ t.tp = s.tp ∧ t.mem = s.mem) ∧
    (s.mod.pst ≠ 1 → ∃ t, exec .perstAssert s = .next t ∧ t.mod.pst = 2 ∧ t.mod.perst = true ∧ t.ctxs = [] ∧ t.tp = {} ∧
      t.others = [] ∧ t.queues = [] ∧ t.launches = [] ∧ t.mod.tps = [] ∧
      ∀ a, hbmTop ≤ a → Sparse.get t.mem a = Sparse.get s.mem a) ∧
    (∃ t, exec .powerLoss s = .next t ∧ t.mod.pst = 1 ∧ t.ctxs = [] ∧ t.tp = {} ∧ t.others = [] ∧ t.mod.tps = []) ∧
    (∃ t, exec .perstDeassert s = .next t ∧ t.mod = { s.mod with perst := false } ∧ t.tp = s.tp ∧ t.mem = s.mem) ∧
    (∀ passed vdes cmes, s.mod.pst = 2 → s.mod.perst = false → s.mod.host.gts ≠ 0 → (∃ i, i < 64 ∧ i ∈ passed) →
      ∃ t, exec (.bootTestComplete passed vdes cmes) s = .next t ∧ t.mod.pst = 3 ∧
        t.mod.tps = ((List.range 64).filter passed.contains).take 16 ∧ t.mod.ntp0.toNat = t.mod.tps.length ∧ t.mod.ntp1 = 0 ∧
        t.mod.arith = 3 ∧ t.mod.fabric = 2 ∧ t.mem = s.mem ∧ t.tp = s.tp) ∧
    (∀ passed vdes cmes, s.mod.pst ≠ 2 ∨ s.mod.host.gts = 0 → exec (.bootTestComplete passed vdes cmes) s = .next s) ∧
    (∀ trained bridge d0 d1 vdes cmes, let t0 := (List.range 64).filter d0.contains; let t1 := (List.range 64).filter d1.contains
      let i := Instr.selfTestComplete trained bridge d0 d1 vdes cmes
      s.mod.pst = 3 ∨ s.mod.pst = 5 → ∃ t, exec i s = .next t ∧ t.mem = s.mem ∧
        (∀ n cls, n ∉ t.mod.tps → ((t.getTp n).pile cls).ctx = none ∧ ((t.getTp n).pile cls).chip = []) ∧
        (trained = true → bridge = true → t0 ≠ [] → t1 ≠ [] → t.mod.pst = 4 ∧ t.mod.hbmok = 1 ∧
          t.mod.tps = t0 ++ t1.map (· + 64) ∧ t.mod.ntp0.toNat = t0.length ∧ t.mod.ntp1.toNat = t1.length) ∧
        (trained = false ∨ bridge = false ∨ t0 = [] ∨ t1 = [] → t.mod.pst = 5 ∧
          t.mod.hbmok = (if trained then 1 else 0) ∧ t.mod.tps = (s.mod.bootTps.filter t0.contains).take 16 ∧
          (s.mod.pst = 3 → ∀ c x, s.ctx? c = some x → (t.getCtx c).stopped = true))) ∧
    (∀ why, s.mod.pst = 4 → ∃ t, exec (.recoveryEntry why) s = .next t ∧ t.mod.pst = 5 ∧ t.mem = s.mem ∧
      (why = .stack → t.mod.hbmok = 0) ∧ (∀ n ∈ t.mod.tps, n < 64) ∧ t.mod.tps.length ≤ 16 ∧
      (∀ c x, s.ctx? c = some x → (t.getCtx c).stopped = true) ∧
      (∀ c x, why = .bridge c → s.ctx? c.toNat = some x → x.stopped = false →
        ∃ p, (t.getCtx c.toNat).fatal = some p ∧ SameButSecn p (portRecord c.toNat 0x63 0 s.time))) ∧
    (∀ why, s.mod.pst ≠ 4 → exec (.recoveryEntry why) s = .next s)

/-- R208, R271, R276, R277, R279 to R284: a step of the banker charges its filler, on idle BEs, and gives each rail its grant, on the
butterfly rail within 2.5 A of the step before; work that a rail owes from earlier steps draws on the grant first (note 12), and a
rail that the banker does not name has its share (note 102); a clock takes a point at or below the supervisor's highest, in full service and at
most once in 100 µs; the difference between metered energy and charges goes to the context that ran on the TP, of two to both in parts that no rule gives
(note 103); at a boundary of its
period a context with a quota is refilled and a debt counted, and a new setting takes effect; at a boundary of its window a tenant's
start count is 0; every 20 µs the logical clocks of the TPs and the service cores move by 4,096; a stack's row goes up at once. (When a setting of
energy takes effect and how a late boundary counts are the model's choices, note 42.) -/
def Obligations.EnergyAndTimeEvents : Prop :=
  ∀ (s : State),
    (∀ b v m f (n : BitVec 7), let fill := fillerOn s.mod.stepCycles s.mod.filler (s.idleBes n.toNat)
      let drawn := fill.foldl (fun k e => k + 108 * e.2) s.mod.work
      let g := railLimits (drawn + s.mod.slew) [b, v, m, f]; let owed := fun r => (Map.find s.mod.owed r).getD 0
      (∀ r, r < 4 → g.getD r 0 ≤ ([b, v, m, f].getD r none).getD (railShares.getD r 0)) ∧ g.getD 0 0 ≤ drawn + s.mod.slew ∧
      g.foldl (· + ·) 0 ≤ moduleStep ∧
      (∀ e ∈ fill, e.2 ≤ s.mod.stepCycles ∧ e.1 ∈ s.mod.tps ∧ (s.getTp e.1).be.chain = none) ∧
      (s.mod.filler ≤ s.mod.stepCycles * (s.idleBes n.toNat).length → s.mod.drawn ≤ drawn + s.mod.slew) ∧
      ∃ t, exec (.bankerGrant b v m f n) s = .next t ∧ t.mod.drawn = drawn ∧ t.mod.work = min (owed 0) (g.getD 0 0) ∧ t.mem = s.mem ∧
        (∀ r, r < 4 → Map.find t.mod.grants r = some (g.getD r 0 - min (owed r) (g.getD r 0)) ∧
          Map.find t.mod.owed r = some (owed r - min (owed r) (g.getD r 0))) ∧
        (fill = [] → t.tp = s.tp ∧ t.ctxs = s.ctxs) ∧
        ∀ e c x, fill = [e] → (s.getTp e.1).be.lastCtx = some c → s.ctx? c = some x → x.stopped = false → ∃ y, t.ctx? c = some y ∧
          y.fill = x.fill + 108 * e.2 ∧ y.bal = x.bal - (108 * e.2 : Nat) ∧ y.nper = x.nper) ∧
    (∀ p : BitVec 2, s.mod.pst = 4 →
      (s.mod.maxArith ≤ p.toNat → mayChange s.mod.arithAt s.time = true →
        ∃ t, exec (.operatingPointChange 0 p) s = .next t ∧ t.mod.arith = p.toNat ∧ t.mod.arithAt = some s.time ∧
          t.mod.fabric = s.mod.fabric ∧ t.tp = s.tp) ∧
      (s.mod.maxFabric ≤ p.toNat → p ≠ 3 → mayChange s.mod.fabricAt s.time = true →
        ∃ t, exec (.operatingPointChange 1 p) s = .next t ∧ t.mod.fabric = p.toNat ∧ t.mod.fabricAt = some s.time ∧
          t.mod.arith = s.mod.arith ∧ t.tp = s.tp)) ∧
    (∀ (c : BitVec 1) (p : BitVec 2), s.mod.pst ≠ 4 ∨ (c = 0 ∧ p.toNat < s.mod.maxArith) ∨
      (c = 1 ∧ (p.toNat < s.mod.maxFabric ∨ p = 3)) ∨ mayChange (if c = 0 then s.mod.arithAt else s.mod.fabricAt) s.time = false →
      exec (.operatingPointChange c p) s = .next s) ∧
    (∀ (n : BitVec 7) (b v m f : Nat), let t := s.getTp n.toNat
      let delta : Int := ((b + v + m + f : Nat) : Int) - (t.spent.foldl (fun k e => k + e.2) 0 : Nat)
      (boundaryPassed 10000 t.meterAt s.time = false → exec (.energyCorrection n ⟨b, v, m, f⟩) s = .next s) ∧
      (boundaryPassed 10000 t.meterAt s.time = true →
        ∃ u, exec (.energyCorrection n ⟨b, v, m, f⟩) s = .next u ∧ (u.getTp n.toNat).spent = [] ∧ u.mem = s.mem ∧
          (t.ran = [] → u.ctxs = s.ctxs) ∧
          (∀ c x, t.ran = [c] → s.ctx? c = some x → x.stopped = false → ∃ y, u.ctx? c = some y ∧ y.bal = x.bal - delta ∧
            y.used = BitVec.ofNat 64 (wrapTo ((x.used.toNat : Int) + delta) 64) ∧ y.fill = x.fill) ∧
          (∀ c d x z, t.ran = [c, d] → c ≠ d → s.ctx? c = some x → x.stopped = false → s.ctx? d = some z → z.stopped = false →
            ∃ y w part, u.ctx? c = some y ∧ u.ctx? d = some w ∧ y.bal = x.bal - part ∧ w.bal = z.bal - (delta - part) ∧
              part.natAbs ≤ delta.natAbs))) ∧
    (∀ (c : BitVec 8) x, s.ctx? c.toNat = some x → x.e0Next = none → x.quota ≠ 0 → nextBoundary x.period x.lastEnd ≤ s.time →
      ∃ t y, exec (.quotaPeriodEnd c) s = .next t ∧ t.ctx? c.toNat = some y ∧
        y.bal = (x.quota * 65536 : Nat) + min x.bal 0 ∧ y.nper = (if x.bal < 0 then x.nper + 1 else x.nper) ∧
        y.used = x.used ∧ y.lastEnd = nextBoundary x.period x.lastEnd ∧ t.mem = s.mem ∧ (0 < y.bal → t.tp = s.tp)) ∧
    (∀ (c : BitVec 8) x v w, s.ctx? c.toNat = some x → x.e0Next = some (v, w) → x.quota = 0 →
      nextBoundary (bits v.toNat 0 20 * 1000) w ≤ s.time →
      ∃ t y, exec (.quotaPeriodEnd c) s = .next t ∧ t.ctx? c.toNat = some y ∧ y.e0 = v ∧ y.e0Next = none ∧
        y.bal = (if y.quota = 0 then x.bal else (y.quota * 65536 : Nat) + min x.bal 0) ∧ t.mem = s.mem) ∧
    (∀ (k : BitVec 4) x, Map.find s.tenants k.toNat = some x → boundaryPassed x.window x.lastEnd s.time = true →
      ∃ t y, exec (.capWindowEnd k) s = .next t ∧ Map.find t.tenants k.toNat = some y ∧ y.usedb = 0 ∧ y.passed = [] ∧
        y.v0 = x.v0 ∧ t.mem = s.mem ∧ t.tp = s.tp) ∧
    (boundaryPassed 20000 s.lcAt s.time = true → ∃ t, exec .logicalClockAdvance s = .next t ∧
      t.tp.ac.lc = s.tp.ac.lc + 4096 ∧ t.mem = s.mem ∧ t.tp.ac.x = s.tp.ac.x ∧
      (∀ n x, Map.find s.others n = some x → ∃ y, Map.find t.others n = some y ∧ y.ac.lc = x.ac.lc + 4096) ∧
      ∀ n, n < 16 → (t.core n).lc = (s.core n).lc + 4096 ∧ (t.core n).cache = (s.core n).cache) ∧
    (boundaryPassed 20000 s.lcAt s.time = false → exec .logicalClockAdvance s = .next s) ∧
    (∀ (k : BitVec 3) (c : Nat), let old := (Map.find s.mod.hbmStacks k.toNat).getD {}
      old.row < rowOf (some c) → ∃ t y, exec (.hbmTemperatureReading k (some c)) s = .next t ∧
        Map.find t.mod.hbmStacks k.toNat = some y ∧ y.row = rowOf (some c) ∧ y.reading = some (c : Int) ∧ t.mem = s.mem ∧ t.tp = s.tp ∧
        (rowOf (some c) ≠ 3 → t.out = s.out) ∧ (rowOf (some c) = 3 → .thermal k.toNat ∈ t.out)) ∧
    (rowOf (some 84) = 0 ∧ rowOf (some 85) = 1 ∧ rowOf (some 94) = 1 ∧ rowOf (some 95) = 2 ∧ rowOf (some 104) = 2 ∧
      rowOf (some 105) = 3 ∧ rowOf none = 3)

/-- R124, R200, R207, R224, R227, R229, R247, R253, R254, R266, R267, R273, R405: a service core's store of one unit writes its bytes at their
home and no others, one of several units makes each of them pending; its load gives the bytes of a line from home or from its leased
copy, unit by unit, and changes nothing else; requests of the supervisor
change what they name, and are refused before reduced service; a soft error poisons the word it hits, or is corrected and counted;
delayed writes of special functions are made from their cycle on. -/
def Obligations.SupervisorAndSoftErrors : Prop :=
  ∀ (s : State),
    (∀ (n : BitVec 4) store leaf tc place data, s.coreWorks n.toNat = false →
      exec (.serviceCoreLoadOrStore ⟨n, store, leaf⟩ tc place data) s = .next s) ∧
    (∀ (n : BitVec 4) leaf place data, s.coreWorks n.toNat = true → s.offDie place data.length = false →
      s.Untracked place data.length →
      (∀ w ∈ s.weak, w.agent ≠ coreCode n.toNat ∧
        (w.seen (64 * (n.toNat / 8)) (coreCode n.toNat) = true → w.overlaps place data.length = false)) →
      ∃ t, exec (.serviceCoreLoadOrStore ⟨n, true, leaf⟩ false place data) s = .next t ∧ t.tp.ac = s.tp.ac ∧
        t.tp.banks = s.tp.banks ∧
        ((unitsOf place data).length ≤ 1 → SameMemoryBut s t place data.length ∧ t.weak = s.weak ∧
          ∀ i, i < data.length → Sparse.get t.mem (place + i) = (data[i]?).getD 0) ∧
        (1 < (unitsOf place data).length → t.mem = s.mem ∧ ∃ l, t.weak = s.weak ++ l ∧
          l.map (fun w => (w.place, w.bytes)) = unitsOf place data ∧ ∀ w ∈ l, w.agent = coreCode n.toNat ∧ w.path = 0)) ∧
    (∀ (n : BitVec 4) leaf place data, let c := s.core n.toNat
      let fresh := Sparse.run (s.view (64 * (n.toNat / 8)) (coreCode n.toNat)) place data.length
      s.coreWorks n.toNat = true → s.unreadable place data.length = false → 0 < data.length →
      (∀ w ∈ s.weak, w.agent ≠ coreCode n.toNat) → lineOf (place + data.length - 1) = lineOf place →
      ∃ (t : State) (bs : List Byte), exec (.serviceCoreLoadOrStore ⟨n, false, leaf⟩ false place data) s =
          .next (t.emit (.completion bs)) ∧ t.mem = s.mem ∧ t.tp = s.tp ∧ t.weak = s.weak ∧
        (bs = fresh ∨ ∃ x ∈ c.cache, x.line = lineOf place ∧ c.lc < x.rts ∧
          ((place / 8 = (place + data.length - 1) / 8 → bs = Sparse.run x.bytes place data.length) ∧
            ∀ i, i < data.length → bs[i]? = fresh[i]? ∨ bs[i]? = (Sparse.run x.bytes place data.length)[i]?))) ∧
    (∀ r, s.awake = false → exec (.supervisorInterfaceRequest r) s = .next (s.emit .refusedRequest)) ∧
    (∀ (c : BitVec 8) (k : BitVec 4) root pasid svc, s.awake = true →
      (s.ctx? c.toNat = none → ∃ t, exec (.supervisorInterfaceRequest (.createContext c k root pasid svc)) s = .next t ∧
        t.ctx? c.toNat = some { tenant := k.toNat, root := root.toNat, pasid := pasid.toNat, svc := svc } ∧
        (∀ d, d ≠ c.toNat → t.ctx? d = s.ctx? d) ∧ t.mem = s.mem ∧ t.tp = s.tp) ∧
      (s.ctx? c.toNat ≠ none → exec (.supervisorInterfaceRequest (.createContext c k root pasid svc)) s =
        .next (s.emit .refusedRequest))) ∧
    (∀ (c : BitVec 8) x, s.awake = true → s.ctx? c.toNat = some x →
      (∀ svc, ∃ t, exec (.supervisorInterfaceRequest (.setServiceEntry c svc)) s = .next t ∧
        t.ctx? c.toNat = some { x with svc := svc }) ∧
      (∀ e, goodE0 e = false → exec (.supervisorInterfaceRequest (.setEnergy c e)) s = .next (s.emit .refusedRequest)) ∧
      (∀ e, goodE0 e = true → ∃ t, exec (.supervisorInterfaceRequest (.setEnergy c e)) s = .next t ∧
        ∃ k, t.ctx? c.toNat = some { (x.upToDate s.time).writeE0 e s.time with counters := k }) ∧
      ((x.owed = true → x.fatal ≠ none) → ∃ t, exec (.supervisorInterfaceRequest (.restartContext c)) s = .next t ∧
        t.ctx? c.toNat = some { x with stopped := false, fatal := none, owed := false } ∧
        (∀ r, x.owed = true → x.fatal = some r → .record r ∈ t.out)) ∧
      (∀ k : BitVec 8, exec (.supervisorInterfaceRequest (.readCounter c k)) s =
        .next (s.emit (.value [(Sparse.get x.counters k.toNat).setWidth 64]))) ∧
      (∀ k : BitVec 8, ∃ t y, exec (.supervisorInterfaceRequest (.clearCounter c k)) s = .next t ∧ t.ctx? c.toNat = some y ∧
        Sparse.get y.counters k.toNat = 0) ∧
      (∃ t : State, exec (.supervisorInterfaceRequest (.readEnergy c)) s = .next (t.emit (.value (x.upToDate s.time).block)) ∧
        t.mem = s.mem ∧ (∃ k, t.ctx? c.toNat = some { x.upToDate s.time with counters := k }) ∧
        ((x.upToDate s.time).quota = 0 ∨ 0 < (x.upToDate s.time).bal →
          t.ctx? c.toNat = some (x.upToDate s.time) ∧ t.tp = s.tp))) ∧
    (∃ t, exec (.softError .single) s = .next t ∧ t.mod.corrected = s.mod.corrected + 1 ∧ t.tp = s.tp ∧ t.mem = s.mem) ∧
    (∀ p, inHbm p = true → ∃ t, exec (.softError (.hbm p)) s = .next t ∧ t.unreadable p 1 = true ∧ t.mem = s.mem ∧ t.tp = s.tp) ∧
    (∀ a, a < 0x200000 → ∃ t, exec (.softError (.bank a)) s = .next t ∧ t.tp.bankPoisoned a 1 = true ∧
      t.bankBytes a 1 = .error (.fatal 0x61 0 0) ∧ t.tp.banks = s.tp.banks ∧ t.mem = s.mem) ∧
    (∀ (q : BitVec 3) n, n < s.queueLen q.toNat → n < 16 → ∃ t, exec (.softError (.queue q n)) s = .next t ∧
      t.queueOk q.toNat (n + 1) = .error (.fatal 0x61 0 0) ∧ t.tp.queues = s.tp.queues ∧ t.mem = s.mem) ∧
    (∃ t, exec (.softError .control) s = .next t ∧ t.tp.parity = true ∧ t.tp.ac = s.tp.ac) ∧
    (s.tp.ec.pushes = [] → ∃ t, exec .specialFunctionWrite s = .next t ∧
      t.tp.ec.spec = s.tp.ec.spec.filter (fun w => s.tp.ec.clock < w.due) ∧ t.tp.ec.e = s.tp.ec.e ∧ t.mem = s.mem ∧
      (∀ w, s.tp.ec.spec = [w] → w.due ≤ s.tp.ec.clock → ∀ c, c < 1024 →
        Sparse.get ((Map.find t.tp.ec.w w.reg).getD []) c =
          if w.on.getLsbD c then Sparse.get w.tile c else Sparse.get ((Map.find s.tp.ec.w w.reg).getD []) c))

/-! ## The whole machine -/

/-- R49, R64, R69, R71, R116, R120, R129, R245, R291, R243: after reset every TP's registers in the window read the values
that the manual gives, DSTAT reads 2, device time is 0, and memory has its canonical form. (Command sets, BAL and the registers
for which the manual gives no reset value are the model's choice, notes 1 to 4; nothing is said of them here.) -/
def Obligations.ResetState : Prop :=
  State.reset.MemoryOk ∧ State.reset.time = 0 ∧ State.reset.dstat = 2 ∧
  ∀ n, n < 128 →
    (State.reset.focus n).readControl 0x1000000 = 0xAAAAAAAA55550000 ∧
    (State.reset.focus n).readControl 0x1000008 = 0x88 ∧
    (State.reset.focus n).readControl 0x1001410 = 0xFFFFFFFFFF ∧
    (∀ a ∈ [0x1000010, 0x1000018, 0x1001400, 0x1001408, 0x1001500, 0x1001508, 0x1001510, 0x1001518, 0x1001520, 0x1001528,
        0x1001530, 0x1001538, 0x1001540], (State.reset.focus n).readControl a = 0) ∧
    (∀ b ∈ [0x1001000, 0x1001100, 0x1001200], ∀ o ∈ [0x28, 0x30, 0x38, 0x40, 0x48, 0x50],
      (State.reset.focus n).readControl (b + o) = 0)

/-- R108, R117 to R121, R300: a step runs the word that it decodes. On a TP in service whose unit may issue, the bytes at the
unit's pc that decode to an instruction make the step that instruction's meaning, on the state after the fetch; then the turn
passes on. Bytes that decode to none are cause 0x20 on the A stream, 0x21 on the E and B streams. Before its next word the A stream
performs every unit of its last store. A chain engine that takes up its active command, or evaluates the entry that it has read at
ENT, runs what that entry decodes to; it reads ENT in the banks as they are, or as they stood when the window of the read closed; the
outside and the device run their event, and the device sends the record of a context that has stopped. -/
def Obligations.StepRunsDecoded : Prop :=
  ∀ (s f : State), f = s.focus (s.turn.tp % 128) →
    (∀ b2 s1, s.turn.agent = .ac → f.powered = true → f.hasTask = true → f.tp.parity = false → f.tp.holding = false →
      f.isStalled 1 = false → f.tp.ac.status = .running → (f.tp.ac.sup = true ∨ f.tp.ac.atBoundary = false ∨
        f.oldestTrap = none ∧ f.tp.ac.svcReq = false) → f.ownUnits = [] → f.fetch f.task f.tp.ac.pc.toNat 2 = .ok (b2, s1) →
      (∀ i r, leValue b2 % 4 ≠ 3 → Decode.decode .a b2 = .ok (i, r) → step s = ticked (exec i s1)) ∧
      (∀ b3 s2 i r, leValue b2 % 4 = 3 → s1.fetch s1.task (f.tp.ac.pc.toNat + 2) 2 = .ok (b3, s2) →
        Decode.decode .a (b2 ++ b3) = .ok (i, r) → step s = ticked (exec i s2)) ∧
      (∀ e, leValue b2 % 4 ≠ 3 → Decode.decode .a b2 = .error e → step s = .next (s1.takeFatal 1 0x20 0 0).tick) ∧
      (∀ b3 s2 e, leValue b2 % 4 = 3 → s1.fetch s1.task (f.tp.ac.pc.toNat + 2) 2 = .ok (b3, s2) →
        Decode.decode .a (b2 ++ b3) = .error e → step s = .next (s2.takeFatal 1 0x20 0 0).tick)) ∧
    (s.turn.agent = .ac → f.powered = true → f.tp.parity = false → f.ownUnits ≠ [] → step s = .next f.storeUnit.tick) ∧
    (∀ g bs s1 i r, g = f.settleE → s.turn.agent = .ec → f.powered = true → g.isStalled 2 = false →
      g.tp.holding = false → g.lateTask 2 g.tp.ec.idle = none →
      g.tp.ec.status = .running → g.tp.atWatermark 2 g.tp.ec.since = false → blocked g.tp.ec.clock g.tp.ec.pushes = false →
      g.tp.ec.pc.toNat % 8 = 0 → g.tp.ec.a1 = false → g.fetch (g.tp.taskOf g.tp.ec.task) g.tp.ec.pc.toNat 8 = .ok (bs, s1) →
      (Decode.decode .e bs = .ok (i, r) → step s = ticked (exec i s1)) ∧
      (∀ e, Decode.decode .e bs = .error e → step s = .next (s1.takeFatal 2 0x21 0 0).tick)) ∧
    (∀ g bs s1 i r, g = f.settleB → s.turn.agent = .be → f.powered = true → g.isStalled 3 = false →
      (g.tp.be.chain ≠ none ∨ g.tp.holding = false ∧ g.tp.atWatermark 3 g.tp.be.since = false) →
      g.lateTask 3 g.tp.be.idle = none → g.tp.be.status = .running → blocked 0 g.tp.be.pushes = false →
      g.fetch (g.tp.taskOf g.tp.be.task) g.tp.be.pc.toNat 12 = .ok (bs, s1) → s1.tp.be.skip = 0 →
      (Decode.decode .b bs = .ok (i, r) → step s = ticked (exec i s1)) ∧
      (∀ e, Decode.decode .b bs = .error e → step s = .next (s1.takeFatal 3 0x21 0 0).tick)) ∧
    (∀ (u : ChainUnit) (i : Instr) (h : State), h = f.settleHe → s.turn.agent = u.agent → f.powered = true →
      ((h.chainPlans u)[s.turn.pick % max 1 (h.chainPlans u).length]? = some (h.activePlan u) →
        Decode.decodeChain u (h.eng u).act = some i → step s = ticked (exec i h)) ∧
      (∀ k w addr g, (h.chainPlans u)[s.turn.pick % max 1 (h.chainPlans u).length]? = h.walkEntry u k w addr →
        h.walkTokens u k w = true → h.walkRoom u k w = true → isControl w = true → Decode.decodeChain u w = some i →
        g = (if (h.eng u).popped || !tokenCode u (Decode.kFields w).tkw then h else
          h.takeTokens (Decode.kFields w).tkw.toNat u.code 1) →
        step s = ticked (exec i (g.setEng u (if (h.eng u).popped || !tokenCode u (Decode.kFields w).tkw || (h.eng u).running.isSome then
          { g.eng u with popped := true } else { g.eng u with popped := true, closed := none })))) ∧
      (∀ a id l addr, (h.eng u).running = none → (h.eng u).blocks = [] → (h.eng u).heads = (a, id) :: l →
        (h.eng u).walking = true → addr = (h.eng u).ent.toNat * 16 →
        ((h.eng u).ahead = none → h.tp.usable addr 16 = true → h.tp.bankPoisoned addr 16 = false →
          ∃ r, h.entryAhead (h.eng u) = some (BitVec.ofNat 128 (Memory.read ((h.eng u).closed.getD h.tp.banks) addr 16), r) ∧
            h.walkPlan u = some (.still (h.setEng u { h.eng u with ahead := h.entryAhead (h.eng u) }))) ∧
        (∀ w r, (h.eng u).ahead = some (w, r) → h.walkPlan u = h.walkEntry u (h.tp.taskOf id) w addr))) ∧
    (∀ i l, s.turn.agent = .outside → f.inputs = i :: l → WellFormed.isEvent i = true →
      step s = ticked (exec i { f with inputs := l })) ∧
    (s.turn.agent = .device → let j := s.turn.pick % max 1 (f.owing.length + f.deviceEvents.length)
      (∀ c, f.owing[j]? = some c → step s = .next (f.reportStop c).tick) ∧
      (∀ i, f.owing.length ≤ j → f.deviceEvents[j - f.owing.length]? = some i → step s = ticked (exec i f))) ∧
    (∀ m, s.turn.agent = .media → f.media[s.turn.pick % max 1 f.media.length]? = some m →
      step s = ticked (exec (.mediaCommandStart m.eng) f))

/-- No instruction is turned away: from every state, exec answers a next state for every instruction, and so does every step,
but one whose turn is the outside's while the list of inputs begins with a word of a stream (derived: R251, R255 and R248 give
every fault and trap a state in which the machine goes on). -/
def Obligations.StepAnswersNext : Prop :=
  (∀ (i : Instr) (s : State), ∃ t, exec i s = .next t) ∧
  ∀ s : State, (∃ t, step s = .next t) ∨
    (step s = .fault .inputNotEvent ∧ s.turn.agent = .outside ∧
      ∃ i l, s.inputs = i :: l ∧ WellFormed.isEvent i = false)

/-- Words of the manual's examples decode to what they stand for (a sanity statement): `hcas.d x5, x6, (x7), h1` (R379),
`hld.d x5, 0(x0), h0` (R384), C.MV and ADDI of RISC-V (R302), `add e3, e1, -5` (R337), `vadd.int8.sat w5, w1, w2` (R435),
`bstg T9, T5, T6, s=sd2` (R347), the KLOOP of R400, `ccpy.rtz.sat T9, T8, n=1, dt=4` (R360) and `igat T9, T5, T10, n=16,
voff=32` (R391); the all-zero halfword is no instruction. -/
def Obligations.DecodeWords : Prop :=
  let e : EWord := { fmt := 0, pg := 0, pn := 0, d := 0, a := 0, b := 0, c := 0, tkw := 0, tkp := 0, i := 0, imm := 0 }
  let b : BWord := { tin := 0, twt := 0, tout := 0, lvl := 0, str := 0, blk := 0, ax := 0, pos := 0, ifmt := 0, rnd := 0, sat := 0,
                     trn := 0, semi := 0, acc := 0, aov := 0, spm := 0, tkw := 0, tkp := 0, tile := 0, woff := 0 }
  let k : KWord := { tkw := 0, tkp := 0, ba := 0, cev := 0, bid := 0, ta := 0, tb := 0, tc := 0, count := 0, arg := 0 }
  decodeTableWord 32 0x146382FB = some (.hcas 1 1 6 7 5) ∧ decodeTableWord 32 0x0000328B = some (.hld 0 0 0 3 5) ∧
  decodeTableWord 16 0x852E = some (.rv64gc (.comp (.mv 10 11))) ∧
  decodeTableWord 32 0xFFF30293 = some (.rv64gc (.full (.opImm .addi 5 6 0xFFF))) ∧
  decodeTableWord 64 0x010006080001FFFB = some (.eAdd { e with d := 3, a := 1, i := 1, imm := 0xFFFB }) ∧
  decodeTableWord 64 0x40500A0840000008 = some (.vadd { e with fmt := 5, d := 5, a := 1, b := 2, imm := 8 }) ∧
  decodeTableWord 96 0x100506098800000000000000 = some (.bstg { b with tin := 5, twt := 6, tout := 9, lvl := 1, str := 2 }) ∧
  decodeTableWord 128 0x01000000000000020000000000080020 = some (.kloop { k with count := 2, arg := 0x80020 }) ∧
  decodeTableWord 128 0x20000009080000010009000400000000 =
    some (.ccpy { k with ta := 9, tb := 8, count := 1, arg := 0x0009000400000000 }) ∧
  decodeTableWord 128 0x40000009050A00100000000200000000 =
    some (.igat { k with ta := 9, tb := 5, tc := 10, count := 16, arg := 0x200000000 }) ∧
  decodeTableWord 16 0 = none

/-- R303: the major opcode of a word of 32 bits that decodes names its kind: custom-0 holds HLD, custom-1 HST, custom-2 HAMO,
custom-3 every other Xenxis mnemonic, and no word of another major opcode is a Xenxis word. -/
def Obligations.XenxisMajorOpcodes : Prop :=
  ∀ (w : BitVec 32) (i : Instr), Decode.decodeA32 w = some i →
    let op := w.extractLsb' 0 7
    let hld := ∃ hn imm rs1 wd rd, i = .hld hn imm rs1 wd rd
    let hst := ∃ hn imm rs1 rs2 wd, i = .hst hn imm rs1 rs2 wd ∨ i = .hstRl hn imm rs1 rs2 wd
    let hamo := ∃ o ty hn rs2 rs1 rd, i = .hamo o ty hn rs2 rs1 rd
    let base := i = .sret ∨ ∃ v, i = .rv64gc v
    (op = 0b0001011 ↔ hld) ∧ (op = 0b0101011 ↔ hst) ∧ (op = 0b1011011 ↔ hamo) ∧
      (op = 0b1111011 ↔ ¬hld ∧ ¬hst ∧ ¬hamo ∧ ¬base)

/-- R300, R302 to R322: the decoder reads back every word that the encoder writes, with every operand at every value its
encoding admits, whatever follows it; every instruction but an event has an encoding. -/
def Obligations.DecodeReadsEncoded : Prop :=
  ∀ (i : Instr) (rest : List Byte), WellFormed.instr i = true → WellFormed.isEvent i = false →
    ∃ e, Decode.encode i = some e ∧ e.bits < 2 ^ (8 * e.bytes) ∧
      (Decode.eParts i = none → Decode.bParts i = none → Decode.kParts i = none →
        Decode.decode .a (Decode.toBytes e.bytes e.bits ++ rest) = .ok (i, rest)) ∧
      (Decode.eParts i ≠ none → Decode.decode .e (Decode.toBytes e.bytes e.bits ++ rest) = .ok (i, rest)) ∧
      (Decode.bParts i ≠ none → Decode.decode .b (Decode.toBytes e.bytes e.bits ++ rest) = .ok (i, rest)) ∧
      (∀ op w u, Decode.kParts i = some (op, w) → Decode.runsOn u i = true → Decode.tokSelf u i = false →
        w.tkw ≠ Decode.unitCode u → w.tkp ≠ Decode.unitCode u →
        Decode.decode (.chain u) (Decode.toBytes e.bytes e.bits ++ rest) = .ok (i, rest))

/-- The canonical form of memory is kept by every step (R226 has one memory behind all paths; the form is the model's own,
note 2). -/
def Obligations.StepKeepsMemoryCanonical : Prop :=
  ∀ s t : State, s.MemoryOk → step s = .next t → t.MemoryOk
end

