-- ==== Sys2Proof/Laws/Sparse.lean ====
section
/-!
SUPPORT. Sparse stores: a read after a write, and the canonical form, which every operation keeps. Maps: a find after a put.
-/
namespace Sys2Proof.Machine
namespace Sparse

/-! ## Reading after writing -/

theorem get_append {w : Nat} (l r : Sparse w) (a : Nat) (h : ∀ e ∈ l, e.1 ≠ a) : get (l ++ r) a = get r a := by
  induction l with
  | nil => rfl
  | cons e l ih =>
    have he : e.1 ≠ a := h e (by simp)
    rw [List.cons_append, get, if_neg he]
    exact ih (fun x hx => h x (by simp [hx]))

theorem get_none {w : Nat} (l : Sparse w) (a : Nat) (h : ∀ e ∈ l, e.1 ≠ a) : get l a = unlisted := by
  have := get_append l [] a h
  simpa [get] using this

/-- Keeping only entries that a test takes leaves every key the test takes. -/
theorem get_filter {w : Nat} (m : Sparse w) (p : Nat → Bool) (a : Nat) (h : p a = true) :
    get (m.filter (fun e => p e.1)) a = get m a := by
  induction m with
  | nil => rfl
  | cons e m ih =>
    obtain ⟨k, v⟩ := e
    by_cases hk : k = a
    · subst hk; simp [List.filter, h, get]
    · by_cases hp : p k = true
      · simp [List.filter, hp, get, hk, ih]
      · simp [List.filter, hp, get, hk, ih]

theorem get_filter_out {w : Nat} (m : Sparse w) (p : Nat → Bool) (a : Nat) (h : p a = false) :
    get (m.filter (fun e => p e.1)) a = unlisted := by
  apply get_none
  intro e he
  have := (List.mem_filter.mp he).2
  intro hk; subst hk; simp [h] at this

theorem get_runBefore {w : Nat} (lo : Nat) (f : Nat → BitVec w) (n : Nat) (tail : Sparse w) (a : Nat) :
    get (runBefore lo f n tail) a = if lo ≤ a ∧ a < lo + n then (if f (a - lo) = unlisted then get tail a else f (a - lo))
      else get tail a := by
  induction n generalizing tail with
  | zero => rw [runBefore, if_neg (by omega)]
  | succ n ih =>
    rw [runBefore, ih]
    by_cases h1 : lo ≤ a ∧ a < lo + n
    · have h2 : lo ≤ a ∧ a < lo + (n + 1) := ⟨h1.1, by omega⟩
      have hne : lo + n ≠ a := by omega
      simp only [h1, h2, and_self, if_true]
      by_cases hz : f n = unlisted
      · simp [hz]
      · simp [hz, get, hne]
    · by_cases h3 : a = lo + n
      · subst h3
        have h2 : lo ≤ lo + n ∧ lo + n < lo + (n + 1) := ⟨by omega, by omega⟩
        have hs : lo + n - lo = n := by omega
        simp only [h2, and_self, if_true, hs]
        by_cases hz : f n = unlisted
        · simp [hz]
        · simp [hz, get]
      · have h2 : ¬ (lo ≤ a ∧ a < lo + (n + 1)) := by omega
        have hne : lo + n ≠ a := fun h => h3 h.symm
        simp only [h1, h2, if_false]
        by_cases hz : f n = unlisted
        · simp [hz]
        · simp [hz, get, hne]

/-- A read after a write of a run: the run's value inside it, the old value outside. -/
theorem get_putRun {w : Nat} (m : Sparse w) (lo n : Nat) (f : Nat → BitVec w) (a : Nat) :
    get (putRun m lo n f) a = if lo ≤ a ∧ a < lo + n then f (a - lo) else get m a := by
  rw [putRun]
  by_cases hlt : a < lo
  · have hin : ¬ (lo ≤ a ∧ a < lo + n) := by omega
    have hr : get (runBefore lo f n (m.filter (fun e => lo + n ≤ e.1))) a = unlisted := by
      rw [get_runBefore, if_neg hin]
      exact get_filter_out m (fun k => decide (lo + n ≤ k)) a (by simp; omega)
    rw [if_neg hin]
    have key : ∀ (l r : Sparse w), get r a = unlisted → get (l ++ r) a = get l a := by
      intro l r hr
      induction l with
      | nil => simpa [get] using hr
      | cons e l ih =>
        obtain ⟨k, v⟩ := e
        simp only [List.cons_append, get, ih]
    rw [key _ _ hr]
    exact get_filter m (fun k => decide (k < lo)) a (by simp [hlt])
  · rw [get_append _ _ a (by
      intro e he hk
      have := (List.mem_filter.mp he).2
      simp at this; omega), get_runBefore]
    by_cases hin : lo ≤ a ∧ a < lo + n
    · simp only [hin, and_self, if_true]
      by_cases hz : f (a - lo) = unlisted
      · rw [if_pos hz, hz]
        exact get_filter_out m (fun k => decide (lo + n ≤ k)) a (by simp; omega)
      · simp [hz]
    · simp only [hin, if_false]
      exact get_filter m (fun k => decide (lo + n ≤ k)) a (by simp; omega)

theorem get_set {w : Nat} (m : Sparse w) (k a : Nat) (v : BitVec w) : get (set m k v) a = if a = k then v else get m a := by
  rw [set, get_putRun]
  by_cases h : a = k
  · subst h; simp
  · have : ¬ (k ≤ a ∧ a < k + 1) := by omega
    rw [if_neg this, if_neg h]

@[simp] theorem get_set_self {w : Nat} (m : Sparse w) (k : Nat) (v : BitVec w) : get (set m k v) k = v := by simp [get_set]

theorem get_set_ne {w : Nat} (m : Sparse w) (k a : Nat) (v : BitVec w) (h : a ≠ k) : get (set m k v) a = get m a := by
  simp [get_set, h]

theorem get_ofFn {w : Nat} (n : Nat) (f : Nat → BitVec w) (a : Nat) :
    get (ofFn n f) a = if a < n then f a else unlisted := by
  rw [ofFn, get_runBefore]
  by_cases h : a < n
  · simp [h, get]; intro hz; exact hz.symm
  · simp [h, get]

theorem run_length {w : Nat} (m : Sparse w) (lo n : Nat) : (run m lo n).length = n := by simp [run]

theorem run_getElem {w : Nat} (m : Sparse w) (lo n i : Nat) (h : i < n) : (run m lo n)[i]? = some (get m (lo + i)) := by
  simp only [run, List.getElem?_map, List.getElem?_range h, Option.map_some]
  congr 1
  exact get_filter m (fun k => decide (lo ≤ k) && decide (k < lo + n)) (lo + i) (by simp; omega)

/-! ## The canonical form -/

theorem wf_cons {w : Nat} (k : Nat) (v : BitVec w) (r : Sparse w) :
    wf ((k, v) :: r) = true ↔ v ≠ unlisted ∧ (∀ e ∈ r, k < e.1) ∧ wf r = true := by
  simp [wf, and_assoc]

theorem wf_filter {w : Nat} (m : Sparse w) (p : Nat × BitVec w → Bool) (h : wf m = true) : wf (m.filter p) = true := by
  induction m with
  | nil => rfl
  | cons e m ih =>
    obtain ⟨k, v⟩ := e
    rw [wf_cons] at h
    by_cases hp : p (k, v) = true
    · rw [List.filter_cons_of_pos hp, wf_cons]
      exact ⟨h.1, fun x hx => h.2.1 x (List.mem_filter.mp hx).1, ih h.2.2⟩
    · rw [List.filter_cons_of_neg hp]; exact ih h.2.2

theorem wf_runBefore {w : Nat} (lo : Nat) (f : Nat → BitVec w) (n : Nat) (tail : Sparse w) (h : wf tail = true)
    (hk : ∀ e ∈ tail, lo + n ≤ e.1) :
    wf (runBefore lo f n tail) = true ∧ ∀ e ∈ runBefore lo f n tail, lo ≤ e.1 := by
  induction n generalizing tail with
  | zero => exact ⟨h, by simpa [runBefore] using hk⟩
  | succ n ih =>
    rw [runBefore]
    by_cases hz : f n = unlisted
    · rw [if_pos hz]
      exact ih tail h (fun e he => by have := hk e he; omega)
    · rw [if_neg hz]
      refine ih _ ?_ ?_
      · rw [wf_cons]; exact ⟨hz, fun e he => by have := hk e he; show lo + n < e.1; omega, h⟩
      · intro e he
        rcases List.mem_cons.mp he with rfl | he
        · exact Nat.le_refl _
        · have := hk e he; omega

theorem wf_append {w : Nat} (l r : Sparse w) (b : Nat) (hl : wf l = true) (hr : wf r = true) (h1 : ∀ e ∈ l, e.1 < b)
    (h2 : ∀ e ∈ r, b ≤ e.1) : wf (l ++ r) = true := by
  induction l with
  | nil => exact hr
  | cons e l ih =>
    obtain ⟨k, v⟩ := e
    rw [wf_cons] at hl
    rw [List.cons_append, wf_cons]
    refine ⟨hl.1, ?_, ih hl.2.2 (fun x hx => h1 x (by simp [hx]))⟩
    intro x hx
    rcases List.mem_append.mp hx with hx | hx
    · exact hl.2.1 x hx
    · have a1 : k < b := h1 (k, v) (by simp)
      have a2 := h2 x hx
      omega

/-- A write keeps the canonical form. -/
theorem wf_putRun {w : Nat} (m : Sparse w) (lo n : Nat) (f : Nat → BitVec w) (h : wf m = true) :
    wf (putRun m lo n f) = true := by
  have hr := wf_runBefore lo f n (m.filter (fun e => decide (lo + n ≤ e.1))) (wf_filter m _ h)
    (fun e he => by simpa using (List.mem_filter.mp he).2)
  exact wf_append _ _ lo (wf_filter m _ h) hr.1 (fun e he => by simpa using (List.mem_filter.mp he).2) hr.2

theorem wf_set {w : Nat} (m : Sparse w) (k : Nat) (v : BitVec w) (h : wf m = true) : wf (set m k v) = true :=
  wf_putRun m k 1 _ h

theorem wf_ofFn {w : Nat} (n : Nat) (f : Nat → BitVec w) : wf (ofFn n f) = true :=
  (wf_runBefore 0 f n [] rfl (by simp)).1

theorem wf_canonical {w : Nat} (bound : Nat) (l : List (Nat × BitVec w)) : wf (canonical bound l) = true := by
  have key : ∀ (l : List (Nat × BitVec w)) (m : Sparse w), wf m = true →
      wf (l.foldl (fun m e => if e.1 < bound then set m e.1 e.2 else m) m) = true := by
    intro l
    induction l with
    | nil => intro m h; exact h
    | cons e l ih =>
      intro m h
      rw [List.foldl_cons]
      apply ih
      by_cases hb : e.1 < bound
      · rw [if_pos hb]; exact wf_set _ _ _ h
      · rw [if_neg hb]; exact h
  exact key l [] rfl

end Sparse

/-! ## Memory -/

theorem Memory.wf_writeBytes (m : Memory) (a : Nat) (bs : List Byte) (h : Memory.wf m = true) :
    Memory.wf (Memory.writeBytes m a bs) = true := Sparse.wf_putRun m a _ _ h

theorem Memory.wf_write (m : Memory) (a n v : Nat) (h : Memory.wf m = true) : Memory.wf (Memory.write m a n v) = true :=
  Sparse.wf_putRun m a _ _ h

/-- A byte after a write of bytes. -/
theorem Memory.get_writeBytes (m : Memory) (p : Nat) (bs : List Byte) (a : Nat) :
    Sparse.get (Memory.writeBytes m p bs) a = if p ≤ a ∧ a < p + bs.length then (bs[a - p]?).getD 0 else Sparse.get m a :=
  Sparse.get_putRun m p _ _ a

/-! ## Maps -/

namespace Map

theorem find_del_ne {α : Type} (m : Map α) (a b : Nat) (h : b ≠ a) : find (del m a) b = find m b := by
  induction m with
  | nil => rfl
  | cons e m ih =>
    obtain ⟨k, v⟩ := e
    have ih' : find (m.filter (fun e => e.1 != a)) b = find m b := ih
    by_cases hk : k = a
    · have h2 : k ≠ b := fun h' => h (h'.symm.trans hk)
      simp [del, List.filter, find, hk, ih']
      intro h'; exact absurd h'.symm h
    · have h1 : (k != a) = true := by simp [hk]
      simp [del, List.filter, find, h1, ih']

@[simp] theorem find_put {α : Type} (m : Map α) (a : Nat) (v : α) : find (put m a v) a = some v := by simp [put, find]

theorem find_put_ne {α : Type} (m : Map α) (a b : Nat) (v : α) (h : b ≠ a) : find (put m a v) b = find m b := by
  rw [put, find, if_neg (fun h' => h h'.symm)]
  exact find_del_ne m a b h

theorem find_change {α : Type} (m : Map α) (a : Nat) (f : α → α) : find (change m a f) a = (find m a).map f := by
  cases h : find m a <;> simp [change, h]

theorem find_change_ne {α : Type} (m : Map α) (a b : Nat) (f : α → α) (h : b ≠ a) : find (change m a f) b = find m b := by
  cases hm : find m a with
  | none => simp [change, hm]
  | some v => simp only [change, hm]; exact find_put_ne m a b _ h

end Map
end Sys2Proof.Machine
end

