-- ==== Sys2Proof/Laws/State.lean ====
section
/-!
SUPPORT. What each update of the state leaves in each field, one lemma a field and update, so that no proof unfolds a record
update.
-/
namespace Sys2Proof.Machine
namespace State


/-! ## setAc -/

@[simp] theorem setAc_cur (s : State) (a : Ac) : (s.setAc a).cur = s.cur := rfl
@[simp] theorem setAc_others (s : State) (a : Ac) : (s.setAc a).others = s.others := rfl
@[simp] theorem setAc_mem (s : State) (a : Ac) : (s.setAc a).mem = s.mem := rfl
@[simp] theorem setAc_lines (s : State) (a : Ac) : (s.setAc a).lines = s.lines := rfl
@[simp] theorem setAc_weak (s : State) (a : Ac) : (s.setAc a).weak = s.weak := rfl
@[simp] theorem setAc_mediaStale (s : State) (a : Ac) : (s.setAc a).mediaStale = s.mediaStale := rfl
@[simp] theorem setAc_writers (s : State) (a : Ac) : (s.setAc a).writers = s.writers := rfl
@[simp] theorem setAc_wide (s : State) (a : Ac) : (s.setAc a).wide = s.wide := rfl
@[simp] theorem setAc_flags (s : State) (a : Ac) : (s.setAc a).flags = s.flags := rfl
@[simp] theorem setAc_cores (s : State) (a : Ac) : (s.setAc a).cores = s.cores := rfl
@[simp] theorem setAc_tracked (s : State) (a : Ac) : (s.setAc a).tracked = s.tracked := rfl
@[simp] theorem setAc_atc (s : State) (a : Ac) : (s.setAc a).atc = s.atc := rfl
@[simp] theorem setAc_requests (s : State) (a : Ac) : (s.setAc a).requests = s.requests := rfl
@[simp] theorem setAc_invalidations (s : State) (a : Ac) : (s.setAc a).invalidations = s.invalidations := rfl
@[simp] theorem setAc_faults (s : State) (a : Ac) : (s.setAc a).faults = s.faults := rfl
@[simp] theorem setAc_denied (s : State) (a : Ac) : (s.setAc a).denied = s.denied := rfl
@[simp] theorem setAc_queues (s : State) (a : Ac) : (s.setAc a).queues = s.queues := rfl
@[simp] theorem setAc_launches (s : State) (a : Ac) : (s.setAc a).launches = s.launches := rfl
@[simp] theorem setAc_nextTask (s : State) (a : Ac) : (s.setAc a).nextTask = s.nextTask := rfl
@[simp] theorem setAc_nextMedia (s : State) (a : Ac) : (s.setAc a).nextMedia = s.nextMedia := rfl
@[simp] theorem setAc_turnstiles (s : State) (a : Ac) : (s.setAc a).turnstiles = s.turnstiles := rfl
@[simp] theorem setAc_dealt (s : State) (a : Ac) : (s.setAc a).dealt = s.dealt := rfl
@[simp] theorem setAc_homeless (s : State) (a : Ac) : (s.setAc a).homeless = s.homeless := rfl
@[simp] theorem setAc_regions (s : State) (a : Ac) : (s.setAc a).regions = s.regions := rfl
@[simp] theorem setAc_nextRegion (s : State) (a : Ac) : (s.setAc a).nextRegion = s.nextRegion := rfl
@[simp] theorem setAc_watches (s : State) (a : Ac) : (s.setAc a).watches = s.watches := rfl
@[simp] theorem setAc_ctxs (s : State) (a : Ac) : (s.setAc a).ctxs = s.ctxs := rfl
@[simp] theorem setAc_tenants (s : State) (a : Ac) : (s.setAc a).tenants = s.tenants := rfl
@[simp] theorem setAc_streams (s : State) (a : Ac) : (s.setAc a).streams = s.streams := rfl
@[simp] theorem setAc_media (s : State) (a : Ac) : (s.setAc a).media = s.media := rfl
@[simp] theorem setAc_mod (s : State) (a : Ac) : (s.setAc a).mod = s.mod := rfl
@[simp] theorem setAc_time (s : State) (a : Ac) : (s.setAc a).time = s.time := rfl
@[simp] theorem setAc_lcAt (s : State) (a : Ac) : (s.setAc a).lcAt = s.lcAt := rfl
@[simp] theorem setAc_turn (s : State) (a : Ac) : (s.setAc a).turn = s.turn := rfl
@[simp] theorem setAc_steps (s : State) (a : Ac) : (s.setAc a).steps = s.steps := rfl
@[simp] theorem setAc_free (s : State) (a : Ac) : (s.setAc a).free = s.free := rfl
@[simp] theorem setAc_inputs (s : State) (a : Ac) : (s.setAc a).inputs = s.inputs := rfl
@[simp] theorem setAc_out (s : State) (a : Ac) : (s.setAc a).out = s.out := rfl
@[simp] theorem setAc_tp_ac (s : State) (a : Ac) : (s.setAc a).tp.ac = a := rfl
@[simp] theorem setAc_tp_ec (s : State) (a : Ac) : (s.setAc a).tp.ec = s.tp.ec := rfl
@[simp] theorem setAc_tp_be (s : State) (a : Ac) : (s.setAc a).tp.be = s.tp.be := rfl
@[simp] theorem setAc_tp_ce (s : State) (a : Ac) : (s.setAc a).tp.ce = s.tp.ce := rfl
@[simp] theorem setAc_tp_ie (s : State) (a : Ac) : (s.setAc a).tp.ie = s.tp.ie := rfl
@[simp] theorem setAc_tp_he (s : State) (a : Ac) : (s.setAc a).tp.he = s.tp.he := rfl
@[simp] theorem setAc_tp_slots (s : State) (a : Ac) : (s.setAc a).tp.slots = s.tp.slots := rfl
@[simp] theorem setAc_tp_queues (s : State) (a : Ac) : (s.setAc a).tp.queues = s.tp.queues := rfl
@[simp] theorem setAc_tp_tokens (s : State) (a : Ac) : (s.setAc a).tp.tokens = s.tp.tokens := rfl
@[simp] theorem setAc_tp_banks (s : State) (a : Ac) : (s.setAc a).tp.banks = s.tp.banks := rfl
@[simp] theorem setAc_tp_brr (s : State) (a : Ac) : (s.setAc a).tp.brr = s.tp.brr := rfl
@[simp] theorem setAc_tp_qdir (s : State) (a : Ac) : (s.setAc a).tp.qdir = s.tp.qdir := rfl
@[simp] theorem setAc_tp_svwm (s : State) (a : Ac) : (s.setAc a).tp.svwm = s.tp.svwm := rfl
@[simp] theorem setAc_tp_svwmAt (s : State) (a : Ac) : (s.setAc a).tp.svwmAt = s.tp.svwmAt := rfl
@[simp] theorem setAc_tp_late (s : State) (a : Ac) : (s.setAc a).tp.late = s.tp.late := rfl
@[simp] theorem setAc_tp_tasks (s : State) (a : Ac) : (s.setAc a).tp.tasks = s.tp.tasks := rfl
@[simp] theorem setAc_tp_cur (s : State) (a : Ac) : (s.setAc a).tp.cur = s.tp.cur := rfl
@[simp] theorem setAc_tp_tokTask (s : State) (a : Ac) : (s.setAc a).tp.tokTask = s.tp.tokTask := rfl
@[simp] theorem setAc_tp_role (s : State) (a : Ac) : (s.setAc a).tp.role = s.tp.role := rfl
@[simp] theorem setAc_tp_preempt (s : State) (a : Ac) : (s.setAc a).tp.preempt = s.tp.preempt := rfl
@[simp] theorem setAc_tp_holdAt (s : State) (a : Ac) : (s.setAc a).tp.holdAt = s.tp.holdAt := rfl
@[simp] theorem setAc_tp_stopNow (s : State) (a : Ac) : (s.setAc a).tp.stopNow = s.tp.stopNow := rfl
@[simp] theorem setAc_tp_images (s : State) (a : Ac) : (s.setAc a).tp.images = s.tp.images := rfl
@[simp] theorem setAc_tp_frame (s : State) (a : Ac) : (s.setAc a).tp.frame = s.tp.frame := rfl
@[simp] theorem setAc_tp_bulk (s : State) (a : Ac) : (s.setAc a).tp.bulk = s.tp.bulk := rfl
@[simp] theorem setAc_tp_tlb (s : State) (a : Ac) : (s.setAc a).tp.tlb = s.tp.tlb := rfl
@[simp] theorem setAc_tp_cache (s : State) (a : Ac) : (s.setAc a).tp.cache = s.tp.cache := rfl
@[simp] theorem setAc_tp_stale (s : State) (a : Ac) : (s.setAc a).tp.stale = s.tp.stale := rfl
@[simp] theorem setAc_tp_bankStale (s : State) (a : Ac) : (s.setAc a).tp.bankStale = s.tp.bankStale := rfl
@[simp] theorem setAc_tp_events (s : State) (a : Ac) : (s.setAc a).tp.events = s.tp.events := rfl
@[simp] theorem setAc_tp_issued (s : State) (a : Ac) : (s.setAc a).tp.issued = s.tp.issued := rfl
@[simp] theorem setAc_tp_doneCmd (s : State) (a : Ac) : (s.setAc a).tp.doneCmd = s.tp.doneCmd := rfl
@[simp] theorem setAc_tp_poison (s : State) (a : Ac) : (s.setAc a).tp.poison = s.tp.poison := rfl
@[simp] theorem setAc_tp_peersReached (s : State) (a : Ac) : (s.setAc a).tp.peersReached = s.tp.peersReached := rfl
@[simp] theorem setAc_tp_lastCtx (s : State) (a : Ac) : (s.setAc a).tp.lastCtx = s.tp.lastCtx := rfl
@[simp] theorem setAc_tp_bankEra (s : State) (a : Ac) : (s.setAc a).tp.bankEra = s.tp.bankEra := rfl
@[simp] theorem setAc_tp_bankOwner (s : State) (a : Ac) : (s.setAc a).tp.bankOwner = s.tp.bankOwner := rfl
@[simp] theorem setAc_tp_bankMixed (s : State) (a : Ac) : (s.setAc a).tp.bankMixed = s.tp.bankMixed := rfl
@[simp] theorem setAc_tp_parity (s : State) (a : Ac) : (s.setAc a).tp.parity = s.tp.parity := rfl
@[simp] theorem setAc_tp_spent (s : State) (a : Ac) : (s.setAc a).tp.spent = s.tp.spent := rfl
@[simp] theorem setAc_tp_ran (s : State) (a : Ac) : (s.setAc a).tp.ran = s.tp.ran := rfl
@[simp] theorem setAc_tp_meterAt (s : State) (a : Ac) : (s.setAc a).tp.meterAt = s.tp.meterAt := rfl

/-! ## setEc -/

@[simp] theorem setEc_cur (s : State) (a : Ec) : (s.setEc a).cur = s.cur := rfl
@[simp] theorem setEc_others (s : State) (a : Ec) : (s.setEc a).others = s.others := rfl
@[simp] theorem setEc_mem (s : State) (a : Ec) : (s.setEc a).mem = s.mem := rfl
@[simp] theorem setEc_lines (s : State) (a : Ec) : (s.setEc a).lines = s.lines := rfl
@[simp] theorem setEc_weak (s : State) (a : Ec) : (s.setEc a).weak = s.weak := rfl
@[simp] theorem setEc_mediaStale (s : State) (a : Ec) : (s.setEc a).mediaStale = s.mediaStale := rfl
@[simp] theorem setEc_writers (s : State) (a : Ec) : (s.setEc a).writers = s.writers := rfl
@[simp] theorem setEc_wide (s : State) (a : Ec) : (s.setEc a).wide = s.wide := rfl
@[simp] theorem setEc_flags (s : State) (a : Ec) : (s.setEc a).flags = s.flags := rfl
@[simp] theorem setEc_cores (s : State) (a : Ec) : (s.setEc a).cores = s.cores := rfl
@[simp] theorem setEc_tracked (s : State) (a : Ec) : (s.setEc a).tracked = s.tracked := rfl
@[simp] theorem setEc_atc (s : State) (a : Ec) : (s.setEc a).atc = s.atc := rfl
@[simp] theorem setEc_requests (s : State) (a : Ec) : (s.setEc a).requests = s.requests := rfl
@[simp] theorem setEc_invalidations (s : State) (a : Ec) : (s.setEc a).invalidations = s.invalidations := rfl
@[simp] theorem setEc_faults (s : State) (a : Ec) : (s.setEc a).faults = s.faults := rfl
@[simp] theorem setEc_denied (s : State) (a : Ec) : (s.setEc a).denied = s.denied := rfl
@[simp] theorem setEc_queues (s : State) (a : Ec) : (s.setEc a).queues = s.queues := rfl
@[simp] theorem setEc_launches (s : State) (a : Ec) : (s.setEc a).launches = s.launches := rfl
@[simp] theorem setEc_nextTask (s : State) (a : Ec) : (s.setEc a).nextTask = s.nextTask := rfl
@[simp] theorem setEc_nextMedia (s : State) (a : Ec) : (s.setEc a).nextMedia = s.nextMedia := rfl
@[simp] theorem setEc_turnstiles (s : State) (a : Ec) : (s.setEc a).turnstiles = s.turnstiles := rfl
@[simp] theorem setEc_dealt (s : State) (a : Ec) : (s.setEc a).dealt = s.dealt := rfl
@[simp] theorem setEc_homeless (s : State) (a : Ec) : (s.setEc a).homeless = s.homeless := rfl
@[simp] theorem setEc_regions (s : State) (a : Ec) : (s.setEc a).regions = s.regions := rfl
@[simp] theorem setEc_nextRegion (s : State) (a : Ec) : (s.setEc a).nextRegion = s.nextRegion := rfl
@[simp] theorem setEc_watches (s : State) (a : Ec) : (s.setEc a).watches = s.watches := rfl
@[simp] theorem setEc_ctxs (s : State) (a : Ec) : (s.setEc a).ctxs = s.ctxs := rfl
@[simp] theorem setEc_tenants (s : State) (a : Ec) : (s.setEc a).tenants = s.tenants := rfl
@[simp] theorem setEc_streams (s : State) (a : Ec) : (s.setEc a).streams = s.streams := rfl
@[simp] theorem setEc_media (s : State) (a : Ec) : (s.setEc a).media = s.media := rfl
@[simp] theorem setEc_mod (s : State) (a : Ec) : (s.setEc a).mod = s.mod := rfl
@[simp] theorem setEc_time (s : State) (a : Ec) : (s.setEc a).time = s.time := rfl
@[simp] theorem setEc_lcAt (s : State) (a : Ec) : (s.setEc a).lcAt = s.lcAt := rfl
@[simp] theorem setEc_turn (s : State) (a : Ec) : (s.setEc a).turn = s.turn := rfl
@[simp] theorem setEc_steps (s : State) (a : Ec) : (s.setEc a).steps = s.steps := rfl
@[simp] theorem setEc_free (s : State) (a : Ec) : (s.setEc a).free = s.free := rfl
@[simp] theorem setEc_inputs (s : State) (a : Ec) : (s.setEc a).inputs = s.inputs := rfl
@[simp] theorem setEc_out (s : State) (a : Ec) : (s.setEc a).out = s.out := rfl
@[simp] theorem setEc_tp_ac (s : State) (a : Ec) : (s.setEc a).tp.ac = s.tp.ac := rfl
@[simp] theorem setEc_tp_ec (s : State) (a : Ec) : (s.setEc a).tp.ec = a := rfl
@[simp] theorem setEc_tp_be (s : State) (a : Ec) : (s.setEc a).tp.be = s.tp.be := rfl
@[simp] theorem setEc_tp_ce (s : State) (a : Ec) : (s.setEc a).tp.ce = s.tp.ce := rfl
@[simp] theorem setEc_tp_ie (s : State) (a : Ec) : (s.setEc a).tp.ie = s.tp.ie := rfl
@[simp] theorem setEc_tp_he (s : State) (a : Ec) : (s.setEc a).tp.he = s.tp.he := rfl
@[simp] theorem setEc_tp_slots (s : State) (a : Ec) : (s.setEc a).tp.slots = s.tp.slots := rfl
@[simp] theorem setEc_tp_queues (s : State) (a : Ec) : (s.setEc a).tp.queues = s.tp.queues := rfl
@[simp] theorem setEc_tp_tokens (s : State) (a : Ec) : (s.setEc a).tp.tokens = s.tp.tokens := rfl
@[simp] theorem setEc_tp_banks (s : State) (a : Ec) : (s.setEc a).tp.banks = s.tp.banks := rfl
@[simp] theorem setEc_tp_brr (s : State) (a : Ec) : (s.setEc a).tp.brr = s.tp.brr := rfl
@[simp] theorem setEc_tp_qdir (s : State) (a : Ec) : (s.setEc a).tp.qdir = s.tp.qdir := rfl
@[simp] theorem setEc_tp_svwm (s : State) (a : Ec) : (s.setEc a).tp.svwm = s.tp.svwm := rfl
@[simp] theorem setEc_tp_svwmAt (s : State) (a : Ec) : (s.setEc a).tp.svwmAt = s.tp.svwmAt := rfl
@[simp] theorem setEc_tp_late (s : State) (a : Ec) : (s.setEc a).tp.late = s.tp.late := rfl
@[simp] theorem setEc_tp_tasks (s : State) (a : Ec) : (s.setEc a).tp.tasks = s.tp.tasks := rfl
@[simp] theorem setEc_tp_cur (s : State) (a : Ec) : (s.setEc a).tp.cur = s.tp.cur := rfl
@[simp] theorem setEc_tp_tokTask (s : State) (a : Ec) : (s.setEc a).tp.tokTask = s.tp.tokTask := rfl
@[simp] theorem setEc_tp_role (s : State) (a : Ec) : (s.setEc a).tp.role = s.tp.role := rfl
@[simp] theorem setEc_tp_preempt (s : State) (a : Ec) : (s.setEc a).tp.preempt = s.tp.preempt := rfl
@[simp] theorem setEc_tp_holdAt (s : State) (a : Ec) : (s.setEc a).tp.holdAt = s.tp.holdAt := rfl
@[simp] theorem setEc_tp_stopNow (s : State) (a : Ec) : (s.setEc a).tp.stopNow = s.tp.stopNow := rfl
@[simp] theorem setEc_tp_images (s : State) (a : Ec) : (s.setEc a).tp.images = s.tp.images := rfl
@[simp] theorem setEc_tp_frame (s : State) (a : Ec) : (s.setEc a).tp.frame = s.tp.frame := rfl
@[simp] theorem setEc_tp_bulk (s : State) (a : Ec) : (s.setEc a).tp.bulk = s.tp.bulk := rfl
@[simp] theorem setEc_tp_tlb (s : State) (a : Ec) : (s.setEc a).tp.tlb = s.tp.tlb := rfl
@[simp] theorem setEc_tp_cache (s : State) (a : Ec) : (s.setEc a).tp.cache = s.tp.cache := rfl
@[simp] theorem setEc_tp_stale (s : State) (a : Ec) : (s.setEc a).tp.stale = s.tp.stale := rfl
@[simp] theorem setEc_tp_bankStale (s : State) (a : Ec) : (s.setEc a).tp.bankStale = s.tp.bankStale := rfl
@[simp] theorem setEc_tp_events (s : State) (a : Ec) : (s.setEc a).tp.events = s.tp.events := rfl
@[simp] theorem setEc_tp_issued (s : State) (a : Ec) : (s.setEc a).tp.issued = s.tp.issued := rfl
@[simp] theorem setEc_tp_doneCmd (s : State) (a : Ec) : (s.setEc a).tp.doneCmd = s.tp.doneCmd := rfl
@[simp] theorem setEc_tp_poison (s : State) (a : Ec) : (s.setEc a).tp.poison = s.tp.poison := rfl
@[simp] theorem setEc_tp_peersReached (s : State) (a : Ec) : (s.setEc a).tp.peersReached = s.tp.peersReached := rfl
@[simp] theorem setEc_tp_lastCtx (s : State) (a : Ec) : (s.setEc a).tp.lastCtx = s.tp.lastCtx := rfl
@[simp] theorem setEc_tp_bankEra (s : State) (a : Ec) : (s.setEc a).tp.bankEra = s.tp.bankEra := rfl
@[simp] theorem setEc_tp_bankOwner (s : State) (a : Ec) : (s.setEc a).tp.bankOwner = s.tp.bankOwner := rfl
@[simp] theorem setEc_tp_bankMixed (s : State) (a : Ec) : (s.setEc a).tp.bankMixed = s.tp.bankMixed := rfl
@[simp] theorem setEc_tp_parity (s : State) (a : Ec) : (s.setEc a).tp.parity = s.tp.parity := rfl
@[simp] theorem setEc_tp_spent (s : State) (a : Ec) : (s.setEc a).tp.spent = s.tp.spent := rfl
@[simp] theorem setEc_tp_ran (s : State) (a : Ec) : (s.setEc a).tp.ran = s.tp.ran := rfl
@[simp] theorem setEc_tp_meterAt (s : State) (a : Ec) : (s.setEc a).tp.meterAt = s.tp.meterAt := rfl

/-! ## setBe -/

@[simp] theorem setBe_cur (s : State) (a : Be) : (s.setBe a).cur = s.cur := rfl
@[simp] theorem setBe_others (s : State) (a : Be) : (s.setBe a).others = s.others := rfl
@[simp] theorem setBe_mem (s : State) (a : Be) : (s.setBe a).mem = s.mem := rfl
@[simp] theorem setBe_lines (s : State) (a : Be) : (s.setBe a).lines = s.lines := rfl
@[simp] theorem setBe_weak (s : State) (a : Be) : (s.setBe a).weak = s.weak := rfl
@[simp] theorem setBe_mediaStale (s : State) (a : Be) : (s.setBe a).mediaStale = s.mediaStale := rfl
@[simp] theorem setBe_writers (s : State) (a : Be) : (s.setBe a).writers = s.writers := rfl
@[simp] theorem setBe_wide (s : State) (a : Be) : (s.setBe a).wide = s.wide := rfl
@[simp] theorem setBe_flags (s : State) (a : Be) : (s.setBe a).flags = s.flags := rfl
@[simp] theorem setBe_cores (s : State) (a : Be) : (s.setBe a).cores = s.cores := rfl
@[simp] theorem setBe_tracked (s : State) (a : Be) : (s.setBe a).tracked = s.tracked := rfl
@[simp] theorem setBe_atc (s : State) (a : Be) : (s.setBe a).atc = s.atc := rfl
@[simp] theorem setBe_requests (s : State) (a : Be) : (s.setBe a).requests = s.requests := rfl
@[simp] theorem setBe_invalidations (s : State) (a : Be) : (s.setBe a).invalidations = s.invalidations := rfl
@[simp] theorem setBe_faults (s : State) (a : Be) : (s.setBe a).faults = s.faults := rfl
@[simp] theorem setBe_denied (s : State) (a : Be) : (s.setBe a).denied = s.denied := rfl
@[simp] theorem setBe_queues (s : State) (a : Be) : (s.setBe a).queues = s.queues := rfl
@[simp] theorem setBe_launches (s : State) (a : Be) : (s.setBe a).launches = s.launches := rfl
@[simp] theorem setBe_nextTask (s : State) (a : Be) : (s.setBe a).nextTask = s.nextTask := rfl
@[simp] theorem setBe_nextMedia (s : State) (a : Be) : (s.setBe a).nextMedia = s.nextMedia := rfl
@[simp] theorem setBe_turnstiles (s : State) (a : Be) : (s.setBe a).turnstiles = s.turnstiles := rfl
@[simp] theorem setBe_dealt (s : State) (a : Be) : (s.setBe a).dealt = s.dealt := rfl
@[simp] theorem setBe_homeless (s : State) (a : Be) : (s.setBe a).homeless = s.homeless := rfl
@[simp] theorem setBe_regions (s : State) (a : Be) : (s.setBe a).regions = s.regions := rfl
@[simp] theorem setBe_nextRegion (s : State) (a : Be) : (s.setBe a).nextRegion = s.nextRegion := rfl
@[simp] theorem setBe_watches (s : State) (a : Be) : (s.setBe a).watches = s.watches := rfl
@[simp] theorem setBe_ctxs (s : State) (a : Be) : (s.setBe a).ctxs = s.ctxs := rfl
@[simp] theorem setBe_tenants (s : State) (a : Be) : (s.setBe a).tenants = s.tenants := rfl
@[simp] theorem setBe_streams (s : State) (a : Be) : (s.setBe a).streams = s.streams := rfl
@[simp] theorem setBe_media (s : State) (a : Be) : (s.setBe a).media = s.media := rfl
@[simp] theorem setBe_mod (s : State) (a : Be) : (s.setBe a).mod = s.mod := rfl
@[simp] theorem setBe_time (s : State) (a : Be) : (s.setBe a).time = s.time := rfl
@[simp] theorem setBe_lcAt (s : State) (a : Be) : (s.setBe a).lcAt = s.lcAt := rfl
@[simp] theorem setBe_turn (s : State) (a : Be) : (s.setBe a).turn = s.turn := rfl
@[simp] theorem setBe_steps (s : State) (a : Be) : (s.setBe a).steps = s.steps := rfl
@[simp] theorem setBe_free (s : State) (a : Be) : (s.setBe a).free = s.free := rfl
@[simp] theorem setBe_inputs (s : State) (a : Be) : (s.setBe a).inputs = s.inputs := rfl
@[simp] theorem setBe_out (s : State) (a : Be) : (s.setBe a).out = s.out := rfl
@[simp] theorem setBe_tp_ac (s : State) (a : Be) : (s.setBe a).tp.ac = s.tp.ac := rfl
@[simp] theorem setBe_tp_ec (s : State) (a : Be) : (s.setBe a).tp.ec = s.tp.ec := rfl
@[simp] theorem setBe_tp_be (s : State) (a : Be) : (s.setBe a).tp.be = a := rfl
@[simp] theorem setBe_tp_ce (s : State) (a : Be) : (s.setBe a).tp.ce = s.tp.ce := rfl
@[simp] theorem setBe_tp_ie (s : State) (a : Be) : (s.setBe a).tp.ie = s.tp.ie := rfl
@[simp] theorem setBe_tp_he (s : State) (a : Be) : (s.setBe a).tp.he = s.tp.he := rfl
@[simp] theorem setBe_tp_slots (s : State) (a : Be) : (s.setBe a).tp.slots = s.tp.slots := rfl
@[simp] theorem setBe_tp_queues (s : State) (a : Be) : (s.setBe a).tp.queues = s.tp.queues := rfl
@[simp] theorem setBe_tp_tokens (s : State) (a : Be) : (s.setBe a).tp.tokens = s.tp.tokens := rfl
@[simp] theorem setBe_tp_banks (s : State) (a : Be) : (s.setBe a).tp.banks = s.tp.banks := rfl
@[simp] theorem setBe_tp_brr (s : State) (a : Be) : (s.setBe a).tp.brr = s.tp.brr := rfl
@[simp] theorem setBe_tp_qdir (s : State) (a : Be) : (s.setBe a).tp.qdir = s.tp.qdir := rfl
@[simp] theorem setBe_tp_svwm (s : State) (a : Be) : (s.setBe a).tp.svwm = s.tp.svwm := rfl
@[simp] theorem setBe_tp_svwmAt (s : State) (a : Be) : (s.setBe a).tp.svwmAt = s.tp.svwmAt := rfl
@[simp] theorem setBe_tp_late (s : State) (a : Be) : (s.setBe a).tp.late = s.tp.late := rfl
@[simp] theorem setBe_tp_tasks (s : State) (a : Be) : (s.setBe a).tp.tasks = s.tp.tasks := rfl
@[simp] theorem setBe_tp_cur (s : State) (a : Be) : (s.setBe a).tp.cur = s.tp.cur := rfl
@[simp] theorem setBe_tp_tokTask (s : State) (a : Be) : (s.setBe a).tp.tokTask = s.tp.tokTask := rfl
@[simp] theorem setBe_tp_role (s : State) (a : Be) : (s.setBe a).tp.role = s.tp.role := rfl
@[simp] theorem setBe_tp_preempt (s : State) (a : Be) : (s.setBe a).tp.preempt = s.tp.preempt := rfl
@[simp] theorem setBe_tp_holdAt (s : State) (a : Be) : (s.setBe a).tp.holdAt = s.tp.holdAt := rfl
@[simp] theorem setBe_tp_stopNow (s : State) (a : Be) : (s.setBe a).tp.stopNow = s.tp.stopNow := rfl
@[simp] theorem setBe_tp_images (s : State) (a : Be) : (s.setBe a).tp.images = s.tp.images := rfl
@[simp] theorem setBe_tp_frame (s : State) (a : Be) : (s.setBe a).tp.frame = s.tp.frame := rfl
@[simp] theorem setBe_tp_bulk (s : State) (a : Be) : (s.setBe a).tp.bulk = s.tp.bulk := rfl
@[simp] theorem setBe_tp_tlb (s : State) (a : Be) : (s.setBe a).tp.tlb = s.tp.tlb := rfl
@[simp] theorem setBe_tp_cache (s : State) (a : Be) : (s.setBe a).tp.cache = s.tp.cache := rfl
@[simp] theorem setBe_tp_stale (s : State) (a : Be) : (s.setBe a).tp.stale = s.tp.stale := rfl
@[simp] theorem setBe_tp_bankStale (s : State) (a : Be) : (s.setBe a).tp.bankStale = s.tp.bankStale := rfl
@[simp] theorem setBe_tp_events (s : State) (a : Be) : (s.setBe a).tp.events = s.tp.events := rfl
@[simp] theorem setBe_tp_issued (s : State) (a : Be) : (s.setBe a).tp.issued = s.tp.issued := rfl
@[simp] theorem setBe_tp_doneCmd (s : State) (a : Be) : (s.setBe a).tp.doneCmd = s.tp.doneCmd := rfl
@[simp] theorem setBe_tp_poison (s : State) (a : Be) : (s.setBe a).tp.poison = s.tp.poison := rfl
@[simp] theorem setBe_tp_peersReached (s : State) (a : Be) : (s.setBe a).tp.peersReached = s.tp.peersReached := rfl
@[simp] theorem setBe_tp_lastCtx (s : State) (a : Be) : (s.setBe a).tp.lastCtx = s.tp.lastCtx := rfl
@[simp] theorem setBe_tp_bankEra (s : State) (a : Be) : (s.setBe a).tp.bankEra = s.tp.bankEra := rfl
@[simp] theorem setBe_tp_bankOwner (s : State) (a : Be) : (s.setBe a).tp.bankOwner = s.tp.bankOwner := rfl
@[simp] theorem setBe_tp_bankMixed (s : State) (a : Be) : (s.setBe a).tp.bankMixed = s.tp.bankMixed := rfl
@[simp] theorem setBe_tp_parity (s : State) (a : Be) : (s.setBe a).tp.parity = s.tp.parity := rfl
@[simp] theorem setBe_tp_spent (s : State) (a : Be) : (s.setBe a).tp.spent = s.tp.spent := rfl
@[simp] theorem setBe_tp_ran (s : State) (a : Be) : (s.setBe a).tp.ran = s.tp.ran := rfl
@[simp] theorem setBe_tp_meterAt (s : State) (a : Be) : (s.setBe a).tp.meterAt = s.tp.meterAt := rfl

/-! ## setEng -/

@[simp] theorem setEng_cur (s : State) (u : ChainUnit) (c : Chain) : (s.setEng u c).cur = s.cur := by cases u <;> rfl
@[simp] theorem setEng_others (s : State) (u : ChainUnit) (c : Chain) : (s.setEng u c).others = s.others := by cases u <;> rfl
@[simp] theorem setEng_mem (s : State) (u : ChainUnit) (c : Chain) : (s.setEng u c).mem = s.mem := by cases u <;> rfl
@[simp] theorem setEng_lines (s : State) (u : ChainUnit) (c : Chain) : (s.setEng u c).lines = s.lines := by cases u <;> rfl
@[simp] theorem setEng_weak (s : State) (u : ChainUnit) (c : Chain) : (s.setEng u c).weak = s.weak := by cases u <;> rfl
@[simp] theorem setEng_mediaStale (s : State) (u : ChainUnit) (c : Chain) : (s.setEng u c).mediaStale = s.mediaStale := by cases u <;> rfl
@[simp] theorem setEng_writers (s : State) (u : ChainUnit) (c : Chain) : (s.setEng u c).writers = s.writers := by cases u <;> rfl
@[simp] theorem setEng_wide (s : State) (u : ChainUnit) (c : Chain) : (s.setEng u c).wide = s.wide := by cases u <;> rfl
@[simp] theorem setEng_flags (s : State) (u : ChainUnit) (c : Chain) : (s.setEng u c).flags = s.flags := by cases u <;> rfl
@[simp] theorem setEng_cores (s : State) (u : ChainUnit) (c : Chain) : (s.setEng u c).cores = s.cores := by cases u <;> rfl
@[simp] theorem setEng_tracked (s : State) (u : ChainUnit) (c : Chain) : (s.setEng u c).tracked = s.tracked := by cases u <;> rfl
@[simp] theorem setEng_atc (s : State) (u : ChainUnit) (c : Chain) : (s.setEng u c).atc = s.atc := by cases u <;> rfl
@[simp] theorem setEng_requests (s : State) (u : ChainUnit) (c : Chain) : (s.setEng u c).requests = s.requests := by cases u <;> rfl
@[simp] theorem setEng_invalidations (s : State) (u : ChainUnit) (c : Chain) : (s.setEng u c).invalidations = s.invalidations := by cases u <;> rfl
@[simp] theorem setEng_faults (s : State) (u : ChainUnit) (c : Chain) : (s.setEng u c).faults = s.faults := by cases u <;> rfl
@[simp] theorem setEng_denied (s : State) (u : ChainUnit) (c : Chain) : (s.setEng u c).denied = s.denied := by cases u <;> rfl
@[simp] theorem setEng_queues (s : State) (u : ChainUnit) (c : Chain) : (s.setEng u c).queues = s.queues := by cases u <;> rfl
@[simp] theorem setEng_launches (s : State) (u : ChainUnit) (c : Chain) : (s.setEng u c).launches = s.launches := by cases u <;> rfl
@[simp] theorem setEng_nextTask (s : State) (u : ChainUnit) (c : Chain) : (s.setEng u c).nextTask = s.nextTask := by cases u <;> rfl
@[simp] theorem setEng_nextMedia (s : State) (u : ChainUnit) (c : Chain) : (s.setEng u c).nextMedia = s.nextMedia := by cases u <;> rfl
@[simp] theorem setEng_turnstiles (s : State) (u : ChainUnit) (c : Chain) : (s.setEng u c).turnstiles = s.turnstiles := by cases u <;> rfl
@[simp] theorem setEng_dealt (s : State) (u : ChainUnit) (c : Chain) : (s.setEng u c).dealt = s.dealt := by cases u <;> rfl
@[simp] theorem setEng_homeless (s : State) (u : ChainUnit) (c : Chain) : (s.setEng u c).homeless = s.homeless := by cases u <;> rfl
@[simp] theorem setEng_regions (s : State) (u : ChainUnit) (c : Chain) : (s.setEng u c).regions = s.regions := by cases u <;> rfl
@[simp] theorem setEng_nextRegion (s : State) (u : ChainUnit) (c : Chain) : (s.setEng u c).nextRegion = s.nextRegion := by cases u <;> rfl
@[simp] theorem setEng_watches (s : State) (u : ChainUnit) (c : Chain) : (s.setEng u c).watches = s.watches := by cases u <;> rfl
@[simp] theorem setEng_ctxs (s : State) (u : ChainUnit) (c : Chain) : (s.setEng u c).ctxs = s.ctxs := by cases u <;> rfl
@[simp] theorem setEng_tenants (s : State) (u : ChainUnit) (c : Chain) : (s.setEng u c).tenants = s.tenants := by cases u <;> rfl
@[simp] theorem setEng_streams (s : State) (u : ChainUnit) (c : Chain) : (s.setEng u c).streams = s.streams := by cases u <;> rfl
@[simp] theorem setEng_media (s : State) (u : ChainUnit) (c : Chain) : (s.setEng u c).media = s.media := by cases u <;> rfl
@[simp] theorem setEng_mod (s : State) (u : ChainUnit) (c : Chain) : (s.setEng u c).mod = s.mod := by cases u <;> rfl
@[simp] theorem setEng_time (s : State) (u : ChainUnit) (c : Chain) : (s.setEng u c).time = s.time := by cases u <;> rfl
@[simp] theorem setEng_lcAt (s : State) (u : ChainUnit) (c : Chain) : (s.setEng u c).lcAt = s.lcAt := by cases u <;> rfl
@[simp] theorem setEng_turn (s : State) (u : ChainUnit) (c : Chain) : (s.setEng u c).turn = s.turn := by cases u <;> rfl
@[simp] theorem setEng_steps (s : State) (u : ChainUnit) (c : Chain) : (s.setEng u c).steps = s.steps := by cases u <;> rfl
@[simp] theorem setEng_free (s : State) (u : ChainUnit) (c : Chain) : (s.setEng u c).free = s.free := by cases u <;> rfl
@[simp] theorem setEng_inputs (s : State) (u : ChainUnit) (c : Chain) : (s.setEng u c).inputs = s.inputs := by cases u <;> rfl
@[simp] theorem setEng_out (s : State) (u : ChainUnit) (c : Chain) : (s.setEng u c).out = s.out := by cases u <;> rfl
@[simp] theorem setEng_tp_ac (s : State) (u : ChainUnit) (c : Chain) : (s.setEng u c).tp.ac = s.tp.ac := by cases u <;> rfl
@[simp] theorem setEng_tp_ec (s : State) (u : ChainUnit) (c : Chain) : (s.setEng u c).tp.ec = s.tp.ec := by cases u <;> rfl
@[simp] theorem setEng_tp_be (s : State) (u : ChainUnit) (c : Chain) : (s.setEng u c).tp.be = s.tp.be := by cases u <;> rfl
@[simp] theorem setEng_tp_slots (s : State) (u : ChainUnit) (c : Chain) : (s.setEng u c).tp.slots = s.tp.slots := by cases u <;> rfl
@[simp] theorem setEng_tp_queues (s : State) (u : ChainUnit) (c : Chain) : (s.setEng u c).tp.queues = s.tp.queues := by cases u <;> rfl
@[simp] theorem setEng_tp_tokens (s : State) (u : ChainUnit) (c : Chain) : (s.setEng u c).tp.tokens = s.tp.tokens := by cases u <;> rfl
@[simp] theorem setEng_tp_banks (s : State) (u : ChainUnit) (c : Chain) : (s.setEng u c).tp.banks = s.tp.banks := by cases u <;> rfl
@[simp] theorem setEng_tp_brr (s : State) (u : ChainUnit) (c : Chain) : (s.setEng u c).tp.brr = s.tp.brr := by cases u <;> rfl
@[simp] theorem setEng_tp_qdir (s : State) (u : ChainUnit) (c : Chain) : (s.setEng u c).tp.qdir = s.tp.qdir := by cases u <;> rfl
@[simp] theorem setEng_tp_svwm (s : State) (u : ChainUnit) (c : Chain) : (s.setEng u c).tp.svwm = s.tp.svwm := by cases u <;> rfl
@[simp] theorem setEng_tp_svwmAt (s : State) (u : ChainUnit) (c : Chain) : (s.setEng u c).tp.svwmAt = s.tp.svwmAt := by cases u <;> rfl
@[simp] theorem setEng_tp_late (s : State) (u : ChainUnit) (c : Chain) : (s.setEng u c).tp.late = s.tp.late := by cases u <;> rfl
@[simp] theorem setEng_tp_tasks (s : State) (u : ChainUnit) (c : Chain) : (s.setEng u c).tp.tasks = s.tp.tasks := by cases u <;> rfl
@[simp] theorem setEng_tp_cur (s : State) (u : ChainUnit) (c : Chain) : (s.setEng u c).tp.cur = s.tp.cur := by cases u <;> rfl
@[simp] theorem setEng_tp_tokTask (s : State) (u : ChainUnit) (c : Chain) : (s.setEng u c).tp.tokTask = s.tp.tokTask := by cases u <;> rfl
@[simp] theorem setEng_tp_role (s : State) (u : ChainUnit) (c : Chain) : (s.setEng u c).tp.role = s.tp.role := by cases u <;> rfl
@[simp] theorem setEng_tp_preempt (s : State) (u : ChainUnit) (c : Chain) : (s.setEng u c).tp.preempt = s.tp.preempt := by cases u <;> rfl
@[simp] theorem setEng_tp_holdAt (s : State) (u : ChainUnit) (c : Chain) : (s.setEng u c).tp.holdAt = s.tp.holdAt := by cases u <;> rfl
@[simp] theorem setEng_tp_stopNow (s : State) (u : ChainUnit) (c : Chain) : (s.setEng u c).tp.stopNow = s.tp.stopNow := by cases u <;> rfl
@[simp] theorem setEng_tp_images (s : State) (u : ChainUnit) (c : Chain) : (s.setEng u c).tp.images = s.tp.images := by cases u <;> rfl
@[simp] theorem setEng_tp_frame (s : State) (u : ChainUnit) (c : Chain) : (s.setEng u c).tp.frame = s.tp.frame := by cases u <;> rfl
@[simp] theorem setEng_tp_bulk (s : State) (u : ChainUnit) (c : Chain) : (s.setEng u c).tp.bulk = s.tp.bulk := by cases u <;> rfl
@[simp] theorem setEng_tp_tlb (s : State) (u : ChainUnit) (c : Chain) : (s.setEng u c).tp.tlb = s.tp.tlb := by cases u <;> rfl
@[simp] theorem setEng_tp_cache (s : State) (u : ChainUnit) (c : Chain) : (s.setEng u c).tp.cache = s.tp.cache := by cases u <;> rfl
@[simp] theorem setEng_tp_stale (s : State) (u : ChainUnit) (c : Chain) : (s.setEng u c).tp.stale = s.tp.stale := by cases u <;> rfl
@[simp] theorem setEng_tp_bankStale (s : State) (u : ChainUnit) (c : Chain) : (s.setEng u c).tp.bankStale = s.tp.bankStale := by cases u <;> rfl
@[simp] theorem setEng_tp_events (s : State) (u : ChainUnit) (c : Chain) : (s.setEng u c).tp.events = s.tp.events := by cases u <;> rfl
@[simp] theorem setEng_tp_issued (s : State) (u : ChainUnit) (c : Chain) : (s.setEng u c).tp.issued = s.tp.issued := by cases u <;> rfl
@[simp] theorem setEng_tp_doneCmd (s : State) (u : ChainUnit) (c : Chain) : (s.setEng u c).tp.doneCmd = s.tp.doneCmd := by cases u <;> rfl
@[simp] theorem setEng_tp_poison (s : State) (u : ChainUnit) (c : Chain) : (s.setEng u c).tp.poison = s.tp.poison := by cases u <;> rfl
@[simp] theorem setEng_tp_peersReached (s : State) (u : ChainUnit) (c : Chain) : (s.setEng u c).tp.peersReached = s.tp.peersReached := by cases u <;> rfl
@[simp] theorem setEng_tp_lastCtx (s : State) (u : ChainUnit) (c : Chain) : (s.setEng u c).tp.lastCtx = s.tp.lastCtx := by cases u <;> rfl
@[simp] theorem setEng_tp_bankEra (s : State) (u : ChainUnit) (c : Chain) : (s.setEng u c).tp.bankEra = s.tp.bankEra := by cases u <;> rfl
@[simp] theorem setEng_tp_bankOwner (s : State) (u : ChainUnit) (c : Chain) : (s.setEng u c).tp.bankOwner = s.tp.bankOwner := by cases u <;> rfl
@[simp] theorem setEng_tp_bankMixed (s : State) (u : ChainUnit) (c : Chain) : (s.setEng u c).tp.bankMixed = s.tp.bankMixed := by cases u <;> rfl
@[simp] theorem setEng_tp_parity (s : State) (u : ChainUnit) (c : Chain) : (s.setEng u c).tp.parity = s.tp.parity := by cases u <;> rfl
@[simp] theorem setEng_tp_spent (s : State) (u : ChainUnit) (c : Chain) : (s.setEng u c).tp.spent = s.tp.spent := by cases u <;> rfl
@[simp] theorem setEng_tp_ran (s : State) (u : ChainUnit) (c : Chain) : (s.setEng u c).tp.ran = s.tp.ran := by cases u <;> rfl
@[simp] theorem setEng_tp_meterAt (s : State) (u : ChainUnit) (c : Chain) : (s.setEng u c).tp.meterAt = s.tp.meterAt := by cases u <;> rfl
@[simp] theorem eng_setEng (s : State) (u : ChainUnit) (c : Chain) : (s.setEng u c).eng u = c := by cases u <;> rfl
theorem eng_setEng_ne (s : State) (u v : ChainUnit) (c : Chain) (h : v ≠ u) : (s.setEng u c).eng v = s.eng v := by
  cases u <;> cases v <;> first | rfl | exact absurd rfl h

/-! ## setPc -/

@[simp] theorem setPc_cur (s : State) (v : Dword) : (s.setPc v).cur = s.cur := rfl
@[simp] theorem setPc_others (s : State) (v : Dword) : (s.setPc v).others = s.others := rfl
@[simp] theorem setPc_mem (s : State) (v : Dword) : (s.setPc v).mem = s.mem := rfl
@[simp] theorem setPc_lines (s : State) (v : Dword) : (s.setPc v).lines = s.lines := rfl
@[simp] theorem setPc_weak (s : State) (v : Dword) : (s.setPc v).weak = s.weak := rfl
@[simp] theorem setPc_mediaStale (s : State) (v : Dword) : (s.setPc v).mediaStale = s.mediaStale := rfl
@[simp] theorem setPc_writers (s : State) (v : Dword) : (s.setPc v).writers = s.writers := rfl
@[simp] theorem setPc_wide (s : State) (v : Dword) : (s.setPc v).wide = s.wide := rfl
@[simp] theorem setPc_flags (s : State) (v : Dword) : (s.setPc v).flags = s.flags := rfl
@[simp] theorem setPc_cores (s : State) (v : Dword) : (s.setPc v).cores = s.cores := rfl
@[simp] theorem setPc_tracked (s : State) (v : Dword) : (s.setPc v).tracked = s.tracked := rfl
@[simp] theorem setPc_atc (s : State) (v : Dword) : (s.setPc v).atc = s.atc := rfl
@[simp] theorem setPc_requests (s : State) (v : Dword) : (s.setPc v).requests = s.requests := rfl
@[simp] theorem setPc_invalidations (s : State) (v : Dword) : (s.setPc v).invalidations = s.invalidations := rfl
@[simp] theorem setPc_faults (s : State) (v : Dword) : (s.setPc v).faults = s.faults := rfl
@[simp] theorem setPc_denied (s : State) (v : Dword) : (s.setPc v).denied = s.denied := rfl
@[simp] theorem setPc_queues (s : State) (v : Dword) : (s.setPc v).queues = s.queues := rfl
@[simp] theorem setPc_launches (s : State) (v : Dword) : (s.setPc v).launches = s.launches := rfl
@[simp] theorem setPc_nextTask (s : State) (v : Dword) : (s.setPc v).nextTask = s.nextTask := rfl
@[simp] theorem setPc_nextMedia (s : State) (v : Dword) : (s.setPc v).nextMedia = s.nextMedia := rfl
@[simp] theorem setPc_turnstiles (s : State) (v : Dword) : (s.setPc v).turnstiles = s.turnstiles := rfl
@[simp] theorem setPc_dealt (s : State) (v : Dword) : (s.setPc v).dealt = s.dealt := rfl
@[simp] theorem setPc_homeless (s : State) (v : Dword) : (s.setPc v).homeless = s.homeless := rfl
@[simp] theorem setPc_regions (s : State) (v : Dword) : (s.setPc v).regions = s.regions := rfl
@[simp] theorem setPc_nextRegion (s : State) (v : Dword) : (s.setPc v).nextRegion = s.nextRegion := rfl
@[simp] theorem setPc_watches (s : State) (v : Dword) : (s.setPc v).watches = s.watches := rfl
@[simp] theorem setPc_ctxs (s : State) (v : Dword) : (s.setPc v).ctxs = s.ctxs := rfl
@[simp] theorem setPc_tenants (s : State) (v : Dword) : (s.setPc v).tenants = s.tenants := rfl
@[simp] theorem setPc_streams (s : State) (v : Dword) : (s.setPc v).streams = s.streams := rfl
@[simp] theorem setPc_media (s : State) (v : Dword) : (s.setPc v).media = s.media := rfl
@[simp] theorem setPc_mod (s : State) (v : Dword) : (s.setPc v).mod = s.mod := rfl
@[simp] theorem setPc_time (s : State) (v : Dword) : (s.setPc v).time = s.time := rfl
@[simp] theorem setPc_lcAt (s : State) (v : Dword) : (s.setPc v).lcAt = s.lcAt := rfl
@[simp] theorem setPc_turn (s : State) (v : Dword) : (s.setPc v).turn = s.turn := rfl
@[simp] theorem setPc_steps (s : State) (v : Dword) : (s.setPc v).steps = s.steps := rfl
@[simp] theorem setPc_free (s : State) (v : Dword) : (s.setPc v).free = s.free := rfl
@[simp] theorem setPc_inputs (s : State) (v : Dword) : (s.setPc v).inputs = s.inputs := rfl
@[simp] theorem setPc_out (s : State) (v : Dword) : (s.setPc v).out = s.out := rfl
@[simp] theorem setPc_tp_ac (s : State) (v : Dword) : (s.setPc v).tp.ac = { s.tp.ac with pc := v } := rfl
@[simp] theorem setPc_tp_ec (s : State) (v : Dword) : (s.setPc v).tp.ec = s.tp.ec := rfl
@[simp] theorem setPc_tp_be (s : State) (v : Dword) : (s.setPc v).tp.be = s.tp.be := rfl
@[simp] theorem setPc_tp_ce (s : State) (v : Dword) : (s.setPc v).tp.ce = s.tp.ce := rfl
@[simp] theorem setPc_tp_ie (s : State) (v : Dword) : (s.setPc v).tp.ie = s.tp.ie := rfl
@[simp] theorem setPc_tp_he (s : State) (v : Dword) : (s.setPc v).tp.he = s.tp.he := rfl
@[simp] theorem setPc_tp_slots (s : State) (v : Dword) : (s.setPc v).tp.slots = s.tp.slots := rfl
@[simp] theorem setPc_tp_queues (s : State) (v : Dword) : (s.setPc v).tp.queues = s.tp.queues := rfl
@[simp] theorem setPc_tp_tokens (s : State) (v : Dword) : (s.setPc v).tp.tokens = s.tp.tokens := rfl
@[simp] theorem setPc_tp_banks (s : State) (v : Dword) : (s.setPc v).tp.banks = s.tp.banks := rfl
@[simp] theorem setPc_tp_brr (s : State) (v : Dword) : (s.setPc v).tp.brr = s.tp.brr := rfl
@[simp] theorem setPc_tp_qdir (s : State) (v : Dword) : (s.setPc v).tp.qdir = s.tp.qdir := rfl
@[simp] theorem setPc_tp_svwm (s : State) (v : Dword) : (s.setPc v).tp.svwm = s.tp.svwm := rfl
@[simp] theorem setPc_tp_svwmAt (s : State) (v : Dword) : (s.setPc v).tp.svwmAt = s.tp.svwmAt := rfl
@[simp] theorem setPc_tp_late (s : State) (v : Dword) : (s.setPc v).tp.late = s.tp.late := rfl
@[simp] theorem setPc_tp_tasks (s : State) (v : Dword) : (s.setPc v).tp.tasks = s.tp.tasks := rfl
@[simp] theorem setPc_tp_cur (s : State) (v : Dword) : (s.setPc v).tp.cur = s.tp.cur := rfl
@[simp] theorem setPc_tp_tokTask (s : State) (v : Dword) : (s.setPc v).tp.tokTask = s.tp.tokTask := rfl
@[simp] theorem setPc_tp_role (s : State) (v : Dword) : (s.setPc v).tp.role = s.tp.role := rfl
@[simp] theorem setPc_tp_preempt (s : State) (v : Dword) : (s.setPc v).tp.preempt = s.tp.preempt := rfl
@[simp] theorem setPc_tp_holdAt (s : State) (v : Dword) : (s.setPc v).tp.holdAt = s.tp.holdAt := rfl
@[simp] theorem setPc_tp_stopNow (s : State) (v : Dword) : (s.setPc v).tp.stopNow = s.tp.stopNow := rfl
@[simp] theorem setPc_tp_images (s : State) (v : Dword) : (s.setPc v).tp.images = s.tp.images := rfl
@[simp] theorem setPc_tp_frame (s : State) (v : Dword) : (s.setPc v).tp.frame = s.tp.frame := rfl
@[simp] theorem setPc_tp_bulk (s : State) (v : Dword) : (s.setPc v).tp.bulk = s.tp.bulk := rfl
@[simp] theorem setPc_tp_tlb (s : State) (v : Dword) : (s.setPc v).tp.tlb = s.tp.tlb := rfl
@[simp] theorem setPc_tp_cache (s : State) (v : Dword) : (s.setPc v).tp.cache = s.tp.cache := rfl
@[simp] theorem setPc_tp_stale (s : State) (v : Dword) : (s.setPc v).tp.stale = s.tp.stale := rfl
@[simp] theorem setPc_tp_bankStale (s : State) (v : Dword) : (s.setPc v).tp.bankStale = s.tp.bankStale := rfl
@[simp] theorem setPc_tp_events (s : State) (v : Dword) : (s.setPc v).tp.events = s.tp.events := rfl
@[simp] theorem setPc_tp_issued (s : State) (v : Dword) : (s.setPc v).tp.issued = s.tp.issued := rfl
@[simp] theorem setPc_tp_doneCmd (s : State) (v : Dword) : (s.setPc v).tp.doneCmd = s.tp.doneCmd := rfl
@[simp] theorem setPc_tp_poison (s : State) (v : Dword) : (s.setPc v).tp.poison = s.tp.poison := rfl
@[simp] theorem setPc_tp_peersReached (s : State) (v : Dword) : (s.setPc v).tp.peersReached = s.tp.peersReached := rfl
@[simp] theorem setPc_tp_lastCtx (s : State) (v : Dword) : (s.setPc v).tp.lastCtx = s.tp.lastCtx := rfl
@[simp] theorem setPc_tp_bankEra (s : State) (v : Dword) : (s.setPc v).tp.bankEra = s.tp.bankEra := rfl
@[simp] theorem setPc_tp_bankOwner (s : State) (v : Dword) : (s.setPc v).tp.bankOwner = s.tp.bankOwner := rfl
@[simp] theorem setPc_tp_bankMixed (s : State) (v : Dword) : (s.setPc v).tp.bankMixed = s.tp.bankMixed := rfl
@[simp] theorem setPc_tp_parity (s : State) (v : Dword) : (s.setPc v).tp.parity = s.tp.parity := rfl
@[simp] theorem setPc_tp_spent (s : State) (v : Dword) : (s.setPc v).tp.spent = s.tp.spent := rfl
@[simp] theorem setPc_tp_ran (s : State) (v : Dword) : (s.setPc v).tp.ran = s.tp.ran := rfl
@[simp] theorem setPc_tp_meterAt (s : State) (v : Dword) : (s.setPc v).tp.meterAt = s.tp.meterAt := rfl

/-! ## setHandle -/

@[simp] theorem setHandle_cur (s : State) (n : BitVec 4) (h : Handle) : (s.setHandle n h).cur = s.cur := rfl
@[simp] theorem setHandle_others (s : State) (n : BitVec 4) (h : Handle) : (s.setHandle n h).others = s.others := rfl
@[simp] theorem setHandle_mem (s : State) (n : BitVec 4) (h : Handle) : (s.setHandle n h).mem = s.mem := rfl
@[simp] theorem setHandle_lines (s : State) (n : BitVec 4) (h : Handle) : (s.setHandle n h).lines = s.lines := rfl
@[simp] theorem setHandle_weak (s : State) (n : BitVec 4) (h : Handle) : (s.setHandle n h).weak = s.weak := rfl
@[simp] theorem setHandle_mediaStale (s : State) (n : BitVec 4) (h : Handle) : (s.setHandle n h).mediaStale = s.mediaStale := rfl
@[simp] theorem setHandle_writers (s : State) (n : BitVec 4) (h : Handle) : (s.setHandle n h).writers = s.writers := rfl
@[simp] theorem setHandle_wide (s : State) (n : BitVec 4) (h : Handle) : (s.setHandle n h).wide = s.wide := rfl
@[simp] theorem setHandle_flags (s : State) (n : BitVec 4) (h : Handle) : (s.setHandle n h).flags = s.flags := rfl
@[simp] theorem setHandle_cores (s : State) (n : BitVec 4) (h : Handle) : (s.setHandle n h).cores = s.cores := rfl
@[simp] theorem setHandle_tracked (s : State) (n : BitVec 4) (h : Handle) : (s.setHandle n h).tracked = s.tracked := rfl
@[simp] theorem setHandle_atc (s : State) (n : BitVec 4) (h : Handle) : (s.setHandle n h).atc = s.atc := rfl
@[simp] theorem setHandle_requests (s : State) (n : BitVec 4) (h : Handle) : (s.setHandle n h).requests = s.requests := rfl
@[simp] theorem setHandle_invalidations (s : State) (n : BitVec 4) (h : Handle) : (s.setHandle n h).invalidations = s.invalidations := rfl
@[simp] theorem setHandle_faults (s : State) (n : BitVec 4) (h : Handle) : (s.setHandle n h).faults = s.faults := rfl
@[simp] theorem setHandle_denied (s : State) (n : BitVec 4) (h : Handle) : (s.setHandle n h).denied = s.denied := rfl
@[simp] theorem setHandle_queues (s : State) (n : BitVec 4) (h : Handle) : (s.setHandle n h).queues = s.queues := rfl
@[simp] theorem setHandle_launches (s : State) (n : BitVec 4) (h : Handle) : (s.setHandle n h).launches = s.launches := rfl
@[simp] theorem setHandle_nextTask (s : State) (n : BitVec 4) (h : Handle) : (s.setHandle n h).nextTask = s.nextTask := rfl
@[simp] theorem setHandle_nextMedia (s : State) (n : BitVec 4) (h : Handle) : (s.setHandle n h).nextMedia = s.nextMedia := rfl
@[simp] theorem setHandle_turnstiles (s : State) (n : BitVec 4) (h : Handle) : (s.setHandle n h).turnstiles = s.turnstiles := rfl
@[simp] theorem setHandle_dealt (s : State) (n : BitVec 4) (h : Handle) : (s.setHandle n h).dealt = s.dealt := rfl
@[simp] theorem setHandle_homeless (s : State) (n : BitVec 4) (h : Handle) : (s.setHandle n h).homeless = s.homeless := rfl
@[simp] theorem setHandle_regions (s : State) (n : BitVec 4) (h : Handle) : (s.setHandle n h).regions = s.regions := rfl
@[simp] theorem setHandle_nextRegion (s : State) (n : BitVec 4) (h : Handle) : (s.setHandle n h).nextRegion = s.nextRegion := rfl
@[simp] theorem setHandle_watches (s : State) (n : BitVec 4) (h : Handle) : (s.setHandle n h).watches = s.watches := rfl
@[simp] theorem setHandle_ctxs (s : State) (n : BitVec 4) (h : Handle) : (s.setHandle n h).ctxs = s.ctxs := rfl
@[simp] theorem setHandle_tenants (s : State) (n : BitVec 4) (h : Handle) : (s.setHandle n h).tenants = s.tenants := rfl
@[simp] theorem setHandle_streams (s : State) (n : BitVec 4) (h : Handle) : (s.setHandle n h).streams = s.streams := rfl
@[simp] theorem setHandle_media (s : State) (n : BitVec 4) (h : Handle) : (s.setHandle n h).media = s.media := rfl
@[simp] theorem setHandle_mod (s : State) (n : BitVec 4) (h : Handle) : (s.setHandle n h).mod = s.mod := rfl
@[simp] theorem setHandle_time (s : State) (n : BitVec 4) (h : Handle) : (s.setHandle n h).time = s.time := rfl
@[simp] theorem setHandle_lcAt (s : State) (n : BitVec 4) (h : Handle) : (s.setHandle n h).lcAt = s.lcAt := rfl
@[simp] theorem setHandle_turn (s : State) (n : BitVec 4) (h : Handle) : (s.setHandle n h).turn = s.turn := rfl
@[simp] theorem setHandle_steps (s : State) (n : BitVec 4) (h : Handle) : (s.setHandle n h).steps = s.steps := rfl
@[simp] theorem setHandle_free (s : State) (n : BitVec 4) (h : Handle) : (s.setHandle n h).free = s.free := rfl
@[simp] theorem setHandle_inputs (s : State) (n : BitVec 4) (h : Handle) : (s.setHandle n h).inputs = s.inputs := rfl
@[simp] theorem setHandle_out (s : State) (n : BitVec 4) (h : Handle) : (s.setHandle n h).out = s.out := rfl
@[simp] theorem setHandle_tp_ac (s : State) (n : BitVec 4) (h : Handle) : (s.setHandle n h).tp.ac = { s.tp.ac with handles := Map.put s.tp.ac.handles n.toNat h } := rfl
@[simp] theorem setHandle_tp_ec (s : State) (n : BitVec 4) (h : Handle) : (s.setHandle n h).tp.ec = s.tp.ec := rfl
@[simp] theorem setHandle_tp_be (s : State) (n : BitVec 4) (h : Handle) : (s.setHandle n h).tp.be = s.tp.be := rfl
@[simp] theorem setHandle_tp_ce (s : State) (n : BitVec 4) (h : Handle) : (s.setHandle n h).tp.ce = s.tp.ce := rfl
@[simp] theorem setHandle_tp_ie (s : State) (n : BitVec 4) (h : Handle) : (s.setHandle n h).tp.ie = s.tp.ie := rfl
@[simp] theorem setHandle_tp_he (s : State) (n : BitVec 4) (h : Handle) : (s.setHandle n h).tp.he = s.tp.he := rfl
@[simp] theorem setHandle_tp_slots (s : State) (n : BitVec 4) (h : Handle) : (s.setHandle n h).tp.slots = s.tp.slots := rfl
@[simp] theorem setHandle_tp_queues (s : State) (n : BitVec 4) (h : Handle) : (s.setHandle n h).tp.queues = s.tp.queues := rfl
@[simp] theorem setHandle_tp_tokens (s : State) (n : BitVec 4) (h : Handle) : (s.setHandle n h).tp.tokens = s.tp.tokens := rfl
@[simp] theorem setHandle_tp_banks (s : State) (n : BitVec 4) (h : Handle) : (s.setHandle n h).tp.banks = s.tp.banks := rfl
@[simp] theorem setHandle_tp_brr (s : State) (n : BitVec 4) (h : Handle) : (s.setHandle n h).tp.brr = s.tp.brr := rfl
@[simp] theorem setHandle_tp_qdir (s : State) (n : BitVec 4) (h : Handle) : (s.setHandle n h).tp.qdir = s.tp.qdir := rfl
@[simp] theorem setHandle_tp_svwm (s : State) (n : BitVec 4) (h : Handle) : (s.setHandle n h).tp.svwm = s.tp.svwm := rfl
@[simp] theorem setHandle_tp_svwmAt (s : State) (n : BitVec 4) (h : Handle) : (s.setHandle n h).tp.svwmAt = s.tp.svwmAt := rfl
@[simp] theorem setHandle_tp_late (s : State) (n : BitVec 4) (h : Handle) : (s.setHandle n h).tp.late = s.tp.late := rfl
@[simp] theorem setHandle_tp_tasks (s : State) (n : BitVec 4) (h : Handle) : (s.setHandle n h).tp.tasks = s.tp.tasks := rfl
@[simp] theorem setHandle_tp_cur (s : State) (n : BitVec 4) (h : Handle) : (s.setHandle n h).tp.cur = s.tp.cur := rfl
@[simp] theorem setHandle_tp_tokTask (s : State) (n : BitVec 4) (h : Handle) : (s.setHandle n h).tp.tokTask = s.tp.tokTask := rfl
@[simp] theorem setHandle_tp_role (s : State) (n : BitVec 4) (h : Handle) : (s.setHandle n h).tp.role = s.tp.role := rfl
@[simp] theorem setHandle_tp_preempt (s : State) (n : BitVec 4) (h : Handle) : (s.setHandle n h).tp.preempt = s.tp.preempt := rfl
@[simp] theorem setHandle_tp_holdAt (s : State) (n : BitVec 4) (h : Handle) : (s.setHandle n h).tp.holdAt = s.tp.holdAt := rfl
@[simp] theorem setHandle_tp_stopNow (s : State) (n : BitVec 4) (h : Handle) : (s.setHandle n h).tp.stopNow = s.tp.stopNow := rfl
@[simp] theorem setHandle_tp_images (s : State) (n : BitVec 4) (h : Handle) : (s.setHandle n h).tp.images = s.tp.images := rfl
@[simp] theorem setHandle_tp_frame (s : State) (n : BitVec 4) (h : Handle) : (s.setHandle n h).tp.frame = s.tp.frame := rfl
@[simp] theorem setHandle_tp_bulk (s : State) (n : BitVec 4) (h : Handle) : (s.setHandle n h).tp.bulk = s.tp.bulk := rfl
@[simp] theorem setHandle_tp_tlb (s : State) (n : BitVec 4) (h : Handle) : (s.setHandle n h).tp.tlb = s.tp.tlb := rfl
@[simp] theorem setHandle_tp_cache (s : State) (n : BitVec 4) (h : Handle) : (s.setHandle n h).tp.cache = s.tp.cache := rfl
@[simp] theorem setHandle_tp_stale (s : State) (n : BitVec 4) (h : Handle) : (s.setHandle n h).tp.stale = s.tp.stale := rfl
@[simp] theorem setHandle_tp_bankStale (s : State) (n : BitVec 4) (h : Handle) : (s.setHandle n h).tp.bankStale = s.tp.bankStale := rfl
@[simp] theorem setHandle_tp_events (s : State) (n : BitVec 4) (h : Handle) : (s.setHandle n h).tp.events = s.tp.events := rfl
@[simp] theorem setHandle_tp_issued (s : State) (n : BitVec 4) (h : Handle) : (s.setHandle n h).tp.issued = s.tp.issued := rfl
@[simp] theorem setHandle_tp_doneCmd (s : State) (n : BitVec 4) (h : Handle) : (s.setHandle n h).tp.doneCmd = s.tp.doneCmd := rfl
@[simp] theorem setHandle_tp_poison (s : State) (n : BitVec 4) (h : Handle) : (s.setHandle n h).tp.poison = s.tp.poison := rfl
@[simp] theorem setHandle_tp_peersReached (s : State) (n : BitVec 4) (h : Handle) : (s.setHandle n h).tp.peersReached = s.tp.peersReached := rfl
@[simp] theorem setHandle_tp_lastCtx (s : State) (n : BitVec 4) (h : Handle) : (s.setHandle n h).tp.lastCtx = s.tp.lastCtx := rfl
@[simp] theorem setHandle_tp_bankEra (s : State) (n : BitVec 4) (h : Handle) : (s.setHandle n h).tp.bankEra = s.tp.bankEra := rfl
@[simp] theorem setHandle_tp_bankOwner (s : State) (n : BitVec 4) (h : Handle) : (s.setHandle n h).tp.bankOwner = s.tp.bankOwner := rfl
@[simp] theorem setHandle_tp_bankMixed (s : State) (n : BitVec 4) (h : Handle) : (s.setHandle n h).tp.bankMixed = s.tp.bankMixed := rfl
@[simp] theorem setHandle_tp_parity (s : State) (n : BitVec 4) (h : Handle) : (s.setHandle n h).tp.parity = s.tp.parity := rfl
@[simp] theorem setHandle_tp_spent (s : State) (n : BitVec 4) (h : Handle) : (s.setHandle n h).tp.spent = s.tp.spent := rfl
@[simp] theorem setHandle_tp_ran (s : State) (n : BitVec 4) (h : Handle) : (s.setHandle n h).tp.ran = s.tp.ran := rfl
@[simp] theorem setHandle_tp_meterAt (s : State) (n : BitVec 4) (h : Handle) : (s.setHandle n h).tp.meterAt = s.tp.meterAt := rfl

/-! ## setTokens -/

@[simp] theorem setTokens_cur (s : State) (p c n : Nat) : (s.setTokens p c n).cur = s.cur := rfl
@[simp] theorem setTokens_others (s : State) (p c n : Nat) : (s.setTokens p c n).others = s.others := rfl
@[simp] theorem setTokens_mem (s : State) (p c n : Nat) : (s.setTokens p c n).mem = s.mem := rfl
@[simp] theorem setTokens_lines (s : State) (p c n : Nat) : (s.setTokens p c n).lines = s.lines := rfl
@[simp] theorem setTokens_weak (s : State) (p c n : Nat) : (s.setTokens p c n).weak = s.weak := rfl
@[simp] theorem setTokens_mediaStale (s : State) (p c n : Nat) : (s.setTokens p c n).mediaStale = s.mediaStale := rfl
@[simp] theorem setTokens_writers (s : State) (p c n : Nat) : (s.setTokens p c n).writers = s.writers := rfl
@[simp] theorem setTokens_wide (s : State) (p c n : Nat) : (s.setTokens p c n).wide = s.wide := rfl
@[simp] theorem setTokens_flags (s : State) (p c n : Nat) : (s.setTokens p c n).flags = s.flags := rfl
@[simp] theorem setTokens_cores (s : State) (p c n : Nat) : (s.setTokens p c n).cores = s.cores := rfl
@[simp] theorem setTokens_tracked (s : State) (p c n : Nat) : (s.setTokens p c n).tracked = s.tracked := rfl
@[simp] theorem setTokens_atc (s : State) (p c n : Nat) : (s.setTokens p c n).atc = s.atc := rfl
@[simp] theorem setTokens_requests (s : State) (p c n : Nat) : (s.setTokens p c n).requests = s.requests := rfl
@[simp] theorem setTokens_invalidations (s : State) (p c n : Nat) : (s.setTokens p c n).invalidations = s.invalidations := rfl
@[simp] theorem setTokens_faults (s : State) (p c n : Nat) : (s.setTokens p c n).faults = s.faults := rfl
@[simp] theorem setTokens_denied (s : State) (p c n : Nat) : (s.setTokens p c n).denied = s.denied := rfl
@[simp] theorem setTokens_queues (s : State) (p c n : Nat) : (s.setTokens p c n).queues = s.queues := rfl
@[simp] theorem setTokens_launches (s : State) (p c n : Nat) : (s.setTokens p c n).launches = s.launches := rfl
@[simp] theorem setTokens_nextTask (s : State) (p c n : Nat) : (s.setTokens p c n).nextTask = s.nextTask := rfl
@[simp] theorem setTokens_nextMedia (s : State) (p c n : Nat) : (s.setTokens p c n).nextMedia = s.nextMedia := rfl
@[simp] theorem setTokens_turnstiles (s : State) (p c n : Nat) : (s.setTokens p c n).turnstiles = s.turnstiles := rfl
@[simp] theorem setTokens_dealt (s : State) (p c n : Nat) : (s.setTokens p c n).dealt = s.dealt := rfl
@[simp] theorem setTokens_homeless (s : State) (p c n : Nat) : (s.setTokens p c n).homeless = s.homeless := rfl
@[simp] theorem setTokens_regions (s : State) (p c n : Nat) : (s.setTokens p c n).regions = s.regions := rfl
@[simp] theorem setTokens_nextRegion (s : State) (p c n : Nat) : (s.setTokens p c n).nextRegion = s.nextRegion := rfl
@[simp] theorem setTokens_watches (s : State) (p c n : Nat) : (s.setTokens p c n).watches = s.watches := rfl
@[simp] theorem setTokens_ctxs (s : State) (p c n : Nat) : (s.setTokens p c n).ctxs = s.ctxs := rfl
@[simp] theorem setTokens_tenants (s : State) (p c n : Nat) : (s.setTokens p c n).tenants = s.tenants := rfl
@[simp] theorem setTokens_streams (s : State) (p c n : Nat) : (s.setTokens p c n).streams = s.streams := rfl
@[simp] theorem setTokens_media (s : State) (p c n : Nat) : (s.setTokens p c n).media = s.media := rfl
@[simp] theorem setTokens_mod (s : State) (p c n : Nat) : (s.setTokens p c n).mod = s.mod := rfl
@[simp] theorem setTokens_time (s : State) (p c n : Nat) : (s.setTokens p c n).time = s.time := rfl
@[simp] theorem setTokens_lcAt (s : State) (p c n : Nat) : (s.setTokens p c n).lcAt = s.lcAt := rfl
@[simp] theorem setTokens_turn (s : State) (p c n : Nat) : (s.setTokens p c n).turn = s.turn := rfl
@[simp] theorem setTokens_steps (s : State) (p c n : Nat) : (s.setTokens p c n).steps = s.steps := rfl
@[simp] theorem setTokens_free (s : State) (p c n : Nat) : (s.setTokens p c n).free = s.free := rfl
@[simp] theorem setTokens_inputs (s : State) (p c n : Nat) : (s.setTokens p c n).inputs = s.inputs := rfl
@[simp] theorem setTokens_out (s : State) (p c n : Nat) : (s.setTokens p c n).out = s.out := rfl
@[simp] theorem setTokens_tp_ac (s : State) (p c n : Nat) : (s.setTokens p c n).tp.ac = s.tp.ac := rfl
@[simp] theorem setTokens_tp_ec (s : State) (p c n : Nat) : (s.setTokens p c n).tp.ec = s.tp.ec := rfl
@[simp] theorem setTokens_tp_be (s : State) (p c n : Nat) : (s.setTokens p c n).tp.be = s.tp.be := rfl
@[simp] theorem setTokens_tp_ce (s : State) (p c n : Nat) : (s.setTokens p c n).tp.ce = s.tp.ce := rfl
@[simp] theorem setTokens_tp_ie (s : State) (p c n : Nat) : (s.setTokens p c n).tp.ie = s.tp.ie := rfl
@[simp] theorem setTokens_tp_he (s : State) (p c n : Nat) : (s.setTokens p c n).tp.he = s.tp.he := rfl
@[simp] theorem setTokens_tp_slots (s : State) (p c n : Nat) : (s.setTokens p c n).tp.slots = s.tp.slots := rfl
@[simp] theorem setTokens_tp_queues (s : State) (p c n : Nat) : (s.setTokens p c n).tp.queues = s.tp.queues := rfl
@[simp] theorem setTokens_tp_tokens (s : State) (p c n : Nat) : (s.setTokens p c n).tp.tokens = Sparse.set s.tp.tokens (tokenIndex p c) (BitVec.ofNat 4 n) := rfl
@[simp] theorem setTokens_tp_banks (s : State) (p c n : Nat) : (s.setTokens p c n).tp.banks = s.tp.banks := rfl
@[simp] theorem setTokens_tp_brr (s : State) (p c n : Nat) : (s.setTokens p c n).tp.brr = s.tp.brr := rfl
@[simp] theorem setTokens_tp_qdir (s : State) (p c n : Nat) : (s.setTokens p c n).tp.qdir = s.tp.qdir := rfl
@[simp] theorem setTokens_tp_svwm (s : State) (p c n : Nat) : (s.setTokens p c n).tp.svwm = s.tp.svwm := rfl
@[simp] theorem setTokens_tp_svwmAt (s : State) (p c n : Nat) : (s.setTokens p c n).tp.svwmAt = s.tp.svwmAt := rfl
@[simp] theorem setTokens_tp_late (s : State) (p c n : Nat) : (s.setTokens p c n).tp.late = s.tp.late := rfl
@[simp] theorem setTokens_tp_tasks (s : State) (p c n : Nat) : (s.setTokens p c n).tp.tasks = s.tp.tasks := rfl
@[simp] theorem setTokens_tp_cur (s : State) (p c n : Nat) : (s.setTokens p c n).tp.cur = s.tp.cur := rfl
@[simp] theorem setTokens_tp_tokTask (s : State) (p c n : Nat) : (s.setTokens p c n).tp.tokTask = s.tp.tokTask := rfl
@[simp] theorem setTokens_tp_role (s : State) (p c n : Nat) : (s.setTokens p c n).tp.role = s.tp.role := rfl
@[simp] theorem setTokens_tp_preempt (s : State) (p c n : Nat) : (s.setTokens p c n).tp.preempt = s.tp.preempt := rfl
@[simp] theorem setTokens_tp_holdAt (s : State) (p c n : Nat) : (s.setTokens p c n).tp.holdAt = s.tp.holdAt := rfl
@[simp] theorem setTokens_tp_stopNow (s : State) (p c n : Nat) : (s.setTokens p c n).tp.stopNow = s.tp.stopNow := rfl
@[simp] theorem setTokens_tp_images (s : State) (p c n : Nat) : (s.setTokens p c n).tp.images = s.tp.images := rfl
@[simp] theorem setTokens_tp_frame (s : State) (p c n : Nat) : (s.setTokens p c n).tp.frame = s.tp.frame := rfl
@[simp] theorem setTokens_tp_bulk (s : State) (p c n : Nat) : (s.setTokens p c n).tp.bulk = s.tp.bulk := rfl
@[simp] theorem setTokens_tp_tlb (s : State) (p c n : Nat) : (s.setTokens p c n).tp.tlb = s.tp.tlb := rfl
@[simp] theorem setTokens_tp_cache (s : State) (p c n : Nat) : (s.setTokens p c n).tp.cache = s.tp.cache := rfl
@[simp] theorem setTokens_tp_stale (s : State) (p c n : Nat) : (s.setTokens p c n).tp.stale = s.tp.stale := rfl
@[simp] theorem setTokens_tp_bankStale (s : State) (p c n : Nat) : (s.setTokens p c n).tp.bankStale = s.tp.bankStale := rfl
@[simp] theorem setTokens_tp_events (s : State) (p c n : Nat) : (s.setTokens p c n).tp.events = s.tp.events := rfl
@[simp] theorem setTokens_tp_issued (s : State) (p c n : Nat) : (s.setTokens p c n).tp.issued = s.tp.issued := rfl
@[simp] theorem setTokens_tp_doneCmd (s : State) (p c n : Nat) : (s.setTokens p c n).tp.doneCmd = s.tp.doneCmd := rfl
@[simp] theorem setTokens_tp_poison (s : State) (p c n : Nat) : (s.setTokens p c n).tp.poison = s.tp.poison := rfl
@[simp] theorem setTokens_tp_peersReached (s : State) (p c n : Nat) : (s.setTokens p c n).tp.peersReached = s.tp.peersReached := rfl
@[simp] theorem setTokens_tp_lastCtx (s : State) (p c n : Nat) : (s.setTokens p c n).tp.lastCtx = s.tp.lastCtx := rfl
@[simp] theorem setTokens_tp_bankEra (s : State) (p c n : Nat) : (s.setTokens p c n).tp.bankEra = s.tp.bankEra := rfl
@[simp] theorem setTokens_tp_bankOwner (s : State) (p c n : Nat) : (s.setTokens p c n).tp.bankOwner = s.tp.bankOwner := rfl
@[simp] theorem setTokens_tp_bankMixed (s : State) (p c n : Nat) : (s.setTokens p c n).tp.bankMixed = s.tp.bankMixed := rfl
@[simp] theorem setTokens_tp_parity (s : State) (p c n : Nat) : (s.setTokens p c n).tp.parity = s.tp.parity := rfl
@[simp] theorem setTokens_tp_spent (s : State) (p c n : Nat) : (s.setTokens p c n).tp.spent = s.tp.spent := rfl
@[simp] theorem setTokens_tp_ran (s : State) (p c n : Nat) : (s.setTokens p c n).tp.ran = s.tp.ran := rfl
@[simp] theorem setTokens_tp_meterAt (s : State) (p c n : Nat) : (s.setTokens p c n).tp.meterAt = s.tp.meterAt := rfl

/-! ## setScalarQ -/

@[simp] theorem setScalarQ_cur (s : State) (q : Nat) (l : List Dword) : (s.setScalarQ q l).cur = s.cur := rfl
@[simp] theorem setScalarQ_others (s : State) (q : Nat) (l : List Dword) : (s.setScalarQ q l).others = s.others := rfl
@[simp] theorem setScalarQ_mem (s : State) (q : Nat) (l : List Dword) : (s.setScalarQ q l).mem = s.mem := rfl
@[simp] theorem setScalarQ_lines (s : State) (q : Nat) (l : List Dword) : (s.setScalarQ q l).lines = s.lines := rfl
@[simp] theorem setScalarQ_weak (s : State) (q : Nat) (l : List Dword) : (s.setScalarQ q l).weak = s.weak := rfl
@[simp] theorem setScalarQ_mediaStale (s : State) (q : Nat) (l : List Dword) : (s.setScalarQ q l).mediaStale = s.mediaStale := rfl
@[simp] theorem setScalarQ_writers (s : State) (q : Nat) (l : List Dword) : (s.setScalarQ q l).writers = s.writers := rfl
@[simp] theorem setScalarQ_wide (s : State) (q : Nat) (l : List Dword) : (s.setScalarQ q l).wide = s.wide := rfl
@[simp] theorem setScalarQ_flags (s : State) (q : Nat) (l : List Dword) : (s.setScalarQ q l).flags = s.flags := rfl
@[simp] theorem setScalarQ_cores (s : State) (q : Nat) (l : List Dword) : (s.setScalarQ q l).cores = s.cores := rfl
@[simp] theorem setScalarQ_tracked (s : State) (q : Nat) (l : List Dword) : (s.setScalarQ q l).tracked = s.tracked := rfl
@[simp] theorem setScalarQ_atc (s : State) (q : Nat) (l : List Dword) : (s.setScalarQ q l).atc = s.atc := rfl
@[simp] theorem setScalarQ_requests (s : State) (q : Nat) (l : List Dword) : (s.setScalarQ q l).requests = s.requests := rfl
@[simp] theorem setScalarQ_invalidations (s : State) (q : Nat) (l : List Dword) : (s.setScalarQ q l).invalidations = s.invalidations := rfl
@[simp] theorem setScalarQ_faults (s : State) (q : Nat) (l : List Dword) : (s.setScalarQ q l).faults = s.faults := rfl
@[simp] theorem setScalarQ_denied (s : State) (q : Nat) (l : List Dword) : (s.setScalarQ q l).denied = s.denied := rfl
@[simp] theorem setScalarQ_queues (s : State) (q : Nat) (l : List Dword) : (s.setScalarQ q l).queues = s.queues := rfl
@[simp] theorem setScalarQ_launches (s : State) (q : Nat) (l : List Dword) : (s.setScalarQ q l).launches = s.launches := rfl
@[simp] theorem setScalarQ_nextTask (s : State) (q : Nat) (l : List Dword) : (s.setScalarQ q l).nextTask = s.nextTask := rfl
@[simp] theorem setScalarQ_nextMedia (s : State) (q : Nat) (l : List Dword) : (s.setScalarQ q l).nextMedia = s.nextMedia := rfl
@[simp] theorem setScalarQ_turnstiles (s : State) (q : Nat) (l : List Dword) : (s.setScalarQ q l).turnstiles = s.turnstiles := rfl
@[simp] theorem setScalarQ_dealt (s : State) (q : Nat) (l : List Dword) : (s.setScalarQ q l).dealt = s.dealt := rfl
@[simp] theorem setScalarQ_homeless (s : State) (q : Nat) (l : List Dword) : (s.setScalarQ q l).homeless = s.homeless := rfl
@[simp] theorem setScalarQ_regions (s : State) (q : Nat) (l : List Dword) : (s.setScalarQ q l).regions = s.regions := rfl
@[simp] theorem setScalarQ_nextRegion (s : State) (q : Nat) (l : List Dword) : (s.setScalarQ q l).nextRegion = s.nextRegion := rfl
@[simp] theorem setScalarQ_watches (s : State) (q : Nat) (l : List Dword) : (s.setScalarQ q l).watches = s.watches := rfl
@[simp] theorem setScalarQ_ctxs (s : State) (q : Nat) (l : List Dword) : (s.setScalarQ q l).ctxs = s.ctxs := rfl
@[simp] theorem setScalarQ_tenants (s : State) (q : Nat) (l : List Dword) : (s.setScalarQ q l).tenants = s.tenants := rfl
@[simp] theorem setScalarQ_streams (s : State) (q : Nat) (l : List Dword) : (s.setScalarQ q l).streams = s.streams := rfl
@[simp] theorem setScalarQ_media (s : State) (q : Nat) (l : List Dword) : (s.setScalarQ q l).media = s.media := rfl
@[simp] theorem setScalarQ_mod (s : State) (q : Nat) (l : List Dword) : (s.setScalarQ q l).mod = s.mod := rfl
@[simp] theorem setScalarQ_time (s : State) (q : Nat) (l : List Dword) : (s.setScalarQ q l).time = s.time := rfl
@[simp] theorem setScalarQ_lcAt (s : State) (q : Nat) (l : List Dword) : (s.setScalarQ q l).lcAt = s.lcAt := rfl
@[simp] theorem setScalarQ_turn (s : State) (q : Nat) (l : List Dword) : (s.setScalarQ q l).turn = s.turn := rfl
@[simp] theorem setScalarQ_steps (s : State) (q : Nat) (l : List Dword) : (s.setScalarQ q l).steps = s.steps := rfl
@[simp] theorem setScalarQ_free (s : State) (q : Nat) (l : List Dword) : (s.setScalarQ q l).free = s.free := rfl
@[simp] theorem setScalarQ_inputs (s : State) (q : Nat) (l : List Dword) : (s.setScalarQ q l).inputs = s.inputs := rfl
@[simp] theorem setScalarQ_out (s : State) (q : Nat) (l : List Dword) : (s.setScalarQ q l).out = s.out := rfl
@[simp] theorem setScalarQ_tp_ac (s : State) (q : Nat) (l : List Dword) : (s.setScalarQ q l).tp.ac = s.tp.ac := rfl
@[simp] theorem setScalarQ_tp_ec (s : State) (q : Nat) (l : List Dword) : (s.setScalarQ q l).tp.ec = s.tp.ec := rfl
@[simp] theorem setScalarQ_tp_be (s : State) (q : Nat) (l : List Dword) : (s.setScalarQ q l).tp.be = s.tp.be := rfl
@[simp] theorem setScalarQ_tp_ce (s : State) (q : Nat) (l : List Dword) : (s.setScalarQ q l).tp.ce = s.tp.ce := rfl
@[simp] theorem setScalarQ_tp_ie (s : State) (q : Nat) (l : List Dword) : (s.setScalarQ q l).tp.ie = s.tp.ie := rfl
@[simp] theorem setScalarQ_tp_he (s : State) (q : Nat) (l : List Dword) : (s.setScalarQ q l).tp.he = s.tp.he := rfl
@[simp] theorem setScalarQ_tp_slots (s : State) (q : Nat) (l : List Dword) : (s.setScalarQ q l).tp.slots = s.tp.slots := rfl
@[simp] theorem setScalarQ_tp_queues (s : State) (q : Nat) (l : List Dword) : (s.setScalarQ q l).tp.queues = { s.tp.queues with scalar := Map.put s.tp.queues.scalar q l } := rfl
@[simp] theorem setScalarQ_tp_tokens (s : State) (q : Nat) (l : List Dword) : (s.setScalarQ q l).tp.tokens = s.tp.tokens := rfl
@[simp] theorem setScalarQ_tp_banks (s : State) (q : Nat) (l : List Dword) : (s.setScalarQ q l).tp.banks = s.tp.banks := rfl
@[simp] theorem setScalarQ_tp_brr (s : State) (q : Nat) (l : List Dword) : (s.setScalarQ q l).tp.brr = s.tp.brr := rfl
@[simp] theorem setScalarQ_tp_qdir (s : State) (q : Nat) (l : List Dword) : (s.setScalarQ q l).tp.qdir = s.tp.qdir := rfl
@[simp] theorem setScalarQ_tp_svwm (s : State) (q : Nat) (l : List Dword) : (s.setScalarQ q l).tp.svwm = s.tp.svwm := rfl
@[simp] theorem setScalarQ_tp_svwmAt (s : State) (q : Nat) (l : List Dword) : (s.setScalarQ q l).tp.svwmAt = s.tp.svwmAt := rfl
@[simp] theorem setScalarQ_tp_late (s : State) (q : Nat) (l : List Dword) : (s.setScalarQ q l).tp.late = s.tp.late := rfl
@[simp] theorem setScalarQ_tp_tasks (s : State) (q : Nat) (l : List Dword) : (s.setScalarQ q l).tp.tasks = s.tp.tasks := rfl
@[simp] theorem setScalarQ_tp_cur (s : State) (q : Nat) (l : List Dword) : (s.setScalarQ q l).tp.cur = s.tp.cur := rfl
@[simp] theorem setScalarQ_tp_tokTask (s : State) (q : Nat) (l : List Dword) : (s.setScalarQ q l).tp.tokTask = s.tp.tokTask := rfl
@[simp] theorem setScalarQ_tp_role (s : State) (q : Nat) (l : List Dword) : (s.setScalarQ q l).tp.role = s.tp.role := rfl
@[simp] theorem setScalarQ_tp_preempt (s : State) (q : Nat) (l : List Dword) : (s.setScalarQ q l).tp.preempt = s.tp.preempt := rfl
@[simp] theorem setScalarQ_tp_holdAt (s : State) (q : Nat) (l : List Dword) : (s.setScalarQ q l).tp.holdAt = s.tp.holdAt := rfl
@[simp] theorem setScalarQ_tp_stopNow (s : State) (q : Nat) (l : List Dword) : (s.setScalarQ q l).tp.stopNow = s.tp.stopNow := rfl
@[simp] theorem setScalarQ_tp_images (s : State) (q : Nat) (l : List Dword) : (s.setScalarQ q l).tp.images = s.tp.images := rfl
@[simp] theorem setScalarQ_tp_frame (s : State) (q : Nat) (l : List Dword) : (s.setScalarQ q l).tp.frame = s.tp.frame := rfl
@[simp] theorem setScalarQ_tp_bulk (s : State) (q : Nat) (l : List Dword) : (s.setScalarQ q l).tp.bulk = s.tp.bulk := rfl
@[simp] theorem setScalarQ_tp_tlb (s : State) (q : Nat) (l : List Dword) : (s.setScalarQ q l).tp.tlb = s.tp.tlb := rfl
@[simp] theorem setScalarQ_tp_cache (s : State) (q : Nat) (l : List Dword) : (s.setScalarQ q l).tp.cache = s.tp.cache := rfl
@[simp] theorem setScalarQ_tp_stale (s : State) (q : Nat) (l : List Dword) : (s.setScalarQ q l).tp.stale = s.tp.stale := rfl
@[simp] theorem setScalarQ_tp_bankStale (s : State) (q : Nat) (l : List Dword) : (s.setScalarQ q l).tp.bankStale = s.tp.bankStale := rfl
@[simp] theorem setScalarQ_tp_events (s : State) (q : Nat) (l : List Dword) : (s.setScalarQ q l).tp.events = s.tp.events := rfl
@[simp] theorem setScalarQ_tp_issued (s : State) (q : Nat) (l : List Dword) : (s.setScalarQ q l).tp.issued = s.tp.issued := rfl
@[simp] theorem setScalarQ_tp_doneCmd (s : State) (q : Nat) (l : List Dword) : (s.setScalarQ q l).tp.doneCmd = s.tp.doneCmd := rfl
@[simp] theorem setScalarQ_tp_poison (s : State) (q : Nat) (l : List Dword) : (s.setScalarQ q l).tp.poison = s.tp.poison := rfl
@[simp] theorem setScalarQ_tp_peersReached (s : State) (q : Nat) (l : List Dword) : (s.setScalarQ q l).tp.peersReached = s.tp.peersReached := rfl
@[simp] theorem setScalarQ_tp_lastCtx (s : State) (q : Nat) (l : List Dword) : (s.setScalarQ q l).tp.lastCtx = s.tp.lastCtx := rfl
@[simp] theorem setScalarQ_tp_bankEra (s : State) (q : Nat) (l : List Dword) : (s.setScalarQ q l).tp.bankEra = s.tp.bankEra := rfl
@[simp] theorem setScalarQ_tp_bankOwner (s : State) (q : Nat) (l : List Dword) : (s.setScalarQ q l).tp.bankOwner = s.tp.bankOwner := rfl
@[simp] theorem setScalarQ_tp_bankMixed (s : State) (q : Nat) (l : List Dword) : (s.setScalarQ q l).tp.bankMixed = s.tp.bankMixed := rfl
@[simp] theorem setScalarQ_tp_parity (s : State) (q : Nat) (l : List Dword) : (s.setScalarQ q l).tp.parity = s.tp.parity := rfl
@[simp] theorem setScalarQ_tp_spent (s : State) (q : Nat) (l : List Dword) : (s.setScalarQ q l).tp.spent = s.tp.spent := rfl
@[simp] theorem setScalarQ_tp_ran (s : State) (q : Nat) (l : List Dword) : (s.setScalarQ q l).tp.ran = s.tp.ran := rfl
@[simp] theorem setScalarQ_tp_meterAt (s : State) (q : Nat) (l : List Dword) : (s.setScalarQ q l).tp.meterAt = s.tp.meterAt := rfl

/-! ## setTileQ -/

@[simp] theorem setTileQ_cur (s : State) (q : Nat) (l : List Tile) : (s.setTileQ q l).cur = s.cur := rfl
@[simp] theorem setTileQ_others (s : State) (q : Nat) (l : List Tile) : (s.setTileQ q l).others = s.others := rfl
@[simp] theorem setTileQ_mem (s : State) (q : Nat) (l : List Tile) : (s.setTileQ q l).mem = s.mem := rfl
@[simp] theorem setTileQ_lines (s : State) (q : Nat) (l : List Tile) : (s.setTileQ q l).lines = s.lines := rfl
@[simp] theorem setTileQ_weak (s : State) (q : Nat) (l : List Tile) : (s.setTileQ q l).weak = s.weak := rfl
@[simp] theorem setTileQ_mediaStale (s : State) (q : Nat) (l : List Tile) : (s.setTileQ q l).mediaStale = s.mediaStale := rfl
@[simp] theorem setTileQ_writers (s : State) (q : Nat) (l : List Tile) : (s.setTileQ q l).writers = s.writers := rfl
@[simp] theorem setTileQ_wide (s : State) (q : Nat) (l : List Tile) : (s.setTileQ q l).wide = s.wide := rfl
@[simp] theorem setTileQ_flags (s : State) (q : Nat) (l : List Tile) : (s.setTileQ q l).flags = s.flags := rfl
@[simp] theorem setTileQ_cores (s : State) (q : Nat) (l : List Tile) : (s.setTileQ q l).cores = s.cores := rfl
@[simp] theorem setTileQ_tracked (s : State) (q : Nat) (l : List Tile) : (s.setTileQ q l).tracked = s.tracked := rfl
@[simp] theorem setTileQ_atc (s : State) (q : Nat) (l : List Tile) : (s.setTileQ q l).atc = s.atc := rfl
@[simp] theorem setTileQ_requests (s : State) (q : Nat) (l : List Tile) : (s.setTileQ q l).requests = s.requests := rfl
@[simp] theorem setTileQ_invalidations (s : State) (q : Nat) (l : List Tile) : (s.setTileQ q l).invalidations = s.invalidations := rfl
@[simp] theorem setTileQ_faults (s : State) (q : Nat) (l : List Tile) : (s.setTileQ q l).faults = s.faults := rfl
@[simp] theorem setTileQ_denied (s : State) (q : Nat) (l : List Tile) : (s.setTileQ q l).denied = s.denied := rfl
@[simp] theorem setTileQ_queues (s : State) (q : Nat) (l : List Tile) : (s.setTileQ q l).queues = s.queues := rfl
@[simp] theorem setTileQ_launches (s : State) (q : Nat) (l : List Tile) : (s.setTileQ q l).launches = s.launches := rfl
@[simp] theorem setTileQ_nextTask (s : State) (q : Nat) (l : List Tile) : (s.setTileQ q l).nextTask = s.nextTask := rfl
@[simp] theorem setTileQ_nextMedia (s : State) (q : Nat) (l : List Tile) : (s.setTileQ q l).nextMedia = s.nextMedia := rfl
@[simp] theorem setTileQ_turnstiles (s : State) (q : Nat) (l : List Tile) : (s.setTileQ q l).turnstiles = s.turnstiles := rfl
@[simp] theorem setTileQ_dealt (s : State) (q : Nat) (l : List Tile) : (s.setTileQ q l).dealt = s.dealt := rfl
@[simp] theorem setTileQ_homeless (s : State) (q : Nat) (l : List Tile) : (s.setTileQ q l).homeless = s.homeless := rfl
@[simp] theorem setTileQ_regions (s : State) (q : Nat) (l : List Tile) : (s.setTileQ q l).regions = s.regions := rfl
@[simp] theorem setTileQ_nextRegion (s : State) (q : Nat) (l : List Tile) : (s.setTileQ q l).nextRegion = s.nextRegion := rfl
@[simp] theorem setTileQ_watches (s : State) (q : Nat) (l : List Tile) : (s.setTileQ q l).watches = s.watches := rfl
@[simp] theorem setTileQ_ctxs (s : State) (q : Nat) (l : List Tile) : (s.setTileQ q l).ctxs = s.ctxs := rfl
@[simp] theorem setTileQ_tenants (s : State) (q : Nat) (l : List Tile) : (s.setTileQ q l).tenants = s.tenants := rfl
@[simp] theorem setTileQ_streams (s : State) (q : Nat) (l : List Tile) : (s.setTileQ q l).streams = s.streams := rfl
@[simp] theorem setTileQ_media (s : State) (q : Nat) (l : List Tile) : (s.setTileQ q l).media = s.media := rfl
@[simp] theorem setTileQ_mod (s : State) (q : Nat) (l : List Tile) : (s.setTileQ q l).mod = s.mod := rfl
@[simp] theorem setTileQ_time (s : State) (q : Nat) (l : List Tile) : (s.setTileQ q l).time = s.time := rfl
@[simp] theorem setTileQ_lcAt (s : State) (q : Nat) (l : List Tile) : (s.setTileQ q l).lcAt = s.lcAt := rfl
@[simp] theorem setTileQ_turn (s : State) (q : Nat) (l : List Tile) : (s.setTileQ q l).turn = s.turn := rfl
@[simp] theorem setTileQ_steps (s : State) (q : Nat) (l : List Tile) : (s.setTileQ q l).steps = s.steps := rfl
@[simp] theorem setTileQ_free (s : State) (q : Nat) (l : List Tile) : (s.setTileQ q l).free = s.free := rfl
@[simp] theorem setTileQ_inputs (s : State) (q : Nat) (l : List Tile) : (s.setTileQ q l).inputs = s.inputs := rfl
@[simp] theorem setTileQ_out (s : State) (q : Nat) (l : List Tile) : (s.setTileQ q l).out = s.out := rfl
@[simp] theorem setTileQ_tp_ac (s : State) (q : Nat) (l : List Tile) : (s.setTileQ q l).tp.ac = s.tp.ac := rfl
@[simp] theorem setTileQ_tp_ec (s : State) (q : Nat) (l : List Tile) : (s.setTileQ q l).tp.ec = s.tp.ec := rfl
@[simp] theorem setTileQ_tp_be (s : State) (q : Nat) (l : List Tile) : (s.setTileQ q l).tp.be = s.tp.be := rfl
@[simp] theorem setTileQ_tp_ce (s : State) (q : Nat) (l : List Tile) : (s.setTileQ q l).tp.ce = s.tp.ce := rfl
@[simp] theorem setTileQ_tp_ie (s : State) (q : Nat) (l : List Tile) : (s.setTileQ q l).tp.ie = s.tp.ie := rfl
@[simp] theorem setTileQ_tp_he (s : State) (q : Nat) (l : List Tile) : (s.setTileQ q l).tp.he = s.tp.he := rfl
@[simp] theorem setTileQ_tp_slots (s : State) (q : Nat) (l : List Tile) : (s.setTileQ q l).tp.slots = s.tp.slots := rfl
@[simp] theorem setTileQ_tp_queues (s : State) (q : Nat) (l : List Tile) : (s.setTileQ q l).tp.queues = { s.tp.queues with tile := Map.put s.tp.queues.tile q l } := rfl
@[simp] theorem setTileQ_tp_tokens (s : State) (q : Nat) (l : List Tile) : (s.setTileQ q l).tp.tokens = s.tp.tokens := rfl
@[simp] theorem setTileQ_tp_banks (s : State) (q : Nat) (l : List Tile) : (s.setTileQ q l).tp.banks = s.tp.banks := rfl
@[simp] theorem setTileQ_tp_brr (s : State) (q : Nat) (l : List Tile) : (s.setTileQ q l).tp.brr = s.tp.brr := rfl
@[simp] theorem setTileQ_tp_qdir (s : State) (q : Nat) (l : List Tile) : (s.setTileQ q l).tp.qdir = s.tp.qdir := rfl
@[simp] theorem setTileQ_tp_svwm (s : State) (q : Nat) (l : List Tile) : (s.setTileQ q l).tp.svwm = s.tp.svwm := rfl
@[simp] theorem setTileQ_tp_svwmAt (s : State) (q : Nat) (l : List Tile) : (s.setTileQ q l).tp.svwmAt = s.tp.svwmAt := rfl
@[simp] theorem setTileQ_tp_late (s : State) (q : Nat) (l : List Tile) : (s.setTileQ q l).tp.late = s.tp.late := rfl
@[simp] theorem setTileQ_tp_tasks (s : State) (q : Nat) (l : List Tile) : (s.setTileQ q l).tp.tasks = s.tp.tasks := rfl
@[simp] theorem setTileQ_tp_cur (s : State) (q : Nat) (l : List Tile) : (s.setTileQ q l).tp.cur = s.tp.cur := rfl
@[simp] theorem setTileQ_tp_tokTask (s : State) (q : Nat) (l : List Tile) : (s.setTileQ q l).tp.tokTask = s.tp.tokTask := rfl
@[simp] theorem setTileQ_tp_role (s : State) (q : Nat) (l : List Tile) : (s.setTileQ q l).tp.role = s.tp.role := rfl
@[simp] theorem setTileQ_tp_preempt (s : State) (q : Nat) (l : List Tile) : (s.setTileQ q l).tp.preempt = s.tp.preempt := rfl
@[simp] theorem setTileQ_tp_holdAt (s : State) (q : Nat) (l : List Tile) : (s.setTileQ q l).tp.holdAt = s.tp.holdAt := rfl
@[simp] theorem setTileQ_tp_stopNow (s : State) (q : Nat) (l : List Tile) : (s.setTileQ q l).tp.stopNow = s.tp.stopNow := rfl
@[simp] theorem setTileQ_tp_images (s : State) (q : Nat) (l : List Tile) : (s.setTileQ q l).tp.images = s.tp.images := rfl
@[simp] theorem setTileQ_tp_frame (s : State) (q : Nat) (l : List Tile) : (s.setTileQ q l).tp.frame = s.tp.frame := rfl
@[simp] theorem setTileQ_tp_bulk (s : State) (q : Nat) (l : List Tile) : (s.setTileQ q l).tp.bulk = s.tp.bulk := rfl
@[simp] theorem setTileQ_tp_tlb (s : State) (q : Nat) (l : List Tile) : (s.setTileQ q l).tp.tlb = s.tp.tlb := rfl
@[simp] theorem setTileQ_tp_cache (s : State) (q : Nat) (l : List Tile) : (s.setTileQ q l).tp.cache = s.tp.cache := rfl
@[simp] theorem setTileQ_tp_stale (s : State) (q : Nat) (l : List Tile) : (s.setTileQ q l).tp.stale = s.tp.stale := rfl
@[simp] theorem setTileQ_tp_bankStale (s : State) (q : Nat) (l : List Tile) : (s.setTileQ q l).tp.bankStale = s.tp.bankStale := rfl
@[simp] theorem setTileQ_tp_events (s : State) (q : Nat) (l : List Tile) : (s.setTileQ q l).tp.events = s.tp.events := rfl
@[simp] theorem setTileQ_tp_issued (s : State) (q : Nat) (l : List Tile) : (s.setTileQ q l).tp.issued = s.tp.issued := rfl
@[simp] theorem setTileQ_tp_doneCmd (s : State) (q : Nat) (l : List Tile) : (s.setTileQ q l).tp.doneCmd = s.tp.doneCmd := rfl
@[simp] theorem setTileQ_tp_poison (s : State) (q : Nat) (l : List Tile) : (s.setTileQ q l).tp.poison = s.tp.poison := rfl
@[simp] theorem setTileQ_tp_peersReached (s : State) (q : Nat) (l : List Tile) : (s.setTileQ q l).tp.peersReached = s.tp.peersReached := rfl
@[simp] theorem setTileQ_tp_lastCtx (s : State) (q : Nat) (l : List Tile) : (s.setTileQ q l).tp.lastCtx = s.tp.lastCtx := rfl
@[simp] theorem setTileQ_tp_bankEra (s : State) (q : Nat) (l : List Tile) : (s.setTileQ q l).tp.bankEra = s.tp.bankEra := rfl
@[simp] theorem setTileQ_tp_bankOwner (s : State) (q : Nat) (l : List Tile) : (s.setTileQ q l).tp.bankOwner = s.tp.bankOwner := rfl
@[simp] theorem setTileQ_tp_bankMixed (s : State) (q : Nat) (l : List Tile) : (s.setTileQ q l).tp.bankMixed = s.tp.bankMixed := rfl
@[simp] theorem setTileQ_tp_parity (s : State) (q : Nat) (l : List Tile) : (s.setTileQ q l).tp.parity = s.tp.parity := rfl
@[simp] theorem setTileQ_tp_spent (s : State) (q : Nat) (l : List Tile) : (s.setTileQ q l).tp.spent = s.tp.spent := rfl
@[simp] theorem setTileQ_tp_ran (s : State) (q : Nat) (l : List Tile) : (s.setTileQ q l).tp.ran = s.tp.ran := rfl
@[simp] theorem setTileQ_tp_meterAt (s : State) (q : Nat) (l : List Tile) : (s.setTileQ q l).tp.meterAt = s.tp.meterAt := rfl

/-! ## setF -/

@[simp] theorem setF_cur (s : State) (r : BitVec 5) (v : Dword) : (s.setF r v).cur = s.cur := rfl
@[simp] theorem setF_others (s : State) (r : BitVec 5) (v : Dword) : (s.setF r v).others = s.others := rfl
@[simp] theorem setF_mem (s : State) (r : BitVec 5) (v : Dword) : (s.setF r v).mem = s.mem := rfl
@[simp] theorem setF_lines (s : State) (r : BitVec 5) (v : Dword) : (s.setF r v).lines = s.lines := rfl
@[simp] theorem setF_weak (s : State) (r : BitVec 5) (v : Dword) : (s.setF r v).weak = s.weak := rfl
@[simp] theorem setF_mediaStale (s : State) (r : BitVec 5) (v : Dword) : (s.setF r v).mediaStale = s.mediaStale := rfl
@[simp] theorem setF_writers (s : State) (r : BitVec 5) (v : Dword) : (s.setF r v).writers = s.writers := rfl
@[simp] theorem setF_wide (s : State) (r : BitVec 5) (v : Dword) : (s.setF r v).wide = s.wide := rfl
@[simp] theorem setF_flags (s : State) (r : BitVec 5) (v : Dword) : (s.setF r v).flags = s.flags := rfl
@[simp] theorem setF_cores (s : State) (r : BitVec 5) (v : Dword) : (s.setF r v).cores = s.cores := rfl
@[simp] theorem setF_tracked (s : State) (r : BitVec 5) (v : Dword) : (s.setF r v).tracked = s.tracked := rfl
@[simp] theorem setF_atc (s : State) (r : BitVec 5) (v : Dword) : (s.setF r v).atc = s.atc := rfl
@[simp] theorem setF_requests (s : State) (r : BitVec 5) (v : Dword) : (s.setF r v).requests = s.requests := rfl
@[simp] theorem setF_invalidations (s : State) (r : BitVec 5) (v : Dword) : (s.setF r v).invalidations = s.invalidations := rfl
@[simp] theorem setF_faults (s : State) (r : BitVec 5) (v : Dword) : (s.setF r v).faults = s.faults := rfl
@[simp] theorem setF_denied (s : State) (r : BitVec 5) (v : Dword) : (s.setF r v).denied = s.denied := rfl
@[simp] theorem setF_queues (s : State) (r : BitVec 5) (v : Dword) : (s.setF r v).queues = s.queues := rfl
@[simp] theorem setF_launches (s : State) (r : BitVec 5) (v : Dword) : (s.setF r v).launches = s.launches := rfl
@[simp] theorem setF_nextTask (s : State) (r : BitVec 5) (v : Dword) : (s.setF r v).nextTask = s.nextTask := rfl
@[simp] theorem setF_nextMedia (s : State) (r : BitVec 5) (v : Dword) : (s.setF r v).nextMedia = s.nextMedia := rfl
@[simp] theorem setF_turnstiles (s : State) (r : BitVec 5) (v : Dword) : (s.setF r v).turnstiles = s.turnstiles := rfl
@[simp] theorem setF_dealt (s : State) (r : BitVec 5) (v : Dword) : (s.setF r v).dealt = s.dealt := rfl
@[simp] theorem setF_homeless (s : State) (r : BitVec 5) (v : Dword) : (s.setF r v).homeless = s.homeless := rfl
@[simp] theorem setF_regions (s : State) (r : BitVec 5) (v : Dword) : (s.setF r v).regions = s.regions := rfl
@[simp] theorem setF_nextRegion (s : State) (r : BitVec 5) (v : Dword) : (s.setF r v).nextRegion = s.nextRegion := rfl
@[simp] theorem setF_watches (s : State) (r : BitVec 5) (v : Dword) : (s.setF r v).watches = s.watches := rfl
@[simp] theorem setF_ctxs (s : State) (r : BitVec 5) (v : Dword) : (s.setF r v).ctxs = s.ctxs := rfl
@[simp] theorem setF_tenants (s : State) (r : BitVec 5) (v : Dword) : (s.setF r v).tenants = s.tenants := rfl
@[simp] theorem setF_streams (s : State) (r : BitVec 5) (v : Dword) : (s.setF r v).streams = s.streams := rfl
@[simp] theorem setF_media (s : State) (r : BitVec 5) (v : Dword) : (s.setF r v).media = s.media := rfl
@[simp] theorem setF_mod (s : State) (r : BitVec 5) (v : Dword) : (s.setF r v).mod = s.mod := rfl
@[simp] theorem setF_time (s : State) (r : BitVec 5) (v : Dword) : (s.setF r v).time = s.time := rfl
@[simp] theorem setF_lcAt (s : State) (r : BitVec 5) (v : Dword) : (s.setF r v).lcAt = s.lcAt := rfl
@[simp] theorem setF_turn (s : State) (r : BitVec 5) (v : Dword) : (s.setF r v).turn = s.turn := rfl
@[simp] theorem setF_steps (s : State) (r : BitVec 5) (v : Dword) : (s.setF r v).steps = s.steps := rfl
@[simp] theorem setF_free (s : State) (r : BitVec 5) (v : Dword) : (s.setF r v).free = s.free := rfl
@[simp] theorem setF_inputs (s : State) (r : BitVec 5) (v : Dword) : (s.setF r v).inputs = s.inputs := rfl
@[simp] theorem setF_out (s : State) (r : BitVec 5) (v : Dword) : (s.setF r v).out = s.out := rfl
@[simp] theorem setF_tp_ac (s : State) (r : BitVec 5) (v : Dword) : (s.setF r v).tp.ac = { s.tp.ac with f := Sparse.set s.tp.ac.f r.toNat v } := rfl
@[simp] theorem setF_tp_ec (s : State) (r : BitVec 5) (v : Dword) : (s.setF r v).tp.ec = s.tp.ec := rfl
@[simp] theorem setF_tp_be (s : State) (r : BitVec 5) (v : Dword) : (s.setF r v).tp.be = s.tp.be := rfl
@[simp] theorem setF_tp_ce (s : State) (r : BitVec 5) (v : Dword) : (s.setF r v).tp.ce = s.tp.ce := rfl
@[simp] theorem setF_tp_ie (s : State) (r : BitVec 5) (v : Dword) : (s.setF r v).tp.ie = s.tp.ie := rfl
@[simp] theorem setF_tp_he (s : State) (r : BitVec 5) (v : Dword) : (s.setF r v).tp.he = s.tp.he := rfl
@[simp] theorem setF_tp_slots (s : State) (r : BitVec 5) (v : Dword) : (s.setF r v).tp.slots = s.tp.slots := rfl
@[simp] theorem setF_tp_queues (s : State) (r : BitVec 5) (v : Dword) : (s.setF r v).tp.queues = s.tp.queues := rfl
@[simp] theorem setF_tp_tokens (s : State) (r : BitVec 5) (v : Dword) : (s.setF r v).tp.tokens = s.tp.tokens := rfl
@[simp] theorem setF_tp_banks (s : State) (r : BitVec 5) (v : Dword) : (s.setF r v).tp.banks = s.tp.banks := rfl
@[simp] theorem setF_tp_brr (s : State) (r : BitVec 5) (v : Dword) : (s.setF r v).tp.brr = s.tp.brr := rfl
@[simp] theorem setF_tp_qdir (s : State) (r : BitVec 5) (v : Dword) : (s.setF r v).tp.qdir = s.tp.qdir := rfl
@[simp] theorem setF_tp_svwm (s : State) (r : BitVec 5) (v : Dword) : (s.setF r v).tp.svwm = s.tp.svwm := rfl
@[simp] theorem setF_tp_svwmAt (s : State) (r : BitVec 5) (v : Dword) : (s.setF r v).tp.svwmAt = s.tp.svwmAt := rfl
@[simp] theorem setF_tp_late (s : State) (r : BitVec 5) (v : Dword) : (s.setF r v).tp.late = s.tp.late := rfl
@[simp] theorem setF_tp_tasks (s : State) (r : BitVec 5) (v : Dword) : (s.setF r v).tp.tasks = s.tp.tasks := rfl
@[simp] theorem setF_tp_cur (s : State) (r : BitVec 5) (v : Dword) : (s.setF r v).tp.cur = s.tp.cur := rfl
@[simp] theorem setF_tp_tokTask (s : State) (r : BitVec 5) (v : Dword) : (s.setF r v).tp.tokTask = s.tp.tokTask := rfl
@[simp] theorem setF_tp_role (s : State) (r : BitVec 5) (v : Dword) : (s.setF r v).tp.role = s.tp.role := rfl
@[simp] theorem setF_tp_preempt (s : State) (r : BitVec 5) (v : Dword) : (s.setF r v).tp.preempt = s.tp.preempt := rfl
@[simp] theorem setF_tp_holdAt (s : State) (r : BitVec 5) (v : Dword) : (s.setF r v).tp.holdAt = s.tp.holdAt := rfl
@[simp] theorem setF_tp_stopNow (s : State) (r : BitVec 5) (v : Dword) : (s.setF r v).tp.stopNow = s.tp.stopNow := rfl
@[simp] theorem setF_tp_images (s : State) (r : BitVec 5) (v : Dword) : (s.setF r v).tp.images = s.tp.images := rfl
@[simp] theorem setF_tp_frame (s : State) (r : BitVec 5) (v : Dword) : (s.setF r v).tp.frame = s.tp.frame := rfl
@[simp] theorem setF_tp_bulk (s : State) (r : BitVec 5) (v : Dword) : (s.setF r v).tp.bulk = s.tp.bulk := rfl
@[simp] theorem setF_tp_tlb (s : State) (r : BitVec 5) (v : Dword) : (s.setF r v).tp.tlb = s.tp.tlb := rfl
@[simp] theorem setF_tp_cache (s : State) (r : BitVec 5) (v : Dword) : (s.setF r v).tp.cache = s.tp.cache := rfl
@[simp] theorem setF_tp_stale (s : State) (r : BitVec 5) (v : Dword) : (s.setF r v).tp.stale = s.tp.stale := rfl
@[simp] theorem setF_tp_bankStale (s : State) (r : BitVec 5) (v : Dword) : (s.setF r v).tp.bankStale = s.tp.bankStale := rfl
@[simp] theorem setF_tp_events (s : State) (r : BitVec 5) (v : Dword) : (s.setF r v).tp.events = s.tp.events := rfl
@[simp] theorem setF_tp_issued (s : State) (r : BitVec 5) (v : Dword) : (s.setF r v).tp.issued = s.tp.issued := rfl
@[simp] theorem setF_tp_doneCmd (s : State) (r : BitVec 5) (v : Dword) : (s.setF r v).tp.doneCmd = s.tp.doneCmd := rfl
@[simp] theorem setF_tp_poison (s : State) (r : BitVec 5) (v : Dword) : (s.setF r v).tp.poison = s.tp.poison := rfl
@[simp] theorem setF_tp_peersReached (s : State) (r : BitVec 5) (v : Dword) : (s.setF r v).tp.peersReached = s.tp.peersReached := rfl
@[simp] theorem setF_tp_lastCtx (s : State) (r : BitVec 5) (v : Dword) : (s.setF r v).tp.lastCtx = s.tp.lastCtx := rfl
@[simp] theorem setF_tp_bankEra (s : State) (r : BitVec 5) (v : Dword) : (s.setF r v).tp.bankEra = s.tp.bankEra := rfl
@[simp] theorem setF_tp_bankOwner (s : State) (r : BitVec 5) (v : Dword) : (s.setF r v).tp.bankOwner = s.tp.bankOwner := rfl
@[simp] theorem setF_tp_bankMixed (s : State) (r : BitVec 5) (v : Dword) : (s.setF r v).tp.bankMixed = s.tp.bankMixed := rfl
@[simp] theorem setF_tp_parity (s : State) (r : BitVec 5) (v : Dword) : (s.setF r v).tp.parity = s.tp.parity := rfl
@[simp] theorem setF_tp_spent (s : State) (r : BitVec 5) (v : Dword) : (s.setF r v).tp.spent = s.tp.spent := rfl
@[simp] theorem setF_tp_ran (s : State) (r : BitVec 5) (v : Dword) : (s.setF r v).tp.ran = s.tp.ran := rfl
@[simp] theorem setF_tp_meterAt (s : State) (r : BitVec 5) (v : Dword) : (s.setF r v).tp.meterAt = s.tp.meterAt := rfl

/-! ## putW -/

@[simp] theorem putW_cur (s : State) (n : Nat) (v : Tile) : (s.putW n v).cur = s.cur := rfl
@[simp] theorem putW_others (s : State) (n : Nat) (v : Tile) : (s.putW n v).others = s.others := rfl
@[simp] theorem putW_mem (s : State) (n : Nat) (v : Tile) : (s.putW n v).mem = s.mem := rfl
@[simp] theorem putW_lines (s : State) (n : Nat) (v : Tile) : (s.putW n v).lines = s.lines := rfl
@[simp] theorem putW_weak (s : State) (n : Nat) (v : Tile) : (s.putW n v).weak = s.weak := rfl
@[simp] theorem putW_mediaStale (s : State) (n : Nat) (v : Tile) : (s.putW n v).mediaStale = s.mediaStale := rfl
@[simp] theorem putW_writers (s : State) (n : Nat) (v : Tile) : (s.putW n v).writers = s.writers := rfl
@[simp] theorem putW_wide (s : State) (n : Nat) (v : Tile) : (s.putW n v).wide = s.wide := rfl
@[simp] theorem putW_flags (s : State) (n : Nat) (v : Tile) : (s.putW n v).flags = s.flags := rfl
@[simp] theorem putW_cores (s : State) (n : Nat) (v : Tile) : (s.putW n v).cores = s.cores := rfl
@[simp] theorem putW_tracked (s : State) (n : Nat) (v : Tile) : (s.putW n v).tracked = s.tracked := rfl
@[simp] theorem putW_atc (s : State) (n : Nat) (v : Tile) : (s.putW n v).atc = s.atc := rfl
@[simp] theorem putW_requests (s : State) (n : Nat) (v : Tile) : (s.putW n v).requests = s.requests := rfl
@[simp] theorem putW_invalidations (s : State) (n : Nat) (v : Tile) : (s.putW n v).invalidations = s.invalidations := rfl
@[simp] theorem putW_faults (s : State) (n : Nat) (v : Tile) : (s.putW n v).faults = s.faults := rfl
@[simp] theorem putW_denied (s : State) (n : Nat) (v : Tile) : (s.putW n v).denied = s.denied := rfl
@[simp] theorem putW_queues (s : State) (n : Nat) (v : Tile) : (s.putW n v).queues = s.queues := rfl
@[simp] theorem putW_launches (s : State) (n : Nat) (v : Tile) : (s.putW n v).launches = s.launches := rfl
@[simp] theorem putW_nextTask (s : State) (n : Nat) (v : Tile) : (s.putW n v).nextTask = s.nextTask := rfl
@[simp] theorem putW_nextMedia (s : State) (n : Nat) (v : Tile) : (s.putW n v).nextMedia = s.nextMedia := rfl
@[simp] theorem putW_turnstiles (s : State) (n : Nat) (v : Tile) : (s.putW n v).turnstiles = s.turnstiles := rfl
@[simp] theorem putW_dealt (s : State) (n : Nat) (v : Tile) : (s.putW n v).dealt = s.dealt := rfl
@[simp] theorem putW_homeless (s : State) (n : Nat) (v : Tile) : (s.putW n v).homeless = s.homeless := rfl
@[simp] theorem putW_regions (s : State) (n : Nat) (v : Tile) : (s.putW n v).regions = s.regions := rfl
@[simp] theorem putW_nextRegion (s : State) (n : Nat) (v : Tile) : (s.putW n v).nextRegion = s.nextRegion := rfl
@[simp] theorem putW_watches (s : State) (n : Nat) (v : Tile) : (s.putW n v).watches = s.watches := rfl
@[simp] theorem putW_ctxs (s : State) (n : Nat) (v : Tile) : (s.putW n v).ctxs = s.ctxs := rfl
@[simp] theorem putW_tenants (s : State) (n : Nat) (v : Tile) : (s.putW n v).tenants = s.tenants := rfl
@[simp] theorem putW_streams (s : State) (n : Nat) (v : Tile) : (s.putW n v).streams = s.streams := rfl
@[simp] theorem putW_media (s : State) (n : Nat) (v : Tile) : (s.putW n v).media = s.media := rfl
@[simp] theorem putW_mod (s : State) (n : Nat) (v : Tile) : (s.putW n v).mod = s.mod := rfl
@[simp] theorem putW_time (s : State) (n : Nat) (v : Tile) : (s.putW n v).time = s.time := rfl
@[simp] theorem putW_lcAt (s : State) (n : Nat) (v : Tile) : (s.putW n v).lcAt = s.lcAt := rfl
@[simp] theorem putW_turn (s : State) (n : Nat) (v : Tile) : (s.putW n v).turn = s.turn := rfl
@[simp] theorem putW_steps (s : State) (n : Nat) (v : Tile) : (s.putW n v).steps = s.steps := rfl
@[simp] theorem putW_free (s : State) (n : Nat) (v : Tile) : (s.putW n v).free = s.free := rfl
@[simp] theorem putW_inputs (s : State) (n : Nat) (v : Tile) : (s.putW n v).inputs = s.inputs := rfl
@[simp] theorem putW_out (s : State) (n : Nat) (v : Tile) : (s.putW n v).out = s.out := rfl
@[simp] theorem putW_tp_ac (s : State) (n : Nat) (v : Tile) : (s.putW n v).tp.ac = s.tp.ac := rfl
@[simp] theorem putW_tp_ec (s : State) (n : Nat) (v : Tile) : (s.putW n v).tp.ec = { s.tp.ec with w := Map.put s.tp.ec.w n v } := rfl
@[simp] theorem putW_tp_be (s : State) (n : Nat) (v : Tile) : (s.putW n v).tp.be = s.tp.be := rfl
@[simp] theorem putW_tp_ce (s : State) (n : Nat) (v : Tile) : (s.putW n v).tp.ce = s.tp.ce := rfl
@[simp] theorem putW_tp_ie (s : State) (n : Nat) (v : Tile) : (s.putW n v).tp.ie = s.tp.ie := rfl
@[simp] theorem putW_tp_he (s : State) (n : Nat) (v : Tile) : (s.putW n v).tp.he = s.tp.he := rfl
@[simp] theorem putW_tp_slots (s : State) (n : Nat) (v : Tile) : (s.putW n v).tp.slots = s.tp.slots := rfl
@[simp] theorem putW_tp_queues (s : State) (n : Nat) (v : Tile) : (s.putW n v).tp.queues = s.tp.queues := rfl
@[simp] theorem putW_tp_tokens (s : State) (n : Nat) (v : Tile) : (s.putW n v).tp.tokens = s.tp.tokens := rfl
@[simp] theorem putW_tp_banks (s : State) (n : Nat) (v : Tile) : (s.putW n v).tp.banks = s.tp.banks := rfl
@[simp] theorem putW_tp_brr (s : State) (n : Nat) (v : Tile) : (s.putW n v).tp.brr = s.tp.brr := rfl
@[simp] theorem putW_tp_qdir (s : State) (n : Nat) (v : Tile) : (s.putW n v).tp.qdir = s.tp.qdir := rfl
@[simp] theorem putW_tp_svwm (s : State) (n : Nat) (v : Tile) : (s.putW n v).tp.svwm = s.tp.svwm := rfl
@[simp] theorem putW_tp_svwmAt (s : State) (n : Nat) (v : Tile) : (s.putW n v).tp.svwmAt = s.tp.svwmAt := rfl
@[simp] theorem putW_tp_late (s : State) (n : Nat) (v : Tile) : (s.putW n v).tp.late = s.tp.late := rfl
@[simp] theorem putW_tp_tasks (s : State) (n : Nat) (v : Tile) : (s.putW n v).tp.tasks = s.tp.tasks := rfl
@[simp] theorem putW_tp_cur (s : State) (n : Nat) (v : Tile) : (s.putW n v).tp.cur = s.tp.cur := rfl
@[simp] theorem putW_tp_tokTask (s : State) (n : Nat) (v : Tile) : (s.putW n v).tp.tokTask = s.tp.tokTask := rfl
@[simp] theorem putW_tp_role (s : State) (n : Nat) (v : Tile) : (s.putW n v).tp.role = s.tp.role := rfl
@[simp] theorem putW_tp_preempt (s : State) (n : Nat) (v : Tile) : (s.putW n v).tp.preempt = s.tp.preempt := rfl
@[simp] theorem putW_tp_holdAt (s : State) (n : Nat) (v : Tile) : (s.putW n v).tp.holdAt = s.tp.holdAt := rfl
@[simp] theorem putW_tp_stopNow (s : State) (n : Nat) (v : Tile) : (s.putW n v).tp.stopNow = s.tp.stopNow := rfl
@[simp] theorem putW_tp_images (s : State) (n : Nat) (v : Tile) : (s.putW n v).tp.images = s.tp.images := rfl
@[simp] theorem putW_tp_frame (s : State) (n : Nat) (v : Tile) : (s.putW n v).tp.frame = s.tp.frame := rfl
@[simp] theorem putW_tp_bulk (s : State) (n : Nat) (v : Tile) : (s.putW n v).tp.bulk = s.tp.bulk := rfl
@[simp] theorem putW_tp_tlb (s : State) (n : Nat) (v : Tile) : (s.putW n v).tp.tlb = s.tp.tlb := rfl
@[simp] theorem putW_tp_cache (s : State) (n : Nat) (v : Tile) : (s.putW n v).tp.cache = s.tp.cache := rfl
@[simp] theorem putW_tp_stale (s : State) (n : Nat) (v : Tile) : (s.putW n v).tp.stale = s.tp.stale := rfl
@[simp] theorem putW_tp_bankStale (s : State) (n : Nat) (v : Tile) : (s.putW n v).tp.bankStale = s.tp.bankStale := rfl
@[simp] theorem putW_tp_events (s : State) (n : Nat) (v : Tile) : (s.putW n v).tp.events = s.tp.events := rfl
@[simp] theorem putW_tp_issued (s : State) (n : Nat) (v : Tile) : (s.putW n v).tp.issued = s.tp.issued := rfl
@[simp] theorem putW_tp_doneCmd (s : State) (n : Nat) (v : Tile) : (s.putW n v).tp.doneCmd = s.tp.doneCmd := rfl
@[simp] theorem putW_tp_poison (s : State) (n : Nat) (v : Tile) : (s.putW n v).tp.poison = s.tp.poison := rfl
@[simp] theorem putW_tp_peersReached (s : State) (n : Nat) (v : Tile) : (s.putW n v).tp.peersReached = s.tp.peersReached := rfl
@[simp] theorem putW_tp_lastCtx (s : State) (n : Nat) (v : Tile) : (s.putW n v).tp.lastCtx = s.tp.lastCtx := rfl
@[simp] theorem putW_tp_bankEra (s : State) (n : Nat) (v : Tile) : (s.putW n v).tp.bankEra = s.tp.bankEra := rfl
@[simp] theorem putW_tp_bankOwner (s : State) (n : Nat) (v : Tile) : (s.putW n v).tp.bankOwner = s.tp.bankOwner := rfl
@[simp] theorem putW_tp_bankMixed (s : State) (n : Nat) (v : Tile) : (s.putW n v).tp.bankMixed = s.tp.bankMixed := rfl
@[simp] theorem putW_tp_parity (s : State) (n : Nat) (v : Tile) : (s.putW n v).tp.parity = s.tp.parity := rfl
@[simp] theorem putW_tp_spent (s : State) (n : Nat) (v : Tile) : (s.putW n v).tp.spent = s.tp.spent := rfl
@[simp] theorem putW_tp_ran (s : State) (n : Nat) (v : Tile) : (s.putW n v).tp.ran = s.tp.ran := rfl
@[simp] theorem putW_tp_meterAt (s : State) (n : Nat) (v : Tile) : (s.putW n v).tp.meterAt = s.tp.meterAt := rfl

/-! ## setAcc -/

@[simp] theorem setAcc_cur (s : State) (n : Nat) (v : Sparse 64) : (s.setAcc n v).cur = s.cur := rfl
@[simp] theorem setAcc_others (s : State) (n : Nat) (v : Sparse 64) : (s.setAcc n v).others = s.others := rfl
@[simp] theorem setAcc_mem (s : State) (n : Nat) (v : Sparse 64) : (s.setAcc n v).mem = s.mem := rfl
@[simp] theorem setAcc_lines (s : State) (n : Nat) (v : Sparse 64) : (s.setAcc n v).lines = s.lines := rfl
@[simp] theorem setAcc_weak (s : State) (n : Nat) (v : Sparse 64) : (s.setAcc n v).weak = s.weak := rfl
@[simp] theorem setAcc_mediaStale (s : State) (n : Nat) (v : Sparse 64) : (s.setAcc n v).mediaStale = s.mediaStale := rfl
@[simp] theorem setAcc_writers (s : State) (n : Nat) (v : Sparse 64) : (s.setAcc n v).writers = s.writers := rfl
@[simp] theorem setAcc_wide (s : State) (n : Nat) (v : Sparse 64) : (s.setAcc n v).wide = s.wide := rfl
@[simp] theorem setAcc_flags (s : State) (n : Nat) (v : Sparse 64) : (s.setAcc n v).flags = s.flags := rfl
@[simp] theorem setAcc_cores (s : State) (n : Nat) (v : Sparse 64) : (s.setAcc n v).cores = s.cores := rfl
@[simp] theorem setAcc_tracked (s : State) (n : Nat) (v : Sparse 64) : (s.setAcc n v).tracked = s.tracked := rfl
@[simp] theorem setAcc_atc (s : State) (n : Nat) (v : Sparse 64) : (s.setAcc n v).atc = s.atc := rfl
@[simp] theorem setAcc_requests (s : State) (n : Nat) (v : Sparse 64) : (s.setAcc n v).requests = s.requests := rfl
@[simp] theorem setAcc_invalidations (s : State) (n : Nat) (v : Sparse 64) : (s.setAcc n v).invalidations = s.invalidations := rfl
@[simp] theorem setAcc_faults (s : State) (n : Nat) (v : Sparse 64) : (s.setAcc n v).faults = s.faults := rfl
@[simp] theorem setAcc_denied (s : State) (n : Nat) (v : Sparse 64) : (s.setAcc n v).denied = s.denied := rfl
@[simp] theorem setAcc_queues (s : State) (n : Nat) (v : Sparse 64) : (s.setAcc n v).queues = s.queues := rfl
@[simp] theorem setAcc_launches (s : State) (n : Nat) (v : Sparse 64) : (s.setAcc n v).launches = s.launches := rfl
@[simp] theorem setAcc_nextTask (s : State) (n : Nat) (v : Sparse 64) : (s.setAcc n v).nextTask = s.nextTask := rfl
@[simp] theorem setAcc_nextMedia (s : State) (n : Nat) (v : Sparse 64) : (s.setAcc n v).nextMedia = s.nextMedia := rfl
@[simp] theorem setAcc_turnstiles (s : State) (n : Nat) (v : Sparse 64) : (s.setAcc n v).turnstiles = s.turnstiles := rfl
@[simp] theorem setAcc_dealt (s : State) (n : Nat) (v : Sparse 64) : (s.setAcc n v).dealt = s.dealt := rfl
@[simp] theorem setAcc_homeless (s : State) (n : Nat) (v : Sparse 64) : (s.setAcc n v).homeless = s.homeless := rfl
@[simp] theorem setAcc_regions (s : State) (n : Nat) (v : Sparse 64) : (s.setAcc n v).regions = s.regions := rfl
@[simp] theorem setAcc_nextRegion (s : State) (n : Nat) (v : Sparse 64) : (s.setAcc n v).nextRegion = s.nextRegion := rfl
@[simp] theorem setAcc_watches (s : State) (n : Nat) (v : Sparse 64) : (s.setAcc n v).watches = s.watches := rfl
@[simp] theorem setAcc_ctxs (s : State) (n : Nat) (v : Sparse 64) : (s.setAcc n v).ctxs = s.ctxs := rfl
@[simp] theorem setAcc_tenants (s : State) (n : Nat) (v : Sparse 64) : (s.setAcc n v).tenants = s.tenants := rfl
@[simp] theorem setAcc_streams (s : State) (n : Nat) (v : Sparse 64) : (s.setAcc n v).streams = s.streams := rfl
@[simp] theorem setAcc_media (s : State) (n : Nat) (v : Sparse 64) : (s.setAcc n v).media = s.media := rfl
@[simp] theorem setAcc_mod (s : State) (n : Nat) (v : Sparse 64) : (s.setAcc n v).mod = s.mod := rfl
@[simp] theorem setAcc_time (s : State) (n : Nat) (v : Sparse 64) : (s.setAcc n v).time = s.time := rfl
@[simp] theorem setAcc_lcAt (s : State) (n : Nat) (v : Sparse 64) : (s.setAcc n v).lcAt = s.lcAt := rfl
@[simp] theorem setAcc_turn (s : State) (n : Nat) (v : Sparse 64) : (s.setAcc n v).turn = s.turn := rfl
@[simp] theorem setAcc_steps (s : State) (n : Nat) (v : Sparse 64) : (s.setAcc n v).steps = s.steps := rfl
@[simp] theorem setAcc_free (s : State) (n : Nat) (v : Sparse 64) : (s.setAcc n v).free = s.free := rfl
@[simp] theorem setAcc_inputs (s : State) (n : Nat) (v : Sparse 64) : (s.setAcc n v).inputs = s.inputs := rfl
@[simp] theorem setAcc_out (s : State) (n : Nat) (v : Sparse 64) : (s.setAcc n v).out = s.out := rfl
@[simp] theorem setAcc_tp_ac (s : State) (n : Nat) (v : Sparse 64) : (s.setAcc n v).tp.ac = s.tp.ac := rfl
@[simp] theorem setAcc_tp_ec (s : State) (n : Nat) (v : Sparse 64) : (s.setAcc n v).tp.ec = s.tp.ec := rfl
@[simp] theorem setAcc_tp_be (s : State) (n : Nat) (v : Sparse 64) : (s.setAcc n v).tp.be = { s.tp.be with acc := Map.put s.tp.be.acc n v } := rfl
@[simp] theorem setAcc_tp_ce (s : State) (n : Nat) (v : Sparse 64) : (s.setAcc n v).tp.ce = s.tp.ce := rfl
@[simp] theorem setAcc_tp_ie (s : State) (n : Nat) (v : Sparse 64) : (s.setAcc n v).tp.ie = s.tp.ie := rfl
@[simp] theorem setAcc_tp_he (s : State) (n : Nat) (v : Sparse 64) : (s.setAcc n v).tp.he = s.tp.he := rfl
@[simp] theorem setAcc_tp_slots (s : State) (n : Nat) (v : Sparse 64) : (s.setAcc n v).tp.slots = s.tp.slots := rfl
@[simp] theorem setAcc_tp_queues (s : State) (n : Nat) (v : Sparse 64) : (s.setAcc n v).tp.queues = s.tp.queues := rfl
@[simp] theorem setAcc_tp_tokens (s : State) (n : Nat) (v : Sparse 64) : (s.setAcc n v).tp.tokens = s.tp.tokens := rfl
@[simp] theorem setAcc_tp_banks (s : State) (n : Nat) (v : Sparse 64) : (s.setAcc n v).tp.banks = s.tp.banks := rfl
@[simp] theorem setAcc_tp_brr (s : State) (n : Nat) (v : Sparse 64) : (s.setAcc n v).tp.brr = s.tp.brr := rfl
@[simp] theorem setAcc_tp_qdir (s : State) (n : Nat) (v : Sparse 64) : (s.setAcc n v).tp.qdir = s.tp.qdir := rfl
@[simp] theorem setAcc_tp_svwm (s : State) (n : Nat) (v : Sparse 64) : (s.setAcc n v).tp.svwm = s.tp.svwm := rfl
@[simp] theorem setAcc_tp_svwmAt (s : State) (n : Nat) (v : Sparse 64) : (s.setAcc n v).tp.svwmAt = s.tp.svwmAt := rfl
@[simp] theorem setAcc_tp_late (s : State) (n : Nat) (v : Sparse 64) : (s.setAcc n v).tp.late = s.tp.late := rfl
@[simp] theorem setAcc_tp_tasks (s : State) (n : Nat) (v : Sparse 64) : (s.setAcc n v).tp.tasks = s.tp.tasks := rfl
@[simp] theorem setAcc_tp_cur (s : State) (n : Nat) (v : Sparse 64) : (s.setAcc n v).tp.cur = s.tp.cur := rfl
@[simp] theorem setAcc_tp_tokTask (s : State) (n : Nat) (v : Sparse 64) : (s.setAcc n v).tp.tokTask = s.tp.tokTask := rfl
@[simp] theorem setAcc_tp_role (s : State) (n : Nat) (v : Sparse 64) : (s.setAcc n v).tp.role = s.tp.role := rfl
@[simp] theorem setAcc_tp_preempt (s : State) (n : Nat) (v : Sparse 64) : (s.setAcc n v).tp.preempt = s.tp.preempt := rfl
@[simp] theorem setAcc_tp_holdAt (s : State) (n : Nat) (v : Sparse 64) : (s.setAcc n v).tp.holdAt = s.tp.holdAt := rfl
@[simp] theorem setAcc_tp_stopNow (s : State) (n : Nat) (v : Sparse 64) : (s.setAcc n v).tp.stopNow = s.tp.stopNow := rfl
@[simp] theorem setAcc_tp_images (s : State) (n : Nat) (v : Sparse 64) : (s.setAcc n v).tp.images = s.tp.images := rfl
@[simp] theorem setAcc_tp_frame (s : State) (n : Nat) (v : Sparse 64) : (s.setAcc n v).tp.frame = s.tp.frame := rfl
@[simp] theorem setAcc_tp_bulk (s : State) (n : Nat) (v : Sparse 64) : (s.setAcc n v).tp.bulk = s.tp.bulk := rfl
@[simp] theorem setAcc_tp_tlb (s : State) (n : Nat) (v : Sparse 64) : (s.setAcc n v).tp.tlb = s.tp.tlb := rfl
@[simp] theorem setAcc_tp_cache (s : State) (n : Nat) (v : Sparse 64) : (s.setAcc n v).tp.cache = s.tp.cache := rfl
@[simp] theorem setAcc_tp_stale (s : State) (n : Nat) (v : Sparse 64) : (s.setAcc n v).tp.stale = s.tp.stale := rfl
@[simp] theorem setAcc_tp_bankStale (s : State) (n : Nat) (v : Sparse 64) : (s.setAcc n v).tp.bankStale = s.tp.bankStale := rfl
@[simp] theorem setAcc_tp_events (s : State) (n : Nat) (v : Sparse 64) : (s.setAcc n v).tp.events = s.tp.events := rfl
@[simp] theorem setAcc_tp_issued (s : State) (n : Nat) (v : Sparse 64) : (s.setAcc n v).tp.issued = s.tp.issued := rfl
@[simp] theorem setAcc_tp_doneCmd (s : State) (n : Nat) (v : Sparse 64) : (s.setAcc n v).tp.doneCmd = s.tp.doneCmd := rfl
@[simp] theorem setAcc_tp_poison (s : State) (n : Nat) (v : Sparse 64) : (s.setAcc n v).tp.poison = s.tp.poison := rfl
@[simp] theorem setAcc_tp_peersReached (s : State) (n : Nat) (v : Sparse 64) : (s.setAcc n v).tp.peersReached = s.tp.peersReached := rfl
@[simp] theorem setAcc_tp_lastCtx (s : State) (n : Nat) (v : Sparse 64) : (s.setAcc n v).tp.lastCtx = s.tp.lastCtx := rfl
@[simp] theorem setAcc_tp_bankEra (s : State) (n : Nat) (v : Sparse 64) : (s.setAcc n v).tp.bankEra = s.tp.bankEra := rfl
@[simp] theorem setAcc_tp_bankOwner (s : State) (n : Nat) (v : Sparse 64) : (s.setAcc n v).tp.bankOwner = s.tp.bankOwner := rfl
@[simp] theorem setAcc_tp_bankMixed (s : State) (n : Nat) (v : Sparse 64) : (s.setAcc n v).tp.bankMixed = s.tp.bankMixed := rfl
@[simp] theorem setAcc_tp_parity (s : State) (n : Nat) (v : Sparse 64) : (s.setAcc n v).tp.parity = s.tp.parity := rfl
@[simp] theorem setAcc_tp_spent (s : State) (n : Nat) (v : Sparse 64) : (s.setAcc n v).tp.spent = s.tp.spent := rfl
@[simp] theorem setAcc_tp_ran (s : State) (n : Nat) (v : Sparse 64) : (s.setAcc n v).tp.ran = s.tp.ran := rfl
@[simp] theorem setAcc_tp_meterAt (s : State) (n : Nat) (v : Sparse 64) : (s.setAcc n v).tp.meterAt = s.tp.meterAt := rfl

/-! ## setSd -/

@[simp] theorem setSd_cur (s : State) (n : Nat) (v : Half) : (s.setSd n v).cur = s.cur := rfl
@[simp] theorem setSd_others (s : State) (n : Nat) (v : Half) : (s.setSd n v).others = s.others := rfl
@[simp] theorem setSd_mem (s : State) (n : Nat) (v : Half) : (s.setSd n v).mem = s.mem := rfl
@[simp] theorem setSd_lines (s : State) (n : Nat) (v : Half) : (s.setSd n v).lines = s.lines := rfl
@[simp] theorem setSd_weak (s : State) (n : Nat) (v : Half) : (s.setSd n v).weak = s.weak := rfl
@[simp] theorem setSd_mediaStale (s : State) (n : Nat) (v : Half) : (s.setSd n v).mediaStale = s.mediaStale := rfl
@[simp] theorem setSd_writers (s : State) (n : Nat) (v : Half) : (s.setSd n v).writers = s.writers := rfl
@[simp] theorem setSd_wide (s : State) (n : Nat) (v : Half) : (s.setSd n v).wide = s.wide := rfl
@[simp] theorem setSd_flags (s : State) (n : Nat) (v : Half) : (s.setSd n v).flags = s.flags := rfl
@[simp] theorem setSd_cores (s : State) (n : Nat) (v : Half) : (s.setSd n v).cores = s.cores := rfl
@[simp] theorem setSd_tracked (s : State) (n : Nat) (v : Half) : (s.setSd n v).tracked = s.tracked := rfl
@[simp] theorem setSd_atc (s : State) (n : Nat) (v : Half) : (s.setSd n v).atc = s.atc := rfl
@[simp] theorem setSd_requests (s : State) (n : Nat) (v : Half) : (s.setSd n v).requests = s.requests := rfl
@[simp] theorem setSd_invalidations (s : State) (n : Nat) (v : Half) : (s.setSd n v).invalidations = s.invalidations := rfl
@[simp] theorem setSd_faults (s : State) (n : Nat) (v : Half) : (s.setSd n v).faults = s.faults := rfl
@[simp] theorem setSd_denied (s : State) (n : Nat) (v : Half) : (s.setSd n v).denied = s.denied := rfl
@[simp] theorem setSd_queues (s : State) (n : Nat) (v : Half) : (s.setSd n v).queues = s.queues := rfl
@[simp] theorem setSd_launches (s : State) (n : Nat) (v : Half) : (s.setSd n v).launches = s.launches := rfl
@[simp] theorem setSd_nextTask (s : State) (n : Nat) (v : Half) : (s.setSd n v).nextTask = s.nextTask := rfl
@[simp] theorem setSd_nextMedia (s : State) (n : Nat) (v : Half) : (s.setSd n v).nextMedia = s.nextMedia := rfl
@[simp] theorem setSd_turnstiles (s : State) (n : Nat) (v : Half) : (s.setSd n v).turnstiles = s.turnstiles := rfl
@[simp] theorem setSd_dealt (s : State) (n : Nat) (v : Half) : (s.setSd n v).dealt = s.dealt := rfl
@[simp] theorem setSd_homeless (s : State) (n : Nat) (v : Half) : (s.setSd n v).homeless = s.homeless := rfl
@[simp] theorem setSd_regions (s : State) (n : Nat) (v : Half) : (s.setSd n v).regions = s.regions := rfl
@[simp] theorem setSd_nextRegion (s : State) (n : Nat) (v : Half) : (s.setSd n v).nextRegion = s.nextRegion := rfl
@[simp] theorem setSd_watches (s : State) (n : Nat) (v : Half) : (s.setSd n v).watches = s.watches := rfl
@[simp] theorem setSd_ctxs (s : State) (n : Nat) (v : Half) : (s.setSd n v).ctxs = s.ctxs := rfl
@[simp] theorem setSd_tenants (s : State) (n : Nat) (v : Half) : (s.setSd n v).tenants = s.tenants := rfl
@[simp] theorem setSd_streams (s : State) (n : Nat) (v : Half) : (s.setSd n v).streams = s.streams := rfl
@[simp] theorem setSd_media (s : State) (n : Nat) (v : Half) : (s.setSd n v).media = s.media := rfl
@[simp] theorem setSd_mod (s : State) (n : Nat) (v : Half) : (s.setSd n v).mod = s.mod := rfl
@[simp] theorem setSd_time (s : State) (n : Nat) (v : Half) : (s.setSd n v).time = s.time := rfl
@[simp] theorem setSd_lcAt (s : State) (n : Nat) (v : Half) : (s.setSd n v).lcAt = s.lcAt := rfl
@[simp] theorem setSd_turn (s : State) (n : Nat) (v : Half) : (s.setSd n v).turn = s.turn := rfl
@[simp] theorem setSd_steps (s : State) (n : Nat) (v : Half) : (s.setSd n v).steps = s.steps := rfl
@[simp] theorem setSd_free (s : State) (n : Nat) (v : Half) : (s.setSd n v).free = s.free := rfl
@[simp] theorem setSd_inputs (s : State) (n : Nat) (v : Half) : (s.setSd n v).inputs = s.inputs := rfl
@[simp] theorem setSd_out (s : State) (n : Nat) (v : Half) : (s.setSd n v).out = s.out := rfl
@[simp] theorem setSd_tp_ac (s : State) (n : Nat) (v : Half) : (s.setSd n v).tp.ac = s.tp.ac := rfl
@[simp] theorem setSd_tp_ec (s : State) (n : Nat) (v : Half) : (s.setSd n v).tp.ec = s.tp.ec := rfl
@[simp] theorem setSd_tp_be (s : State) (n : Nat) (v : Half) : (s.setSd n v).tp.be = { s.tp.be with sd := Sparse.set s.tp.be.sd n v } := rfl
@[simp] theorem setSd_tp_ce (s : State) (n : Nat) (v : Half) : (s.setSd n v).tp.ce = s.tp.ce := rfl
@[simp] theorem setSd_tp_ie (s : State) (n : Nat) (v : Half) : (s.setSd n v).tp.ie = s.tp.ie := rfl
@[simp] theorem setSd_tp_he (s : State) (n : Nat) (v : Half) : (s.setSd n v).tp.he = s.tp.he := rfl
@[simp] theorem setSd_tp_slots (s : State) (n : Nat) (v : Half) : (s.setSd n v).tp.slots = s.tp.slots := rfl
@[simp] theorem setSd_tp_queues (s : State) (n : Nat) (v : Half) : (s.setSd n v).tp.queues = s.tp.queues := rfl
@[simp] theorem setSd_tp_tokens (s : State) (n : Nat) (v : Half) : (s.setSd n v).tp.tokens = s.tp.tokens := rfl
@[simp] theorem setSd_tp_banks (s : State) (n : Nat) (v : Half) : (s.setSd n v).tp.banks = s.tp.banks := rfl
@[simp] theorem setSd_tp_brr (s : State) (n : Nat) (v : Half) : (s.setSd n v).tp.brr = s.tp.brr := rfl
@[simp] theorem setSd_tp_qdir (s : State) (n : Nat) (v : Half) : (s.setSd n v).tp.qdir = s.tp.qdir := rfl
@[simp] theorem setSd_tp_svwm (s : State) (n : Nat) (v : Half) : (s.setSd n v).tp.svwm = s.tp.svwm := rfl
@[simp] theorem setSd_tp_svwmAt (s : State) (n : Nat) (v : Half) : (s.setSd n v).tp.svwmAt = s.tp.svwmAt := rfl
@[simp] theorem setSd_tp_late (s : State) (n : Nat) (v : Half) : (s.setSd n v).tp.late = s.tp.late := rfl
@[simp] theorem setSd_tp_tasks (s : State) (n : Nat) (v : Half) : (s.setSd n v).tp.tasks = s.tp.tasks := rfl
@[simp] theorem setSd_tp_cur (s : State) (n : Nat) (v : Half) : (s.setSd n v).tp.cur = s.tp.cur := rfl
@[simp] theorem setSd_tp_tokTask (s : State) (n : Nat) (v : Half) : (s.setSd n v).tp.tokTask = s.tp.tokTask := rfl
@[simp] theorem setSd_tp_role (s : State) (n : Nat) (v : Half) : (s.setSd n v).tp.role = s.tp.role := rfl
@[simp] theorem setSd_tp_preempt (s : State) (n : Nat) (v : Half) : (s.setSd n v).tp.preempt = s.tp.preempt := rfl
@[simp] theorem setSd_tp_holdAt (s : State) (n : Nat) (v : Half) : (s.setSd n v).tp.holdAt = s.tp.holdAt := rfl
@[simp] theorem setSd_tp_stopNow (s : State) (n : Nat) (v : Half) : (s.setSd n v).tp.stopNow = s.tp.stopNow := rfl
@[simp] theorem setSd_tp_images (s : State) (n : Nat) (v : Half) : (s.setSd n v).tp.images = s.tp.images := rfl
@[simp] theorem setSd_tp_frame (s : State) (n : Nat) (v : Half) : (s.setSd n v).tp.frame = s.tp.frame := rfl
@[simp] theorem setSd_tp_bulk (s : State) (n : Nat) (v : Half) : (s.setSd n v).tp.bulk = s.tp.bulk := rfl
@[simp] theorem setSd_tp_tlb (s : State) (n : Nat) (v : Half) : (s.setSd n v).tp.tlb = s.tp.tlb := rfl
@[simp] theorem setSd_tp_cache (s : State) (n : Nat) (v : Half) : (s.setSd n v).tp.cache = s.tp.cache := rfl
@[simp] theorem setSd_tp_stale (s : State) (n : Nat) (v : Half) : (s.setSd n v).tp.stale = s.tp.stale := rfl
@[simp] theorem setSd_tp_bankStale (s : State) (n : Nat) (v : Half) : (s.setSd n v).tp.bankStale = s.tp.bankStale := rfl
@[simp] theorem setSd_tp_events (s : State) (n : Nat) (v : Half) : (s.setSd n v).tp.events = s.tp.events := rfl
@[simp] theorem setSd_tp_issued (s : State) (n : Nat) (v : Half) : (s.setSd n v).tp.issued = s.tp.issued := rfl
@[simp] theorem setSd_tp_doneCmd (s : State) (n : Nat) (v : Half) : (s.setSd n v).tp.doneCmd = s.tp.doneCmd := rfl
@[simp] theorem setSd_tp_poison (s : State) (n : Nat) (v : Half) : (s.setSd n v).tp.poison = s.tp.poison := rfl
@[simp] theorem setSd_tp_peersReached (s : State) (n : Nat) (v : Half) : (s.setSd n v).tp.peersReached = s.tp.peersReached := rfl
@[simp] theorem setSd_tp_lastCtx (s : State) (n : Nat) (v : Half) : (s.setSd n v).tp.lastCtx = s.tp.lastCtx := rfl
@[simp] theorem setSd_tp_bankEra (s : State) (n : Nat) (v : Half) : (s.setSd n v).tp.bankEra = s.tp.bankEra := rfl
@[simp] theorem setSd_tp_bankOwner (s : State) (n : Nat) (v : Half) : (s.setSd n v).tp.bankOwner = s.tp.bankOwner := rfl
@[simp] theorem setSd_tp_bankMixed (s : State) (n : Nat) (v : Half) : (s.setSd n v).tp.bankMixed = s.tp.bankMixed := rfl
@[simp] theorem setSd_tp_parity (s : State) (n : Nat) (v : Half) : (s.setSd n v).tp.parity = s.tp.parity := rfl
@[simp] theorem setSd_tp_spent (s : State) (n : Nat) (v : Half) : (s.setSd n v).tp.spent = s.tp.spent := rfl
@[simp] theorem setSd_tp_ran (s : State) (n : Nat) (v : Half) : (s.setSd n v).tp.ran = s.tp.ran := rfl
@[simp] theorem setSd_tp_meterAt (s : State) (n : Nat) (v : Half) : (s.setSd n v).tp.meterAt = s.tp.meterAt := rfl

/-! ## setCb -/

@[simp] theorem setCb_cur (s : State) (n : Nat) (v : Sparse 32) : (s.setCb n v).cur = s.cur := rfl
@[simp] theorem setCb_others (s : State) (n : Nat) (v : Sparse 32) : (s.setCb n v).others = s.others := rfl
@[simp] theorem setCb_mem (s : State) (n : Nat) (v : Sparse 32) : (s.setCb n v).mem = s.mem := rfl
@[simp] theorem setCb_lines (s : State) (n : Nat) (v : Sparse 32) : (s.setCb n v).lines = s.lines := rfl
@[simp] theorem setCb_weak (s : State) (n : Nat) (v : Sparse 32) : (s.setCb n v).weak = s.weak := rfl
@[simp] theorem setCb_mediaStale (s : State) (n : Nat) (v : Sparse 32) : (s.setCb n v).mediaStale = s.mediaStale := rfl
@[simp] theorem setCb_writers (s : State) (n : Nat) (v : Sparse 32) : (s.setCb n v).writers = s.writers := rfl
@[simp] theorem setCb_wide (s : State) (n : Nat) (v : Sparse 32) : (s.setCb n v).wide = s.wide := rfl
@[simp] theorem setCb_flags (s : State) (n : Nat) (v : Sparse 32) : (s.setCb n v).flags = s.flags := rfl
@[simp] theorem setCb_cores (s : State) (n : Nat) (v : Sparse 32) : (s.setCb n v).cores = s.cores := rfl
@[simp] theorem setCb_tracked (s : State) (n : Nat) (v : Sparse 32) : (s.setCb n v).tracked = s.tracked := rfl
@[simp] theorem setCb_atc (s : State) (n : Nat) (v : Sparse 32) : (s.setCb n v).atc = s.atc := rfl
@[simp] theorem setCb_requests (s : State) (n : Nat) (v : Sparse 32) : (s.setCb n v).requests = s.requests := rfl
@[simp] theorem setCb_invalidations (s : State) (n : Nat) (v : Sparse 32) : (s.setCb n v).invalidations = s.invalidations := rfl
@[simp] theorem setCb_faults (s : State) (n : Nat) (v : Sparse 32) : (s.setCb n v).faults = s.faults := rfl
@[simp] theorem setCb_denied (s : State) (n : Nat) (v : Sparse 32) : (s.setCb n v).denied = s.denied := rfl
@[simp] theorem setCb_queues (s : State) (n : Nat) (v : Sparse 32) : (s.setCb n v).queues = s.queues := rfl
@[simp] theorem setCb_launches (s : State) (n : Nat) (v : Sparse 32) : (s.setCb n v).launches = s.launches := rfl
@[simp] theorem setCb_nextTask (s : State) (n : Nat) (v : Sparse 32) : (s.setCb n v).nextTask = s.nextTask := rfl
@[simp] theorem setCb_nextMedia (s : State) (n : Nat) (v : Sparse 32) : (s.setCb n v).nextMedia = s.nextMedia := rfl
@[simp] theorem setCb_turnstiles (s : State) (n : Nat) (v : Sparse 32) : (s.setCb n v).turnstiles = s.turnstiles := rfl
@[simp] theorem setCb_dealt (s : State) (n : Nat) (v : Sparse 32) : (s.setCb n v).dealt = s.dealt := rfl
@[simp] theorem setCb_homeless (s : State) (n : Nat) (v : Sparse 32) : (s.setCb n v).homeless = s.homeless := rfl
@[simp] theorem setCb_regions (s : State) (n : Nat) (v : Sparse 32) : (s.setCb n v).regions = s.regions := rfl
@[simp] theorem setCb_nextRegion (s : State) (n : Nat) (v : Sparse 32) : (s.setCb n v).nextRegion = s.nextRegion := rfl
@[simp] theorem setCb_watches (s : State) (n : Nat) (v : Sparse 32) : (s.setCb n v).watches = s.watches := rfl
@[simp] theorem setCb_ctxs (s : State) (n : Nat) (v : Sparse 32) : (s.setCb n v).ctxs = s.ctxs := rfl
@[simp] theorem setCb_tenants (s : State) (n : Nat) (v : Sparse 32) : (s.setCb n v).tenants = s.tenants := rfl
@[simp] theorem setCb_streams (s : State) (n : Nat) (v : Sparse 32) : (s.setCb n v).streams = s.streams := rfl
@[simp] theorem setCb_media (s : State) (n : Nat) (v : Sparse 32) : (s.setCb n v).media = s.media := rfl
@[simp] theorem setCb_mod (s : State) (n : Nat) (v : Sparse 32) : (s.setCb n v).mod = s.mod := rfl
@[simp] theorem setCb_time (s : State) (n : Nat) (v : Sparse 32) : (s.setCb n v).time = s.time := rfl
@[simp] theorem setCb_lcAt (s : State) (n : Nat) (v : Sparse 32) : (s.setCb n v).lcAt = s.lcAt := rfl
@[simp] theorem setCb_turn (s : State) (n : Nat) (v : Sparse 32) : (s.setCb n v).turn = s.turn := rfl
@[simp] theorem setCb_steps (s : State) (n : Nat) (v : Sparse 32) : (s.setCb n v).steps = s.steps := rfl
@[simp] theorem setCb_free (s : State) (n : Nat) (v : Sparse 32) : (s.setCb n v).free = s.free := rfl
@[simp] theorem setCb_inputs (s : State) (n : Nat) (v : Sparse 32) : (s.setCb n v).inputs = s.inputs := rfl
@[simp] theorem setCb_out (s : State) (n : Nat) (v : Sparse 32) : (s.setCb n v).out = s.out := rfl
@[simp] theorem setCb_tp_ac (s : State) (n : Nat) (v : Sparse 32) : (s.setCb n v).tp.ac = s.tp.ac := rfl
@[simp] theorem setCb_tp_ec (s : State) (n : Nat) (v : Sparse 32) : (s.setCb n v).tp.ec = s.tp.ec := rfl
@[simp] theorem setCb_tp_be (s : State) (n : Nat) (v : Sparse 32) : (s.setCb n v).tp.be = { s.tp.be with cb := Map.put s.tp.be.cb n v } := rfl
@[simp] theorem setCb_tp_ce (s : State) (n : Nat) (v : Sparse 32) : (s.setCb n v).tp.ce = s.tp.ce := rfl
@[simp] theorem setCb_tp_ie (s : State) (n : Nat) (v : Sparse 32) : (s.setCb n v).tp.ie = s.tp.ie := rfl
@[simp] theorem setCb_tp_he (s : State) (n : Nat) (v : Sparse 32) : (s.setCb n v).tp.he = s.tp.he := rfl
@[simp] theorem setCb_tp_slots (s : State) (n : Nat) (v : Sparse 32) : (s.setCb n v).tp.slots = s.tp.slots := rfl
@[simp] theorem setCb_tp_queues (s : State) (n : Nat) (v : Sparse 32) : (s.setCb n v).tp.queues = s.tp.queues := rfl
@[simp] theorem setCb_tp_tokens (s : State) (n : Nat) (v : Sparse 32) : (s.setCb n v).tp.tokens = s.tp.tokens := rfl
@[simp] theorem setCb_tp_banks (s : State) (n : Nat) (v : Sparse 32) : (s.setCb n v).tp.banks = s.tp.banks := rfl
@[simp] theorem setCb_tp_brr (s : State) (n : Nat) (v : Sparse 32) : (s.setCb n v).tp.brr = s.tp.brr := rfl
@[simp] theorem setCb_tp_qdir (s : State) (n : Nat) (v : Sparse 32) : (s.setCb n v).tp.qdir = s.tp.qdir := rfl
@[simp] theorem setCb_tp_svwm (s : State) (n : Nat) (v : Sparse 32) : (s.setCb n v).tp.svwm = s.tp.svwm := rfl
@[simp] theorem setCb_tp_svwmAt (s : State) (n : Nat) (v : Sparse 32) : (s.setCb n v).tp.svwmAt = s.tp.svwmAt := rfl
@[simp] theorem setCb_tp_late (s : State) (n : Nat) (v : Sparse 32) : (s.setCb n v).tp.late = s.tp.late := rfl
@[simp] theorem setCb_tp_tasks (s : State) (n : Nat) (v : Sparse 32) : (s.setCb n v).tp.tasks = s.tp.tasks := rfl
@[simp] theorem setCb_tp_cur (s : State) (n : Nat) (v : Sparse 32) : (s.setCb n v).tp.cur = s.tp.cur := rfl
@[simp] theorem setCb_tp_tokTask (s : State) (n : Nat) (v : Sparse 32) : (s.setCb n v).tp.tokTask = s.tp.tokTask := rfl
@[simp] theorem setCb_tp_role (s : State) (n : Nat) (v : Sparse 32) : (s.setCb n v).tp.role = s.tp.role := rfl
@[simp] theorem setCb_tp_preempt (s : State) (n : Nat) (v : Sparse 32) : (s.setCb n v).tp.preempt = s.tp.preempt := rfl
@[simp] theorem setCb_tp_holdAt (s : State) (n : Nat) (v : Sparse 32) : (s.setCb n v).tp.holdAt = s.tp.holdAt := rfl
@[simp] theorem setCb_tp_stopNow (s : State) (n : Nat) (v : Sparse 32) : (s.setCb n v).tp.stopNow = s.tp.stopNow := rfl
@[simp] theorem setCb_tp_images (s : State) (n : Nat) (v : Sparse 32) : (s.setCb n v).tp.images = s.tp.images := rfl
@[simp] theorem setCb_tp_frame (s : State) (n : Nat) (v : Sparse 32) : (s.setCb n v).tp.frame = s.tp.frame := rfl
@[simp] theorem setCb_tp_bulk (s : State) (n : Nat) (v : Sparse 32) : (s.setCb n v).tp.bulk = s.tp.bulk := rfl
@[simp] theorem setCb_tp_tlb (s : State) (n : Nat) (v : Sparse 32) : (s.setCb n v).tp.tlb = s.tp.tlb := rfl
@[simp] theorem setCb_tp_cache (s : State) (n : Nat) (v : Sparse 32) : (s.setCb n v).tp.cache = s.tp.cache := rfl
@[simp] theorem setCb_tp_stale (s : State) (n : Nat) (v : Sparse 32) : (s.setCb n v).tp.stale = s.tp.stale := rfl
@[simp] theorem setCb_tp_bankStale (s : State) (n : Nat) (v : Sparse 32) : (s.setCb n v).tp.bankStale = s.tp.bankStale := rfl
@[simp] theorem setCb_tp_events (s : State) (n : Nat) (v : Sparse 32) : (s.setCb n v).tp.events = s.tp.events := rfl
@[simp] theorem setCb_tp_issued (s : State) (n : Nat) (v : Sparse 32) : (s.setCb n v).tp.issued = s.tp.issued := rfl
@[simp] theorem setCb_tp_doneCmd (s : State) (n : Nat) (v : Sparse 32) : (s.setCb n v).tp.doneCmd = s.tp.doneCmd := rfl
@[simp] theorem setCb_tp_poison (s : State) (n : Nat) (v : Sparse 32) : (s.setCb n v).tp.poison = s.tp.poison := rfl
@[simp] theorem setCb_tp_peersReached (s : State) (n : Nat) (v : Sparse 32) : (s.setCb n v).tp.peersReached = s.tp.peersReached := rfl
@[simp] theorem setCb_tp_lastCtx (s : State) (n : Nat) (v : Sparse 32) : (s.setCb n v).tp.lastCtx = s.tp.lastCtx := rfl
@[simp] theorem setCb_tp_bankEra (s : State) (n : Nat) (v : Sparse 32) : (s.setCb n v).tp.bankEra = s.tp.bankEra := rfl
@[simp] theorem setCb_tp_bankOwner (s : State) (n : Nat) (v : Sparse 32) : (s.setCb n v).tp.bankOwner = s.tp.bankOwner := rfl
@[simp] theorem setCb_tp_bankMixed (s : State) (n : Nat) (v : Sparse 32) : (s.setCb n v).tp.bankMixed = s.tp.bankMixed := rfl
@[simp] theorem setCb_tp_parity (s : State) (n : Nat) (v : Sparse 32) : (s.setCb n v).tp.parity = s.tp.parity := rfl
@[simp] theorem setCb_tp_spent (s : State) (n : Nat) (v : Sparse 32) : (s.setCb n v).tp.spent = s.tp.spent := rfl
@[simp] theorem setCb_tp_ran (s : State) (n : Nat) (v : Sparse 32) : (s.setCb n v).tp.ran = s.tp.ran := rfl
@[simp] theorem setCb_tp_meterAt (s : State) (n : Nat) (v : Sparse 32) : (s.setCb n v).tp.meterAt = s.tp.meterAt := rfl

/-! ## changeTask -/

@[simp] theorem changeTask_cur (s : State) (id : Nat) (f : Task → Task) : (s.changeTask id f).cur = s.cur := rfl
@[simp] theorem changeTask_others (s : State) (id : Nat) (f : Task → Task) : (s.changeTask id f).others = s.others := rfl
@[simp] theorem changeTask_mem (s : State) (id : Nat) (f : Task → Task) : (s.changeTask id f).mem = s.mem := rfl
@[simp] theorem changeTask_lines (s : State) (id : Nat) (f : Task → Task) : (s.changeTask id f).lines = s.lines := rfl
@[simp] theorem changeTask_weak (s : State) (id : Nat) (f : Task → Task) : (s.changeTask id f).weak = s.weak := rfl
@[simp] theorem changeTask_mediaStale (s : State) (id : Nat) (f : Task → Task) : (s.changeTask id f).mediaStale = s.mediaStale := rfl
@[simp] theorem changeTask_writers (s : State) (id : Nat) (f : Task → Task) : (s.changeTask id f).writers = s.writers := rfl
@[simp] theorem changeTask_wide (s : State) (id : Nat) (f : Task → Task) : (s.changeTask id f).wide = s.wide := rfl
@[simp] theorem changeTask_flags (s : State) (id : Nat) (f : Task → Task) : (s.changeTask id f).flags = s.flags := rfl
@[simp] theorem changeTask_cores (s : State) (id : Nat) (f : Task → Task) : (s.changeTask id f).cores = s.cores := rfl
@[simp] theorem changeTask_tracked (s : State) (id : Nat) (f : Task → Task) : (s.changeTask id f).tracked = s.tracked := rfl
@[simp] theorem changeTask_atc (s : State) (id : Nat) (f : Task → Task) : (s.changeTask id f).atc = s.atc := rfl
@[simp] theorem changeTask_requests (s : State) (id : Nat) (f : Task → Task) : (s.changeTask id f).requests = s.requests := rfl
@[simp] theorem changeTask_invalidations (s : State) (id : Nat) (f : Task → Task) : (s.changeTask id f).invalidations = s.invalidations := rfl
@[simp] theorem changeTask_faults (s : State) (id : Nat) (f : Task → Task) : (s.changeTask id f).faults = s.faults := rfl
@[simp] theorem changeTask_denied (s : State) (id : Nat) (f : Task → Task) : (s.changeTask id f).denied = s.denied := rfl
@[simp] theorem changeTask_queues (s : State) (id : Nat) (f : Task → Task) : (s.changeTask id f).queues = s.queues := rfl
@[simp] theorem changeTask_launches (s : State) (id : Nat) (f : Task → Task) : (s.changeTask id f).launches = s.launches := rfl
@[simp] theorem changeTask_nextTask (s : State) (id : Nat) (f : Task → Task) : (s.changeTask id f).nextTask = s.nextTask := rfl
@[simp] theorem changeTask_nextMedia (s : State) (id : Nat) (f : Task → Task) : (s.changeTask id f).nextMedia = s.nextMedia := rfl
@[simp] theorem changeTask_turnstiles (s : State) (id : Nat) (f : Task → Task) : (s.changeTask id f).turnstiles = s.turnstiles := rfl
@[simp] theorem changeTask_dealt (s : State) (id : Nat) (f : Task → Task) : (s.changeTask id f).dealt = s.dealt := rfl
@[simp] theorem changeTask_homeless (s : State) (id : Nat) (f : Task → Task) : (s.changeTask id f).homeless = s.homeless := rfl
@[simp] theorem changeTask_regions (s : State) (id : Nat) (f : Task → Task) : (s.changeTask id f).regions = s.regions := rfl
@[simp] theorem changeTask_nextRegion (s : State) (id : Nat) (f : Task → Task) : (s.changeTask id f).nextRegion = s.nextRegion := rfl
@[simp] theorem changeTask_watches (s : State) (id : Nat) (f : Task → Task) : (s.changeTask id f).watches = s.watches := rfl
@[simp] theorem changeTask_ctxs (s : State) (id : Nat) (f : Task → Task) : (s.changeTask id f).ctxs = s.ctxs := rfl
@[simp] theorem changeTask_tenants (s : State) (id : Nat) (f : Task → Task) : (s.changeTask id f).tenants = s.tenants := rfl
@[simp] theorem changeTask_streams (s : State) (id : Nat) (f : Task → Task) : (s.changeTask id f).streams = s.streams := rfl
@[simp] theorem changeTask_media (s : State) (id : Nat) (f : Task → Task) : (s.changeTask id f).media = s.media := rfl
@[simp] theorem changeTask_mod (s : State) (id : Nat) (f : Task → Task) : (s.changeTask id f).mod = s.mod := rfl
@[simp] theorem changeTask_time (s : State) (id : Nat) (f : Task → Task) : (s.changeTask id f).time = s.time := rfl
@[simp] theorem changeTask_lcAt (s : State) (id : Nat) (f : Task → Task) : (s.changeTask id f).lcAt = s.lcAt := rfl
@[simp] theorem changeTask_turn (s : State) (id : Nat) (f : Task → Task) : (s.changeTask id f).turn = s.turn := rfl
@[simp] theorem changeTask_steps (s : State) (id : Nat) (f : Task → Task) : (s.changeTask id f).steps = s.steps := rfl
@[simp] theorem changeTask_free (s : State) (id : Nat) (f : Task → Task) : (s.changeTask id f).free = s.free := rfl
@[simp] theorem changeTask_inputs (s : State) (id : Nat) (f : Task → Task) : (s.changeTask id f).inputs = s.inputs := rfl
@[simp] theorem changeTask_out (s : State) (id : Nat) (f : Task → Task) : (s.changeTask id f).out = s.out := rfl
@[simp] theorem changeTask_tp_ac (s : State) (id : Nat) (f : Task → Task) : (s.changeTask id f).tp.ac = s.tp.ac := rfl
@[simp] theorem changeTask_tp_ec (s : State) (id : Nat) (f : Task → Task) : (s.changeTask id f).tp.ec = s.tp.ec := rfl
@[simp] theorem changeTask_tp_be (s : State) (id : Nat) (f : Task → Task) : (s.changeTask id f).tp.be = s.tp.be := rfl
@[simp] theorem changeTask_tp_ce (s : State) (id : Nat) (f : Task → Task) : (s.changeTask id f).tp.ce = s.tp.ce := rfl
@[simp] theorem changeTask_tp_ie (s : State) (id : Nat) (f : Task → Task) : (s.changeTask id f).tp.ie = s.tp.ie := rfl
@[simp] theorem changeTask_tp_he (s : State) (id : Nat) (f : Task → Task) : (s.changeTask id f).tp.he = s.tp.he := rfl
@[simp] theorem changeTask_tp_slots (s : State) (id : Nat) (f : Task → Task) : (s.changeTask id f).tp.slots = s.tp.slots := rfl
@[simp] theorem changeTask_tp_queues (s : State) (id : Nat) (f : Task → Task) : (s.changeTask id f).tp.queues = s.tp.queues := rfl
@[simp] theorem changeTask_tp_tokens (s : State) (id : Nat) (f : Task → Task) : (s.changeTask id f).tp.tokens = s.tp.tokens := rfl
@[simp] theorem changeTask_tp_banks (s : State) (id : Nat) (f : Task → Task) : (s.changeTask id f).tp.banks = s.tp.banks := rfl
@[simp] theorem changeTask_tp_brr (s : State) (id : Nat) (f : Task → Task) : (s.changeTask id f).tp.brr = s.tp.brr := rfl
@[simp] theorem changeTask_tp_qdir (s : State) (id : Nat) (f : Task → Task) : (s.changeTask id f).tp.qdir = s.tp.qdir := rfl
@[simp] theorem changeTask_tp_svwm (s : State) (id : Nat) (f : Task → Task) : (s.changeTask id f).tp.svwm = s.tp.svwm := rfl
@[simp] theorem changeTask_tp_svwmAt (s : State) (id : Nat) (f : Task → Task) : (s.changeTask id f).tp.svwmAt = s.tp.svwmAt := rfl
@[simp] theorem changeTask_tp_late (s : State) (id : Nat) (f : Task → Task) : (s.changeTask id f).tp.late = s.tp.late := rfl
@[simp] theorem changeTask_tp_tasks (s : State) (id : Nat) (f : Task → Task) : (s.changeTask id f).tp.tasks = s.tp.tasks.map (fun k => if k.id == id then f k else k) := rfl
@[simp] theorem changeTask_tp_cur (s : State) (id : Nat) (f : Task → Task) : (s.changeTask id f).tp.cur = s.tp.cur := rfl
@[simp] theorem changeTask_tp_tokTask (s : State) (id : Nat) (f : Task → Task) : (s.changeTask id f).tp.tokTask = s.tp.tokTask := rfl
@[simp] theorem changeTask_tp_role (s : State) (id : Nat) (f : Task → Task) : (s.changeTask id f).tp.role = s.tp.role := rfl
@[simp] theorem changeTask_tp_preempt (s : State) (id : Nat) (f : Task → Task) : (s.changeTask id f).tp.preempt = s.tp.preempt := rfl
@[simp] theorem changeTask_tp_holdAt (s : State) (id : Nat) (f : Task → Task) : (s.changeTask id f).tp.holdAt = s.tp.holdAt := rfl
@[simp] theorem changeTask_tp_stopNow (s : State) (id : Nat) (f : Task → Task) : (s.changeTask id f).tp.stopNow = s.tp.stopNow := rfl
@[simp] theorem changeTask_tp_images (s : State) (id : Nat) (f : Task → Task) : (s.changeTask id f).tp.images = s.tp.images := rfl
@[simp] theorem changeTask_tp_frame (s : State) (id : Nat) (f : Task → Task) : (s.changeTask id f).tp.frame = s.tp.frame := rfl
@[simp] theorem changeTask_tp_bulk (s : State) (id : Nat) (f : Task → Task) : (s.changeTask id f).tp.bulk = s.tp.bulk := rfl
@[simp] theorem changeTask_tp_tlb (s : State) (id : Nat) (f : Task → Task) : (s.changeTask id f).tp.tlb = s.tp.tlb := rfl
@[simp] theorem changeTask_tp_cache (s : State) (id : Nat) (f : Task → Task) : (s.changeTask id f).tp.cache = s.tp.cache := rfl
@[simp] theorem changeTask_tp_stale (s : State) (id : Nat) (f : Task → Task) : (s.changeTask id f).tp.stale = s.tp.stale := rfl
@[simp] theorem changeTask_tp_bankStale (s : State) (id : Nat) (f : Task → Task) : (s.changeTask id f).tp.bankStale = s.tp.bankStale := rfl
@[simp] theorem changeTask_tp_events (s : State) (id : Nat) (f : Task → Task) : (s.changeTask id f).tp.events = s.tp.events := rfl
@[simp] theorem changeTask_tp_issued (s : State) (id : Nat) (f : Task → Task) : (s.changeTask id f).tp.issued = s.tp.issued := rfl
@[simp] theorem changeTask_tp_doneCmd (s : State) (id : Nat) (f : Task → Task) : (s.changeTask id f).tp.doneCmd = s.tp.doneCmd := rfl
@[simp] theorem changeTask_tp_poison (s : State) (id : Nat) (f : Task → Task) : (s.changeTask id f).tp.poison = s.tp.poison := rfl
@[simp] theorem changeTask_tp_peersReached (s : State) (id : Nat) (f : Task → Task) : (s.changeTask id f).tp.peersReached = s.tp.peersReached := rfl
@[simp] theorem changeTask_tp_lastCtx (s : State) (id : Nat) (f : Task → Task) : (s.changeTask id f).tp.lastCtx = s.tp.lastCtx := rfl
@[simp] theorem changeTask_tp_bankEra (s : State) (id : Nat) (f : Task → Task) : (s.changeTask id f).tp.bankEra = s.tp.bankEra := rfl
@[simp] theorem changeTask_tp_bankOwner (s : State) (id : Nat) (f : Task → Task) : (s.changeTask id f).tp.bankOwner = s.tp.bankOwner := rfl
@[simp] theorem changeTask_tp_bankMixed (s : State) (id : Nat) (f : Task → Task) : (s.changeTask id f).tp.bankMixed = s.tp.bankMixed := rfl
@[simp] theorem changeTask_tp_parity (s : State) (id : Nat) (f : Task → Task) : (s.changeTask id f).tp.parity = s.tp.parity := rfl
@[simp] theorem changeTask_tp_spent (s : State) (id : Nat) (f : Task → Task) : (s.changeTask id f).tp.spent = s.tp.spent := rfl
@[simp] theorem changeTask_tp_ran (s : State) (id : Nat) (f : Task → Task) : (s.changeTask id f).tp.ran = s.tp.ran := rfl
@[simp] theorem changeTask_tp_meterAt (s : State) (id : Nat) (f : Task → Task) : (s.changeTask id f).tp.meterAt = s.tp.meterAt := rfl

/-! ## emit -/

@[simp] theorem emit_cur (s : State) (o : Out) : (s.emit o).cur = s.cur := rfl
@[simp] theorem emit_tp (s : State) (o : Out) : (s.emit o).tp = s.tp := rfl
@[simp] theorem emit_others (s : State) (o : Out) : (s.emit o).others = s.others := rfl
@[simp] theorem emit_mem (s : State) (o : Out) : (s.emit o).mem = s.mem := rfl
@[simp] theorem emit_lines (s : State) (o : Out) : (s.emit o).lines = s.lines := rfl
@[simp] theorem emit_weak (s : State) (o : Out) : (s.emit o).weak = s.weak := rfl
@[simp] theorem emit_mediaStale (s : State) (o : Out) : (s.emit o).mediaStale = s.mediaStale := rfl
@[simp] theorem emit_writers (s : State) (o : Out) : (s.emit o).writers = s.writers := rfl
@[simp] theorem emit_wide (s : State) (o : Out) : (s.emit o).wide = s.wide := rfl
@[simp] theorem emit_flags (s : State) (o : Out) : (s.emit o).flags = s.flags := rfl
@[simp] theorem emit_cores (s : State) (o : Out) : (s.emit o).cores = s.cores := rfl
@[simp] theorem emit_tracked (s : State) (o : Out) : (s.emit o).tracked = s.tracked := rfl
@[simp] theorem emit_atc (s : State) (o : Out) : (s.emit o).atc = s.atc := rfl
@[simp] theorem emit_requests (s : State) (o : Out) : (s.emit o).requests = s.requests := rfl
@[simp] theorem emit_invalidations (s : State) (o : Out) : (s.emit o).invalidations = s.invalidations := rfl
@[simp] theorem emit_faults (s : State) (o : Out) : (s.emit o).faults = s.faults := rfl
@[simp] theorem emit_denied (s : State) (o : Out) : (s.emit o).denied = s.denied := rfl
@[simp] theorem emit_queues (s : State) (o : Out) : (s.emit o).queues = s.queues := rfl
@[simp] theorem emit_launches (s : State) (o : Out) : (s.emit o).launches = s.launches := rfl
@[simp] theorem emit_nextTask (s : State) (o : Out) : (s.emit o).nextTask = s.nextTask := rfl
@[simp] theorem emit_nextMedia (s : State) (o : Out) : (s.emit o).nextMedia = s.nextMedia := rfl
@[simp] theorem emit_turnstiles (s : State) (o : Out) : (s.emit o).turnstiles = s.turnstiles := rfl
@[simp] theorem emit_dealt (s : State) (o : Out) : (s.emit o).dealt = s.dealt := rfl
@[simp] theorem emit_homeless (s : State) (o : Out) : (s.emit o).homeless = s.homeless := rfl
@[simp] theorem emit_regions (s : State) (o : Out) : (s.emit o).regions = s.regions := rfl
@[simp] theorem emit_nextRegion (s : State) (o : Out) : (s.emit o).nextRegion = s.nextRegion := rfl
@[simp] theorem emit_watches (s : State) (o : Out) : (s.emit o).watches = s.watches := rfl
@[simp] theorem emit_ctxs (s : State) (o : Out) : (s.emit o).ctxs = s.ctxs := rfl
@[simp] theorem emit_tenants (s : State) (o : Out) : (s.emit o).tenants = s.tenants := rfl
@[simp] theorem emit_streams (s : State) (o : Out) : (s.emit o).streams = s.streams := rfl
@[simp] theorem emit_media (s : State) (o : Out) : (s.emit o).media = s.media := rfl
@[simp] theorem emit_mod (s : State) (o : Out) : (s.emit o).mod = s.mod := rfl
@[simp] theorem emit_time (s : State) (o : Out) : (s.emit o).time = s.time := rfl
@[simp] theorem emit_lcAt (s : State) (o : Out) : (s.emit o).lcAt = s.lcAt := rfl
@[simp] theorem emit_turn (s : State) (o : Out) : (s.emit o).turn = s.turn := rfl
@[simp] theorem emit_steps (s : State) (o : Out) : (s.emit o).steps = s.steps := rfl
@[simp] theorem emit_free (s : State) (o : Out) : (s.emit o).free = s.free := rfl
@[simp] theorem emit_inputs (s : State) (o : Out) : (s.emit o).inputs = s.inputs := rfl
@[simp] theorem emit_out (s : State) (o : Out) : (s.emit o).out = s.out ++ [o] := rfl

/-! ## setTenant -/

@[simp] theorem setTenant_cur (s : State) (n : Nat) (v : Tenant) : (s.setTenant n v).cur = s.cur := rfl
@[simp] theorem setTenant_tp (s : State) (n : Nat) (v : Tenant) : (s.setTenant n v).tp = s.tp := rfl
@[simp] theorem setTenant_others (s : State) (n : Nat) (v : Tenant) : (s.setTenant n v).others = s.others := rfl
@[simp] theorem setTenant_mem (s : State) (n : Nat) (v : Tenant) : (s.setTenant n v).mem = s.mem := rfl
@[simp] theorem setTenant_lines (s : State) (n : Nat) (v : Tenant) : (s.setTenant n v).lines = s.lines := rfl
@[simp] theorem setTenant_weak (s : State) (n : Nat) (v : Tenant) : (s.setTenant n v).weak = s.weak := rfl
@[simp] theorem setTenant_mediaStale (s : State) (n : Nat) (v : Tenant) : (s.setTenant n v).mediaStale = s.mediaStale := rfl
@[simp] theorem setTenant_writers (s : State) (n : Nat) (v : Tenant) : (s.setTenant n v).writers = s.writers := rfl
@[simp] theorem setTenant_wide (s : State) (n : Nat) (v : Tenant) : (s.setTenant n v).wide = s.wide := rfl
@[simp] theorem setTenant_flags (s : State) (n : Nat) (v : Tenant) : (s.setTenant n v).flags = s.flags := rfl
@[simp] theorem setTenant_cores (s : State) (n : Nat) (v : Tenant) : (s.setTenant n v).cores = s.cores := rfl
@[simp] theorem setTenant_tracked (s : State) (n : Nat) (v : Tenant) : (s.setTenant n v).tracked = s.tracked := rfl
@[simp] theorem setTenant_atc (s : State) (n : Nat) (v : Tenant) : (s.setTenant n v).atc = s.atc := rfl
@[simp] theorem setTenant_requests (s : State) (n : Nat) (v : Tenant) : (s.setTenant n v).requests = s.requests := rfl
@[simp] theorem setTenant_invalidations (s : State) (n : Nat) (v : Tenant) : (s.setTenant n v).invalidations = s.invalidations := rfl
@[simp] theorem setTenant_faults (s : State) (n : Nat) (v : Tenant) : (s.setTenant n v).faults = s.faults := rfl
@[simp] theorem setTenant_denied (s : State) (n : Nat) (v : Tenant) : (s.setTenant n v).denied = s.denied := rfl
@[simp] theorem setTenant_queues (s : State) (n : Nat) (v : Tenant) : (s.setTenant n v).queues = s.queues := rfl
@[simp] theorem setTenant_launches (s : State) (n : Nat) (v : Tenant) : (s.setTenant n v).launches = s.launches := rfl
@[simp] theorem setTenant_nextTask (s : State) (n : Nat) (v : Tenant) : (s.setTenant n v).nextTask = s.nextTask := rfl
@[simp] theorem setTenant_nextMedia (s : State) (n : Nat) (v : Tenant) : (s.setTenant n v).nextMedia = s.nextMedia := rfl
@[simp] theorem setTenant_turnstiles (s : State) (n : Nat) (v : Tenant) : (s.setTenant n v).turnstiles = s.turnstiles := rfl
@[simp] theorem setTenant_dealt (s : State) (n : Nat) (v : Tenant) : (s.setTenant n v).dealt = s.dealt := rfl
@[simp] theorem setTenant_homeless (s : State) (n : Nat) (v : Tenant) : (s.setTenant n v).homeless = s.homeless := rfl
@[simp] theorem setTenant_regions (s : State) (n : Nat) (v : Tenant) : (s.setTenant n v).regions = s.regions := rfl
@[simp] theorem setTenant_nextRegion (s : State) (n : Nat) (v : Tenant) : (s.setTenant n v).nextRegion = s.nextRegion := rfl
@[simp] theorem setTenant_watches (s : State) (n : Nat) (v : Tenant) : (s.setTenant n v).watches = s.watches := rfl
@[simp] theorem setTenant_ctxs (s : State) (n : Nat) (v : Tenant) : (s.setTenant n v).ctxs = s.ctxs := rfl
@[simp] theorem setTenant_tenants (s : State) (n : Nat) (v : Tenant) : (s.setTenant n v).tenants = Map.put s.tenants n v := rfl
@[simp] theorem setTenant_streams (s : State) (n : Nat) (v : Tenant) : (s.setTenant n v).streams = s.streams := rfl
@[simp] theorem setTenant_media (s : State) (n : Nat) (v : Tenant) : (s.setTenant n v).media = s.media := rfl
@[simp] theorem setTenant_mod (s : State) (n : Nat) (v : Tenant) : (s.setTenant n v).mod = s.mod := rfl
@[simp] theorem setTenant_time (s : State) (n : Nat) (v : Tenant) : (s.setTenant n v).time = s.time := rfl
@[simp] theorem setTenant_lcAt (s : State) (n : Nat) (v : Tenant) : (s.setTenant n v).lcAt = s.lcAt := rfl
@[simp] theorem setTenant_turn (s : State) (n : Nat) (v : Tenant) : (s.setTenant n v).turn = s.turn := rfl
@[simp] theorem setTenant_steps (s : State) (n : Nat) (v : Tenant) : (s.setTenant n v).steps = s.steps := rfl
@[simp] theorem setTenant_free (s : State) (n : Nat) (v : Tenant) : (s.setTenant n v).free = s.free := rfl
@[simp] theorem setTenant_inputs (s : State) (n : Nat) (v : Tenant) : (s.setTenant n v).inputs = s.inputs := rfl
@[simp] theorem setTenant_out (s : State) (n : Nat) (v : Tenant) : (s.setTenant n v).out = s.out := rfl

/-! ## changeCtx -/

@[simp] theorem changeCtx_cur (s : State) (n : Nat) (f : Ctx → Ctx) : (s.changeCtx n f).cur = s.cur := rfl
@[simp] theorem changeCtx_tp (s : State) (n : Nat) (f : Ctx → Ctx) : (s.changeCtx n f).tp = s.tp := rfl
@[simp] theorem changeCtx_others (s : State) (n : Nat) (f : Ctx → Ctx) : (s.changeCtx n f).others = s.others := rfl
@[simp] theorem changeCtx_mem (s : State) (n : Nat) (f : Ctx → Ctx) : (s.changeCtx n f).mem = s.mem := rfl
@[simp] theorem changeCtx_lines (s : State) (n : Nat) (f : Ctx → Ctx) : (s.changeCtx n f).lines = s.lines := rfl
@[simp] theorem changeCtx_weak (s : State) (n : Nat) (f : Ctx → Ctx) : (s.changeCtx n f).weak = s.weak := rfl
@[simp] theorem changeCtx_mediaStale (s : State) (n : Nat) (f : Ctx → Ctx) : (s.changeCtx n f).mediaStale = s.mediaStale := rfl
@[simp] theorem changeCtx_writers (s : State) (n : Nat) (f : Ctx → Ctx) : (s.changeCtx n f).writers = s.writers := rfl
@[simp] theorem changeCtx_wide (s : State) (n : Nat) (f : Ctx → Ctx) : (s.changeCtx n f).wide = s.wide := rfl
@[simp] theorem changeCtx_flags (s : State) (n : Nat) (f : Ctx → Ctx) : (s.changeCtx n f).flags = s.flags := rfl
@[simp] theorem changeCtx_cores (s : State) (n : Nat) (f : Ctx → Ctx) : (s.changeCtx n f).cores = s.cores := rfl
@[simp] theorem changeCtx_tracked (s : State) (n : Nat) (f : Ctx → Ctx) : (s.changeCtx n f).tracked = s.tracked := rfl
@[simp] theorem changeCtx_atc (s : State) (n : Nat) (f : Ctx → Ctx) : (s.changeCtx n f).atc = s.atc := rfl
@[simp] theorem changeCtx_requests (s : State) (n : Nat) (f : Ctx → Ctx) : (s.changeCtx n f).requests = s.requests := rfl
@[simp] theorem changeCtx_invalidations (s : State) (n : Nat) (f : Ctx → Ctx) : (s.changeCtx n f).invalidations = s.invalidations := rfl
@[simp] theorem changeCtx_faults (s : State) (n : Nat) (f : Ctx → Ctx) : (s.changeCtx n f).faults = s.faults := rfl
@[simp] theorem changeCtx_denied (s : State) (n : Nat) (f : Ctx → Ctx) : (s.changeCtx n f).denied = s.denied := rfl
@[simp] theorem changeCtx_queues (s : State) (n : Nat) (f : Ctx → Ctx) : (s.changeCtx n f).queues = s.queues := rfl
@[simp] theorem changeCtx_launches (s : State) (n : Nat) (f : Ctx → Ctx) : (s.changeCtx n f).launches = s.launches := rfl
@[simp] theorem changeCtx_nextTask (s : State) (n : Nat) (f : Ctx → Ctx) : (s.changeCtx n f).nextTask = s.nextTask := rfl
@[simp] theorem changeCtx_nextMedia (s : State) (n : Nat) (f : Ctx → Ctx) : (s.changeCtx n f).nextMedia = s.nextMedia := rfl
@[simp] theorem changeCtx_turnstiles (s : State) (n : Nat) (f : Ctx → Ctx) : (s.changeCtx n f).turnstiles = s.turnstiles := rfl
@[simp] theorem changeCtx_dealt (s : State) (n : Nat) (f : Ctx → Ctx) : (s.changeCtx n f).dealt = s.dealt := rfl
@[simp] theorem changeCtx_homeless (s : State) (n : Nat) (f : Ctx → Ctx) : (s.changeCtx n f).homeless = s.homeless := rfl
@[simp] theorem changeCtx_regions (s : State) (n : Nat) (f : Ctx → Ctx) : (s.changeCtx n f).regions = s.regions := rfl
@[simp] theorem changeCtx_nextRegion (s : State) (n : Nat) (f : Ctx → Ctx) : (s.changeCtx n f).nextRegion = s.nextRegion := rfl
@[simp] theorem changeCtx_watches (s : State) (n : Nat) (f : Ctx → Ctx) : (s.changeCtx n f).watches = s.watches := rfl
@[simp] theorem changeCtx_ctxs (s : State) (n : Nat) (f : Ctx → Ctx) : (s.changeCtx n f).ctxs = Map.change s.ctxs n f := rfl
@[simp] theorem changeCtx_tenants (s : State) (n : Nat) (f : Ctx → Ctx) : (s.changeCtx n f).tenants = s.tenants := rfl
@[simp] theorem changeCtx_streams (s : State) (n : Nat) (f : Ctx → Ctx) : (s.changeCtx n f).streams = s.streams := rfl
@[simp] theorem changeCtx_media (s : State) (n : Nat) (f : Ctx → Ctx) : (s.changeCtx n f).media = s.media := rfl
@[simp] theorem changeCtx_mod (s : State) (n : Nat) (f : Ctx → Ctx) : (s.changeCtx n f).mod = s.mod := rfl
@[simp] theorem changeCtx_time (s : State) (n : Nat) (f : Ctx → Ctx) : (s.changeCtx n f).time = s.time := rfl
@[simp] theorem changeCtx_lcAt (s : State) (n : Nat) (f : Ctx → Ctx) : (s.changeCtx n f).lcAt = s.lcAt := rfl
@[simp] theorem changeCtx_turn (s : State) (n : Nat) (f : Ctx → Ctx) : (s.changeCtx n f).turn = s.turn := rfl
@[simp] theorem changeCtx_steps (s : State) (n : Nat) (f : Ctx → Ctx) : (s.changeCtx n f).steps = s.steps := rfl
@[simp] theorem changeCtx_free (s : State) (n : Nat) (f : Ctx → Ctx) : (s.changeCtx n f).free = s.free := rfl
@[simp] theorem changeCtx_inputs (s : State) (n : Nat) (f : Ctx → Ctx) : (s.changeCtx n f).inputs = s.inputs := rfl
@[simp] theorem changeCtx_out (s : State) (n : Nat) (f : Ctx → Ctx) : (s.changeCtx n f).out = s.out := rfl

/-! ## setMod -/

@[simp] theorem setMod_cur (s : State) (m : Module) : (s.setMod m).cur = s.cur := rfl
@[simp] theorem setMod_tp (s : State) (m : Module) : (s.setMod m).tp = s.tp := rfl
@[simp] theorem setMod_others (s : State) (m : Module) : (s.setMod m).others = s.others := rfl
@[simp] theorem setMod_mem (s : State) (m : Module) : (s.setMod m).mem = s.mem := rfl
@[simp] theorem setMod_lines (s : State) (m : Module) : (s.setMod m).lines = s.lines := rfl
@[simp] theorem setMod_weak (s : State) (m : Module) : (s.setMod m).weak = s.weak := rfl
@[simp] theorem setMod_mediaStale (s : State) (m : Module) : (s.setMod m).mediaStale = s.mediaStale := rfl
@[simp] theorem setMod_writers (s : State) (m : Module) : (s.setMod m).writers = s.writers := rfl
@[simp] theorem setMod_wide (s : State) (m : Module) : (s.setMod m).wide = s.wide := rfl
@[simp] theorem setMod_flags (s : State) (m : Module) : (s.setMod m).flags = s.flags := rfl
@[simp] theorem setMod_cores (s : State) (m : Module) : (s.setMod m).cores = s.cores := rfl
@[simp] theorem setMod_tracked (s : State) (m : Module) : (s.setMod m).tracked = s.tracked := rfl
@[simp] theorem setMod_atc (s : State) (m : Module) : (s.setMod m).atc = s.atc := rfl
@[simp] theorem setMod_requests (s : State) (m : Module) : (s.setMod m).requests = s.requests := rfl
@[simp] theorem setMod_invalidations (s : State) (m : Module) : (s.setMod m).invalidations = s.invalidations := rfl
@[simp] theorem setMod_faults (s : State) (m : Module) : (s.setMod m).faults = s.faults := rfl
@[simp] theorem setMod_denied (s : State) (m : Module) : (s.setMod m).denied = s.denied := rfl
@[simp] theorem setMod_queues (s : State) (m : Module) : (s.setMod m).queues = s.queues := rfl
@[simp] theorem setMod_launches (s : State) (m : Module) : (s.setMod m).launches = s.launches := rfl
@[simp] theorem setMod_nextTask (s : State) (m : Module) : (s.setMod m).nextTask = s.nextTask := rfl
@[simp] theorem setMod_nextMedia (s : State) (m : Module) : (s.setMod m).nextMedia = s.nextMedia := rfl
@[simp] theorem setMod_turnstiles (s : State) (m : Module) : (s.setMod m).turnstiles = s.turnstiles := rfl
@[simp] theorem setMod_dealt (s : State) (m : Module) : (s.setMod m).dealt = s.dealt := rfl
@[simp] theorem setMod_homeless (s : State) (m : Module) : (s.setMod m).homeless = s.homeless := rfl
@[simp] theorem setMod_regions (s : State) (m : Module) : (s.setMod m).regions = s.regions := rfl
@[simp] theorem setMod_nextRegion (s : State) (m : Module) : (s.setMod m).nextRegion = s.nextRegion := rfl
@[simp] theorem setMod_watches (s : State) (m : Module) : (s.setMod m).watches = s.watches := rfl
@[simp] theorem setMod_ctxs (s : State) (m : Module) : (s.setMod m).ctxs = s.ctxs := rfl
@[simp] theorem setMod_tenants (s : State) (m : Module) : (s.setMod m).tenants = s.tenants := rfl
@[simp] theorem setMod_streams (s : State) (m : Module) : (s.setMod m).streams = s.streams := rfl
@[simp] theorem setMod_media (s : State) (m : Module) : (s.setMod m).media = s.media := rfl
@[simp] theorem setMod_mod (s : State) (m : Module) : (s.setMod m).mod = m := rfl
@[simp] theorem setMod_time (s : State) (m : Module) : (s.setMod m).time = s.time := rfl
@[simp] theorem setMod_lcAt (s : State) (m : Module) : (s.setMod m).lcAt = s.lcAt := rfl
@[simp] theorem setMod_turn (s : State) (m : Module) : (s.setMod m).turn = s.turn := rfl
@[simp] theorem setMod_steps (s : State) (m : Module) : (s.setMod m).steps = s.steps := rfl
@[simp] theorem setMod_free (s : State) (m : Module) : (s.setMod m).free = s.free := rfl
@[simp] theorem setMod_inputs (s : State) (m : Module) : (s.setMod m).inputs = s.inputs := rfl
@[simp] theorem setMod_out (s : State) (m : Module) : (s.setMod m).out = s.out := rfl

/-! ## changeLaunch -/

@[simp] theorem changeLaunch_cur (s : State) (n : Nat) (f : Launch → Launch) : (s.changeLaunch n f).cur = s.cur := rfl
@[simp] theorem changeLaunch_tp (s : State) (n : Nat) (f : Launch → Launch) : (s.changeLaunch n f).tp = s.tp := rfl
@[simp] theorem changeLaunch_others (s : State) (n : Nat) (f : Launch → Launch) : (s.changeLaunch n f).others = s.others := rfl
@[simp] theorem changeLaunch_mem (s : State) (n : Nat) (f : Launch → Launch) : (s.changeLaunch n f).mem = s.mem := rfl
@[simp] theorem changeLaunch_lines (s : State) (n : Nat) (f : Launch → Launch) : (s.changeLaunch n f).lines = s.lines := rfl
@[simp] theorem changeLaunch_weak (s : State) (n : Nat) (f : Launch → Launch) : (s.changeLaunch n f).weak = s.weak := rfl
@[simp] theorem changeLaunch_mediaStale (s : State) (n : Nat) (f : Launch → Launch) : (s.changeLaunch n f).mediaStale = s.mediaStale := rfl
@[simp] theorem changeLaunch_writers (s : State) (n : Nat) (f : Launch → Launch) : (s.changeLaunch n f).writers = s.writers := rfl
@[simp] theorem changeLaunch_wide (s : State) (n : Nat) (f : Launch → Launch) : (s.changeLaunch n f).wide = s.wide := rfl
@[simp] theorem changeLaunch_flags (s : State) (n : Nat) (f : Launch → Launch) : (s.changeLaunch n f).flags = s.flags := rfl
@[simp] theorem changeLaunch_cores (s : State) (n : Nat) (f : Launch → Launch) : (s.changeLaunch n f).cores = s.cores := rfl
@[simp] theorem changeLaunch_tracked (s : State) (n : Nat) (f : Launch → Launch) : (s.changeLaunch n f).tracked = s.tracked := rfl
@[simp] theorem changeLaunch_atc (s : State) (n : Nat) (f : Launch → Launch) : (s.changeLaunch n f).atc = s.atc := rfl
@[simp] theorem changeLaunch_requests (s : State) (n : Nat) (f : Launch → Launch) : (s.changeLaunch n f).requests = s.requests := rfl
@[simp] theorem changeLaunch_invalidations (s : State) (n : Nat) (f : Launch → Launch) : (s.changeLaunch n f).invalidations = s.invalidations := rfl
@[simp] theorem changeLaunch_faults (s : State) (n : Nat) (f : Launch → Launch) : (s.changeLaunch n f).faults = s.faults := rfl
@[simp] theorem changeLaunch_denied (s : State) (n : Nat) (f : Launch → Launch) : (s.changeLaunch n f).denied = s.denied := rfl
@[simp] theorem changeLaunch_queues (s : State) (n : Nat) (f : Launch → Launch) : (s.changeLaunch n f).queues = s.queues := rfl
@[simp] theorem changeLaunch_launches (s : State) (n : Nat) (f : Launch → Launch) : (s.changeLaunch n f).launches = s.launches.map (fun l => if l.lid = n then f l else l) := rfl
@[simp] theorem changeLaunch_nextTask (s : State) (n : Nat) (f : Launch → Launch) : (s.changeLaunch n f).nextTask = s.nextTask := rfl
@[simp] theorem changeLaunch_nextMedia (s : State) (n : Nat) (f : Launch → Launch) : (s.changeLaunch n f).nextMedia = s.nextMedia := rfl
@[simp] theorem changeLaunch_turnstiles (s : State) (n : Nat) (f : Launch → Launch) : (s.changeLaunch n f).turnstiles = s.turnstiles := rfl
@[simp] theorem changeLaunch_dealt (s : State) (n : Nat) (f : Launch → Launch) : (s.changeLaunch n f).dealt = s.dealt := rfl
@[simp] theorem changeLaunch_homeless (s : State) (n : Nat) (f : Launch → Launch) : (s.changeLaunch n f).homeless = s.homeless := rfl
@[simp] theorem changeLaunch_regions (s : State) (n : Nat) (f : Launch → Launch) : (s.changeLaunch n f).regions = s.regions := rfl
@[simp] theorem changeLaunch_nextRegion (s : State) (n : Nat) (f : Launch → Launch) : (s.changeLaunch n f).nextRegion = s.nextRegion := rfl
@[simp] theorem changeLaunch_watches (s : State) (n : Nat) (f : Launch → Launch) : (s.changeLaunch n f).watches = s.watches := rfl
@[simp] theorem changeLaunch_ctxs (s : State) (n : Nat) (f : Launch → Launch) : (s.changeLaunch n f).ctxs = s.ctxs := rfl
@[simp] theorem changeLaunch_tenants (s : State) (n : Nat) (f : Launch → Launch) : (s.changeLaunch n f).tenants = s.tenants := rfl
@[simp] theorem changeLaunch_streams (s : State) (n : Nat) (f : Launch → Launch) : (s.changeLaunch n f).streams = s.streams := rfl
@[simp] theorem changeLaunch_media (s : State) (n : Nat) (f : Launch → Launch) : (s.changeLaunch n f).media = s.media := rfl
@[simp] theorem changeLaunch_mod (s : State) (n : Nat) (f : Launch → Launch) : (s.changeLaunch n f).mod = s.mod := rfl
@[simp] theorem changeLaunch_time (s : State) (n : Nat) (f : Launch → Launch) : (s.changeLaunch n f).time = s.time := rfl
@[simp] theorem changeLaunch_lcAt (s : State) (n : Nat) (f : Launch → Launch) : (s.changeLaunch n f).lcAt = s.lcAt := rfl
@[simp] theorem changeLaunch_turn (s : State) (n : Nat) (f : Launch → Launch) : (s.changeLaunch n f).turn = s.turn := rfl
@[simp] theorem changeLaunch_steps (s : State) (n : Nat) (f : Launch → Launch) : (s.changeLaunch n f).steps = s.steps := rfl
@[simp] theorem changeLaunch_free (s : State) (n : Nat) (f : Launch → Launch) : (s.changeLaunch n f).free = s.free := rfl
@[simp] theorem changeLaunch_inputs (s : State) (n : Nat) (f : Launch → Launch) : (s.changeLaunch n f).inputs = s.inputs := rfl
@[simp] theorem changeLaunch_out (s : State) (n : Nat) (f : Launch → Launch) : (s.changeLaunch n f).out = s.out := rfl

/-! ## setX, setE, setP: a write to register 0 is discarded -/

@[simp] theorem setX_cur (s : State) (r : BitVec 5) (v : Dword) : (s.setX r v).cur = s.cur := by unfold setX; split <;> rfl
@[simp] theorem setX_others (s : State) (r : BitVec 5) (v : Dword) : (s.setX r v).others = s.others := by unfold setX; split <;> rfl
@[simp] theorem setX_mem (s : State) (r : BitVec 5) (v : Dword) : (s.setX r v).mem = s.mem := by unfold setX; split <;> rfl
@[simp] theorem setX_lines (s : State) (r : BitVec 5) (v : Dword) : (s.setX r v).lines = s.lines := by unfold setX; split <;> rfl
@[simp] theorem setX_weak (s : State) (r : BitVec 5) (v : Dword) : (s.setX r v).weak = s.weak := by unfold setX; split <;> rfl
@[simp] theorem setX_mediaStale (s : State) (r : BitVec 5) (v : Dword) : (s.setX r v).mediaStale = s.mediaStale := by unfold setX; split <;> rfl
@[simp] theorem setX_writers (s : State) (r : BitVec 5) (v : Dword) : (s.setX r v).writers = s.writers := by unfold setX; split <;> rfl
@[simp] theorem setX_wide (s : State) (r : BitVec 5) (v : Dword) : (s.setX r v).wide = s.wide := by unfold setX; split <;> rfl
@[simp] theorem setX_flags (s : State) (r : BitVec 5) (v : Dword) : (s.setX r v).flags = s.flags := by unfold setX; split <;> rfl
@[simp] theorem setX_cores (s : State) (r : BitVec 5) (v : Dword) : (s.setX r v).cores = s.cores := by unfold setX; split <;> rfl
@[simp] theorem setX_tracked (s : State) (r : BitVec 5) (v : Dword) : (s.setX r v).tracked = s.tracked := by unfold setX; split <;> rfl
@[simp] theorem setX_atc (s : State) (r : BitVec 5) (v : Dword) : (s.setX r v).atc = s.atc := by unfold setX; split <;> rfl
@[simp] theorem setX_requests (s : State) (r : BitVec 5) (v : Dword) : (s.setX r v).requests = s.requests := by unfold setX; split <;> rfl
@[simp] theorem setX_invalidations (s : State) (r : BitVec 5) (v : Dword) : (s.setX r v).invalidations = s.invalidations := by unfold setX; split <;> rfl
@[simp] theorem setX_faults (s : State) (r : BitVec 5) (v : Dword) : (s.setX r v).faults = s.faults := by unfold setX; split <;> rfl
@[simp] theorem setX_denied (s : State) (r : BitVec 5) (v : Dword) : (s.setX r v).denied = s.denied := by unfold setX; split <;> rfl
@[simp] theorem setX_queues (s : State) (r : BitVec 5) (v : Dword) : (s.setX r v).queues = s.queues := by unfold setX; split <;> rfl
@[simp] theorem setX_launches (s : State) (r : BitVec 5) (v : Dword) : (s.setX r v).launches = s.launches := by unfold setX; split <;> rfl
@[simp] theorem setX_nextTask (s : State) (r : BitVec 5) (v : Dword) : (s.setX r v).nextTask = s.nextTask := by unfold setX; split <;> rfl
@[simp] theorem setX_nextMedia (s : State) (r : BitVec 5) (v : Dword) : (s.setX r v).nextMedia = s.nextMedia := by unfold setX; split <;> rfl
@[simp] theorem setX_turnstiles (s : State) (r : BitVec 5) (v : Dword) : (s.setX r v).turnstiles = s.turnstiles := by unfold setX; split <;> rfl
@[simp] theorem setX_dealt (s : State) (r : BitVec 5) (v : Dword) : (s.setX r v).dealt = s.dealt := by unfold setX; split <;> rfl
@[simp] theorem setX_homeless (s : State) (r : BitVec 5) (v : Dword) : (s.setX r v).homeless = s.homeless := by unfold setX; split <;> rfl
@[simp] theorem setX_regions (s : State) (r : BitVec 5) (v : Dword) : (s.setX r v).regions = s.regions := by unfold setX; split <;> rfl
@[simp] theorem setX_nextRegion (s : State) (r : BitVec 5) (v : Dword) : (s.setX r v).nextRegion = s.nextRegion := by unfold setX; split <;> rfl
@[simp] theorem setX_watches (s : State) (r : BitVec 5) (v : Dword) : (s.setX r v).watches = s.watches := by unfold setX; split <;> rfl
@[simp] theorem setX_ctxs (s : State) (r : BitVec 5) (v : Dword) : (s.setX r v).ctxs = s.ctxs := by unfold setX; split <;> rfl
@[simp] theorem setX_tenants (s : State) (r : BitVec 5) (v : Dword) : (s.setX r v).tenants = s.tenants := by unfold setX; split <;> rfl
@[simp] theorem setX_streams (s : State) (r : BitVec 5) (v : Dword) : (s.setX r v).streams = s.streams := by unfold setX; split <;> rfl
@[simp] theorem setX_media (s : State) (r : BitVec 5) (v : Dword) : (s.setX r v).media = s.media := by unfold setX; split <;> rfl
@[simp] theorem setX_mod (s : State) (r : BitVec 5) (v : Dword) : (s.setX r v).mod = s.mod := by unfold setX; split <;> rfl
@[simp] theorem setX_time (s : State) (r : BitVec 5) (v : Dword) : (s.setX r v).time = s.time := by unfold setX; split <;> rfl
@[simp] theorem setX_lcAt (s : State) (r : BitVec 5) (v : Dword) : (s.setX r v).lcAt = s.lcAt := by unfold setX; split <;> rfl
@[simp] theorem setX_turn (s : State) (r : BitVec 5) (v : Dword) : (s.setX r v).turn = s.turn := by unfold setX; split <;> rfl
@[simp] theorem setX_steps (s : State) (r : BitVec 5) (v : Dword) : (s.setX r v).steps = s.steps := by unfold setX; split <;> rfl
@[simp] theorem setX_free (s : State) (r : BitVec 5) (v : Dword) : (s.setX r v).free = s.free := by unfold setX; split <;> rfl
@[simp] theorem setX_inputs (s : State) (r : BitVec 5) (v : Dword) : (s.setX r v).inputs = s.inputs := by unfold setX; split <;> rfl
@[simp] theorem setX_out (s : State) (r : BitVec 5) (v : Dword) : (s.setX r v).out = s.out := by unfold setX; split <;> rfl
@[simp] theorem setX_tp_ec (s : State) (r : BitVec 5) (v : Dword) : (s.setX r v).tp.ec = s.tp.ec := by unfold setX; split <;> rfl
@[simp] theorem setX_tp_be (s : State) (r : BitVec 5) (v : Dword) : (s.setX r v).tp.be = s.tp.be := by unfold setX; split <;> rfl
@[simp] theorem setX_tp_ce (s : State) (r : BitVec 5) (v : Dword) : (s.setX r v).tp.ce = s.tp.ce := by unfold setX; split <;> rfl
@[simp] theorem setX_tp_ie (s : State) (r : BitVec 5) (v : Dword) : (s.setX r v).tp.ie = s.tp.ie := by unfold setX; split <;> rfl
@[simp] theorem setX_tp_he (s : State) (r : BitVec 5) (v : Dword) : (s.setX r v).tp.he = s.tp.he := by unfold setX; split <;> rfl
@[simp] theorem setX_tp_slots (s : State) (r : BitVec 5) (v : Dword) : (s.setX r v).tp.slots = s.tp.slots := by unfold setX; split <;> rfl
@[simp] theorem setX_tp_queues (s : State) (r : BitVec 5) (v : Dword) : (s.setX r v).tp.queues = s.tp.queues := by unfold setX; split <;> rfl
@[simp] theorem setX_tp_tokens (s : State) (r : BitVec 5) (v : Dword) : (s.setX r v).tp.tokens = s.tp.tokens := by unfold setX; split <;> rfl
@[simp] theorem setX_tp_banks (s : State) (r : BitVec 5) (v : Dword) : (s.setX r v).tp.banks = s.tp.banks := by unfold setX; split <;> rfl
@[simp] theorem setX_tp_brr (s : State) (r : BitVec 5) (v : Dword) : (s.setX r v).tp.brr = s.tp.brr := by unfold setX; split <;> rfl
@[simp] theorem setX_tp_qdir (s : State) (r : BitVec 5) (v : Dword) : (s.setX r v).tp.qdir = s.tp.qdir := by unfold setX; split <;> rfl
@[simp] theorem setX_tp_svwm (s : State) (r : BitVec 5) (v : Dword) : (s.setX r v).tp.svwm = s.tp.svwm := by unfold setX; split <;> rfl
@[simp] theorem setX_tp_svwmAt (s : State) (r : BitVec 5) (v : Dword) : (s.setX r v).tp.svwmAt = s.tp.svwmAt := by unfold setX; split <;> rfl
@[simp] theorem setX_tp_late (s : State) (r : BitVec 5) (v : Dword) : (s.setX r v).tp.late = s.tp.late := by unfold setX; split <;> rfl
@[simp] theorem setX_tp_tasks (s : State) (r : BitVec 5) (v : Dword) : (s.setX r v).tp.tasks = s.tp.tasks := by unfold setX; split <;> rfl
@[simp] theorem setX_tp_cur (s : State) (r : BitVec 5) (v : Dword) : (s.setX r v).tp.cur = s.tp.cur := by unfold setX; split <;> rfl
@[simp] theorem setX_tp_tokTask (s : State) (r : BitVec 5) (v : Dword) : (s.setX r v).tp.tokTask = s.tp.tokTask := by unfold setX; split <;> rfl
@[simp] theorem setX_tp_role (s : State) (r : BitVec 5) (v : Dword) : (s.setX r v).tp.role = s.tp.role := by unfold setX; split <;> rfl
@[simp] theorem setX_tp_preempt (s : State) (r : BitVec 5) (v : Dword) : (s.setX r v).tp.preempt = s.tp.preempt := by unfold setX; split <;> rfl
@[simp] theorem setX_tp_holdAt (s : State) (r : BitVec 5) (v : Dword) : (s.setX r v).tp.holdAt = s.tp.holdAt := by unfold setX; split <;> rfl
@[simp] theorem setX_tp_stopNow (s : State) (r : BitVec 5) (v : Dword) : (s.setX r v).tp.stopNow = s.tp.stopNow := by unfold setX; split <;> rfl
@[simp] theorem setX_tp_images (s : State) (r : BitVec 5) (v : Dword) : (s.setX r v).tp.images = s.tp.images := by unfold setX; split <;> rfl
@[simp] theorem setX_tp_frame (s : State) (r : BitVec 5) (v : Dword) : (s.setX r v).tp.frame = s.tp.frame := by unfold setX; split <;> rfl
@[simp] theorem setX_tp_bulk (s : State) (r : BitVec 5) (v : Dword) : (s.setX r v).tp.bulk = s.tp.bulk := by unfold setX; split <;> rfl
@[simp] theorem setX_tp_tlb (s : State) (r : BitVec 5) (v : Dword) : (s.setX r v).tp.tlb = s.tp.tlb := by unfold setX; split <;> rfl
@[simp] theorem setX_tp_cache (s : State) (r : BitVec 5) (v : Dword) : (s.setX r v).tp.cache = s.tp.cache := by unfold setX; split <;> rfl
@[simp] theorem setX_tp_stale (s : State) (r : BitVec 5) (v : Dword) : (s.setX r v).tp.stale = s.tp.stale := by unfold setX; split <;> rfl
@[simp] theorem setX_tp_bankStale (s : State) (r : BitVec 5) (v : Dword) : (s.setX r v).tp.bankStale = s.tp.bankStale := by unfold setX; split <;> rfl
@[simp] theorem setX_tp_events (s : State) (r : BitVec 5) (v : Dword) : (s.setX r v).tp.events = s.tp.events := by unfold setX; split <;> rfl
@[simp] theorem setX_tp_issued (s : State) (r : BitVec 5) (v : Dword) : (s.setX r v).tp.issued = s.tp.issued := by unfold setX; split <;> rfl
@[simp] theorem setX_tp_doneCmd (s : State) (r : BitVec 5) (v : Dword) : (s.setX r v).tp.doneCmd = s.tp.doneCmd := by unfold setX; split <;> rfl
@[simp] theorem setX_tp_poison (s : State) (r : BitVec 5) (v : Dword) : (s.setX r v).tp.poison = s.tp.poison := by unfold setX; split <;> rfl
@[simp] theorem setX_tp_peersReached (s : State) (r : BitVec 5) (v : Dword) : (s.setX r v).tp.peersReached = s.tp.peersReached := by unfold setX; split <;> rfl
@[simp] theorem setX_tp_lastCtx (s : State) (r : BitVec 5) (v : Dword) : (s.setX r v).tp.lastCtx = s.tp.lastCtx := by unfold setX; split <;> rfl
@[simp] theorem setX_tp_bankEra (s : State) (r : BitVec 5) (v : Dword) : (s.setX r v).tp.bankEra = s.tp.bankEra := by unfold setX; split <;> rfl
@[simp] theorem setX_tp_bankOwner (s : State) (r : BitVec 5) (v : Dword) : (s.setX r v).tp.bankOwner = s.tp.bankOwner := by unfold setX; split <;> rfl
@[simp] theorem setX_tp_bankMixed (s : State) (r : BitVec 5) (v : Dword) : (s.setX r v).tp.bankMixed = s.tp.bankMixed := by unfold setX; split <;> rfl
@[simp] theorem setX_tp_parity (s : State) (r : BitVec 5) (v : Dword) : (s.setX r v).tp.parity = s.tp.parity := by unfold setX; split <;> rfl
@[simp] theorem setX_tp_spent (s : State) (r : BitVec 5) (v : Dword) : (s.setX r v).tp.spent = s.tp.spent := by unfold setX; split <;> rfl
@[simp] theorem setX_tp_ran (s : State) (r : BitVec 5) (v : Dword) : (s.setX r v).tp.ran = s.tp.ran := by unfold setX; split <;> rfl
@[simp] theorem setX_tp_meterAt (s : State) (r : BitVec 5) (v : Dword) : (s.setX r v).tp.meterAt = s.tp.meterAt := by unfold setX; split <;> rfl
@[simp] theorem setX_tp_ac_f (s : State) (r : BitVec 5) (v : Dword) : (s.setX r v).tp.ac.f = s.tp.ac.f := by unfold setX; split <;> rfl
@[simp] theorem setX_tp_ac_fcsr (s : State) (r : BitVec 5) (v : Dword) : (s.setX r v).tp.ac.fcsr = s.tp.ac.fcsr := by unfold setX; split <;> rfl
@[simp] theorem setX_tp_ac_pc (s : State) (r : BitVec 5) (v : Dword) : (s.setX r v).tp.ac.pc = s.tp.ac.pc := by unfold setX; split <;> rfl
@[simp] theorem setX_tp_ac_sup (s : State) (r : BitVec 5) (v : Dword) : (s.setX r v).tp.ac.sup = s.tp.ac.sup := by unfold setX; split <;> rfl
@[simp] theorem setX_tp_ac_sstatus (s : State) (r : BitVec 5) (v : Dword) : (s.setX r v).tp.ac.sstatus = s.tp.ac.sstatus := by unfold setX; split <;> rfl
@[simp] theorem setX_tp_ac_sepc (s : State) (r : BitVec 5) (v : Dword) : (s.setX r v).tp.ac.sepc = s.tp.ac.sepc := by unfold setX; split <;> rfl
@[simp] theorem setX_tp_ac_scause (s : State) (r : BitVec 5) (v : Dword) : (s.setX r v).tp.ac.scause = s.tp.ac.scause := by unfold setX; split <;> rfl
@[simp] theorem setX_tp_ac_stval (s : State) (r : BitVec 5) (v : Dword) : (s.setX r v).tp.ac.stval = s.tp.ac.stval := by unfold setX; split <;> rfl
@[simp] theorem setX_tp_ac_stvec (s : State) (r : BitVec 5) (v : Dword) : (s.setX r v).tp.ac.stvec = s.tp.ac.stvec := by unfold setX; split <;> rfl
@[simp] theorem setX_tp_ac_sscratch (s : State) (r : BitVec 5) (v : Dword) : (s.setX r v).tp.ac.sscratch = s.tp.ac.sscratch := by unfold setX; split <;> rfl
@[simp] theorem setX_tp_ac_handles (s : State) (r : BitVec 5) (v : Dword) : (s.setX r v).tp.ac.handles = s.tp.ac.handles := by unfold setX; split <;> rfl
@[simp] theorem setX_tp_ac_resv (s : State) (r : BitVec 5) (v : Dword) : (s.setX r v).tp.ac.resv = s.tp.ac.resv := by unfold setX; split <;> rfl
@[simp] theorem setX_tp_ac_lc (s : State) (r : BitVec 5) (v : Dword) : (s.setX r v).tp.ac.lc = s.tp.ac.lc := by unfold setX; split <;> rfl
@[simp] theorem setX_tp_ac_trec (s : State) (r : BitVec 5) (v : Dword) : (s.setX r v).tp.ac.trec = s.tp.ac.trec := by unfold setX; split <;> rfl
@[simp] theorem setX_tp_ac_pend (s : State) (r : BitVec 5) (v : Dword) : (s.setX r v).tp.ac.pend = s.tp.ac.pend := by unfold setX; split <;> rfl
@[simp] theorem setX_tp_ac_phase (s : State) (r : BitVec 5) (v : Dword) : (s.setX r v).tp.ac.phase = s.tp.ac.phase := by unfold setX; split <;> rfl
@[simp] theorem setX_tp_ac_cbuf (s : State) (r : BitVec 5) (v : Dword) : (s.setX r v).tp.ac.cbuf = s.tp.ac.cbuf := by unfold setX; split <;> rfl
@[simp] theorem setX_tp_ac_cbufAt (s : State) (r : BitVec 5) (v : Dword) : (s.setX r v).tp.ac.cbufAt = s.tp.ac.cbufAt := by unfold setX; split <;> rfl
@[simp] theorem setX_tp_ac_readSet (s : State) (r : BitVec 5) (v : Dword) : (s.setX r v).tp.ac.readSet = s.tp.ac.readSet := by unfold setX; split <;> rfl
@[simp] theorem setX_tp_ac_heldSpawns (s : State) (r : BitVec 5) (v : Dword) : (s.setX r v).tp.ac.heldSpawns = s.tp.ac.heldSpawns := by unfold setX; split <;> rfl
@[simp] theorem setX_tp_ac_heldBaris (s : State) (r : BitVec 5) (v : Dword) : (s.setX r v).tp.ac.heldBaris = s.tp.ac.heldBaris := by unfold setX; split <;> rfl
@[simp] theorem setX_tp_ac_bufPages (s : State) (r : BitVec 5) (v : Dword) : (s.setX r v).tp.ac.bufPages = s.tp.ac.bufPages := by unfold setX; split <;> rfl
@[simp] theorem setX_tp_ac_doomed (s : State) (r : BitVec 5) (v : Dword) : (s.setX r v).tp.ac.doomed = s.tp.ac.doomed := by unfold setX; split <;> rfl
@[simp] theorem setX_tp_ac_decls (s : State) (r : BitVec 5) (v : Dword) : (s.setX r v).tp.ac.decls = s.tp.ac.decls := by unfold setX; split <;> rfl
@[simp] theorem setX_tp_ac_heldScalar (s : State) (r : BitVec 5) (v : Dword) : (s.setX r v).tp.ac.heldScalar = s.tp.ac.heldScalar := by unfold setX; split <;> rfl
@[simp] theorem setX_tp_ac_heldTile (s : State) (r : BitVec 5) (v : Dword) : (s.setX r v).tp.ac.heldTile = s.tp.ac.heldTile := by unfold setX; split <;> rfl
@[simp] theorem setX_tp_ac_rows (s : State) (r : BitVec 5) (v : Dword) : (s.setX r v).tp.ac.rows = s.tp.ac.rows := by unfold setX; split <;> rfl
@[simp] theorem setX_tp_ac_tokpLeft (s : State) (r : BitVec 5) (v : Dword) : (s.setX r v).tp.ac.tokpLeft = s.tp.ac.tokpLeft := by unfold setX; split <;> rfl
@[simp] theorem setX_tp_ac_mark (s : State) (r : BitVec 5) (v : Dword) : (s.setX r v).tp.ac.mark = s.tp.ac.mark := by unfold setX; split <;> rfl
@[simp] theorem setX_tp_ac_status (s : State) (r : BitVec 5) (v : Dword) : (s.setX r v).tp.ac.status = s.tp.ac.status := by unfold setX; split <;> rfl
@[simp] theorem setX_tp_ac_svcReq (s : State) (r : BitVec 5) (v : Dword) : (s.setX r v).tp.ac.svcReq = s.tp.ac.svcReq := by unfold setX; split <;> rfl
@[simp] theorem setE_cur (s : State) (r : Nat) (v : Dword) : (s.setE r v).cur = s.cur := by unfold setE; split <;> rfl
@[simp] theorem setE_others (s : State) (r : Nat) (v : Dword) : (s.setE r v).others = s.others := by unfold setE; split <;> rfl
@[simp] theorem setE_mem (s : State) (r : Nat) (v : Dword) : (s.setE r v).mem = s.mem := by unfold setE; split <;> rfl
@[simp] theorem setE_lines (s : State) (r : Nat) (v : Dword) : (s.setE r v).lines = s.lines := by unfold setE; split <;> rfl
@[simp] theorem setE_weak (s : State) (r : Nat) (v : Dword) : (s.setE r v).weak = s.weak := by unfold setE; split <;> rfl
@[simp] theorem setE_mediaStale (s : State) (r : Nat) (v : Dword) : (s.setE r v).mediaStale = s.mediaStale := by unfold setE; split <;> rfl
@[simp] theorem setE_writers (s : State) (r : Nat) (v : Dword) : (s.setE r v).writers = s.writers := by unfold setE; split <;> rfl
@[simp] theorem setE_wide (s : State) (r : Nat) (v : Dword) : (s.setE r v).wide = s.wide := by unfold setE; split <;> rfl
@[simp] theorem setE_flags (s : State) (r : Nat) (v : Dword) : (s.setE r v).flags = s.flags := by unfold setE; split <;> rfl
@[simp] theorem setE_cores (s : State) (r : Nat) (v : Dword) : (s.setE r v).cores = s.cores := by unfold setE; split <;> rfl
@[simp] theorem setE_tracked (s : State) (r : Nat) (v : Dword) : (s.setE r v).tracked = s.tracked := by unfold setE; split <;> rfl
@[simp] theorem setE_atc (s : State) (r : Nat) (v : Dword) : (s.setE r v).atc = s.atc := by unfold setE; split <;> rfl
@[simp] theorem setE_requests (s : State) (r : Nat) (v : Dword) : (s.setE r v).requests = s.requests := by unfold setE; split <;> rfl
@[simp] theorem setE_invalidations (s : State) (r : Nat) (v : Dword) : (s.setE r v).invalidations = s.invalidations := by unfold setE; split <;> rfl
@[simp] theorem setE_faults (s : State) (r : Nat) (v : Dword) : (s.setE r v).faults = s.faults := by unfold setE; split <;> rfl
@[simp] theorem setE_denied (s : State) (r : Nat) (v : Dword) : (s.setE r v).denied = s.denied := by unfold setE; split <;> rfl
@[simp] theorem setE_queues (s : State) (r : Nat) (v : Dword) : (s.setE r v).queues = s.queues := by unfold setE; split <;> rfl
@[simp] theorem setE_launches (s : State) (r : Nat) (v : Dword) : (s.setE r v).launches = s.launches := by unfold setE; split <;> rfl
@[simp] theorem setE_nextTask (s : State) (r : Nat) (v : Dword) : (s.setE r v).nextTask = s.nextTask := by unfold setE; split <;> rfl
@[simp] theorem setE_nextMedia (s : State) (r : Nat) (v : Dword) : (s.setE r v).nextMedia = s.nextMedia := by unfold setE; split <;> rfl
@[simp] theorem setE_turnstiles (s : State) (r : Nat) (v : Dword) : (s.setE r v).turnstiles = s.turnstiles := by unfold setE; split <;> rfl
@[simp] theorem setE_dealt (s : State) (r : Nat) (v : Dword) : (s.setE r v).dealt = s.dealt := by unfold setE; split <;> rfl
@[simp] theorem setE_homeless (s : State) (r : Nat) (v : Dword) : (s.setE r v).homeless = s.homeless := by unfold setE; split <;> rfl
@[simp] theorem setE_regions (s : State) (r : Nat) (v : Dword) : (s.setE r v).regions = s.regions := by unfold setE; split <;> rfl
@[simp] theorem setE_nextRegion (s : State) (r : Nat) (v : Dword) : (s.setE r v).nextRegion = s.nextRegion := by unfold setE; split <;> rfl
@[simp] theorem setE_watches (s : State) (r : Nat) (v : Dword) : (s.setE r v).watches = s.watches := by unfold setE; split <;> rfl
@[simp] theorem setE_ctxs (s : State) (r : Nat) (v : Dword) : (s.setE r v).ctxs = s.ctxs := by unfold setE; split <;> rfl
@[simp] theorem setE_tenants (s : State) (r : Nat) (v : Dword) : (s.setE r v).tenants = s.tenants := by unfold setE; split <;> rfl
@[simp] theorem setE_streams (s : State) (r : Nat) (v : Dword) : (s.setE r v).streams = s.streams := by unfold setE; split <;> rfl
@[simp] theorem setE_media (s : State) (r : Nat) (v : Dword) : (s.setE r v).media = s.media := by unfold setE; split <;> rfl
@[simp] theorem setE_mod (s : State) (r : Nat) (v : Dword) : (s.setE r v).mod = s.mod := by unfold setE; split <;> rfl
@[simp] theorem setE_time (s : State) (r : Nat) (v : Dword) : (s.setE r v).time = s.time := by unfold setE; split <;> rfl
@[simp] theorem setE_lcAt (s : State) (r : Nat) (v : Dword) : (s.setE r v).lcAt = s.lcAt := by unfold setE; split <;> rfl
@[simp] theorem setE_turn (s : State) (r : Nat) (v : Dword) : (s.setE r v).turn = s.turn := by unfold setE; split <;> rfl
@[simp] theorem setE_steps (s : State) (r : Nat) (v : Dword) : (s.setE r v).steps = s.steps := by unfold setE; split <;> rfl
@[simp] theorem setE_free (s : State) (r : Nat) (v : Dword) : (s.setE r v).free = s.free := by unfold setE; split <;> rfl
@[simp] theorem setE_inputs (s : State) (r : Nat) (v : Dword) : (s.setE r v).inputs = s.inputs := by unfold setE; split <;> rfl
@[simp] theorem setE_out (s : State) (r : Nat) (v : Dword) : (s.setE r v).out = s.out := by unfold setE; split <;> rfl
@[simp] theorem setE_tp_ac (s : State) (r : Nat) (v : Dword) : (s.setE r v).tp.ac = s.tp.ac := by unfold setE; split <;> rfl
@[simp] theorem setE_tp_be (s : State) (r : Nat) (v : Dword) : (s.setE r v).tp.be = s.tp.be := by unfold setE; split <;> rfl
@[simp] theorem setE_tp_ce (s : State) (r : Nat) (v : Dword) : (s.setE r v).tp.ce = s.tp.ce := by unfold setE; split <;> rfl
@[simp] theorem setE_tp_ie (s : State) (r : Nat) (v : Dword) : (s.setE r v).tp.ie = s.tp.ie := by unfold setE; split <;> rfl
@[simp] theorem setE_tp_he (s : State) (r : Nat) (v : Dword) : (s.setE r v).tp.he = s.tp.he := by unfold setE; split <;> rfl
@[simp] theorem setE_tp_slots (s : State) (r : Nat) (v : Dword) : (s.setE r v).tp.slots = s.tp.slots := by unfold setE; split <;> rfl
@[simp] theorem setE_tp_queues (s : State) (r : Nat) (v : Dword) : (s.setE r v).tp.queues = s.tp.queues := by unfold setE; split <;> rfl
@[simp] theorem setE_tp_tokens (s : State) (r : Nat) (v : Dword) : (s.setE r v).tp.tokens = s.tp.tokens := by unfold setE; split <;> rfl
@[simp] theorem setE_tp_banks (s : State) (r : Nat) (v : Dword) : (s.setE r v).tp.banks = s.tp.banks := by unfold setE; split <;> rfl
@[simp] theorem setE_tp_brr (s : State) (r : Nat) (v : Dword) : (s.setE r v).tp.brr = s.tp.brr := by unfold setE; split <;> rfl
@[simp] theorem setE_tp_qdir (s : State) (r : Nat) (v : Dword) : (s.setE r v).tp.qdir = s.tp.qdir := by unfold setE; split <;> rfl
@[simp] theorem setE_tp_svwm (s : State) (r : Nat) (v : Dword) : (s.setE r v).tp.svwm = s.tp.svwm := by unfold setE; split <;> rfl
@[simp] theorem setE_tp_svwmAt (s : State) (r : Nat) (v : Dword) : (s.setE r v).tp.svwmAt = s.tp.svwmAt := by unfold setE; split <;> rfl
@[simp] theorem setE_tp_late (s : State) (r : Nat) (v : Dword) : (s.setE r v).tp.late = s.tp.late := by unfold setE; split <;> rfl
@[simp] theorem setE_tp_tasks (s : State) (r : Nat) (v : Dword) : (s.setE r v).tp.tasks = s.tp.tasks := by unfold setE; split <;> rfl
@[simp] theorem setE_tp_cur (s : State) (r : Nat) (v : Dword) : (s.setE r v).tp.cur = s.tp.cur := by unfold setE; split <;> rfl
@[simp] theorem setE_tp_tokTask (s : State) (r : Nat) (v : Dword) : (s.setE r v).tp.tokTask = s.tp.tokTask := by unfold setE; split <;> rfl
@[simp] theorem setE_tp_role (s : State) (r : Nat) (v : Dword) : (s.setE r v).tp.role = s.tp.role := by unfold setE; split <;> rfl
@[simp] theorem setE_tp_preempt (s : State) (r : Nat) (v : Dword) : (s.setE r v).tp.preempt = s.tp.preempt := by unfold setE; split <;> rfl
@[simp] theorem setE_tp_holdAt (s : State) (r : Nat) (v : Dword) : (s.setE r v).tp.holdAt = s.tp.holdAt := by unfold setE; split <;> rfl
@[simp] theorem setE_tp_stopNow (s : State) (r : Nat) (v : Dword) : (s.setE r v).tp.stopNow = s.tp.stopNow := by unfold setE; split <;> rfl
@[simp] theorem setE_tp_images (s : State) (r : Nat) (v : Dword) : (s.setE r v).tp.images = s.tp.images := by unfold setE; split <;> rfl
@[simp] theorem setE_tp_frame (s : State) (r : Nat) (v : Dword) : (s.setE r v).tp.frame = s.tp.frame := by unfold setE; split <;> rfl
@[simp] theorem setE_tp_bulk (s : State) (r : Nat) (v : Dword) : (s.setE r v).tp.bulk = s.tp.bulk := by unfold setE; split <;> rfl
@[simp] theorem setE_tp_tlb (s : State) (r : Nat) (v : Dword) : (s.setE r v).tp.tlb = s.tp.tlb := by unfold setE; split <;> rfl
@[simp] theorem setE_tp_cache (s : State) (r : Nat) (v : Dword) : (s.setE r v).tp.cache = s.tp.cache := by unfold setE; split <;> rfl
@[simp] theorem setE_tp_stale (s : State) (r : Nat) (v : Dword) : (s.setE r v).tp.stale = s.tp.stale := by unfold setE; split <;> rfl
@[simp] theorem setE_tp_bankStale (s : State) (r : Nat) (v : Dword) : (s.setE r v).tp.bankStale = s.tp.bankStale := by unfold setE; split <;> rfl
@[simp] theorem setE_tp_events (s : State) (r : Nat) (v : Dword) : (s.setE r v).tp.events = s.tp.events := by unfold setE; split <;> rfl
@[simp] theorem setE_tp_issued (s : State) (r : Nat) (v : Dword) : (s.setE r v).tp.issued = s.tp.issued := by unfold setE; split <;> rfl
@[simp] theorem setE_tp_doneCmd (s : State) (r : Nat) (v : Dword) : (s.setE r v).tp.doneCmd = s.tp.doneCmd := by unfold setE; split <;> rfl
@[simp] theorem setE_tp_poison (s : State) (r : Nat) (v : Dword) : (s.setE r v).tp.poison = s.tp.poison := by unfold setE; split <;> rfl
@[simp] theorem setE_tp_peersReached (s : State) (r : Nat) (v : Dword) : (s.setE r v).tp.peersReached = s.tp.peersReached := by unfold setE; split <;> rfl
@[simp] theorem setE_tp_lastCtx (s : State) (r : Nat) (v : Dword) : (s.setE r v).tp.lastCtx = s.tp.lastCtx := by unfold setE; split <;> rfl
@[simp] theorem setE_tp_bankEra (s : State) (r : Nat) (v : Dword) : (s.setE r v).tp.bankEra = s.tp.bankEra := by unfold setE; split <;> rfl
@[simp] theorem setE_tp_bankOwner (s : State) (r : Nat) (v : Dword) : (s.setE r v).tp.bankOwner = s.tp.bankOwner := by unfold setE; split <;> rfl
@[simp] theorem setE_tp_bankMixed (s : State) (r : Nat) (v : Dword) : (s.setE r v).tp.bankMixed = s.tp.bankMixed := by unfold setE; split <;> rfl
@[simp] theorem setE_tp_parity (s : State) (r : Nat) (v : Dword) : (s.setE r v).tp.parity = s.tp.parity := by unfold setE; split <;> rfl
@[simp] theorem setE_tp_spent (s : State) (r : Nat) (v : Dword) : (s.setE r v).tp.spent = s.tp.spent := by unfold setE; split <;> rfl
@[simp] theorem setE_tp_ran (s : State) (r : Nat) (v : Dword) : (s.setE r v).tp.ran = s.tp.ran := by unfold setE; split <;> rfl
@[simp] theorem setE_tp_meterAt (s : State) (r : Nat) (v : Dword) : (s.setE r v).tp.meterAt = s.tp.meterAt := by unfold setE; split <;> rfl
@[simp] theorem setE_tp_ec_w (s : State) (r : Nat) (v : Dword) : (s.setE r v).tp.ec.w = s.tp.ec.w := by unfold setE; split <;> rfl
@[simp] theorem setE_tp_ec_p (s : State) (r : Nat) (v : Dword) : (s.setE r v).tp.ec.p = s.tp.ec.p := by unfold setE; split <;> rfl
@[simp] theorem setE_tp_ec_pc (s : State) (r : Nat) (v : Dword) : (s.setE r v).tp.ec.pc = s.tp.ec.pc := by unfold setE; split <;> rfl
@[simp] theorem setE_tp_ec_npc (s : State) (r : Nat) (v : Dword) : (s.setE r v).tp.ec.npc = s.tp.ec.npc := by unfold setE; split <;> rfl
@[simp] theorem setE_tp_ec_nnpc (s : State) (r : Nat) (v : Dword) : (s.setE r v).tp.ec.nnpc = s.tp.ec.nnpc := by unfold setE; split <;> rfl
@[simp] theorem setE_tp_ec_a1 (s : State) (r : Nat) (v : Dword) : (s.setE r v).tp.ec.a1 = s.tp.ec.a1 := by unfold setE; split <;> rfl
@[simp] theorem setE_tp_ec_a2 (s : State) (r : Nat) (v : Dword) : (s.setE r v).tp.ec.a2 = s.tp.ec.a2 := by unfold setE; split <;> rfl
@[simp] theorem setE_tp_ec_slot1 (s : State) (r : Nat) (v : Dword) : (s.setE r v).tp.ec.slot1 = s.tp.ec.slot1 := by unfold setE; split <;> rfl
@[simp] theorem setE_tp_ec_slot2 (s : State) (r : Nat) (v : Dword) : (s.setE r v).tp.ec.slot2 = s.tp.ec.slot2 := by unfold setE; split <;> rfl
@[simp] theorem setE_tp_ec_loop (s : State) (r : Nat) (v : Dword) : (s.setE r v).tp.ec.loop = s.tp.ec.loop := by unfold setE; split <;> rfl
@[simp] theorem setE_tp_ec_rrb (s : State) (r : Nat) (v : Dword) : (s.setE r v).tp.ec.rrb = s.tp.ec.rrb := by unfold setE; split <;> rfl
@[simp] theorem setE_tp_ec_prb (s : State) (r : Nat) (v : Dword) : (s.setE r v).tp.ec.prb = s.tp.ec.prb := by unfold setE; split <;> rfl
@[simp] theorem setE_tp_ec_clock (s : State) (r : Nat) (v : Dword) : (s.setE r v).tp.ec.clock = s.tp.ec.clock := by unfold setE; split <;> rfl
@[simp] theorem setE_tp_ec_ready (s : State) (r : Nat) (v : Dword) : (s.setE r v).tp.ec.ready = s.tp.ec.ready := by unfold setE; split <;> rfl
@[simp] theorem setE_tp_ec_spec (s : State) (r : Nat) (v : Dword) : (s.setE r v).tp.ec.spec = s.tp.ec.spec := by unfold setE; split <;> rfl
@[simp] theorem setE_tp_ec_pushes (s : State) (r : Nat) (v : Dword) : (s.setE r v).tp.ec.pushes = s.tp.ec.pushes := by unfold setE; split <;> rfl
@[simp] theorem setE_tp_ec_pushed (s : State) (r : Nat) (v : Dword) : (s.setE r v).tp.ec.pushed = s.tp.ec.pushed := by unfold setE; split <;> rfl
@[simp] theorem setE_tp_ec_written (s : State) (r : Nat) (v : Dword) : (s.setE r v).tp.ec.written = s.tp.ec.written := by unfold setE; split <;> rfl
@[simp] theorem setE_tp_ec_status (s : State) (r : Nat) (v : Dword) : (s.setE r v).tp.ec.status = s.tp.ec.status := by unfold setE; split <;> rfl
@[simp] theorem setE_tp_ec_task (s : State) (r : Nat) (v : Dword) : (s.setE r v).tp.ec.task = s.tp.ec.task := by unfold setE; split <;> rfl
@[simp] theorem setE_tp_ec_since (s : State) (r : Nat) (v : Dword) : (s.setE r v).tp.ec.since = s.tp.ec.since := by unfold setE; split <;> rfl
@[simp] theorem setE_tp_ec_trec (s : State) (r : Nat) (v : Dword) : (s.setE r v).tp.ec.trec = s.tp.ec.trec := by unfold setE; split <;> rfl
@[simp] theorem setP_cur (s : State) (r : Nat) (v : BitVec 1024) : (s.setP r v).cur = s.cur := by unfold setP; split <;> rfl
@[simp] theorem setP_others (s : State) (r : Nat) (v : BitVec 1024) : (s.setP r v).others = s.others := by unfold setP; split <;> rfl
@[simp] theorem setP_mem (s : State) (r : Nat) (v : BitVec 1024) : (s.setP r v).mem = s.mem := by unfold setP; split <;> rfl
@[simp] theorem setP_lines (s : State) (r : Nat) (v : BitVec 1024) : (s.setP r v).lines = s.lines := by unfold setP; split <;> rfl
@[simp] theorem setP_weak (s : State) (r : Nat) (v : BitVec 1024) : (s.setP r v).weak = s.weak := by unfold setP; split <;> rfl
@[simp] theorem setP_mediaStale (s : State) (r : Nat) (v : BitVec 1024) : (s.setP r v).mediaStale = s.mediaStale := by unfold setP; split <;> rfl
@[simp] theorem setP_writers (s : State) (r : Nat) (v : BitVec 1024) : (s.setP r v).writers = s.writers := by unfold setP; split <;> rfl
@[simp] theorem setP_wide (s : State) (r : Nat) (v : BitVec 1024) : (s.setP r v).wide = s.wide := by unfold setP; split <;> rfl
@[simp] theorem setP_flags (s : State) (r : Nat) (v : BitVec 1024) : (s.setP r v).flags = s.flags := by unfold setP; split <;> rfl
@[simp] theorem setP_cores (s : State) (r : Nat) (v : BitVec 1024) : (s.setP r v).cores = s.cores := by unfold setP; split <;> rfl
@[simp] theorem setP_tracked (s : State) (r : Nat) (v : BitVec 1024) : (s.setP r v).tracked = s.tracked := by unfold setP; split <;> rfl
@[simp] theorem setP_atc (s : State) (r : Nat) (v : BitVec 1024) : (s.setP r v).atc = s.atc := by unfold setP; split <;> rfl
@[simp] theorem setP_requests (s : State) (r : Nat) (v : BitVec 1024) : (s.setP r v).requests = s.requests := by unfold setP; split <;> rfl
@[simp] theorem setP_invalidations (s : State) (r : Nat) (v : BitVec 1024) : (s.setP r v).invalidations = s.invalidations := by unfold setP; split <;> rfl
@[simp] theorem setP_faults (s : State) (r : Nat) (v : BitVec 1024) : (s.setP r v).faults = s.faults := by unfold setP; split <;> rfl
@[simp] theorem setP_denied (s : State) (r : Nat) (v : BitVec 1024) : (s.setP r v).denied = s.denied := by unfold setP; split <;> rfl
@[simp] theorem setP_queues (s : State) (r : Nat) (v : BitVec 1024) : (s.setP r v).queues = s.queues := by unfold setP; split <;> rfl
@[simp] theorem setP_launches (s : State) (r : Nat) (v : BitVec 1024) : (s.setP r v).launches = s.launches := by unfold setP; split <;> rfl
@[simp] theorem setP_nextTask (s : State) (r : Nat) (v : BitVec 1024) : (s.setP r v).nextTask = s.nextTask := by unfold setP; split <;> rfl
@[simp] theorem setP_nextMedia (s : State) (r : Nat) (v : BitVec 1024) : (s.setP r v).nextMedia = s.nextMedia := by unfold setP; split <;> rfl
@[simp] theorem setP_turnstiles (s : State) (r : Nat) (v : BitVec 1024) : (s.setP r v).turnstiles = s.turnstiles := by unfold setP; split <;> rfl
@[simp] theorem setP_dealt (s : State) (r : Nat) (v : BitVec 1024) : (s.setP r v).dealt = s.dealt := by unfold setP; split <;> rfl
@[simp] theorem setP_homeless (s : State) (r : Nat) (v : BitVec 1024) : (s.setP r v).homeless = s.homeless := by unfold setP; split <;> rfl
@[simp] theorem setP_regions (s : State) (r : Nat) (v : BitVec 1024) : (s.setP r v).regions = s.regions := by unfold setP; split <;> rfl
@[simp] theorem setP_nextRegion (s : State) (r : Nat) (v : BitVec 1024) : (s.setP r v).nextRegion = s.nextRegion := by unfold setP; split <;> rfl
@[simp] theorem setP_watches (s : State) (r : Nat) (v : BitVec 1024) : (s.setP r v).watches = s.watches := by unfold setP; split <;> rfl
@[simp] theorem setP_ctxs (s : State) (r : Nat) (v : BitVec 1024) : (s.setP r v).ctxs = s.ctxs := by unfold setP; split <;> rfl
@[simp] theorem setP_tenants (s : State) (r : Nat) (v : BitVec 1024) : (s.setP r v).tenants = s.tenants := by unfold setP; split <;> rfl
@[simp] theorem setP_streams (s : State) (r : Nat) (v : BitVec 1024) : (s.setP r v).streams = s.streams := by unfold setP; split <;> rfl
@[simp] theorem setP_media (s : State) (r : Nat) (v : BitVec 1024) : (s.setP r v).media = s.media := by unfold setP; split <;> rfl
@[simp] theorem setP_mod (s : State) (r : Nat) (v : BitVec 1024) : (s.setP r v).mod = s.mod := by unfold setP; split <;> rfl
@[simp] theorem setP_time (s : State) (r : Nat) (v : BitVec 1024) : (s.setP r v).time = s.time := by unfold setP; split <;> rfl
@[simp] theorem setP_lcAt (s : State) (r : Nat) (v : BitVec 1024) : (s.setP r v).lcAt = s.lcAt := by unfold setP; split <;> rfl
@[simp] theorem setP_turn (s : State) (r : Nat) (v : BitVec 1024) : (s.setP r v).turn = s.turn := by unfold setP; split <;> rfl
@[simp] theorem setP_steps (s : State) (r : Nat) (v : BitVec 1024) : (s.setP r v).steps = s.steps := by unfold setP; split <;> rfl
@[simp] theorem setP_free (s : State) (r : Nat) (v : BitVec 1024) : (s.setP r v).free = s.free := by unfold setP; split <;> rfl
@[simp] theorem setP_inputs (s : State) (r : Nat) (v : BitVec 1024) : (s.setP r v).inputs = s.inputs := by unfold setP; split <;> rfl
@[simp] theorem setP_out (s : State) (r : Nat) (v : BitVec 1024) : (s.setP r v).out = s.out := by unfold setP; split <;> rfl
@[simp] theorem setP_tp_ac (s : State) (r : Nat) (v : BitVec 1024) : (s.setP r v).tp.ac = s.tp.ac := by unfold setP; split <;> rfl
@[simp] theorem setP_tp_be (s : State) (r : Nat) (v : BitVec 1024) : (s.setP r v).tp.be = s.tp.be := by unfold setP; split <;> rfl
@[simp] theorem setP_tp_ce (s : State) (r : Nat) (v : BitVec 1024) : (s.setP r v).tp.ce = s.tp.ce := by unfold setP; split <;> rfl
@[simp] theorem setP_tp_ie (s : State) (r : Nat) (v : BitVec 1024) : (s.setP r v).tp.ie = s.tp.ie := by unfold setP; split <;> rfl
@[simp] theorem setP_tp_he (s : State) (r : Nat) (v : BitVec 1024) : (s.setP r v).tp.he = s.tp.he := by unfold setP; split <;> rfl
@[simp] theorem setP_tp_slots (s : State) (r : Nat) (v : BitVec 1024) : (s.setP r v).tp.slots = s.tp.slots := by unfold setP; split <;> rfl
@[simp] theorem setP_tp_queues (s : State) (r : Nat) (v : BitVec 1024) : (s.setP r v).tp.queues = s.tp.queues := by unfold setP; split <;> rfl
@[simp] theorem setP_tp_tokens (s : State) (r : Nat) (v : BitVec 1024) : (s.setP r v).tp.tokens = s.tp.tokens := by unfold setP; split <;> rfl
@[simp] theorem setP_tp_banks (s : State) (r : Nat) (v : BitVec 1024) : (s.setP r v).tp.banks = s.tp.banks := by unfold setP; split <;> rfl
@[simp] theorem setP_tp_brr (s : State) (r : Nat) (v : BitVec 1024) : (s.setP r v).tp.brr = s.tp.brr := by unfold setP; split <;> rfl
@[simp] theorem setP_tp_qdir (s : State) (r : Nat) (v : BitVec 1024) : (s.setP r v).tp.qdir = s.tp.qdir := by unfold setP; split <;> rfl
@[simp] theorem setP_tp_svwm (s : State) (r : Nat) (v : BitVec 1024) : (s.setP r v).tp.svwm = s.tp.svwm := by unfold setP; split <;> rfl
@[simp] theorem setP_tp_svwmAt (s : State) (r : Nat) (v : BitVec 1024) : (s.setP r v).tp.svwmAt = s.tp.svwmAt := by unfold setP; split <;> rfl
@[simp] theorem setP_tp_late (s : State) (r : Nat) (v : BitVec 1024) : (s.setP r v).tp.late = s.tp.late := by unfold setP; split <;> rfl
@[simp] theorem setP_tp_tasks (s : State) (r : Nat) (v : BitVec 1024) : (s.setP r v).tp.tasks = s.tp.tasks := by unfold setP; split <;> rfl
@[simp] theorem setP_tp_cur (s : State) (r : Nat) (v : BitVec 1024) : (s.setP r v).tp.cur = s.tp.cur := by unfold setP; split <;> rfl
@[simp] theorem setP_tp_tokTask (s : State) (r : Nat) (v : BitVec 1024) : (s.setP r v).tp.tokTask = s.tp.tokTask := by unfold setP; split <;> rfl
@[simp] theorem setP_tp_role (s : State) (r : Nat) (v : BitVec 1024) : (s.setP r v).tp.role = s.tp.role := by unfold setP; split <;> rfl
@[simp] theorem setP_tp_preempt (s : State) (r : Nat) (v : BitVec 1024) : (s.setP r v).tp.preempt = s.tp.preempt := by unfold setP; split <;> rfl
@[simp] theorem setP_tp_holdAt (s : State) (r : Nat) (v : BitVec 1024) : (s.setP r v).tp.holdAt = s.tp.holdAt := by unfold setP; split <;> rfl
@[simp] theorem setP_tp_stopNow (s : State) (r : Nat) (v : BitVec 1024) : (s.setP r v).tp.stopNow = s.tp.stopNow := by unfold setP; split <;> rfl
@[simp] theorem setP_tp_images (s : State) (r : Nat) (v : BitVec 1024) : (s.setP r v).tp.images = s.tp.images := by unfold setP; split <;> rfl
@[simp] theorem setP_tp_frame (s : State) (r : Nat) (v : BitVec 1024) : (s.setP r v).tp.frame = s.tp.frame := by unfold setP; split <;> rfl
@[simp] theorem setP_tp_bulk (s : State) (r : Nat) (v : BitVec 1024) : (s.setP r v).tp.bulk = s.tp.bulk := by unfold setP; split <;> rfl
@[simp] theorem setP_tp_tlb (s : State) (r : Nat) (v : BitVec 1024) : (s.setP r v).tp.tlb = s.tp.tlb := by unfold setP; split <;> rfl
@[simp] theorem setP_tp_cache (s : State) (r : Nat) (v : BitVec 1024) : (s.setP r v).tp.cache = s.tp.cache := by unfold setP; split <;> rfl
@[simp] theorem setP_tp_stale (s : State) (r : Nat) (v : BitVec 1024) : (s.setP r v).tp.stale = s.tp.stale := by unfold setP; split <;> rfl
@[simp] theorem setP_tp_bankStale (s : State) (r : Nat) (v : BitVec 1024) : (s.setP r v).tp.bankStale = s.tp.bankStale := by unfold setP; split <;> rfl
@[simp] theorem setP_tp_events (s : State) (r : Nat) (v : BitVec 1024) : (s.setP r v).tp.events = s.tp.events := by unfold setP; split <;> rfl
@[simp] theorem setP_tp_issued (s : State) (r : Nat) (v : BitVec 1024) : (s.setP r v).tp.issued = s.tp.issued := by unfold setP; split <;> rfl
@[simp] theorem setP_tp_doneCmd (s : State) (r : Nat) (v : BitVec 1024) : (s.setP r v).tp.doneCmd = s.tp.doneCmd := by unfold setP; split <;> rfl
@[simp] theorem setP_tp_poison (s : State) (r : Nat) (v : BitVec 1024) : (s.setP r v).tp.poison = s.tp.poison := by unfold setP; split <;> rfl
@[simp] theorem setP_tp_peersReached (s : State) (r : Nat) (v : BitVec 1024) : (s.setP r v).tp.peersReached = s.tp.peersReached := by unfold setP; split <;> rfl
@[simp] theorem setP_tp_lastCtx (s : State) (r : Nat) (v : BitVec 1024) : (s.setP r v).tp.lastCtx = s.tp.lastCtx := by unfold setP; split <;> rfl
@[simp] theorem setP_tp_bankEra (s : State) (r : Nat) (v : BitVec 1024) : (s.setP r v).tp.bankEra = s.tp.bankEra := by unfold setP; split <;> rfl
@[simp] theorem setP_tp_bankOwner (s : State) (r : Nat) (v : BitVec 1024) : (s.setP r v).tp.bankOwner = s.tp.bankOwner := by unfold setP; split <;> rfl
@[simp] theorem setP_tp_bankMixed (s : State) (r : Nat) (v : BitVec 1024) : (s.setP r v).tp.bankMixed = s.tp.bankMixed := by unfold setP; split <;> rfl
@[simp] theorem setP_tp_parity (s : State) (r : Nat) (v : BitVec 1024) : (s.setP r v).tp.parity = s.tp.parity := by unfold setP; split <;> rfl
@[simp] theorem setP_tp_spent (s : State) (r : Nat) (v : BitVec 1024) : (s.setP r v).tp.spent = s.tp.spent := by unfold setP; split <;> rfl
@[simp] theorem setP_tp_ran (s : State) (r : Nat) (v : BitVec 1024) : (s.setP r v).tp.ran = s.tp.ran := by unfold setP; split <;> rfl
@[simp] theorem setP_tp_meterAt (s : State) (r : Nat) (v : BitVec 1024) : (s.setP r v).tp.meterAt = s.tp.meterAt := by unfold setP; split <;> rfl
@[simp] theorem setP_tp_ec_e (s : State) (r : Nat) (v : BitVec 1024) : (s.setP r v).tp.ec.e = s.tp.ec.e := by unfold setP; split <;> rfl
@[simp] theorem setP_tp_ec_w (s : State) (r : Nat) (v : BitVec 1024) : (s.setP r v).tp.ec.w = s.tp.ec.w := by unfold setP; split <;> rfl
@[simp] theorem setP_tp_ec_pc (s : State) (r : Nat) (v : BitVec 1024) : (s.setP r v).tp.ec.pc = s.tp.ec.pc := by unfold setP; split <;> rfl
@[simp] theorem setP_tp_ec_npc (s : State) (r : Nat) (v : BitVec 1024) : (s.setP r v).tp.ec.npc = s.tp.ec.npc := by unfold setP; split <;> rfl
@[simp] theorem setP_tp_ec_nnpc (s : State) (r : Nat) (v : BitVec 1024) : (s.setP r v).tp.ec.nnpc = s.tp.ec.nnpc := by unfold setP; split <;> rfl
@[simp] theorem setP_tp_ec_a1 (s : State) (r : Nat) (v : BitVec 1024) : (s.setP r v).tp.ec.a1 = s.tp.ec.a1 := by unfold setP; split <;> rfl
@[simp] theorem setP_tp_ec_a2 (s : State) (r : Nat) (v : BitVec 1024) : (s.setP r v).tp.ec.a2 = s.tp.ec.a2 := by unfold setP; split <;> rfl
@[simp] theorem setP_tp_ec_slot1 (s : State) (r : Nat) (v : BitVec 1024) : (s.setP r v).tp.ec.slot1 = s.tp.ec.slot1 := by unfold setP; split <;> rfl
@[simp] theorem setP_tp_ec_slot2 (s : State) (r : Nat) (v : BitVec 1024) : (s.setP r v).tp.ec.slot2 = s.tp.ec.slot2 := by unfold setP; split <;> rfl
@[simp] theorem setP_tp_ec_loop (s : State) (r : Nat) (v : BitVec 1024) : (s.setP r v).tp.ec.loop = s.tp.ec.loop := by unfold setP; split <;> rfl
@[simp] theorem setP_tp_ec_rrb (s : State) (r : Nat) (v : BitVec 1024) : (s.setP r v).tp.ec.rrb = s.tp.ec.rrb := by unfold setP; split <;> rfl
@[simp] theorem setP_tp_ec_prb (s : State) (r : Nat) (v : BitVec 1024) : (s.setP r v).tp.ec.prb = s.tp.ec.prb := by unfold setP; split <;> rfl
@[simp] theorem setP_tp_ec_clock (s : State) (r : Nat) (v : BitVec 1024) : (s.setP r v).tp.ec.clock = s.tp.ec.clock := by unfold setP; split <;> rfl
@[simp] theorem setP_tp_ec_ready (s : State) (r : Nat) (v : BitVec 1024) : (s.setP r v).tp.ec.ready = s.tp.ec.ready := by unfold setP; split <;> rfl
@[simp] theorem setP_tp_ec_spec (s : State) (r : Nat) (v : BitVec 1024) : (s.setP r v).tp.ec.spec = s.tp.ec.spec := by unfold setP; split <;> rfl
@[simp] theorem setP_tp_ec_pushes (s : State) (r : Nat) (v : BitVec 1024) : (s.setP r v).tp.ec.pushes = s.tp.ec.pushes := by unfold setP; split <;> rfl
@[simp] theorem setP_tp_ec_pushed (s : State) (r : Nat) (v : BitVec 1024) : (s.setP r v).tp.ec.pushed = s.tp.ec.pushed := by unfold setP; split <;> rfl
@[simp] theorem setP_tp_ec_written (s : State) (r : Nat) (v : BitVec 1024) : (s.setP r v).tp.ec.written = s.tp.ec.written := by unfold setP; split <;> rfl
@[simp] theorem setP_tp_ec_status (s : State) (r : Nat) (v : BitVec 1024) : (s.setP r v).tp.ec.status = s.tp.ec.status := by unfold setP; split <;> rfl
@[simp] theorem setP_tp_ec_task (s : State) (r : Nat) (v : BitVec 1024) : (s.setP r v).tp.ec.task = s.tp.ec.task := by unfold setP; split <;> rfl
@[simp] theorem setP_tp_ec_since (s : State) (r : Nat) (v : BitVec 1024) : (s.setP r v).tp.ec.since = s.tp.ec.since := by unfold setP; split <;> rfl
@[simp] theorem setP_tp_ec_trec (s : State) (r : Nat) (v : BitVec 1024) : (s.setP r v).tp.ec.trec = s.tp.ec.trec := by unfold setP; split <;> rfl

/-! ## tick: the step count, the time and the turn move on -/

@[simp] theorem tick_cur (s : State) : s.tick.cur = s.cur := rfl
@[simp] theorem tick_tp (s : State) : s.tick.tp = s.tp := rfl
@[simp] theorem tick_others (s : State) : s.tick.others = s.others := rfl
@[simp] theorem tick_mem (s : State) : s.tick.mem = s.mem := rfl
@[simp] theorem tick_lines (s : State) : s.tick.lines = s.lines := rfl
@[simp] theorem tick_weak (s : State) : s.tick.weak = s.weak := rfl
@[simp] theorem tick_mediaStale (s : State) : s.tick.mediaStale = s.mediaStale := rfl
@[simp] theorem tick_writers (s : State) : s.tick.writers = s.writers := rfl
@[simp] theorem tick_wide (s : State) : s.tick.wide = s.wide := rfl
@[simp] theorem tick_flags (s : State) : s.tick.flags = s.flags := rfl
@[simp] theorem tick_cores (s : State) : s.tick.cores = s.cores := rfl
@[simp] theorem tick_tracked (s : State) : s.tick.tracked = s.tracked := rfl
@[simp] theorem tick_atc (s : State) : s.tick.atc = s.atc := rfl
@[simp] theorem tick_requests (s : State) : s.tick.requests = s.requests := rfl
@[simp] theorem tick_invalidations (s : State) : s.tick.invalidations = s.invalidations := rfl
@[simp] theorem tick_faults (s : State) : s.tick.faults = s.faults := rfl
@[simp] theorem tick_denied (s : State) : s.tick.denied = s.denied := rfl
@[simp] theorem tick_queues (s : State) : s.tick.queues = s.queues := rfl
@[simp] theorem tick_launches (s : State) : s.tick.launches = s.launches := rfl
@[simp] theorem tick_nextTask (s : State) : s.tick.nextTask = s.nextTask := rfl
@[simp] theorem tick_nextMedia (s : State) : s.tick.nextMedia = s.nextMedia := rfl
@[simp] theorem tick_turnstiles (s : State) : s.tick.turnstiles = s.turnstiles := rfl
@[simp] theorem tick_dealt (s : State) : s.tick.dealt = s.dealt := rfl
@[simp] theorem tick_homeless (s : State) : s.tick.homeless = s.homeless := rfl
@[simp] theorem tick_regions (s : State) : s.tick.regions = s.regions := rfl
@[simp] theorem tick_nextRegion (s : State) : s.tick.nextRegion = s.nextRegion := rfl
@[simp] theorem tick_watches (s : State) : s.tick.watches = s.watches := rfl
@[simp] theorem tick_ctxs (s : State) : s.tick.ctxs = s.ctxs := rfl
@[simp] theorem tick_tenants (s : State) : s.tick.tenants = s.tenants := rfl
@[simp] theorem tick_streams (s : State) : s.tick.streams = s.streams := rfl
@[simp] theorem tick_media (s : State) : s.tick.media = s.media := rfl
@[simp] theorem tick_mod (s : State) : s.tick.mod = s.mod := rfl
@[simp] theorem tick_lcAt (s : State) : s.tick.lcAt = s.lcAt := rfl
@[simp] theorem tick_free (s : State) : s.tick.free = s.free := rfl
@[simp] theorem tick_inputs (s : State) : s.tick.inputs = s.inputs := rfl
@[simp] theorem tick_out (s : State) : s.tick.out = s.out := rfl

end State
end Sys2Proof.Machine
end

