-- ==== Sys2Proof/Laws/Memory.lean ====
section
/-!
SUPPORT. The operations over memory: each keeps memory canonical, and what a load, a fetch, a translation or a charge leaves
unchanged.
-/
namespace Sys2Proof.Machine
namespace State

/-! ## Canonical memory is kept -/

theorem fireWatches_mem (s : State) (p n : Nat) : (s.fireWatches p n).mem = s.mem := rfl

theorem putBytes_mem (s : State) (p : Nat) (bs : List Byte) : (s.putBytes p bs).mem = Memory.writeBytes s.mem p bs := by
  unfold putBytes
  dsimp only
  split <;> rfl

theorem putBytes_memoryOk (s : State) (p : Nat) (bs : List Byte) (h : s.MemoryOk) : (s.putBytes p bs).MemoryOk := by
  unfold MemoryOk; rw [putBytes_mem]; exact Memory.wf_writeBytes _ _ _ h

theorem performWeak_mem (s : State) (p : Nat) (bs : List Byte) :
    (s.performWeak p bs).mem = Memory.writeBytes s.mem p bs := putBytes_mem s p bs

theorem performWeak_memoryOk (s : State) (p : Nat) (bs : List Byte) (h : s.MemoryOk) : (s.performWeak p bs).MemoryOk :=
  putBytes_memoryOk s p bs h

/-- A fold keeps what its step keeps. -/
theorem foldl_keeps {α : Type} (P : State → Prop) (f : State → α → State) (hf : ∀ s a, P s → P (f s a)) (l : List α)
    (s : State) (h : P s) : P (l.foldl f s) := by
  induction l generalizing s with
  | nil => exact h
  | cons a l ih => exact ih _ (hf s a h)

theorem revokeLine_mem (s : State) (l : Nat) : (s.revokeLine l).mem = s.mem := rfl

theorem setTp_mem (s : State) (n : Nat) (t : Tp) : (s.setTp n t).mem = s.mem := by
  unfold setTp
  split <;> rfl

theorem focus_mem (s : State) (n : Nat) : (s.focus n).mem = s.mem := by
  unfold focus
  split <;> rfl

theorem sendPosted_mem (s : State) (ctx space p n : Nat) : (s.sendPosted ctx space p n).mem = s.mem := by
  unfold sendPosted
  split <;> rfl

/-! ## What charges, evictions and fills keep -/

theorem countEvent_calm (s : State) (c code : Nat) : (s.countEvent c code).calm = s.calm := rfl

theorem calm_of_countEvents (l : List Nat) (c : Nat) (s : State) :
    (l.foldl (fun s _ => s.countEvent c 0x72) s).calm = s.calm := by
  induction l generalizing s with
  | nil => rfl
  | cons _ l ih => rw [List.foldl_cons, ih, countEvent_calm]

theorem requestAll_calm (s : State) (c : Nat) : (s.requestAll c).calm = s.calm := by
  unfold requestAll
  dsimp only
  rw [calm_of_countEvents]
  unfold mapTps calm Tp.calm
  dsimp only
  split
  · rename_i h
    simp only [Bool.and_eq_true, Option.isNone_iff_eq_none] at h
    simp [Tp.request, h.2]
  · rfl

theorem chargeBy_calm (s : State) (always : Bool) (c : Nat) (cost : Int) : (s.chargeBy always c cost).calm = s.calm := by
  unfold chargeBy
  dsimp only
  split
  · rfl
  · split
    · rw [requestAll_calm]; rfl
    · rfl

theorem charge_calm (s : State) (c : Nat) (cost : Int) : (s.charge c cost).calm = s.calm := chargeBy_calm s false c cost

theorem spend_calm (s : State) (ctx cost : Nat) : (s.spend ctx cost).calm = s.calm := rfl

theorem evict_calm (s : State) (c : CLine) : (s.evict c).calm = s.calm := by
  unfold evict
  dsimp only
  split
  · rw [spend_calm, charge_calm]; rfl
  · rfl

theorem fillLine_calm (s : State) (ctx : Nat) (c : CLine) : (s.fillLine ctx c).calm = s.calm := by
  have hs : ((s.charge ctx 160).spend ctx 160).calm = s.calm := (spend_calm _ _ _).trans (charge_calm _ _ _)
  have hk : ∀ (u : State) (l : List CLine), ({ u with tp := { u.tp with cache := l } } : State).calm = u.calm := fun _ _ => rfl
  have hn : ∀ u : State, u.takeNat.2.calm = u.calm := fun _ => rfl
  unfold fillLine
  dsimp only
  rw [hk]
  split
  · rw [hn, hs]
  · split
    · rw [evict_calm, hn, hn, hs]
    · rw [hn, hn, hs]

theorem keepLine_calm (s : State) (ctx : Nat) (c : CLine) : (s.keepLine ctx c).calm = s.calm := by
  unfold keepLine
  split
  · rfl
  · exact fillLine_calm s ctx c

/-- A fold of steps that keep the calm part keeps it. -/
theorem foldl_calm {α : Type} (f : State → α → State) (hf : ∀ s a, (f s a).calm = s.calm) (l : List α) (s : State) :
    (l.foldl f s).calm = s.calm := by
  induction l generalizing s with
  | nil => rfl
  | cons a l ih => exact (ih _).trans (hf s a)

theorem mem_of_calm {s t : State} (h : t.calm = s.calm) : t.mem = s.mem := by have := congrArg State.mem h; exact this

/-! ## Stores performed on path C, and the pending writes -/

/-- What the stores of an access core leave of the state: memory holds the bytes, and every register of the TP, the banks, the
queues and the pending writes are as they were. -/
theorem storeRuns_calm (s : State) (ctx : Nat) (runs : List (Nat × List Byte)) :
    (s.storeRuns ctx runs).calm = (runs.foldl (fun s r => s.putBytes r.1 r.2) s).calm := by
  unfold storeRuns
  dsimp only
  rw [foldl_calm _ (fun s l => keepLine_calm s _ _)]
  rfl

theorem storeRuns_memoryOk (s : State) (ctx : Nat) (runs : List (Nat × List Byte)) (h : s.MemoryOk) :
    (s.storeRuns ctx runs).MemoryOk := by
  unfold MemoryOk
  rw [mem_of_calm (storeRuns_calm s ctx runs)]
  exact foldl_keeps MemoryOk (fun s (r : Nat × List Byte) => s.putBytes r.1 r.2) (fun s r h => putBytes_memoryOk s _ _ h) runs _ h

theorem performOne_memoryOk (s : State) (w : WeakWrite) (h : s.MemoryOk) : (s.performOne w).MemoryOk := by
  have h1 : (((s.trackedLines w.place w.bytes.length).foldl revokeLine s).wrote w.tp w.agent
      (linesOf w.place w.bytes.length)).MemoryOk :=
    foldl_keeps MemoryOk revokeLine (fun s l h => h) (s.trackedLines w.place w.bytes.length) s h
  unfold performOne
  dsimp only
  unfold MemoryOk
  rw [sendPosted_mem]
  split
  · exact performWeak_memoryOk _ _ _ h1
  · split
    · unfold performC
      rw [focus_mem]
      refine storeRuns_memoryOk _ _ _ ?_
      unfold MemoryOk
      rw [focus_mem]
      exact h1
    · exact putBytes_memoryOk _ _ _ h1

theorem drain_memoryOk (s : State) (f : WeakWrite → Bool) (h : s.MemoryOk) : (s.drain f).MemoryOk := by
  unfold drain
  dsimp only
  split
  · exact h
  · split
    · exact foldl_keeps MemoryOk _ performOne_memoryOk _ _ h
    · exact foldl_keeps MemoryOk _ performOne_memoryOk _ _ h

theorem widen_memoryOk (s : State) (f : WeakWrite → Bool) (n : Nat) (h : s.MemoryOk) : (s.widen f n).MemoryOk := by
  unfold widen
  split
  · exact drain_memoryOk s f h
  · exact h

theorem beforeTracked_memoryOk (s : State) (p n : Nat) (h : s.MemoryOk) : (s.beforeTracked p n).MemoryOk := by
  unfold beforeTracked
  dsimp only
  split
  · exact h
  · exact foldl_keeps MemoryOk revokeLine (fun s l h => h) _ _ (drain_memoryOk s _ h)

theorem writeHome_memoryOk (s : State) (p : Nat) (bs : List Byte) (h : s.MemoryOk) : (s.writeHome p bs).MemoryOk :=
  performWeak_memoryOk _ _ _ (beforeTracked_memoryOk s _ _ h)

theorem writeDevice_memoryOk (s : State) (p : Nat) (bs : List Byte) (h : s.MemoryOk) : (s.writeDevice p bs).MemoryOk :=
  putBytes_memoryOk _ _ _ (beforeTracked_memoryOk _ _ _ (drain_memoryOk s _ h))

/-! ## A store on path C past the commit point -/

theorem beforeTracked_of_untracked (s : State) (p n : Nat) (h : s.Untracked p n) : s.beforeTracked p n = s := by
  have : s.trackedLines p n = [] := by
    unfold trackedLines
    rw [List.filter_eq_nil_iff]
    intro l hl
    simp [h l hl]
  unfold beforeTracked
  simp [this]

/-- What path-C stores to untracked lines leave of the state in which the pending writes that come first are performed: every
register of the TP, banks, queues, the other pending writes; memory holds the bytes. -/
theorem cPerform_calm (s : State) (runs : List (Nat × List Byte))
    (h : ∀ r ∈ runs, (s.beforeStore runs).Untracked r.1 r.2.length) :
    (s.cPerform runs).calm = (runs.foldl (fun s r => s.putBytes r.1 r.2) (s.beforeStore runs)).calm := by
  have hb : ∀ (l : List (Nat × List Byte)) (u : State), (∀ r ∈ l, u.Untracked r.1 r.2.length) →
      l.foldl (fun s r => s.beforeTracked r.1 r.2.length) u = u := by
    intro l
    induction l with
    | nil => intro u _; rfl
    | cons r l ih =>
      intro u hu
      rw [List.foldl_cons, beforeTracked_of_untracked u _ _ (hu r List.mem_cons_self)]
      exact ih u (fun r hr => hu r (List.mem_cons_of_mem _ hr))
  unfold cPerform
  dsimp only
  rw [hb runs _ h, storeRuns_calm]

theorem cPerform_memoryOk (s : State) (runs : List (Nat × List Byte)) (h : s.MemoryOk) : (s.cPerform runs).MemoryOk := by
  have h0 : (s.beforeStore runs).MemoryOk := drain_memoryOk s _ h
  have h1 := foldl_keeps MemoryOk (fun s (r : Nat × List Byte) => s.beforeTracked r.1 r.2.length)
    (fun s r h => beforeTracked_memoryOk s _ _ h) runs _ h0
  exact storeRuns_memoryOk _ _ _ h1

theorem cStore_memoryOk (s : State) (p : Nat) (bs : List Byte) (space : Nat) (h : s.MemoryOk) :
    (s.cStore p bs space).MemoryOk := by
  unfold cStore
  split
  · exact h
  · split
    · unfold MemoryOk
      rw [sendPosted_mem]
      exact cPerform_memoryOk s _ h
    · exact h

/-- What a path-C store of bytes within one unit to untracked lines leaves. -/
theorem cPerform_one (s : State) (p : Nat) (bs : List Byte) (h : (s.beforeStore [(p, bs)]).Untracked p bs.length) :
    (s.cPerform [(p, bs)]).mem = Memory.writeBytes (s.beforeStore [(p, bs)]).mem p bs ∧
      (s.cPerform [(p, bs)]).tp.calm = (s.beforeStore [(p, bs)]).tp.calm ∧
      (s.cPerform [(p, bs)]).weak = (s.beforeStore [(p, bs)]).weak ∧ (s.cPerform [(p, bs)]).cur = (s.beforeStore [(p, bs)]).cur := by
  have hc := cPerform_calm s [(p, bs)] (by simpa using h)
  have hp : ∀ u : State, (u.putBytes p bs).tp = u.tp ∧ (u.putBytes p bs).weak = u.weak ∧ (u.putBytes p bs).cur = u.cur := by
    intro u
    unfold putBytes
    dsimp only
    split <;> exact ⟨rfl, rfl, rfl⟩
  obtain ⟨h1, h2, h3⟩ := hp (s.beforeStore [(p, bs)])
  refine ⟨(congrArg State.mem hc).trans (putBytes_mem _ p bs), ?_, (congrArg State.weak hc).trans h2,
    (congrArg State.cur hc).trans h3⟩
  refine (congrArg State.tp hc).trans ?_
  show Tp.calm ((s.beforeStore [(p, bs)]).putBytes p bs).tp = _
  rw [h1]

/-- Without pending writes nothing comes before a store. -/
theorem beforeStore_of_none (s : State) (runs : List (Nat × List Byte)) (h : s.weak = []) : s.beforeStore runs = s := by
  unfold beforeStore beforeStoreOf drain splitWeak
  simp [h]

/-! ## The calm part: what an access leaves -/

theorem weak_of_calm {s t : State} (h : t.calm = s.calm) : t.weak = s.weak := by have := congrArg State.weak h; exact this
theorem cur_of_calm {s t : State} (h : t.calm = s.calm) : t.cur = s.cur := by have := congrArg State.cur h; exact this
theorem watches_of_calm {s t : State} (h : t.calm = s.calm) : t.watches = s.watches := by have := congrArg State.watches h; exact this
theorem time_of_calm {s t : State} (h : t.calm = s.calm) : t.time = s.time := by have := congrArg State.time h; exact this
theorem tp_of_calm {s t : State} (h : t.calm = s.calm) : t.tp.calm = s.tp.calm := by have := congrArg State.tp h; exact this
theorem ec_of_calm {s t : State} (h : t.calm = s.calm) : t.tp.ec = s.tp.ec := congrArg (fun x => x.tp.ec) h
theorem be_of_calm {s t : State} (h : t.calm = s.calm) : t.tp.be = s.tp.be := congrArg (fun x => x.tp.be) h
theorem ce_of_calm {s t : State} (h : t.calm = s.calm) : t.tp.ce = s.tp.ce := congrArg (fun x => x.tp.ce) h
theorem ie_of_calm {s t : State} (h : t.calm = s.calm) : t.tp.ie = s.tp.ie := congrArg (fun x => x.tp.ie) h
theorem he_of_calm {s t : State} (h : t.calm = s.calm) : t.tp.he = s.tp.he := congrArg (fun x => x.tp.he) h
theorem eng_of_calm {s t : State} (h : t.calm = s.calm) (u : ChainUnit) : t.eng u = s.eng u := by
  cases u
  · exact ce_of_calm h
  · exact ie_of_calm h
  · exact he_of_calm h
theorem slots_of_calm {s t : State} (h : t.calm = s.calm) : t.tp.slots = s.tp.slots := congrArg (fun x => x.tp.slots) h
theorem queues_of_calm {s t : State} (h : t.calm = s.calm) : t.tp.queues = s.tp.queues := congrArg (fun x => x.tp.queues) h
theorem tokens_of_calm {s t : State} (h : t.calm = s.calm) : t.tp.tokens = s.tp.tokens := congrArg (fun x => x.tp.tokens) h
theorem banks_of_calm {s t : State} (h : t.calm = s.calm) : t.tp.banks = s.tp.banks := congrArg (fun x => x.tp.banks) h
theorem brr_of_calm {s t : State} (h : t.calm = s.calm) : t.tp.brr = s.tp.brr := congrArg (fun x => x.tp.brr) h
theorem qdir_of_calm {s t : State} (h : t.calm = s.calm) : t.tp.qdir = s.tp.qdir := congrArg (fun x => x.tp.qdir) h
theorem svwm_of_calm {s t : State} (h : t.calm = s.calm) : t.tp.svwm = s.tp.svwm := congrArg (fun x => x.tp.svwm) h
theorem tasks_of_calm {s t : State} (h : t.calm = s.calm) : t.tp.tasks = s.tp.tasks := congrArg (fun x => x.tp.tasks) h
theorem tpCur_of_calm {s t : State} (h : t.calm = s.calm) : t.tp.cur = s.tp.cur := congrArg (fun x => x.tp.cur) h
theorem acx_of_calm {s t : State} (h : t.calm = s.calm) : t.tp.ac.x = s.tp.ac.x := congrArg (fun x => x.tp.ac.x) h
theorem acf_of_calm {s t : State} (h : t.calm = s.calm) : t.tp.ac.f = s.tp.ac.f := congrArg (fun x => x.tp.ac.f) h
theorem pc_of_calm {s t : State} (h : t.calm = s.calm) : t.tp.ac.pc = s.tp.ac.pc := congrArg (fun x => x.tp.ac.pc) h
theorem phase_of_calm {s t : State} (h : t.calm = s.calm) : t.tp.ac.phase = s.tp.ac.phase :=
  congrArg (fun x => x.tp.ac.phase) h

theorem getX_of_calm {s t : State} (h : t.calm = s.calm) (r : BitVec 5) : t.getX r = s.getX r := by
  simp only [getX, acx_of_calm h]

theorem memoryOk_of_calm {s t : State} (h : t.calm = s.calm) (hs : s.MemoryOk) : t.MemoryOk := by
  unfold MemoryOk; rw [mem_of_calm h]; exact hs

theorem sameUnits_of_calm {s t : State} (h : t.calm = s.calm) : SameUnits s t :=
  ⟨ec_of_calm h, be_of_calm h, ce_of_calm h, ie_of_calm h, he_of_calm h, slots_of_calm h, queues_of_calm h, tokens_of_calm h,
    brr_of_calm h, qdir_of_calm h, svwm_of_calm h⟩

theorem sameAc_of_calm {s t : State} (h : t.calm = s.calm) : SameAc s t [] where
  x r _ := getX_of_calm h r
  f r := by simp only [getF, acf_of_calm h]
  fcsr := congrArg (fun x => x.tp.ac.fcsr) h
  sup := congrArg (fun x => x.tp.ac.sup) h
  sstatus := congrArg (fun x => x.tp.ac.sstatus) h
  sepc := congrArg (fun x => x.tp.ac.sepc) h
  scause := congrArg (fun x => x.tp.ac.scause) h
  stval := congrArg (fun x => x.tp.ac.stval) h
  stvec := congrArg (fun x => x.tp.ac.stvec) h
  sscratch := congrArg (fun x => x.tp.ac.sscratch) h
  handles := congrArg (fun x => x.tp.ac.handles) h
  trec := congrArg (fun x => x.tp.ac.trec) h
  pend := congrArg (fun x => x.tp.ac.pend) h

/-! ## What keeps the calm part -/

theorem drawOn_calm (m : Module) (cost r : Nat) :
    { m.drawOn cost r with grants := [], owed := [], work := 0 } = { m with grants := [], owed := [], work := 0 } := by
  unfold Module.drawOn; split <;> rfl

theorem draw_calm (s : State) (ctx unit cost : Nat) : (s.draw ctx unit cost).calm = s.calm := by
  have hm : ∀ (l : List Nat) (m : Module), { l.foldl (fun m r => m.drawOn cost r) m with grants := [], owed := [], work := 0 } =
      { m with grants := [], owed := [], work := 0 } := by
    intro l
    induction l with
    | nil => intro m; rfl
    | cons r l ih => intro m; rw [List.foldl_cons, ih, drawOn_calm]
  unfold draw
  rw [spend_calm]
  simp only [calm, hm]

theorem gateBalance_calm (s t : State) (c cost : Nat) (h : s.gateBalance c cost = .ok t) : t.calm = s.calm := by
  unfold gateBalance at h
  dsimp only at h
  split at h
  · split at h <;> cases h
  · cases h; exact charge_calm s _ _

theorem gate_calm (s t : State) (c unit cost : Nat) (h : s.gate c unit cost = .ok t) : t.calm = s.calm := by
  unfold gate at h
  split at h
  · cases h; rfl
  · split at h
    · cases h
    · split at h
      · cases h
      · rename_i _ s1 hb
        cases h
        exact (draw_calm _ _ _ _).trans (gateBalance_calm _ _ _ _ hb)

theorem track_calm (s : State) (f n : Nat) : (s.track f n).calm = s.calm := by
  unfold track; split <;> rfl

theorem walk_calm (s : State) (ctx va : Nat) : (walk s ctx va).2.calm = s.calm := by
  unfold walk
  dsimp only
  split
  · rfl
  · split
    · split
      · exact track_calm s _ _
      · rfl
    · rfl

theorem pageOf_calm (s t : State) (keep : Bool) (ctx space va k : Nat) (p : Page)
    (h : s.pageOf keep ctx space va k = .ok (p, t)) : t.calm = s.calm := by
  unfold pageOf at h
  split at h
  · cases h; rfl
  · split at h
    · split at h <;> try (cases h; done)
      rename_i _ _ p' s' hw
      have hc := walk_calm s ctx va
      rw [hw] at hc
      cases h
      split
      · exact hc
      · exact hc
    · split at h
      · split at h
        · cases h; split <;> rfl
        · split at h <;> cases h
      · split at h
        · split at h
          · cases h; rfl
          · cases h
        · cases h

/-- What keeps tracking bits changes no answer. -/
theorem keepTracks_ok {α : Type} (s t : State) (r : Try α) (x : α) (h : keepTracks s t r = .ok x) : r = .ok x := by
  have he : ∀ (l : List (Nat × Nat)) (e : Stop), (Except.error (l.foldl (fun e t => Stop.tracked t.1 t.2 e) e) : Try α) ≠ .ok x :=
    fun _ _ h => by cases h
  unfold keepTracks at h
  split at h
  · exact absurd h (he _ _)
  · exact absurd h (he _ _)
  · exact h

theorem keepTracks_of_ok {α : Type} (s t : State) (x : α) : keepTracks s t (.ok x) = .ok x := rfl

theorem pieces_calm (keep : Bool) (ctx space k : Nat) : ∀ (fuel va n : Nat) (s t : State) (l : List Piece),
    s.pieces keep ctx space k fuel va n = .ok (l, t) → t.calm = s.calm
  | 0, _, _, _, _, _, h => by unfold pieces at h; cases h; rfl
  | fuel + 1, va, n, s, t, l, h => by
    unfold pieces at h
    split at h
    · cases h; rfl
    · split at h
      · cases h
      · rename_i _ p s1 hp
        replace h := keepTracks_ok _ _ _ _ h
        dsimp only at h
        split at h
        · cases h
        · split at h
          · cases h
          · rename_i _ l' s2 hr
            cases h
            exact (pieces_calm keep ctx space k fuel _ _ s1 _ _ hr).trans (pageOf_calm s s1 _ _ _ _ _ p hp)

theorem sendNonPosted_calm (s t : State) (ctx p space : Nat) (h : s.sendNonPosted ctx p space = .ok t) :
    t.calm = s.calm := by
  unfold sendNonPosted at h
  split at h
  · cases h; rfl
  · extract_lets at h
    split at h
    · cases h
    · split at h
      · rw [← Except.ok.inj h]; rfl
      · split at h <;> cases h

/-- A fold of an operation that keeps the calm part keeps it. -/
theorem foldTry_calm {α β : Type} (f : β × State → α → Try (β × State))
    (hf : ∀ b s a b' s', f (b, s) a = .ok (b', s') → s'.calm = s.calm) :
    ∀ (l : List α) (b : β) (s : State) (b' : β) (s' : State), foldTry f (b, s) l = .ok (b', s') → s'.calm = s.calm
  | [], _, _, _, _, h => by unfold foldTry at h; cases h; rfl
  | a :: l, b, s, b', s', h => by
    unfold foldTry at h
    split at h
    · rename_i r hr
      obtain ⟨b1, s1⟩ := r
      exact (foldTry_calm f hf l b1 s1 b' s' h).trans (hf b s a b1 s1 hr)
    · cases h

/-- A fetch of code. -/
theorem fetch_calm (s t : State) (k : Task) (va n : Nat) (bs : List Byte) (h : s.fetch k va n = .ok (bs, t)) :
    t.calm = s.calm := by
  unfold fetch at h
  split at h
  · cases h
  · rename_i _ ps s1 hp
    refine (foldTry_calm _ ?_ ps [] s1 bs t h).trans (pieces_calm _ _ _ _ _ _ _ s s1 ps hp)
    intro b s' a b' s'' h'
    dsimp only at h'
    split at h'
    · cases h'; rfl
    · split at h'
      · cases h'
      · split at h'
        · cases h'
        · rename_i _ s2 hs
          cases h'; exact sendNonPosted_calm _ _ _ _ _ hs

theorem leaseLine_calm (s : State) (clock l : Nat) (mem : Memory) : (s.leaseLine clock l mem).2.2.calm = s.calm := rfl

/-- The clock and the read set of a task are no part of the calm state. -/
theorem note_calm (a : Ac) (l w : Nat) : { a.note l w with lc := 0, readSet := [] } = { a with lc := 0, readSet := [] } := by
  unfold Ac.note; split <;> rfl

theorem noted_calm (s : State) (lc l w : Nat) : (s.setAc ({ s.tp.ac with lc := lc }.note l w)).calm = s.calm := by
  simp only [calm, Tp.calm, setAc, note_calm]

theorem noted2_calm (s : State) (c : Prop) [Decidable c] (lc l w v : Nat) :
    (s.setAc (if c then { s.tp.ac with lc := lc }.note l w else ({ s.tp.ac with lc := lc }.note l w).note l v)).calm =
      s.calm := by
  split
  · exact noted_calm s lc l w
  · simp only [calm, Tp.calm, setAc, note_calm]

theorem cLoadLine_calm (s t : State) (ctx p n : Nat) (bs : List Byte) (h : s.cLoadLine ctx p n = .ok (bs, t)) :
    t.calm = s.calm := by
  unfold cLoadLine at h
  split at h
  · cases h
  · extract_lets at h
    split at h
    · cases h
      rw [noted_calm, keepLine_calm]; rfl
    · split at h
      · cases h
        rw [noted_calm, keepLine_calm]; rfl
      · cases h
        rw [noted2_calm, keepLine_calm]; rfl

theorem cLoad_calm (s t : State) (ctx p n space : Nat) (bs : List Byte) (h : s.cLoad ctx p n space = .ok (bs, t)) :
    t.calm = s.calm := by
  unfold cLoad at h
  split at h
  · cases h; rfl
  · split at h
    · cases h
    · rename_i _ s0 h0
      split at h
      · cases h
      · rename_i _ b1 s1 h1
        cases h
        refine (foldTry_calm _ ?_ _ [] s0 b1 _ h1).trans (sendNonPosted_calm _ _ _ _ _ h0)
        intro b s' a b' s'' h'
        dsimp only at h'
        split at h'
        · cases h'; rfl
        · split at h'
          · cases h'
          · rename_i _ b2 s2 h2
            cases h'; exact cLoadLine_calm _ _ _ _ _ _ h2

theorem setStale_calm (s : State) (agent : Nat) (l : List Stale) : (s.setStale agent l).calm = s.calm := by
  unfold setStale
  split <;> rfl

theorem staleRead_calm (s : State) (agent p : Nat) (bs : List Byte) : (s.staleRead agent p bs).2.calm = s.calm := by
  unfold staleRead
  dsimp only
  split
  · rfl
  · exact setStale_calm _ _ _

theorem readPiece_calm (s t : State) (w : Who) (p : Piece) (bs : List Byte) (h : s.readPiece w p = .ok (bs, t)) :
    t.calm = s.calm := by
  unfold readPiece at h
  split at h
  · cases h; rfl
  · split at h
    · cases h
    · split at h
      · cases h
      · rename_i _ s0 h0
        have h2 := staleRead_calm s0 w.agent p.place (Sparse.run (s0.view w.tp w.agent) p.place p.len)
        have h1 := congrArg (fun r : Try (List Byte × State) => match r with | .ok x => x.2 | .error _ => t) h
        dsimp only at h1
        rw [← h1]
        exact h2.trans (sendNonPosted_calm _ _ _ _ _ h0)

theorem gRead_calm (s t : State) (w : Who) (space va n : Nat) (bs : List Byte) (h : s.gRead w space va n = .ok (bs, t)) :
    t.calm = s.calm := by
  unfold gRead at h
  split at h
  · cases h
  · rename_i _ ps s1 hp
    refine (foldTry_calm _ ?_ ps [] s1 bs t (keepTracks_ok _ _ _ _ h)).trans (pieces_calm _ _ _ _ _ _ _ s s1 ps hp)
    intro b s' a b' s'' h'
    dsimp only at h'
    split at h'
    · rename_i _ bs1 s2 hr
      cases h'; exact readPiece_calm _ _ _ _ _ hr
    · cases h'

end State
end Sys2Proof.Machine
end

