-- ==== Sys2Proof/Laws/Access.lean ====
section
/-!
SUPPORT. Accesses through handles and to queues: what a load leaves, what a store writes.
-/
namespace Sys2Proof.Machine
namespace State

theorem loadPieces_calm (s t : State) (ps : List Piece) (bs : List Byte) (h : s.loadPieces ps = .ok (bs, t)) :
    t.calm = s.calm := by
  unfold loadPieces at h
  split at h
  · cases h
  · refine foldTry_calm _ ?_ ps [] s bs t h
    intro b s' a b' s'' h'
    dsimp only at h'
    split at h'
    · cases h'; rfl
    · split at h'
      · cases h'
      · rename_i _ hl
        cases h'; exact cLoad_calm _ _ _ _ _ _ _ hl

/-- A load through a handle changes nothing but what an access may. -/
theorem handleLoad_calm (s t : State) (hn : BitVec 4) (off : Dword) (n : Nat) (bs : List Byte)
    (h : s.handleLoad hn off n = .ok (bs, t)) : t.calm = s.calm := by
  unfold handleLoad at h
  split at h
  · cases h
  · exact loadPieces_calm s t _ bs h

theorem homeRead_calm (s t : State) (ctx p n v : Nat) (h : s.homeRead ctx p n = .ok (v, t)) : t.calm = s.calm := by
  unfold homeRead at h
  split at h
  · cases h
  · split at h
    · cases h
    · rename_i _ s1 hs
      cases h; exact sendNonPosted_calm _ _ _ _ _ hs

theorem deviceLoad_calm (s t : State) (ctx p n v : Nat) (h : s.deviceLoad ctx p n = .ok (v, t)) : t.calm = s.calm := by
  unfold deviceLoad at h
  split at h
  · cases h
  · rename_i _ v1 s1 hr
    cases h; exact homeRead_calm s s1 ctx p n _ hr

theorem readSpace_calm (s t : State) (va n v : Nat) (h : s.readSpace va n = .ok (v, t)) : t.calm = s.calm := by
  unfold readSpace at h
  split at h
  · cases h
  · rename_i _ ps s1 hp
    split at h
    · cases h
    · rename_i _ bs s2 hf
      cases h
      refine (foldTry_calm _ ?_ ps [] s1 bs t hf).trans (pieces_calm _ _ _ _ _ _ _ _ _ _ hp)
      intro b s' a b' s'' h'
      dsimp only at h'
      split at h'
      · cases h'; rfl
      · split at h'
        · cases h'
        · rename_i _ v s3 hl
          cases h'; exact deviceLoad_calm _ _ _ _ _ _ hl

/-- The write of an integer register, and its reads. -/
theorem getX_setX (s : State) (r q : BitVec 5) (v : Dword) :
    (s.setX r v).getX q = if q = r then (if q = 0 then 0 else v) else s.getX q := by
  unfold setX getX
  by_cases hq : q = 0
  · rw [if_pos hq, if_pos hq, if_pos hq, ite_self]
  · rw [if_neg hq, if_neg hq, if_neg hq]
    by_cases hr : r = 0
    · rw [if_pos hr, if_neg (fun h => hq (h.trans hr))]
    · rw [if_neg hr, setAc_tp_ac]
      by_cases hqr : q = r
      · rw [if_pos hqr, hqr, Sparse.get_set_self]
      · rw [if_neg hqr, Sparse.get_set_ne _ _ _ _ (fun h => hqr (BitVec.eq_of_toNat_eq h))]

/-- A write of one register leaves the others of the access core. -/
theorem sameAc_setX (s : State) (r : BitVec 5) (v : Dword) : SameAc s (s.setX r v) [r] := by
  constructor
  · intro q hq
    rw [getX_setX]
    have : q ≠ r := by simpa using hq
    simp [this]
  · intro q; simp [getF]
  all_goals simp

theorem sameUnits_setX (s : State) (r : BitVec 5) (v : Dword) : SameUnits s (s.setX r v) := by
  constructor <;> simp

end State

theorem SameAc.trans {s t u : State} {xs : List (BitVec 5)} (h1 : SameAc s t xs) (h2 : SameAc t u xs) : SameAc s u xs :=
  ⟨fun r hr => (h2.x r hr).trans (h1.x r hr), fun r => (h2.f r).trans (h1.f r), h2.fcsr.trans h1.fcsr, h2.sup.trans h1.sup,
    h2.sstatus.trans h1.sstatus, h2.sepc.trans h1.sepc, h2.scause.trans h1.scause, h2.stval.trans h1.stval,
    h2.stvec.trans h1.stvec, h2.sscratch.trans h1.sscratch, h2.handles.trans h1.handles, h2.trec.trans h1.trec,
    h2.pend.trans h1.pend⟩

theorem SameAc.weaken {s t : State} {xs ys : List (BitVec 5)} (h : SameAc s t xs) (hs : ∀ r, r ∈ xs → r ∈ ys) : SameAc s t ys :=
  { h with x := fun r hr => h.x r (fun h' => hr (hs r h')) }

theorem SameUnits.trans {s t u : State} (h1 : SameUnits s t) (h2 : SameUnits t u) : SameUnits s u :=
  ⟨h2.ec.trans h1.ec, h2.be.trans h1.be, h2.ce.trans h1.ce, h2.ie.trans h1.ie, h2.he.trans h1.he, h2.slots.trans h1.slots,
    h2.queues.trans h1.queues, h2.tokens.trans h1.tokens, h2.brr.trans h1.brr, h2.qdir.trans h1.qdir,
    h2.svwm.trans h1.svwm⟩

theorem sameAc_setPc (s : State) (v : Dword) : SameAc s (s.setPc v) [] := by
  constructor
  · intro r _; rfl
  · intro r; rfl
  all_goals rfl

theorem sameUnits_setPc (s : State) (v : Dword) : SameUnits s (s.setPc v) := by constructor <;> rfl

end Sys2Proof.Machine
end

