-- ==== Sys2Proof/Laws/Issue.lean ====
section
/-!
SUPPORT. The issue of a word of the E stream: what it leaves unchanged, and how a word that is ready ends.
-/
namespace Sys2Proof.Machine

/-- What the issue of an E word keeps (R121 to R124): all of the EC but its tile registers, clock, due writes and pushes; memory,
banks and the access core. -/
structure EcKept (s t : State) : Prop where
  e : t.tp.ec.e = s.tp.ec.e
  p : t.tp.ec.p = s.tp.ec.p
  pc : t.tp.ec.pc = s.tp.ec.pc
  npc : t.tp.ec.npc = s.tp.ec.npc
  nnpc : t.tp.ec.nnpc = s.tp.ec.nnpc
  a1 : t.tp.ec.a1 = s.tp.ec.a1
  a2 : t.tp.ec.a2 = s.tp.ec.a2
  slot1 : t.tp.ec.slot1 = s.tp.ec.slot1
  slot2 : t.tp.ec.slot2 = s.tp.ec.slot2
  loop : t.tp.ec.loop = s.tp.ec.loop
  rrb : t.tp.ec.rrb = s.tp.ec.rrb
  prb : t.tp.ec.prb = s.tp.ec.prb
  status : t.tp.ec.status = s.tp.ec.status
  task : t.tp.ec.task = s.tp.ec.task
  trec : t.tp.ec.trec = s.tp.ec.trec
  mem : t.mem = s.mem
  banks : t.tp.banks = s.tp.banks
  acx : t.tp.ac.x = s.tp.ac.x
  acpc : t.tp.ac.pc = s.tp.ac.pc
  cur : t.tp.cur = s.tp.cur
  tasks : t.tp.tasks = s.tp.tasks
  qdir : t.tp.qdir = s.tp.qdir
  time : t.time = s.time

theorem EcKept.refl (s : State) : EcKept s s := by constructor <;> rfl

theorem EcKept.trans {s t u : State} (h1 : EcKept s t) (h2 : EcKept t u) : EcKept s u := by
  constructor
  · exact h2.e.trans h1.e
  · exact h2.p.trans h1.p
  · exact h2.pc.trans h1.pc
  · exact h2.npc.trans h1.npc
  · exact h2.nnpc.trans h1.nnpc
  · exact h2.a1.trans h1.a1
  · exact h2.a2.trans h1.a2
  · exact h2.slot1.trans h1.slot1
  · exact h2.slot2.trans h1.slot2
  · exact h2.loop.trans h1.loop
  · exact h2.rrb.trans h1.rrb
  · exact h2.prb.trans h1.prb
  · exact h2.status.trans h1.status
  · exact h2.task.trans h1.task
  · exact h2.trec.trans h1.trec
  · exact h2.mem.trans h1.mem
  · exact h2.banks.trans h1.banks
  · exact h2.acx.trans h1.acx
  · exact h2.acpc.trans h1.acpc
  · exact h2.cur.trans h1.cur
  · exact h2.tasks.trans h1.tasks
  · exact h2.qdir.trans h1.qdir
  · exact h2.time.trans h1.time

namespace State

theorem ecKept_of_calm {s t : State} (h : t.calm = s.calm) : EcKept s t := by
  have he := ec_of_calm h
  constructor <;> first
    | rw [he]
    | exact mem_of_calm h
    | exact banks_of_calm h
    | exact acx_of_calm h
    | exact pc_of_calm h
    | exact tpCur_of_calm h
    | exact tasks_of_calm h
    | exact qdir_of_calm h
    | exact time_of_calm h

theorem ecKept_setTokens (s : State) (p c n : Nat) : EcKept s (s.setTokens p c n) := by constructor <;> rfl
theorem ecKept_takeTokens (s : State) (p c n : Nat) : EcKept s (s.takeTokens p c n) := by constructor <;> rfl
theorem ecKept_setScalarQ (s : State) (q : Nat) (l : List Dword) : EcKept s (s.setScalarQ q l) := by constructor <;> rfl
theorem ecKept_setTileQ (s : State) (q : Nat) (l : List Tile) : EcKept s (s.setTileQ q l) := by constructor <;> rfl

theorem ecKept_movePoison (s : State) (q n : Nat) : EcKept s (s.movePoison q n) := by
  unfold movePoison
  split
  · exact EcKept.refl s
  · constructor <;> rfl

theorem ecKept_pushToken (s t : State) (p c : Nat) (h : s.pushToken p c = some t) : EcKept s t := by
  unfold pushToken at h
  split at h
  · cases h; exact ecKept_setTokens _ _ _ _
  · cases h

theorem ecKept_flush (unit now : Nat) : ∀ (l : List Push) (s : State), EcKept s (s.flush unit now l).1
  | [], s => by unfold flush; exact EcKept.refl s
  | p :: l, s => by
    unfold flush
    cases p with
    | token due u =>
      dsimp only
      split
      · exact EcKept.refl s
      · split
        · exact ecKept_flush unit now l s
        · split
          · rename_i s' h
            exact (ecKept_pushToken s s' _ _ h).trans (ecKept_flush unit now l s')
          · exact EcKept.refl s
    | scalar due q v =>
      dsimp only
      split
      · exact EcKept.refl s
      · split
        · exact ecKept_flush unit now l s
        · split
          · exact EcKept.refl s
          · exact (ecKept_setScalarQ s _ _).trans (ecKept_flush unit now l _)
    | tile due q v =>
      dsimp only
      split
      · exact EcKept.refl s
      · split
        · exact ecKept_flush unit now l s
        · split
          · exact EcKept.refl s
          · exact (ecKept_setTileQ s _ _).trans (ecKept_flush unit now l _)

theorem ecKept_clearQueues (s : State) : EcKept s s.clearQueues := by
  unfold clearQueues
  split
  · constructor <;> rfl
  · exact EcKept.refl s

theorem ecKept_writeW (s : State) (n : Nat) (on : Nat → Bool) (v : Nat → Word) : EcKept s (s.writeW n on v) := by
  unfold writeW putW
  dsimp only
  split <;> constructor <;> rfl

theorem ecKept_settleE (s : State) : EcKept s s.settleE := by
  have hw : EcKept s ((s.tp.ec.spec.filter (fun w => w.due ≤ s.tp.ec.clock)).foldl
      (fun s w => s.writeW w.reg w.on.getLsbD (Sparse.get w.tile)) s) :=
    foldl_keeps (EcKept s) _ (fun t w h => h.trans (ecKept_writeW t _ _ _)) _ s (EcKept.refl s)
  unfold settleE
  dsimp only
  refine hw.trans ?_
  generalize ((s.tp.ec.spec.filter (fun w => w.due ≤ s.tp.ec.clock)).foldl
      (fun s w => s.writeW w.reg w.on.getLsbD (Sparse.get w.tile)) s) = t
  have h1 : EcKept t (t.setEc { t.tp.ec with
      spec := t.tp.ec.spec.filter (fun w => !(w.due ≤ s.tp.ec.clock))
      written := t.tp.ec.written + (s.tp.ec.spec.filter (fun w => w.due ≤ s.tp.ec.clock)).length }) := by
    constructor <;> rfl
  refine h1.trans ?_
  generalize t.setEc { t.tp.ec with
      spec := t.tp.ec.spec.filter (fun w => !(w.due ≤ s.tp.ec.clock))
      written := t.tp.ec.written + (s.tp.ec.spec.filter (fun w => w.due ≤ s.tp.ec.clock)).length } = u
  refine EcKept.trans ?_ (ecKept_clearQueues _)
  have h2 := ecKept_flush 2 s.tp.ec.clock u.tp.ec.pushes u
  refine h2.trans ?_
  constructor <;> rfl

theorem ecKept_atCycle (s : State) (n : Nat) : EcKept s (s.atCycle n) := by
  unfold atCycle
  refine EcKept.trans ?_ (ecKept_settleE _)
  constructor <;> rfl

theorem ecKept_popTokens (s t : State) (p c n : Nat) (h : s.popTokens p c n = .ok t) : EcKept s t := by
  unfold popTokens at h
  split at h
  · cases h; exact ecKept_takeTokens _ _ _ _
  · cases h

theorem ecKept_tokenWait (s t : State) (unit : Nat) (tkw : BitVec 3) (h : s.tokenWait unit tkw = .ok t) : EcKept s t := by
  unfold tokenWait at h
  split at h
  · cases h; exact EcKept.refl s
  · exact ecKept_popTokens _ _ _ _ _ h

theorem ecKept_readScalars (s t : State) (codes : List (BitVec 6)) (v : List Dword) (h : s.readScalars codes = .ok (v, t)) :
    EcKept s t := by
  unfold readScalars at h
  dsimp only at h
  split at h
  · cases h
  · split at h
    · cases h
    · cases h
      exact foldl_keeps (EcKept s) _ (fun u q hu => hu.trans ((ecKept_setScalarQ u _ _).trans (ecKept_movePoison _ _ _))) _ s (EcKept.refl s)

theorem ecKept_readTiles (s t : State) (codes : List (BitVec 6)) (v : List Tile) (h : s.readTiles codes = .ok (v, t)) :
    EcKept s t := by
  unfold readTiles at h
  dsimp only at h
  split at h
  · cases h
  · split at h
    · cases h
    · split at h
      · cases h
      · cases h
        exact foldl_keeps (EcKept s) _ (fun u q hu => hu.trans ((ecKept_setTileQ u _ _).trans (ecKept_movePoison _ _ _))) _ s (EcKept.refl s)

/-- The issue of a word keeps what `EcKept` says. -/
theorem ecKept_eReady {β : Type} (s t : State) (w : EWord) (cost : Nat) (keys : List Nat) (dst : Option Nat)
    (ops : State → Try (β × State)) (b : β) (hops : ∀ s b t, ops s = .ok (b, t) → EcKept s t)
    (h : s.eReady w cost keys dst ops = .ok (b, t)) : EcKept s t := by
  unfold eReady at h
  dsimp only at h
  split at h
  · cases h
  · split at h
    · cases h
    · rename_i _ s1 hg
      refine (ecKept_atCycle s _).trans ((ecKept_of_calm (gate_calm _ _ _ _ _ hg)).trans ?_)
      unfold eTake1 at h
      split at h
      · cases h
      · rename_i _ s2 ht
        exact (ecKept_tokenWait _ _ _ _ ht).trans (hops _ _ _ h)

/-- A word that is ready runs its effect, then its timing and token are entered. -/
theorem eIssue_of_ready {β : Type} (s : State) (w : EWord) (cost occ lat : Nat) (keys : List Nat) (dst : Option Nat)
    (ops : State → Try (β × State)) (act : β → State → Try State) (b : β) (t : State)
    (h : s.eReady w cost keys dst ops = .ok (b, t)) :
    s.eIssue w cost occ lat keys dst ops act =
      match act b t with
      | .error e => .error e
      | .ok u => .ok (u.eDone w (s.tp.ec.issueAt keys dst) occ lat dst) := by
  unfold eIssue
  rw [h] <;> rfl

/-- Timing and token of a word leave the rest of the state. -/
theorem ecKept_eDone (s : State) (w : EWord) (n occ lat : Nat) (dst : Option Nat) : EcKept s (s.eDone w n occ lat dst) := by
  constructor <;> rfl

theorem eDone_w (s : State) (w : EWord) (n occ lat : Nat) (dst : Option Nat) :
    (s.eDone w n occ lat dst).tp.ec.w = s.tp.ec.w := rfl

end State
end Sys2Proof.Machine
end

