-- ==== Sys2Proof/Tests/Slice0.lean ====
section
/-!
SUPPORT. Tests of the model: terms that WellFormed refuses, the manual's example words with what they stand for, and for every
statement with hypotheses a state and operands that meet them.
-/
namespace Sys2Proof.Tests
open Sys2Proof Sys2Proof.Machine
set_option Elab.async false

/-! ## Words with every field zero, to be changed by `with` -/

def ew : EWord := ⟨0, 0, 0, 0, 0, 0, 0, 0, 0, 0, 0⟩
def bw : BWord := ⟨0, 0, 0, 0, 0, 0, 0, 0, 0, 0, 0, 0, 0, 0, 0, 0, 0, 0, 0, 0⟩
def kw : KWord := ⟨0, 0, 0, 0, 0, 0, 0, 0, 0, 0⟩

/-! ## WellFormed refuses -/

/-- Terms of the A stream that no encoding of R302 to R308 gives, one for each check. -/
theorem test_wellFormed_refuses_a : ∀ i ∈ [
    Instr.hld 0 0 1 7 5, .hamo 9 0 0 1 2 3, .hamo 0 3 0 1 2 3, .hamo 1 2 0 1 2 3, .hcas 0 3 2 1 4, .hcas 0 2 3 1 4,
    .hcas 0 2 2 1 5, .xfence 0 0 10, .efence 1, .tokp 1 1, .tokp 7 1, .tokp 2 0, .tokw 1 1, .tokw 2 0, .bari 0 1 5 6, .bara 0 1 5,
    .barw 0 1 5, .rv64gc (.full (.fma .madd .d 5 1 2 3 4)), .rv64gc (.full (.farith .add .s 6 1 2 3)),
    .rv64gc (.full (.fsqrt .s 5 1 2)), .rv64gc (.full (.fcvtInt .s .w 6 1 2)), .rv64gc (.full (.fcvtFrom .s .w 5 1 2)),
    .rv64gc (.full (.fcvtF .s 6 1 2)), .rv64gc (.comp (.addi4spn 0 0)), .rv64gc (.comp (.addiw 0 1)),
    .rv64gc (.comp (.addi16sp 0)), .rv64gc (.comp (.lui 2 1)), .rv64gc (.comp (.lui 3 0)), .rv64gc (.comp (.lwsp 0 1)),
    .rv64gc (.comp (.ldsp 0 1)), .rv64gc (.comp (.jr 0)), .rv64gc (.comp (.jalr 0)), .rv64gc (.comp (.mv 1 0)),
    .rv64gc (.comp (.add 1 0))], WellFormed.instr i = false := by decide +kernel

/-- Scalar, control, predicate and queue words that R312 to R316, R356, R398, R404 and R412 give no encoding. -/
theorem test_wellFormed_refuses_e : ∀ i ∈ [
    Instr.eNop { ew with d := 1 }, .eNop { ew with tkw := 2 }, .eNop { ew with tkp := 7 }, .eHalt { ew with pg := 1 },
    .eAdd { ew with fmt := 1 }, .eAdd { ew with d := 0x20 }, .eAdd { ew with a := 0x24 }, .eAdd { ew with c := 1 },
    .eAdd { ew with i := 1, b := 1 }, .eAdd { ew with imm := 1 }, .eLi { ew with d := 1 }, .eLi { ew with i := 1, b := 1 },
    .eSel { ew with imm := 1 }, .eSel { ew with c := 0x30 }, .eCmp { ew with d := 0x10 }, .eCmp { ew with imm := 0x0600 },
    .eBr { ew with i := 0 }, .eBr { ew with i := 1, d := 1 }, .eBrN { ew with i := 1, fmt := 1 }, .eJmp { ew with i := 1, d := 1 },
    .eJmp { ew with i := 1, pg := 1 }, .eJal { ew with d := 0x20, i := 1 }, .eJal { ew with a := 5, imm := 1 },
    .eLoop { ew with a := 5 }, .eLoop { ew with a := 5, i := 1, d := 1 }, .ePset { ew with d := 0x10, i := 1 },
    .ePset { ew with i := 1, imm := 2 }, .ePset { ew with i := 1, imm := 0x4401 }, .ePset { ew with i := 1, imm := 0x8041 },
    .ePset { ew with i := 1, imm := 0xC011 }, .ePlog { ew with imm := 0x0800 }, .ePlog { ew with a := 0x10 },
    .ePmov { ew with b := 1 }, .qin { ew with a := 0x24 }, .qout { ew with d := 0x24 }, .qout { ew with d := 0x20, a := 0x20 },
    .tokpE { ew with i := 1, imm := 0x12 }, .tokpE { ew with i := 1, imm := 0x03 }, .tokwE { ew with i := 1, imm := 0x113 },
    .trapE { ew with i := 1, imm := 0x20 }, .trapE { ew with i := 1, pn := 1 }], WellFormed.instr i = false := by decide +kernel

/-- Tile words that R312 to R314 and R433 give no encoding. -/
theorem test_wellFormed_refuses_tile : ∀ i ∈ [
    Instr.vadd { ew with fmt := 9 }, .vadd { ew with imm := 5 }, .vadd { ew with imm := 0x20 }, .vadd { ew with imm := 0x0100 },
    .vadd { ew with d := 0x20 }, .vadd { ew with a := 0x20 }, .vadd { ew with c := 1 }, .vadd { ew with i := 1, b := 1 },
    .vfma { ew with i := 1, c := 1 }, .vabs { ew with b := 1 }, .vabs { ew with i := 1 }, .vbit { ew with imm := 0x0800 },
    .vbit { ew with fmt := 9 }, .vshf { ew with fmt := 4 }, .vshf { ew with fmt := 8, imm := 0x0300 }, .vcmp { ew with imm := 0x0700 },
    .vcmp { ew with d := 0x10 }, .vsel { ew with c := 0x10 }, .vsel { ew with fmt := 9 }, .vmov { ew with imm := 1 },
    .vli { ew with fmt := 4 }, .vcvt { ew with imm := 0x0900 }, .vrotr { ew with fmt := 4 }, .vredr { ew with fmt := 5 },
    .vredr { ew with fmt := 8, imm := 1 }, .vxl { ew with fmt := 8, i := 1 }, .vcmpr { ew with fmt := 8, imm := 0x0200 },
    .vexp2 { ew with fmt := 5 }, .vpopc { ew with fmt := 4 }, .vqin { ew with a := 0x20 }, .vqout { ew with d := 0x20 },
    .vqout { ew with d := 0x24, imm := 0x10 }], WellFormed.instr i = false := by decide +kernel

/-- VQOUT takes a popped or peeked tile as its source (R312, R433). -/
theorem test_wellFormed_takes_vqout : ∀ a ∈ [(0x02 : BitVec 6), 0x24, 0x27, 0x2C, 0x2F],
    WellFormed.instr (.vqout { ew with d := 0x27, a := a }) = true := by decide +kernel

/-- Stage words that R134, R139, R140 and the entries of the B words give no encoding. -/
theorem test_wellFormed_refuses_b : ∀ i ∈ [
    Instr.bnop { bw with tin := 1 }, .bnop { bw with tkw := 1 }, .bstg { bw with str := 1, blk := 2 }, .bstg { bw with str := 6 },
    .bstg { bw with str := 4, ax := 1 }, .bstg { bw with lvl := 1, ax := 1 }, .bstg { bw with lvl := 1, str := 8 },
    .bstg { bw with lvl := 1, pos := 1 }, .bstg { bw with lvl := 1, tile := 1 }, .bstg { bw with tkp := 3 },
    .bstg { bw with tkw := 7 }, .bstg { bw with rnd := 5 }, .bstg { bw with acc := 1 }, .bstg { bw with semi := 1 },
    .bstg { bw with spm := 1 }, .bstg { bw with ifmt := 1 }, .bstg { bw with pos := 1, ifmt := 2 },
    .bstg { bw with pos := 2, tkw := 1 }, .bstg { bw with pos := 3, tkw := 1 }, .bstgAcc { bw with lvl := 1 },
    .bstgAcc { bw with pos := 1 }, .bdns { bw with str := 1 }, .bdnsAcc { bw with rnd := 1 }, .bstgAcc { bw with tout := 9 }, .bdnsAcc { bw with tout := 9 },
    .bsem bw, .bsem { bw with semi := 3, pos := 1, ifmt := 1 }, .bsemAcc bw, .bspa bw, .bspaAcc { bw with spm := 1, semi := 1 },
    .bprm { bw with twt := 1 }, .bprm { bw with woff := 4 }, .bprm { bw with woff := 1, str := 1 }, .bprm { bw with woff := 1, ax := 1 }, .bacc { bw with spm := 3 },
    .bacc { bw with spm := 2, tin := 1 }, .bout { bw with tin := 1 }, .bout { bw with rnd := 5 }, .bstr bw,
    .bstr { bw with lvl := 1, tile := 1 }, .bcbk { bw with tout := 1 }, .bloop { bw with lvl := 1, woff := 1 },
    .bloop { bw with str := 1 }, .bend { bw with woff := 1 }, .bhalt { bw with tile := 1 }, .tokpB { bw with woff := 0x13 },
    .tokwB { bw with woff := 0x01 }, .tokwB { bw with woff := 0x11, tkp := 1 }], WellFormed.instr i = false := by decide +kernel

/-- Chain entries that R319 to R321, R184 and the commands' entries give no encoding. -/
theorem test_wellFormed_refuses_k : ∀ i ∈ [
    Instr.knop { kw with count := 1 }, .knop { kw with ba := 1 }, .kend { kw with arg := 1 }, .kstop { kw with tkw := 7 },
    .kloop { kw with arg := 8 }, .kloop { kw with arg := 0x200000 }, .kjmp { kw with count := 1 }, .kif { kw with arg := 0x200000 },
    .kif { kw with cev := 1 }, .tokpChain { kw with arg := 0x10 }, .tokwChain { kw with arg := 0x17 },
    .baraChain kw, .baraChain { kw with ba := 1, ta := 1 }, .ccpy { kw with tc := 1 }, .ccpy { kw with bid := 1 },
    .ccpy { kw with tkw := 4 }, .ccpy { kw with arg := 0x5000000000000 }, .ccpy { kw with arg := 0x8000 },
    .cper { kw with arg := 0x800000000000 }, .cfil { kw with tb := 1 }, .cgrw { kw with arg := 0x1000000 }, .cmcp { kw with count := 1 },
    .cxps { kw with arg := 0x1000000 }, .igat { kw with arg := 0x100000000000000 }, .isct { kw with tkp := 5 },
    .isca { kw with arg := 0x100000000000000 }, .ihac { kw with arg := 0x2000000000000 }, .ihrd { kw with arg := 0x2000000000000 },
    .hprj { kw with count := 8 }, .hprj { kw with ta := 1 }, .hkey { kw with tc := 1 }, .hkey { kw with arg := 8 },
    .hgat { kw with tc := 1 }, .hgat { kw with arg := 0x10000000000 }, .hclr { kw with arg := 4 }, .hsts { kw with count := 1 },
    .hsts { kw with arg := 0x10 }, .hstsDrift kw, .msub { kw with count := 0x20 }, .msub { kw with tb := 1 },
    .mdec { kw with arg := 0x200000 }, .cmbl { kw with count := 8 }, .cmbl { kw with arg := 1 }, .cmsm { kw with arg := 1 },
    .cmsmDrift kw, .cmsmDrift { kw with arg := 0x10200000 }], WellFormed.instr i = false := by decide +kernel

/-! ## Decoding: the manual's example words -/

/-- Words of RISC-V (R302): from the RISC-V manual's encoding tables. -/
theorem test_decode_riscv : ∀ x ∈ [
    ((32, 0xFFF30293, .rv64gc (.full (.opImm .addi 5 6 0xFFF))) : Nat × Nat × Instr),  -- addi x5, x6, -1
    (32, 0x007302B3, .rv64gc (.full (.op .add 5 6 7))), (32, 0x407302B3, .rv64gc (.full (.op .sub 5 6 7))),
    (32, 0x027302B3, .rv64gc (.full (.op .mul 5 6 7))), (32, 0x123452B7, .rv64gc (.full (.lui 5 0x12345))),
    (32, 0x00833283, .rv64gc (.full (.load .ld 5 6 8))), (32, 0x00733423, .rv64gc (.full (.store .sd 6 7 8))),
    (32, 0x00730463, .rv64gc (.full (.br .beq 6 7 4))), (32, 0x008002EF, .rv64gc (.full (.jal 5 4))),
    (32, 0x00730053, .rv64gc (.full (.farith .add .s 0 0 6 7))), (32, 0x1003B2AF, .rv64gc (.full (.lr 1 0 5 7))),
    (16, 0x852E, .rv64gc (.comp (.mv 10 11))), (16, 0x9002, .rv64gc (.comp .ebreak)),
    (32, 0x10200073, .sret)], decodeTableWord x.1 x.2.1 = some x.2.2 := by decide +kernel

/-- Xenxis words: R379, R384, R387, R377, R386, R385, R402, R414, R420, R425, R365, R417, R423, R399, R409, R416, R372, R401, R430,
R422, R451, R375, R427, R344, R340, R345, R424, R428, R429, R421. -/
theorem test_decode_xenxis : ∀ x ∈ [
    ((0x0000328B, .hld 0 0 0 3 5) : Nat × Instr), (0x2064B42B, .hst 2 8 9 6 3), (0x2064F42B, .hstRl 2 8 9 6 3),
    (0x048C72DB, .hamo 0 1 2 6 7 5), (0x146382FB, .hcas 1 1 6 7 5), (0x3062907B, .xlat 3 5 6), (0x3200107B, .hrel 3),
    (0x240290FB, .ldq 2 5 1), (0x260291FB, .stq 2 5 3), (0x38C4927B, .tldq 3 9 12 0), (0x1AC013FB, .tstq 1 0 12 3),
    (0x0C0310FB, .qput 6 1), (0x0E0192FB, .qget 5 3), (0x0402D0FB, .ldqLocal 5 1), (0x0602D1FB, .stqLocal 5 3),
    (0x08C4D27B, .tldqLocal 9 12 0), (0x0AC4D3FB, .tstqLocal 9 12 3), (0x0803A07B, .chain .ce 7), (0x1062A07B, .renq 5 6),
    (0x2002A07B, .spawn 5), (0x3006207B, .join 12), (0x4002A07B, .park 5), (0x5062A07B, .region 5 6), (0x6000207B, .commit),
    (0x7062A57B, .launch 10 5 6), (0x8002A07B, .trig 5), (0x9000207B, .tend), (0x0815307B, .xfence 2 1 5),
    (0x8207307B, .xfence 32 32 7), (0x300030FB, .efence 0xC), (0x8200317B, .tokp 4 1), (0x640031FB, .tokw 3 2),
    (0x0062B27B, .bari 0 0 5 6), (0x0002B2FB, .bara 0 0 5), (0x2802B37B, .barw 1 2 5), (0x0062C07B, .tidset 5 6),
    (0x0262C07B, .tidget 5 6), (0x0430407B, .trap 3), (0x0605407B, .tret 10), (0x0802C07B, .svcw 5)],
    decodeTableWord 32 x.1 = some x.2 := by decide +kernel

/-- Scalar, control, predicate, queue and token words of the E stream (R312 to R316 and the entries of the words). -/
theorem test_decode_enxis : ∀ x ∈ [
    ((0x0000000000300000, .eNop { ew with tkw := 3 }) : Nat × Instr), (0x010006084000_0000, .eAdd { ew with d := 3, a := 1, b := 2 }),
    (0x020006084000_0000, .eSub { ew with d := 3, a := 1, b := 2 }), (0x0300080800010018, .eMul { ew with d := 4, a := 1, i := 1, imm := 24 }),
    (0x04000900000100FF, .eAnd { ew with d := 4, a := 0x20, i := 1, imm := 0xFF }), (0x0500020840000000, .eOr { ew with d := 1, a := 1, b := 2 }),
    (0x060008200001FFFF, .eXor { ew with d := 4, a := 4, i := 1, imm := 0xFFFF }),
    (0x07000A0800010004, .eShl { ew with d := 5, a := 1, i := 1, imm := 4 }), (0x08000C30E0000000, .eShr { ew with d := 6, a := 6, b := 7 }),
    (0x09000A280001003F, .eSra { ew with d := 5, a := 5, i := 1, imm := 63 }), (0x0A00041000010000, .eMin { ew with d := 2, a := 2, i := 1 }),
    (0x0B000C30E0000000, .eMax { ew with d := 6, a := 6, b := 7 }), (0x0C00020800018000, .eLi { ew with d := 1, a := 1, i := 1, imm := 0x8000 }),
    (0x0D00080841800000, .eSel { ew with d := 4, a := 1, b := 2, c := 3 }),
    (0x0E00040840000200, .eCmp { ew with d := 2, a := 1, b := 2, imm := 0x200 }), (0x1003000000010005, .eBr { ew with pg := 3, i := 1, imm := 5 }),
    (0x1103800000010005, .eBrN { ew with pg := 3, pn := 1, i := 1, imm := 5 }), (0x1200000000010004, .eJmp { ew with i := 1, imm := 4 }),
    (0x13003E2800000000, .eJal { ew with d := 31, a := 5 }), (0x1410002800010003, .eLoop { ew with fmt := 1, a := 5, i := 1, imm := 3 }),
    (0x1500000000020000, .eHalt { ew with tkp := 1 }), (0x2000020000018008, .ePset { ew with d := 1, i := 1, imm := 0x8008 }),
    (0x2100060840000200, .ePlog { ew with d := 3, a := 1, b := 2, imm := 0x200 }), (0x2200084800000000, .ePmov { ew with d := 4, a := 9 }),
    (0xC000070000000000, .qin { ew with d := 3, a := 0x20 }), (0xC100462800000000, .qout { ew with d := 0x23, a := 5 }),
    (0xC200036000000000, .vqin { ew with d := 1, a := 0x2C }), (0xC3004E1000000000, .vqout { ew with d := 0x27, a := 2 }),
    (0xC400000000010014, .tokpE { ew with i := 1, imm := 0x14 }), (0xC500000000010023, .tokwE { ew with i := 1, imm := 0x23 }),
    (0xC600000000010005, .trapE { ew with i := 1, imm := 5 })], decodeTableWord 64 x.1 = some x.2 := by decide +kernel

/-- Tile words (R431 to R450 and their entries). -/
theorem test_decode_tile : ∀ x ∈ [
    ((0x40430A0840000010, .vadd { ew with fmt := 4, pg := 3, d := 5, a := 1, b := 2, imm := 0x10 }) : Nat × Instr),
    (0x4150060840000000, .vsub { ew with fmt := 5, d := 3, a := 1, b := 2 }), (0x4270104120000008, .vmul { ew with fmt := 7, d := 8, a := 8, b := 9, imm := 8 }),
    (0x4340080841800000, .vfma { ew with fmt := 4, d := 4, a := 1, b := 2, c := 3 }),
    (0x4340080840013F80, .vfma { ew with fmt := 4, d := 4, a := 1, b := 2, i := 1, imm := 0x3F80 }),
    (0x4410020840000000, .vmin { ew with fmt := 1, d := 1, a := 1, b := 2 }), (0x4580060840000000, .vmax { ew with fmt := 8, d := 3, a := 1, b := 2 }),
    (0x4640041800000000, .vabs { ew with fmt := 4, d := 2, a := 3 }), (0x4750041000000008, .vneg { ew with fmt := 5, d := 2, a := 2, imm := 8 }),
    (0x48A0060840000000, .vbit { ew with fmt := 10, d := 3, a := 1, b := 2 }), (0x498004080001FFFD, .vshf { ew with fmt := 8, d := 2, a := 1, i := 1, imm := 0xFFFD }),
    (0x4A40080840000200, .vcmp { ew with fmt := 4, d := 4, a := 1, b := 2, imm := 0x200 }),
    (0x4B400C0842000000, .vsel { ew with fmt := 4, d := 6, a := 1, b := 2, c := 4 }), (0x4CA00C1800000000, .vmov { ew with fmt := 10, d := 6, a := 3 }),
    (0x4D00060000013840, .vli { ew with d := 3, i := 1, imm := 0x3840 }), (0x4E80040800000401, .vcvt { ew with fmt := 8, d := 2, a := 1, imm := 0x401 }),
    (0x8080040800010001, .vrotr { ew with fmt := 8, d := 2, a := 1, i := 1, imm := 1 }),
    (0x8180040800010001, .vrotc { ew with fmt := 8, d := 2, a := 1, i := 1, imm := 1 }),
    (0x82800A20C0000000, .vbcr { ew with fmt := 8, d := 5, a := 4, b := 6 }), (0x83800A20C0000000, .vbcc { ew with fmt := 8, d := 5, a := 4, b := 6 }),
    (0x8480124000000000, .vredr { ew with fmt := 8, d := 9, a := 8 }), (0x8540124000000000, .vredc { ew with fmt := 4, d := 9, a := 8 }),
    (0x8640144800000000, .vscnr { ew with fmt := 4, d := 10, a := 9 }), (0x8780144800000000, .vscnc { ew with fmt := 8, d := 10, a := 9 }),
    (0x8880060840000000, .vxl { ew with fmt := 8, d := 3, a := 1, b := 2 }), (0xA040060800000000, .vexp2 { ew with fmt := 4, d := 3, a := 1 }),
    (0xA130081800000000, .vlog2 { ew with fmt := 3, d := 4, a := 3 }), (0xA240081800000000, .vrcp { ew with fmt := 4, d := 4, a := 3 }),
    (0xA340081800000000, .vrsq { ew with fmt := 4, d := 4, a := 3 }), (0xA400081800000008, .vsig { ew with d := 4, a := 3, imm := 8 }),
    (0xB0A00A2000000000, .vpopc { ew with fmt := 10, d := 5, a := 4 }), (0xB180061000000000, .vclz { ew with fmt := 8, d := 3, a := 2 }),
    (0xB2800C0840000000, .visect { ew with fmt := 8, d := 6, a := 1, b := 2 }),
    (0xB3800E0840000100, .vcmpr { ew with fmt := 8, d := 7, a := 1, b := 2, imm := 0x100 }),
    (0xB480103840000000, .vexpd { ew with fmt := 8, d := 8, a := 7, b := 2 })], decodeTableWord 64 x.1 = some x.2 := by decide +kernel

/-- Stage words (R133, R134 and their entries). -/
theorem test_decode_stage : ∀ x ∈ [
    ((0, .bnop bw) : Nat × Instr), (0x1005060908C0000000000000, .bstg { bw with tin := 5, twt := 6, tout := 9, str := 2, blk := 1, ax := 1 }),
    (0x100506098800000000000000, .bstg { bw with tin := 5, twt := 6, tout := 9, lvl := 1, str := 2 }),
    (0x110506000800010000000000, .bstgAcc { bw with tin := 5, twt := 6, str := 2, acc := 1 }),
    (0x120506070000000000000000, .bdns { bw with tin := 5, twt := 6, tout := 7 }),
    (0x130506000000018000030000, .bdnsAcc { bw with tin := 5, twt := 6, acc := 1, aov := 1, tile := 3 }),
    (0x140506090000040000000000, .bsem { bw with tin := 5, twt := 6, tout := 9, semi := 1 }),
    (0x150506000000060000000000, .bsemAcc { bw with tin := 5, twt := 6, semi := 1, acc := 2 }),
    (0x160506090000006000000000, .bspa { bw with tin := 5, twt := 6, tout := 9, spm := 3 }),
    (0x170506000000012000000000, .bspaAcc { bw with tin := 5, twt := 6, spm := 1, acc := 1 }),
    (0x180500090000000000000001, .bprm { bw with tin := 5, tout := 9, woff := 1 }),
    (0x200500000000020000010000, .bacc { bw with tin := 5, acc := 2, tile := 1 }),
    (0x200000000000044000000000, .bacc { bw with semi := 1, spm := 2 }), (0x210000090000018000020000, .bout { bw with tout := 9, acc := 1, aov := 1, tile := 2 }),
    (0x280000008C00000000000010, .bstr { bw with lvl := 1, str := 3, woff := 16 }), (0x280000008000001000000000, .bstr { bw with lvl := 1, tkw := 4 }),
    (0x290C00000000020000010000, .bcbk { bw with tin := 12, acc := 2, tile := 1 }), (0x300000000000000000010004, .bloop { bw with tile := 1, woff := 4 }),
    (0x310000000000000000000000, .bend bw), (0x380000000000000000000014, .tokpB { bw with woff := 0x14 }),
    (0x390000000000000000000021, .tokwB { bw with woff := 0x21 }), (0x3F0000000000000000000000, .bhalt bw)],
    decodeTableWord 96 x.1 = some x.2 := by decide +kernel

/-- Chain entries (R319, R320 and their entries). -/
theorem test_decode_chain : ∀ x ∈ [
    ((0, .knop kw) : Nat × Instr), (0x01000000000000020000000000080020, .kloop { kw with count := 2, arg := 0x80020 }),
    (0x02000000000000000000000000000000, .kend kw), (0x03000000000000000000000000080000, .kjmp { kw with arg := 0x80000 }),
    (0x04000000000000000008010000080040, .kif { kw with arg := 0x8010000080040 }), (0x05000000000000000000000000000000, .kstop kw),
    (0x08000000000000000000000000000013, .tokpChain { kw with arg := 0x13 }), (0x09000000000000000000000000000013, .tokwChain { kw with arg := 0x13 }),
    (0x0A021400000000000000000000000000, .baraChain { kw with ba := 1, bid := 20 }),
    (0x20000009080000010009000400000000, .ccpy { kw with ta := 9, tb := 8, count := 1, arg := 0x0009000400000000 }),
    (0x21000009050A00100000000000000000, .cgrw { kw with ta := 9, tb := 5, tc := 10, count := 16 }),
    (0x22000015140000000000000400010003, .cmcp { kw with ta := 21, tb := 20, arg := 0x0000000400010003 }),
    (0x2300001E090000010000000000000000, .cper { kw with ta := 30, tb := 9, count := 1 }),
    (0x240000090000000100000000_3F800000, .cfil { kw with ta := 9, count := 1, arg := 0x3F800000 }),
    (0x25000009050000010000000000000000, .cxps { kw with ta := 9, tb := 5, count := 1 }),
    (0x40000009050A00100000000200000000, .igat { kw with ta := 9, tb := 5, tc := 10, count := 16, arg := 0x200000000 }),
    (0x41000009050A00100000000200000000, .isct { kw with ta := 9, tb := 5, tc := 10, count := 16, arg := 0x200000000 }),
    (0x4200001E050A01005000000000000000, .isca { kw with ta := 30, tb := 5, tc := 10, count := 256, arg := 0x5000000000000000 }),
    (0x43000014151600040010804000000000, .ihac { kw with ta := 20, tb := 21, tc := 22, count := 4, arg := 0x0010804000000000 }),
    (0x44000014171800100080804080000000, .ihrd { kw with ta := 20, tb := 23, tc := 24, count := 16, arg := 0x0080804080000000 }),
    (0x60000000000000050000000200001000, .hprj { kw with count := 5, arg := 0x200001000 }),
    (0x6100000A0B0000100000008000020000, .hkey { kw with ta := 10, tb := 11, count := 16, arg := 0x8000020000 }),
    (0x6208000C0D0000000E0F10C000000064, .hgat { kw with tkp := 2, ta := 12, tb := 13, arg := 0x0E0F10C000000064 }),
    (0x63000000000000000000000000000002, .hclr { kw with arg := 2 }), (0x64000000000000000008010000000000, .hsts { kw with arg := 0x8010000000000 }),
    (0x64000000000000003E80000000000011, .hstsDrift { kw with arg := 0x3E80000000000011 }),
    (0x70000028000000050000000A0000F000, .msub { kw with ta := 40, count := 5, arg := 0xA0000F000 }),
    (0x71000000000000050000000A00080300, .mdec { kw with count := 5, arg := 0xA00080300 }),
    (0x72000000000000130000000A00000000, .cmbl { kw with count := 0x13, arg := 0xA00000000 }),
    (0x73000000000000020000000A00000000, .cmsm { kw with count := 2, arg := 0xA00000000 }),
    (0x73000000000000020000000A10080400, .cmsmDrift { kw with count := 2, arg := 0xA10080400 })],
    decodeTableWord 128 x.1 = some x.2 := by decide +kernel

/-- Encodings that R322 refuses: the zero halfword, funct3 6 of custom-3, TOKP with N = 0, a reserved OP of each kind. -/
theorem test_decode_refuses : decodeTableWord 16 0 = none ∧ decodeTableWord 32 0x0000607B = none ∧ decodeTableWord 32 0x8000317B = none ∧
    decodeTableWord 64 0x1600000000000000 = none ∧ decodeTableWord 96 0x190000000000000000000000 = none ∧
    decodeTableWord 128 0x06000000000000000000000000000000 = none := by decide +kernel

/-! ## Witnesses: states and operands that meet the hypotheses of the statements -/

/-- What is true of a result, for an operation that gives one. -/
def okAnd {α : Type} (x : Try α) (f : α → Bool) : Bool :=
  match x with
  | .ok a => f a
  | .error _ => false

theorem of_okAnd {α : Type} {x : Try α} {f : α → Bool} (h : okAnd x f = true) : ∃ a, x = .ok a ∧ f a = true := by
  cases x with
  | ok a => exact ⟨a, rfl, h⟩
  | error e => cases h

/-- The conditions of `InBank` and of `State.Untracked` as tests. -/
def inBankB (s : State) (a n : Nat) : Bool := a < 0x200000 && a / 0x10000 == (a + n - 1) / 0x10000 && s.tp.usable a n
def untrackedB (s : State) (p n : Nat) : Bool := (linesOf p n).all (fun l => !s.isTracked (frameOf (l * 128)))

theorem inBank_of {s : State} {a n : Nat} (h : inBankB s a n = true) : InBank s a n := by
  simp only [inBankB, Bool.and_eq_true, decide_eq_true_eq, beq_iff_eq] at h
  exact ⟨h.1.1, h.1.2, h.2⟩

theorem untracked_of {s : State} {p n : Nat} (h : untrackedB s p n = true) : s.Untracked p n := by
  intro l hl
  simpa using List.all_eq_true.mp h l hl

/-- A task of context 0 runs on TP 0, past its commit point. -/
def s0 : State := State.reset.ready []
/-- The same, replayable. -/
def sr : State := s0.setAc { s0.tp.ac with phase := .replay }
/-- In service code. -/
def sv : State := s0.setAc { s0.tp.ac with sup := true }
/-- The page of space 0 that `s0` has in its TLB, and handle 0 on it. -/
def page0 : Page := { va := 0x10000, size := 0x10000, place := 0x10000, r := true, w := true, x := true }
def sh : State := s0.setHandle 0 { st := .valid, space := 0, va := 0x10000, scope := 1, page := page0 }
def shr : State := sh.setAc { sh.tp.ac with phase := .replay }

theorem wit_RvWindowAccesses :
    let s := (s0.setX 6 0x8FFF8).setX 7 5
    (InBank s (s.ea 6 0) 8 ∧ s.tp.bankPoisoned (s.ea 6 0) 8 = false) ∧ InBank s (s.ea 6 0) (rvStore .sd) ∧
    (let t := s.setX 6 0x8FFFC
     t.ea 6 0 < 0x200000 ∧ t.ea 6 0 / 0x10000 ≠ (t.ea 6 0 + (rvLoad .ld).1 - 1) / 0x10000) ∧
    (let t := s.setX 6 0x1FFF8
     t.ea 6 0 < 0x200000 ∧ t.ea 6 0 / 0x10000 = (t.ea 6 0 + (rvLoad .ld).1 - 1) / 0x10000 ∧ t.tp.usable (t.ea 6 0) 8 = false) ∧
    (InBank s (s.getX 6).toNat (amoBytes 1) ∧ (s.getX 6).toNat % amoBytes 1 = 0 ∧
      s.tp.bankPoisoned (s.getX 6).toNat (amoBytes 1) = false ∧ s.tp.ac.resv ≠ some ((s.getX 6).toNat, amoBytes 1)) ∧
    (let t := s.setAc { s.tp.ac with resv := some (0x8FFF8, 8) }
     InBank t (t.getX 6).toNat (amoBytes 1) ∧ t.tp.ac.resv = some ((t.getX 6).toNat, amoBytes 1)) ∧
    (∀ x ∈ s.tp.bankStale, x.within (unitOfAgent s.turn.agent) 0x80000 8 = false) ∧
    (let x : Stale := ⟨1, 0x10000, [1, 2, 3, 4, 5, 6, 7, 8]⟩
     let t := { s with turn := ⟨0, .ac, 0⟩, tp := { s.tp with bankStale := [x] } }
     t.tp.bankStale = [x] ∧ x.within (unitOfAgent t.turn.agent) 0x80000 8 = true ∧ x.bytes.length = 8) :=
  ⟨⟨inBank_of (by decide +kernel), by decide +kernel⟩, inBank_of (by decide +kernel), by decide +kernel, by decide +kernel,
    ⟨inBank_of (by decide +kernel), by decide +kernel, by decide +kernel, by decide +kernel⟩, ⟨inBank_of (by decide +kernel),
    by decide +kernel⟩, by decide +kernel, by decide +kernel⟩

theorem wit_RvCompressedWords :
    (∃ t, s0.runRv 4 (expand (.mv 10 11)) = .ok t) ∧ expand (.mv 10 11) = .op .add 10 0 11 ∧
    (∃ rd off, expand (.j 4) = .jal rd off) ∧ (∃ rd rs1 imm, expand (.jalr 5) = .jalr rd rs1 imm) ∧
    (∃ o rs1 rs2 off, expand (.bnez 1 4) = .br o rs1 rs2 off) :=
  ⟨⟨_, rfl⟩, rfl, ⟨_, _, rfl⟩, ⟨_, _, _, rfl⟩, ⟨_, _, _, _, rfl⟩⟩

theorem wit_RvFloatAndCsrWords : rounding 1 = .ok .rtz ∧ rounding 4 = .ok .rna ∧ sv.tp.ac.sup = true ∧ s0.tp.ac.sup = false :=
  ⟨rfl, rfl, rfl, rfl⟩

theorem wit_HldLoadsThroughHandle :
    (∃ r, sh.handleLoad 0 (sh.handleOff 0 8) 8 = .ok r) ∧
    (∃ p, sh.handlePiece 0 (sh.handleOff 0 8) 8 1 = .ok p ∧ (sh.tp.ac.phase != .replay && sh.tp.ac.cbufAt == [] &&
      sh.tp.cache == [] && !p.zero && inHbm p.place && !sh.unreadable p.place 8) = true) ∧
    (let s := s0.setHandle 0 { st := .valid, space := 0, va := 0x10000, scope := 1, page := { page0 with d := true } }
     ∃ p, s.handlePiece 0 (s.handleOff 0 8) 8 1 = .ok p ∧ (s.tp.ac.phase != .replay && p.zero) = true) :=
  ⟨⟨_, (of_okAnd (f := fun _ => true) (by decide +kernel)).choose_spec.1⟩, of_okAnd (by decide +kernel), of_okAnd (by decide +kernel)⟩

theorem wit_HstStoresThroughHandle :
    (∃ p, sh.handlePiece 0 (sh.handleOff 0 8) (2 ^ (3 : BitVec 2).toNat) 2 = .ok p ∧
      (sh.portOpen sh.task.ctx p.place p.space && sh.weak == [] && sh.tp.ac.phase != .replay && p.place % 8 + 8 ≤ 8 &&
        untrackedB (sh.beforeStore [(p.place, leBytes 8 0)]) p.place 8) = true) ∧
    (∃ p, sh.handlePiece 0 (sh.handleOff 0 7) (2 ^ (1 : BitVec 2).toNat) 2 = .ok p ∧
      (sh.portOpen sh.task.ctx p.place p.space && sh.tp.ac.phase != .replay && 8 < p.place % 8 + 2) = true) ∧
    (∃ p, shr.handlePiece 0 (shr.handleOff 0 8) (2 ^ (3 : BitVec 2).toNat) 2 = .ok p ∧
      (shr.portOpen shr.task.ctx p.place p.space && shr.tp.ac.phase == .replay && !shr.tp.ac.storeOver [p]) = true) :=
  ⟨of_okAnd (by decide +kernel), of_okAnd (by decide +kernel), of_okAnd (by decide +kernel)⟩

/-- A place where an atomic of `n` bytes of handle 0 completes, at its home when its scope is wide. -/
def atomicHere (s : State) (n : Nat) (wide : Bool) (p : Piece) : Bool :=
  inHbm p.place && okAnd (s.sendNonPosted s.task.ctx p.place p.space) (fun t =>
    !s.unreadable p.place n && (5 ≤ atomicScope (s.getHandle 0).scope p.place) == wide &&
    untrackedB (t.beforeAtomic (atomicScope (s.getHandle 0).scope p.place) p.place n) p.place n)

/-- Handle 0 at device scope. -/
def shw : State := sh.setHandle 0 { sh.getHandle 0 with scope := 5 }

theorem wit_HamoUpdatesMemory : ∀ x ∈ [(sh, false), (shw, true)], let s := x.1.setX 7 0xFFF8
    s.tp.ac.phase ≠ .replay ∧ (((s.getHandle 0).va + (s.getX 7).toNat) % 2 ^ 64) % 8 = 0 ∧
    okAnd (s.handlePiece 0 (s.getX 7) 8 4) (atomicHere s 8 x.2) = true := by decide +kernel

theorem wit_HcasComparesAndSwaps : ∀ x ∈ [(sh, false), (shw, true)], ∀ n ∈ [4, 8, 16], let s := x.1.setX 7 0xFFF0
    s.tp.ac.phase ≠ .replay ∧ (((s.getHandle 0).va + (s.getX 7).toNat) % 2 ^ 64) % n = 0 ∧
    okAnd (s.handlePiece 0 (s.getX 7) n 4) (atomicHere s n x.2) = true ∧
    okAnd (s.handlePiece 0 (s.getX 7) n 4) (fun p => Memory.read (s.view s.cur 1) p.place n == 0) = true := by decide +kernel

theorem wit_XlatAndHrelSetHandle :
    (∀ x ∈ [0x012, 0xA00], let s := s0.setX 6 (BitVec.ofNat 64 x)
      18 ≤ bits (s.getX 6).toNat 0 8 ∨ 10 ≤ bits (s.getX 6).toNat 8 4) ∧
    (∀ x ∈ [0x902, 0x011], let s := s0.setX 6 (BitVec.ofNat 64 x)
      2 ≤ bits (s.getX 6).toNat 0 8 ∧ bits (s.getX 6).toNat 0 8 < 18 ∧ bits (s.getX 6).toNat 8 4 < 10) ∧
    (∀ x ∈ [0x000, 0x901], let s := s0.setX 6 (BitVec.ofNat 64 x)
      bits (s.getX 6).toNat 0 8 < 2 ∧ bits (s.getX 6).toNat 8 4 < 10) ∧
    (s0.tp.tlbFind s0.task.ctx 0 0x10000).isSome = true ∧ (s0.tp.tlbFind s0.task.ctx 0 0x20000).isSome = false := by decide +kernel

theorem wit_ScalarQueueWords :
    (s0.eToA 0 = false ∧ (s0.scalarQ 0).length < 16) ∧
    (let s := s0.setScalarQ 0 (List.replicate 16 1)
     s.eToA 0 = false ∧ 16 ≤ (s.scalarQ 0).length) ∧
    s0.eToA 3 = true ∧
    (let s := s0.setScalarQ 3 [7, 8]
     s.eToA 3 = true ∧ s.scalarQ 3 = [7, 8] ∧ okAnd (s.queueOk 3 1) (fun _ => true) = true) ∧
    s0.scalarQ 3 = [] ∧ (∃ r, sh.handleLoad 0 (sh.getX 5) 8 = .ok r ∧ ((sh.scalarQ 0).length < 16 : Bool) = true) ∧
    ∃ v, (s0.setX 5 0x80000).windowLoad ((s0.setX 5 0x80000).getX 5).toNat 8 = .ok v ∧ true = true :=
  ⟨by decide +kernel, by decide +kernel, by decide +kernel, by decide +kernel, by decide +kernel, of_okAnd (by decide +kernel),
    of_okAnd (by decide +kernel)⟩

theorem wit_StqStoresHead : let s := (sh.setScalarQ 3 [7, 8]).setX 5 0x80000
    s.eToA 3 = true ∧ s.scalarQ 3 = [7, 8] ∧ okAnd (s.queueOk 3 1) (fun _ => true) = true ∧ s.tp.ac.heldScalar = none ∧
    (∃ p, s.handlePiece 0 (s.getX 0) 8 2 = .ok p ∧
      (s.portOpen s.task.ctx p.place p.space && p.place % 8 == 0 && untrackedB (s.beforeStore [(p.place, leBytes 8 7)]) p.place 8 &&
        s.tp.ac.phase != .replay) = true) ∧
    (∃ p, s.handlePiece 0 3 8 2 = .ok p ∧ (s.portOpen s.task.ctx p.place p.space && p.place % 8 == 3) = true) ∧
    InBank s (s.getX 5).toNat 8 :=
  ⟨by decide +kernel, by decide +kernel, by decide +kernel, by decide +kernel, of_okAnd (by decide +kernel),
    of_okAnd (by decide +kernel), inBank_of (by decide +kernel)⟩

/-- A tile transfer that has moved 15 rows: the step that moves the last one. -/
def srow (s : State) : State := (s.setX 6 256).setAc { (s.setX 6 256).tp.ac with rows := List.replicate 15 [] }

theorem wit_TileQueueWords :
    (let s := srow (sh.setHandle 0 { sh.getHandle 0 with page := { page0 with d := true } })
     s.eToA 4 = false ∧ s.tp.ac.rows.length < 16 ∧ s.rowCount.1 = 1 ∧
     (∃ u, State.loadRow 0 (s.getX 0) (s.getX 6) s 15 = .ok u ∧ ((u.tileQ 4).length < 4 : Bool) = true) ∧
     ∃ p, s.handlePiece 0 (s.getX 0 + BitVec.ofNat 64 15 * s.getX 6) 256 1 = .ok p ∧ okAnd (s.loadPieces [p]) (fun _ => true) = true) ∧
    (let s := (s0.setX 5 0x80000).setX 6 256
     s.eToA 4 = false ∧ (s.tileQ 4).length < 4 ∧ okAnd (s.localCheck (s.getX 5) (s.getX 6)) (fun _ => true) = true ∧
     ∃ bs, s.localRows (s.getX 5) (s.getX 6) = .ok bs ∧ true = true) ∧
    (let s := (srow (sh.setX 5 0x8F000)).setTileQ 7 [[(0, 5)]]
     s.eToA 7 = true ∧ s.tileQ 7 = [[(0, 5)]] ∧ okAnd (s.queueOk 7 1) (fun _ => true) = true ∧ s.tp.ac.heldTile = none ∧
     s.tp.ac.phase ≠ .replay ∧ InBank s (s.getX 5).toNat 4096 ∧ s.getX 6 = 256 ∧
     (∃ p, s.handlePiece 0 (s.getX 0 + BitVec.ofNat 64 15 * s.getX 6) 256 2 = .ok p ∧ s.portOpen s.task.ctx p.place p.space = true) ∧
     (let s1 := ((s.setTileQ 7 []).movePoison 7 1).setAc { s.tp.ac with heldTile := some [(0, 5)] }
      s1.tp.ac.rows.length + s1.rowCount.1 = 16 ∧ ∃ u, State.storeRow 0 (s.getX 0) (s.getX 6) s1 15 = .ok u ∧ true = true)) :=
  ⟨⟨by decide +kernel, by decide +kernel, by decide +kernel, of_okAnd (by decide +kernel), of_okAnd (by decide +kernel)⟩,
    ⟨by decide +kernel, by decide +kernel, by decide +kernel, of_okAnd (by decide +kernel)⟩,
    by decide +kernel, by decide +kernel, by decide +kernel, by decide +kernel, by decide +kernel, inBank_of (by decide +kernel),
    by decide +kernel, of_okAnd (by decide +kernel), by decide +kernel, of_okAnd (by decide +kernel)⟩

theorem wit_ChainAndRenqSendEntries :
    (∀ a ∈ [0x80000, 0x1FFFF0], let s := s0.setX 5 (BitVec.ofNat 64 a)
      (s.getX 5).toNat < 0x200000 ∧ (s.getX 5).toNat % 16 = 0 ∧ s.tp.usable (s.getX 5).toNat 16 = true ∧ (s.eng .ce).heads.length < 4) ∧
    (let s := s0.setEng .ce { s0.eng .ce with heads := List.replicate 4 (0x80000, 1) }
     4 ≤ (s.eng .ce).heads.length) ∧
    (∀ a ∈ [0x200000, 0x80008, 0], let s := s0.setX 5 (BitVec.ofNat 64 a)
      0x200000 ≤ (s.getX 5).toNat ∨ (s.getX 5).toNat % 16 ≠ 0 ∨ s.tp.usable (s.getX 5).toNat 16 = false) ∧
    (∀ d ∈ [0x40100, 0x61000], let s := (s0.setX 5 0x80000).setX 6 (BitVec.ofNat 64 d)
      let n := bits d 8 8
      let u := if d = 0x40100 then ChainUnit.ce else .he
      s.tp.ac.phase ≠ .replay ∧ 0 < n ∧ n ≤ 16 ∧ inBankB s 0x80000 (16 * n) = true ∧ ChainUnit.ofCode (bits d 16 3) = some u ∧
        s.tp.bankPoisoned 0x80000 (16 * n) = false ∧ s.inService (bits d 0 7) = true ∧ ((s.getTp (bits d 0 7)).chainOf u).blocks.length < 8) := by decide +kernel

/-- A pile of class 0 bound to context 0. -/
def sp : State := { s0 with tp := { s0.tp with bulk := { ctx := some 0 } } }

theorem wit_SpawnAndRegion :
    (∀ s ∈ [sr.setX 5 0x8FFE0, sp.setX 5 0x8FFE0], inBankB s (s.getX 5).toNat 32 = true ∧
      s.tp.bankPoisoned (s.getX 5).toNat 32 = false ∧ (s.getX 5).toNat % 32 = 0 ∧
      (Pawn.ofBytes (s.shownBank (s.getX 5).toNat 32)).clean = true) ∧
    sr.tp.ac.phase = .replay ∧
    (sp.tp.ac.phase ≠ .replay ∧ sp.tp.ac.decls = [] ∧ sp.serialStands (dieOf sp.cur) sp.task.entry.launchKey sp.nextRegion = false ∧
      (sp.tp.pile sp.task.entry.pawn.cls).ctx = some sp.task.entry.ctx ∧ (sp.tp.pile sp.task.entry.pawn.cls).chip.length < 64) ∧
    (let s := ((s0.setX 5 0x80000).setX 6 1).writeBank 0x80008 [4, 0, 0, 0, 8, 0, 0, 0, 2]
     (s.getX 6).toNat = 1 ∧ inBankB s (s.getX 5).toNat 32 = true ∧ s.tp.bankPoisoned (s.getX 5).toNat 32 = false ∧
     (List.range 1).map (fun i => Decl.ofBytes (((s.shownBank (s.getX 5).toNat (32 * 1)).drop (32 * i)).take 32)) =
       [(⟨0, 8, 4, 2, false⟩ : Decl)].map some) := by decide +kernel

theorem wit_CommitPerformsOrAborts :
    s0.tp.ac.phase ≠ .replay ∧
    (let s := sr.setAc { sr.tp.ac with cbuf := [(0x10000, 5)], cbufAt := [0x10000], readSet := [(512, 0)] }
     s.tp.ac.phase = .replay ∧ s.readsValid = true ∧ s.tp.ac.heldSpawns = [] ∧ s.tp.ac.heldBaris = [] ∧ s.weak = [] ∧
     (s.tp.ac.cbufAt ++ (s.tp.ac.heldBaris.filter (fun h => h.global)).map (fun h => h.place)).all
       (fun p => s.portOpen s.task.ctx p (s.tp.ac.bufSpace p)) = true ∧
     s.tp.ac.cbufAt.all (fun p => untrackedB (s.beforeStore s.tp.ac.buffered) p 1) = true) ∧
    (let s : State := { sr.setAc { sr.tp.ac with cbuf := [(peerBase, 5)], cbufAt := [peerBase] } with
       mod := { sr.mod with pst := 3 } }
     s.tp.ac.phase = .replay ∧ s.readsValid = true ∧ s.tp.ac.cbufAt.all (fun p => s.portOpen s.task.ctx p (s.tp.ac.bufSpace p)) = false) ∧
    (let s := sr.setAc { sr.tp.ac with readSet := [(512, 3)] }
     s.tp.ac.phase = .replay ∧ s.readsValid = false) := by decide +kernel

/-- Nothing of the task is on the way, or a command of the CE that its trailer waits for. -/
def sj : State := s0.setX 12 0x10000
def sjb : State := (sj.changeTask 1 (fun k => { k with hdr := [0, 0, 0, 0, 8, 0, 0, 0] })).setEng .ce
  { sj.eng .ce with infl := [{ entry := 0x24#128 <<< 120, addr := 0, task := 1 }] }

theorem wit_JoinDecrementsCount :
    (∀ s ∈ [sj, sjb, { sj with mem := [(0x10000, 2)] }], s.tp.ac.phase ≠ .replay ∧ (s.getX 12).toNat % 16 = 0 ∧
      okAnd (s.pieces true s.task.ctx 0 4 17 (s.getX 12).toNat 16) (fun r => match r.1 with
        | p :: _ => okAnd (((r.2.unmarked.drain (fun w => w.tp == s.cur && w.agent < 8 &&
            bitAt s.tmask (w.agent - 1))).beforeStore [(p.place, List.replicate 16 0)]).homeRead s.task.ctx p.place 16)
            (fun x => untrackedB x.2 p.place 4 && bits x.1 0 32 == (if s.mem == [] then 0 else 2))
        | [] => false) = true) ∧
    sj.tp.issuedDone sj.tmask sj.tp.cur sj.markAt = true ∧ sjb.tp.issuedDone sjb.tmask sjb.tp.cur sjb.markAt = false := by decide +kernel

theorem wit_TendEndsTask :
    (s0.tp.ac.sup = false ∧ s0.tp.ac.phase ≠ .replay ∧ s0.tp.maskDone s0.tmask s0.tp.cur = true ∧ s0.task.entry.pawn.jrec = 0) ∧
    (let s := (s0.changeTask 1 (fun k => { k with hdr := [0, 0, 0, 0, 2, 0, 0, 0] })).setEc { s0.tp.ec with status := .running, task := 1 }
     s.tp.ac.sup = false ∧ s.tp.ac.phase ≠ .replay ∧ s.tp.maskDone s.tmask s.tp.cur = false) ∧ sv.tp.ac.sup = true := by decide +kernel

theorem wit_ParkRegistersWatch : let s := (s0.setX 5 0x80000).writeBank 0x80020 [0, 0, 1]
    let a := (s.getX 5).toNat
    s.tp.ac.phase ≠ .replay ∧ inBankB s a 64 = true ∧ s.tp.bankPoisoned a 64 = false ∧ a % 64 = 0 ∧
    (Pawn.ofBytes ((s.shownBank a 64).take 32)).clean = true ∧ leValue ((s.shownBank a 64).drop 48) = 0 ∧
    s.tp.maskDone s.tmask s.tp.cur = true ∧ s.watchesUsed (dieOf s.cur) < 4096 ∧
    ∃ r, s.pieces true s.task.ctx 0 1 9 (leValue (((s.shownBank a 64).drop 32).take 8)) 8 = .ok r ∧
      (match r.1 with
        | p :: _ => inHbm p.place && !p.zero && Memory.read s.mem p.place 8 == leValue (((s.shownBank a 64).drop 40).take 8)
        | [] => false) = true :=
  ⟨by decide +kernel, by decide +kernel, by decide +kernel, by decide +kernel, by decide +kernel, by decide +kernel,
    by decide +kernel, by decide +kernel, of_okAnd (by decide +kernel)⟩

theorem wit_LaunchAndTrig :
    (let s := { s0.setX 5 0x80000 with queues := [(0, ⟨0, 0x10000, 0, false, false⟩)], mem := [(0x10010, 1)] }
     let lq : LaunchQueue := ⟨0, 0x10000, 0, false, false⟩
     s.tp.ac.phase ≠ .replay ∧ (s.getX 5).toNat % 8 = 0 ∧ inBankB s (s.getX 5).toNat 128 = true ∧
     s.tp.bankPoisoned (s.getX 5).toNat 128 = false ∧ (s.getX 6).toNat < 4096 ∧ Map.find s.queues (s.getX 6).toNat = some lq ∧
     lq.ctx = s.task.ctx ∧ s.unreadable lq.desc 64 = false ∧
     2 ^ bits (Memory.read s.mem (lq.desc + 8) 8) 8 5 ≤
       (Memory.read s.mem (lq.desc + 16) 4 + 2 ^ 32 - Memory.read s.mem (lq.desc + 24) 4) % 2 ^ 32) ∧
    (let s := { s0.setX 5 0x80000 with queues := [(0, ⟨0, 0x10000, 0, false, false⟩)], mem := [(0x10002, 1)] }
     ∃ r, s.enqueue 0 ⟨0, 0x10000, 0, false, false⟩ (s.shownBank (s.getX 5).toNat 128) = .ok r ∧ (r.1 == 0) = true) ∧
    (4096 ≤ ((s0.setX 6 4096).getX 6).toNat) ∧
    (∀ s ∈ [s0, sjb], let on (p : Nat) : Bool := bitAt 0x3F p
     (s.tp.ce.issuedBusy s.tp.cur s.markAt.cmd on || s.tp.ie.issuedBusy s.tp.cur s.markAt.cmd on ||
       s.tp.he.issuedBusy s.tp.cur s.markAt.cmd on) = (s.tp.ce.infl != []) ∧ s.task.entry.bind = none) :=
  ⟨by decide +kernel, of_okAnd (by decide +kernel), by decide +kernel, by decide +kernel⟩

theorem wit_FencesOrder : s0.tp.ac.phase ≠ .replay ∧
    (bitAt (2 : BitVec 6).toNat 5 = false ∨ (9 : BitVec 4).toNat < 7 ∨ s0.tp.peersReached = [] ∧ s0.peerReads s0.task.ctx = false) ∧
    bitAt (33 : BitVec 6).toNat 0 = true ∧ bitAt (33 : BitVec 6).toNat 5 = true ∧ 7 ≤ (9 : BitVec 4).toNat ∧
    s0.tp.peersReached = [] ∧
    ({ s0 with requests := [(0, .nonPosted .peer 0 peerBase .peer 0)] } : State).peerReads 0 = true ∧
    s0.tp.fenceDone 0x3E s0.tp.cur s0.markAt = true ∧ sjb.tp.fenceDone 8 sjb.tp.cur sjb.markAt = false := by decide +kernel

theorem wit_TokensOfAStream :
    (s0.tp.ac.tokpLeft = 0 ∧ s0.tokens 1 2 + (15 : BitVec 4).toNat ≤ 15) ∧
    (let s := s0.setTokens 6 1 15
     (15 : BitVec 4).toNat ≤ s.tokens 6 1) ∧ s0.tokens 6 1 < (1 : BitVec 4).toNat := by decide +kernel

theorem wit_BarriersInBanks : let s := s0.setX 5 0x8FFF0
    inBankB s ((s.getX 5).toNat / 16 * 16) 16 = true ∧ s.tp.bankPoisoned ((s.getX 5).toNat / 16 * 16) 8 = false ∧
    s.tp.ac.phase ≠ .replay ∧ bits (s.bankValue ((s.getX 5).toNat / 16 * 16) 8) 0 32 = 0 ∧
    bits ((s.writeBank 0x8FFF0 [1]).bankValue 0x8FFF0 8) 0 32 ≠ 0 := by decide +kernel

theorem wit_TensorEntryWords : let s := (s0.setX 5 0x80000).changeTask 1 (fun k => { k with titb := 0x10000, tit := [(0, List.replicate 8 1)] })
    inBankB s (s.getX 5).toNat 64 = true ∧ (s.getX 5).toNat % 64 = 0 ∧ Map.find s.task.tit 0 = some (List.replicate 8 1) ∧
    s.tp.bankPoisoned (s.getX 5).toNat 64 = false ∧
    ∃ r, s.titPieces 0 2 = .ok r ∧ okAnd (r.2.storePieces r.1 (s.shownBank (s.getX 5).toNat 64)) (fun _ => true) = true :=
  ⟨by decide +kernel, by decide +kernel, by decide +kernel, by decide +kernel, of_okAnd (by decide +kernel)⟩

theorem wit_OwnTrapsEnterService : sv.tp.ac.sup = true ∧ s0.tp.ac.sup = false ∧ s0.tp.ac.phase ≠ .replay ∧ s0.tp.ac.stvec.toNat % 4 = 0 := by
  decide +kernel

theorem wit_ServiceEntryAndReturn :
    let s := s0.setEc { s0.tp.ec with status := .trapped, task := 1, trec := some (0xA5 :: List.replicate 7 0) }
    s.tp.ac.sup = false ∧ s.tp.cur ≠ 0 ∧ s.tp.ac.phase ≠ .replay ∧ s.oldestTrap = some (2, 0xA5 :: List.replicate 7 0) ∧
    sv.tp.ac.sup = true := by decide +kernel

theorem wit_TretAndSvcw :
    (let s := (sv.setX 10 0xA520).setEc { sv.tp.ec with trec := some (0xA5 :: List.replicate 7 0) }
     s.tp.ac.sup = true ∧ (s.getX 10).toNat = causeOf (0xA5 :: List.replicate 7 0) * 256 + 2 * 16 ∧
     s.tp.ec.trec = some (0xA5 :: List.replicate 7 0)) ∧
    (let s := (sv.setX 10 0xA530).setBe { sv.tp.be with trec := some (0xA5 :: List.replicate 7 0) }
     s.tp.ac.sup = true ∧ (s.getX 10).toNat = causeOf (0xA5 :: List.replicate 7 0) * 256 + 3 * 16 ∧
     s.tp.be.trec = some (0xA5 :: List.replicate 7 0)) := by decide +kernel

/-! ### Enxis words -/

/-- The E stream of the task runs. -/
def se : State := s0.setEc { s0.tp.ec with status := .running, task := 1, pc := 0x10000, npc := 0x10008, nnpc := 0x10010 }

theorem wit_EScalarResults :
    (∀ d ∈ [0, 3, 31], (okAnd (se.eReadyScalar { ew with d := BitVec.ofNat 6 d, a := 1, b := 2 } [1, 2] (some (keyE d))) (fun _ => true)) = true) ∧
    (∃ f, ((Instr.eAdd { ew with d := 3, a := 1, b := 2 }, [1, 2], f) : Instr × List (BitVec 6) × (List Dword → Dword)) ∈
      eScalarTable { ew with d := 3, a := 1, b := 2 }) ∧
    se.tp.ec.atLend = false ∧ WellFormed.instr (.eLi { ew with i := 1, imm := 7 }) = true :=
  ⟨by decide +kernel, ⟨_, List.mem_cons_self⟩, by decide +kernel, by decide +kernel⟩

theorem wit_EPredicateWords :
    (∃ r, se.eReadyPred { ew with d := 2, a := 1, b := 2 } [1, 2] [] = .ok r ∧ true = true) ∧
    (∃ r, se.eReadyPred { ew with d := 0, i := 1 } [] [] = .ok r ∧ true = true) ∧
    (∃ r, se.eReadyPred { ew with d := 15, a := 8, b := 2 } [] [8, 2] = .ok r ∧ true = true) ∧
    (∃ r, se.eReadyPred { ew with d := 7, a := 8 } [] [8] = .ok r ∧ true = true) ∧ se.tp.ec.atLend = false ∧
    WellFormed.instr (.ePmov { ew with d := 15, a := 15 }) = true :=
  ⟨of_okAnd (by decide +kernel), of_okAnd (by decide +kernel), of_okAnd (by decide +kernel), of_okAnd (by decide +kernel),
    by decide +kernel, by decide +kernel⟩

theorem wit_EBranches :
    se.tp.ec.loop = none ∧ (∃ r, se.eReadyControl { ew with i := 1, imm := 4 } [] none = .ok r ∧ (r.2.guard0 { ew with i := 1, imm := 4 }) = true) ∧
    (∃ r, se.eReadyControl { ew with i := 1, pn := 1 } [] none = .ok r ∧ (!r.2.guard0 { ew with i := 1, pn := 1 }) = true) ∧
    (∃ r, se.eReadyControl { ew with d := 31, a := 5 } [5] (some (keyE 31)) = .ok r ∧ true = true) :=
  ⟨by decide +kernel, of_okAnd (by decide +kernel), of_okAnd (by decide +kernel), of_okAnd (by decide +kernel)⟩

/-- The loop word of the next witness: two stages, a body of three words, its count in e5. -/
def wl : EWord := { ew with fmt := 1, a := 5, i := 1, imm := 3 }

/-- A loop that starts, one with a count of 0, and the five ways to misuse LOOP. -/
theorem wit_ELoopStarts :
    (∀ n ∈ [1, 2 ^ 32 - 8, 0, 2 ^ 32 - 7], let s := se.setE 5 (BitVec.ofNat 64 n)
      okAnd (s.eReadyControl wl [wl.a] none) (fun r => (r.1.getD 0 0).toNat == n && r.2.tp.ec.atLend == false) = true ∧
      s.tp.ec.loop = none ∧ s.tp.ec.slot1 = false) ∧ wl.fmt.toNat < 8 ∧ 0 < wl.imm.toInt ∧
    (∀ s ∈ [se.setEc { se.tp.ec with loop := some ⟨2, 0, 2, 1, 0x20000, 0x20010⟩ }, se.setEc { se.tp.ec with slot1 := true }],
      okAnd (s.eReadyControl wl [wl.a] none) (fun r => r.2.tp.ec.atLend == false && (s.tp.ec.loop != none || s.tp.ec.slot1)) = true) ∧
    (∀ w ∈ [{ wl with fmt := 8 }, { wl with imm := 0 }],
      okAnd (se.eReadyControl w [w.a] none) (fun r => r.2.tp.ec.atLend == false && (8 ≤ w.fmt.toNat || w.imm.toInt < 1)) = true) := by
  decide +kernel

theorem wit_EStreamWords :
    (∃ r, se.eReadyScalar ew [] none = .ok r ∧ true = true) ∧
    (∃ r, se.eReadyScalar { ew with d := 0x23, a := 5 } [5] none = .ok r ∧ r.2.eToA 3 = true) ∧ se.tp.ec.task = se.tp.cur ∧
    (∃ r, (se.setTokens 3 2 15).eReady { ew with i := 1, imm := 0xF3 } 6 [] none (fun s => match s.popTokens 3 2 15 with
        | .error e => .error e
        | .ok s => .ok ((), s)) = .ok r ∧ true = true) :=
  ⟨of_okAnd (by decide +kernel), of_okAnd (by decide +kernel), by decide +kernel, of_okAnd (by decide +kernel)⟩

theorem wit_TileWordsWriteCells : let w : EWord := { ew with fmt := 8, d := 31, a := 1, b := 2 }
    (∃ l f, ((Instr.vadd w, [w.a, w.b], [], l, f) : TileRow) ∈ tileTable w) ∧ w.d.toNat < 32 ∧
    (∃ r, se.eReadyTile w [w.a, w.b] [] (some (se.tp.ec.keyW w.d.toNat)) = .ok r ∧ true = true) ∧ se.tp.ec.atLend = false :=
  ⟨⟨_, _, List.mem_cons_self⟩, by decide +kernel, of_okAnd (by decide +kernel), by decide +kernel⟩

theorem wit_TileIntegerArithmetic : let w : EWord := { ew with fmt := 8, d := 31, a := 1, b := 2 }
    w.fmt = 8 ∧ w.i = 0 := by decide

theorem wit_VcmpVxlVqout :
    (let w : EWord := { ew with fmt := 8, d := 15, a := 1, b := 2 }
     w.d.toNat ≠ 0 ∧ w.d.toNat < 16 ∧ ∃ r, se.eReadyTile w [w.a, w.b] [] (some (se.tp.ec.keyP w.d.toNat)) = .ok r ∧ true = true) ∧
    (let w : EWord := { ew with fmt := 8, d := 3, a := 1, b := 2 }
     ∃ r, se.eReadyTile w [w.a, w.b] [] (some (se.tp.ec.keyW w.d.toNat)) = .ok r ∧ true = true) ∧ se.tp.ec.atLend = false ∧
    (let w : EWord := { ew with d := 0x27, a := 1 }
     ∃ r, se.eReadyTile w [w.a] [] none = .ok r ∧ r.2.eToA 7 = true) :=
  ⟨⟨by decide +kernel, by decide +kernel, of_okAnd (by decide +kernel)⟩, of_okAnd (by decide +kernel), by decide +kernel,
    of_okAnd (by decide +kernel)⟩

theorem wit_SpecialFunctionsWriteLate : let w : EWord := { ew with fmt := 4, d := 3, a := 1 }
    (Instr.vexp2 w, exp2V) ∈ [(Instr.vexp2 w, exp2V), (.vlog2 w, log2V)] ∧
    ∃ r, se.eReadyTile w [w.a] [] (some (se.tp.ec.keyW w.d.toNat)) = .ok r ∧ true = true :=
  ⟨List.mem_cons_self, of_okAnd (by decide +kernel)⟩

/-! ### Stage words -/

/-- An entry of a local tensor: format code, address, rows, columns, row stride (R73). -/
def entry (fcode addr rows cols rstr : Nat) : List Dword :=
  [BitVec.ofNat 64 (fcode + 2 * 16), BitVec.ofNat 64 addr, BitVec.ofNat 64 (rows * 2 ^ 32 + cols), BitVec.ofNat 64 (2 ^ 48 + rstr), 0,
    0x3F800000, 0, 0]

/-- The B stream of the task runs; T5 is 16 by 64 of INT8 in an operand bank, T6 its weights, T9 its output, T12 a table. -/
def sb : State :=
  (s0.changeTask 1 (fun k => { k with tit := [(5, entry 5 0x100000 16 64 64), (6, entry 5 0x180000 16 64 64),
    (9, entry 5 0x104000 16 64 64), (12, entry 8 0x110000 16 64 256)] })).setBe { s0.tp.be with status := .running, task := 1, pc := 0x10000 }

theorem wit_BStreamWords : sb.bTask.strm = none ∧ (∃ r, sb.bReadyPlain bw 1 (fun s => .ok s) = .ok r ∧ true = true) ∧
    sb.tp.be.chain = none ∧ sb.tp.be.loops = [] ∧
    (∃ r, sb.bReady 0 1 (fun s => .ok ((), s)) (fun _ _ => 0) (fun _ _ => 1) = .ok r ∧ true = true) ∧
    (∃ r, (sb.setTokens 1 3 2).bReady 1 2 (fun s => .ok ((), s)) (fun _ _ => 108) (fun _ _ => 1) = .ok r ∧ true = true) :=
  ⟨by decide +kernel, of_okAnd (by decide +kernel), by decide +kernel, by decide +kernel, of_okAnd (by decide +kernel),
    of_okAnd (by decide +kernel)⟩

theorem wit_BLoops : sb.bTask.strm = none ∧
    (∃ r, sb.bReadyPlain { bw with woff := 4 } 1 (fun s => if 2 ≤ s.tp.be.loops.length then .error (.fatal 0x25 0 0) else .ok s) = .ok r ∧
      true = true) ∧
    (∀ k ∈ [2, 3], let s := sb.setBe { sb.tp.be with loops := [⟨4, k, 0, 0x10000⟩] }
      okAnd (s.bReadyPlain bw 1 (fun s => if s.tp.be.loops.isEmpty then .error (.fatal 0x25 0 0) else .ok s)) (fun _ => true) = true) ∧
    (sb.tp.be.chain = none ∧ sb.tp.be.loops = []) ∧
    2 ≤ (sb.setBe { sb.tp.be with loops := [⟨4, 0, 0, 0x10000⟩, ⟨4, 0, 0, 0x10000⟩] }).tp.be.loops.length :=
  ⟨by decide +kernel, of_okAnd (by decide +kernel), by decide +kernel, by decide +kernel, by decide +kernel⟩

/-- A stage of stride and block 1: single, first of a chain, and to an accumulator. -/
def ws : BWord := { bw with tin := 5, twt := 6, tout := 9 }

theorem wit_StageWordsWrite : sb.bTask.strm = none ∧
    (∀ k ∈ [(⟨ws, geoOf ws, false, false⟩ : StageWord), ⟨{ ws with pos := 1, tout := 0 }, geoOf ws, false, false⟩,
        ⟨{ ws with tout := 0, aov := 1 }, geoOf ws, true, false⟩],
      ((stageWords k.w).map (fun r => r.2)).contains k = true ∧
      okAnd (sb.bReadyStage k) (fun r => okAnd (r.2.wordInput k r.1.1 r.1.2) (fun _ => true) &&
        okAnd (r.2.wordWeights k r.1.2) (fun _ => true) && (k.toAcc || k.w.pos != 0 || r.1.2.tout.isSome)) = true) ∧
    okAnd (sb.accOk 0) (fun _ => true) = true := by decide +kernel

theorem wit_TileAndAccumulatorWords : sb.bTask.strm = none ∧
    (∃ r, sb.bReadyPlain { bw with spm := 2, semi := 1 } 2 (fun s => .ok s) = .ok r ∧ true = true) ∧
    (∃ r, sb.bReadyTensor { bw with tin := 5, acc := 2 } 2 5 (fun t => t.inputOk 0 false) = .ok r ∧
      (r.1.spm == 0 && okAnd (r.2.bankTile r.1 (sb.tileOfWord bw) 64) (fun _ => true)) = true) ∧
    (∃ r, sb.bReadyTensor { bw with tout := 9, acc := 1 } 2 9 Tensor.outputOk = .ok r ∧ okAnd (sb.accOk 1) (fun _ => true) = true) ∧
    (∃ r, sb.bReadyTensor { bw with tin := 12, acc := 2 } 16 12 (fun t => t.fmtOk && t.fcode == 8) = .ok r ∧
      (r.1.spm == 0 && okAnd (r.2.tableCells r.1 (r.1.tileAt (sb.tileOfWord bw))) (fun _ => true)) = true) :=
  ⟨by decide +kernel, of_okAnd (by decide +kernel), of_okAnd (by decide +kernel), of_okAnd (by decide +kernel), of_okAnd (by decide +kernel)⟩

/-- A tile-level BSTG of one pair of tiles, from T5 through the weights T6 to T9. -/
theorem wit_TileAndAccumulatorWords_tile : let w : BWord := { ws with lvl := 1 }
    let s := (sb.changeTask 1 (fun k => { k with tit := [(5, entry 5 0x100000 32 64 64), (6, entry 5 0x180000 16 64 64),
      (9, entry 5 0x104000 32 64 64)] })).setSd 0 1
    (w.lvl = 1) ∧ ∃ r, s.bReadyTile w = .ok r ∧ (match r.1.tin, r.1.twt, r.1.tout with
      | some a, some t, some o => okAnd (r.2.tilePairs w a t o) (fun _ => true)
      | _, _, _ => false) = true :=
  ⟨rfl, of_okAnd (by decide +kernel)⟩

/-! ### Chains and their commands -/

/-- An engine whose walk stands at the entry at 0x80000, with a loop open. -/
def walked : Chain := { ent := 0x8000, heads := [(0x80000, 1)], walking := true, state := 1, ldep := 1, lsk := [(0, lskOf 1 0x80000)] }
def sw : State := { s0.setEng .ce walked with turn := { agent := .ce } }

theorem wit_ControlEntries :
    sw.walker = .ce ∧ (sw.eng .ce).running = none ∧ (sw.eng .ce).ldep.toNat < 4 ∧ (sw.eng .ce).drained = true ∧
    sw.tp.usable (bits (0x1FFFF0 : BitVec 64).toNat 0 21) 16 = true ∧ sw.tp.usable (bits (0x70000 : BitVec 64).toNat 0 21) 16 = false ∧
    0 < (sw.eng .ce).ldep.toNat ∧ bits (Sparse.get (sw.eng .ce).lsk ((sw.eng .ce).ldep.toNat - 1)).toNat 32 16 = 1 ∧
    (let s := sw.setEng .ce { walked with lsk := [(0, lskOf 2 0x80000)] }
     bits (Sparse.get (s.eng .ce).lsk ((s.eng .ce).ldep.toNat - 1)).toNat 32 16 ≠ 1) ∧
    4 ≤ ((sw.setEng .ce { walked with ldep := 4 }).eng .ce).ldep.toNat ∧ ((sw.setEng .ce { walked with ldep := 0 }).eng .ce).ldep = 0 ∧
    (let t := bits (0x800F8_00080000 : BitVec 64).toNat 32 21
     t % 8 = 0 ∧ sw.tp.usable t 8 = true ∧ sw.tp.bankPoisoned t 8 = false ∧ sw.bankValue t 8 = 0 ∧ (sw.writeBank t [1]).bankValue t 8 ≠ 0) ∧
    bits (0x800FC_00080000 : BitVec 64).toNat 32 21 % 8 ≠ 0 ∧
    ((sw.setEng .ce { walked with av := true }).eng .ce).drained = false := by decide +kernel

/-- A TOKP of the CE's chain, active. -/
def sact : State := { s0.setEng .ce { walked with act := 0x08 <<< 120 ||| 0x11, actAddr := 0x80000, actId := 1, av := true } with turn := { agent := .ce } }
/-- The CE's command in flight: the TOKP with its token to push, its event bit set. -/
def inFlight : InFlight := { entry := 0x0801 <<< 112 ||| 0x12, addr := 0x80000, task := 1, pushes := 15, target := 2 }

theorem wit_TokensAndBarriersOfChains :
    ((sw.tp.walkTask (sw.eng .ce)).id = sw.tp.cur ∧ sw.tokens (ChainUnit.code .ce) (1 : BitVec 3).toNat < 15) ∧
    ((sw.setTokens 2 4 15).tokensFor .ce (sw.tp.walkTask (sw.eng .ce)) 2 15 = true ∧ sw.tokensFor .ce (sw.tp.walkTask (sw.eng .ce)) 2 1 = false) ∧
    (sact.walker = .ce ∧ (sact.eng .ce).aprg = 0 ∧ okAnd (issueAlone .ce { kw with arg := 0x11 } (bareCost .ce) sact) (fun _ => true) = true) ∧
    (let s := s0.setEng .ce { walked with shd := 0x08 <<< 120 ||| 0x11, shdAddr := 0x80000, shdId := 1, sv := true }
     (s.eng .ce).av = false ∧ (s.eng .ce).sv = true) ∧
    (let s := s0.setEng .ce { walked with infl := [inFlight] }
     (s.eng .ce).infl = inFlight :: [] ∧ inFlight.media = false ∧ inFlight.status = none ∧ inFlight.bar = none ∧ inFlight.block = none ∧
     s.tp.usable (inFlight.addr + 14) 1 = true ∧ (Decode.kFields inFlight.entry).cev ≠ 0 ∧ 1 ≤ inFlight.target ∧ inFlight.target ≤ 6 ∧
     inFlight.target ≠ ChainUnit.code .ce ∧ (s.tp.taskOf inFlight.task).id = s.tp.cur ∧
     s.tokens (ChainUnit.code .ce) inFlight.target + inFlight.pushes ≤ 15) := by decide +kernel

/-- A copy of tile 0 of T8 to T9 that has issued: both are 16 by 64 of INT32 in operand banks; T7 is 16 by 64 of FP32, T10 a row
of indices, T6 16 by 64 of INT32 in space 0. -/
def sc : State := s0.setEng .ce { walked with
  act := 0x20 <<< 120, actAddr := 0x80000, actId := 1, av := true, aprg := 1
  tits := [(6, [0x18, 0x10000, 0x1000000040, 0x1000000000100, 0, 0x3F800000, 0, 0]), (7, entry 4 0x10C000 16 64 256),
    (8, entry 8 0x104000 16 64 256), (9, entry 8 0x100000 16 64 256), (10, entry 8 0x108000 1 64 256), (256, [4, 4])] }
def wc : KWord := { kw with ta := 9, tb := 8, tc := 10, count := 1 }
/-- Who the CE is for a copy on path K. -/
def whoC : Who := sc.whoOf .ce (sc.work .ce) 1
/-- Tensors with which a test on a command holds. -/
def with2 (x : Try (List Tensor)) (f : Tensor → Tensor → Bool) : Bool :=
  match x with
  | .ok [a, b] => f a b
  | _ => false
def with3 (x : Try (List Tensor)) (f : Tensor → Tensor → Tensor → Bool) : Bool :=
  match x with
  | .ok [a, b, c] => f a b c
  | _ => false
/-- `LocalWords` as a test. -/
def localB (s : State) (t : Tensor) : Bool :=
  t.kind == 2 && t.fcode == 8 && t.fmt == .int32 &&
    (List.range t.elements).all (fun e => s.tp.usable (wordAt t e) 4 && !s.tp.bankPoisoned (wordAt t e) 4)

theorem localWords_of {s : State} {t : Tensor} (h : localB s t = true) : LocalWords s t := by
  simp only [localB, Bool.and_eq_true, beq_iff_eq, List.all_eq_true, List.mem_range, Bool.not_eq_true'] at h
  exact ⟨h.1.1.1, h.1.1.2, h.1.2, fun e he => (h.2 e he).1, fun e he => (h.2 e he).2⟩

theorem wit_CopyCommands :
    ((sc.eng .ce).aprg ≠ 0 ∧ (sc.eng .ce).unitAt = 0 ∧ 0 < 32 * wc.count.toNat) ∧
    with2 (sc.namedAll .ce [wc.ta, wc.tb]) (fun a b => a.fcode == b.fcode && localB sc a && localB sc b &&
      okAnd (sc.getBits whoC b 0 0 0 32) (fun r => okAnd (r.2.copyBits whoC (overlapSpans a b (b.tileRanges (tileSt wc) 1)) a 0 0 0 32 r.1)
        (fun _ => true)) &&
      sc.tp.usable (a.rowStart 0 0) 128 && sc.tp.usable (b.rowStart 0 0) 128 && !sc.tp.bankPoisoned (b.rowStart 0 0) 128 &&
      (b.tileRanges (tileSt wc) 1).all (fun r => a.rowStart 0 0 + 136 ≤ r.1 / 8 * 8 || r.1 + r.2 + 8 ≤ a.rowStart 0 0) &&
      runAt a (tileDt wc) 0 == (0, 0, 0) && runAt a (cfilFirst wc) 0 == (0, 0, 0) &&
      unitRuns (runsOf [a, b]) (32 * wc.count.toNat) 0 == [0] && unitRuns (runsOf [a]) (32 * wc.count.toNat) 0 == [0] &&
      okAnd (sc.putBits whoC a 0 0 0 32 7) (fun _ => true) &&
      unitRuns (runsOf [a, b]) (b.planes * wc.count.toNat * 128) 0 == [0] && okAnd (sc.transposeRun whoC wc a b 0 0 0 0) (fun _ => true) &&
      unitRuns (runsOf [a, b]) (a.planes * 32) 0 == [0] &&
      okAnd (sc.motionRun whoC (ListEntry.ofArg 0) ⟨4, 4⟩ a b 0 0) (fun _ => true)) = true ∧
    with2 (sc.namedAll .ce [9, 7]) (fun a b => a.fcode != b.fcode && okAnd (sc.convertRun whoC { wc with tb := 7 } a b
      (overlapSpans a b (b.tileRanges (tileSt wc) 1) ++ scaleOverlap a b (b.scaleRanges (tileSt wc) 1)) (runAt a (tileDt wc) 0)
      (runAt b (tileSt wc) 0) (a.tileRun 0) (b.tileRun 0)) (fun _ => true)) = true ∧
    (let s := sc.writeBank 0x108000 [0xFF, 0xFF, 0xFF, 0xFF]
     with3 (s.namedAll .ce [9, 8, 10]) (fun a _ c => a.runs == 2 && okAnd (s.getBits whoC c 0 0 0 1) (fun r => r.1 == 0xFFFFFFFF &&
       unitRuns (if a.runs = 1 then max 1 (1024 / (a.cols * a.bitw)) else 1) (wc.count.toNat * a.runs) 0 == [0] &&
       okAnd (r.2.putBits whoC a 0 0 0 a.runCols 0) (fun _ => true))) = true) ∧
    with3 (sc.namedAll .ce [9, 6, 10]) (fun a b c => !a.sameMemory b && okAnd (sc.getBits whoC c 0 0 0 1) (fun r => r.1 == 0 &&
      okAnd (r.2.getBits whoC b 0 0 0 b.runCols) (fun q => okAnd (q.2.copyBits whoC [] a 0 0 0 a.runCols q.1) (fun _ => true)))) = true := by
  decide +kernel

/-- An index command that has issued: T5, T9 of INT32, T10 a row of indices, T20 a table of 16 slots, all in operand banks. -/
def si : State := s0.setEng .ie { walked with
  act := 0x40 <<< 120, actAddr := 0x80000, actId := 1, av := true, aprg := 1
  tits := [(5, entry 8 0x104000 16 64 256), (9, entry 8 0x100000 16 64 256), (10, entry 8 0x108000 1 64 256), (20, entry 8 0x10C000 16 2 16)] }
def wi : KWord := { kw with ta := 9, tb := 5, tc := 10, count := 1 }
/-- The same with a status dword. -/
def wst : KWord := { wi with arg := 0x80400 <<< 28 }
def whoI : Who := si.whoOf .ie (si.work .ie) 2

theorem wit_IndexCommands :
    ((si.eng .ie).aprg ≠ 0 ∧ (si.eng .ie).unitAt = 0 ∧ 0 < wi.count.toNat) ∧
    with3 (si.namedAll .ie [wi.ta, wi.tb, wi.tc]) (fun a b c => localB si a && localB si b && localB si c &&
      voffOf wi + 0 < a.elements && ioffOf wi < c.elements && si.bankValue (wordAt c (ioffOf wi)) 4 == 0 &&
      okAnd (si.indexAt whoI wi c b 0) (fun r => r.1 == some 0 && okAnd (r.2.getElem whoI b 0) (fun q =>
        okAnd (q.2.putElem whoI a (voffOf wi) q.1) (fun _ => true))) &&
      okAnd (si.indexAt whoI wi c a 0) (fun r => okAnd (r.2.namedBefore whoI wi c 0 0) (fun x => !x))) = true ∧
    (let s := si.writeBank 0x108000 [0xFF, 0xFF, 0xFF, 0xFF]
     with3 (s.namedAll .ie [wi.ta, wi.tb, wi.tc]) (fun a b c => okAnd (s.indexAt whoI wi c b 0) (fun r => r.1 == none &&
       okAnd (r.2.putElem whoI a (voffOf wi) 0) (fun _ => true))) = true) ∧
    (let s := si.writeBank 0x10C000 [0xFF, 0xFF, 0xFF, 0xFF]
     with3 (s.namedAll .ie [20, 5, 10]) (fun a b c => okAnd (s.getElem whoI b 0) (fun r => okAnd (r.2.getElem whoI c 0) (fun q =>
       r.1 != 0xFFFFFFFF && okAnd (q.2.probe whoI a false r.1 q.1 1 (firstSlot r.1 a.rows)) (fun _ => true)))) = true) ∧
    (let s := si.setEng .ie { si.eng .ie with aprg := 2 }
     (s.eng .ie).unitAt = wst.count.toNat ∧ s.tp.usable (statOf wst) 8 = true ∧ (s.eng .ie).kept = 0) ∧
    with3 (si.namedAll .ie [20, 9, 5]) (fun a b c => okAnd (si.slotOf whoI a 0) (fun r => r.1 != 0xFFFFFFFF &&
      okAnd (r.2.2.putElem whoI b 0 r.1) (fun s => okAnd (s.putElem whoI c 0 r.2.1) (fun _ => true)))) = true ∧
    ((si.eng .ie).kept < wst.count.toNat ∧ bitAt wst.arg.toNat 55 = false ∧
      ((si.setEng .ie { si.eng .ie with aprg := 17 }).eng .ie).unitAt = 16) := by decide +kernel

/-- A head descriptor at 0x10000 (R178): one table of 8 buckets, dimension 64, one candidate, keys T10 and values T11 in space 0. -/
def headBytes : List Byte :=
  leBytes 128 (0x10400 + 0x10800 * 2 ^ 64 + 0x10C00 * 2 ^ 128 + (10 * 2 ^ 56 + 11 * 2 ^ 48 + 2 ^ 20 + 3 * 2 ^ 12) * 2 ^ 256 +
    (0xFF * 2 ^ 32 + 1) * 2 ^ 320 + 4 * 2 ^ 384 + 0x3F800000 * 2 ^ 480 + 2 ^ 32 * 2 ^ 576)
/-- The HE with a command issued; slot 0 holds the head. T12, T13 are 16 by 64 of INT8, T14 a row of INT32, T15 a
row of INT8, in operand banks. -/
def she : State :=
  let s := s0.changeTask 1 (fun k => { k with tit := [(10, [0x15, 0x14000, 0x1000000040, 0x1000000000040, 0, 0x3F800000, 0, 0]),
    (11, [0x15, 0x15000, 0x1000000040, 0x1000000000040, 0, 0x3F800000, 0, 0]), (14, entry 8 0x110000 1 64 256)] })
  let s := (s.setEng .he { walked with
    act := 0x60 <<< 120, actAddr := 0x80000, actId := 1, av := true, aprg := 1
    tits := [(12, entry 5 0x100000 16 64 64), (13, entry 5 0x104000 16 64 64), (14, entry 8 0x110000 1 64 256), (15, entry 5 0x118000 1 64 64), (16, entry 10 0x119000 16 64 16), (256, [7])] }).setSlot 0
      ⟨true, 0x10000, 1, 3, 64, []⟩
  { s with mem := Memory.writeBytes s.mem 0x10000 headBytes }
def wh : KWord := { kw with ta := 12, tb := 13, count := 1 }

/-- The same while HGAT is at a step of its total, with its hits and its walks. -/
def sheAt (step total : Nat) (more : List (Nat × List Dword)) : State :=
  she.setEng .he { she.eng .he with
    tits := more.foldl (fun m e => Map.put m e.1 e.2) (Map.put (she.eng .he).tits 256 [BitVec.ofNat 64 step, BitVec.ofNat 64 total]) }
/-- HGAT with its query row T15, its list T14, fetched rows T12 and T13, and a mask T16. -/
def wg : KWord := { kw with ta := 15, tb := 14 }
def wgf : KWord := { wg with arg := 0x0C0D_10C0_0000_0000 }

/-- Of one thing left, any pick takes it. -/
theorem pick_one (x : Nat) (q : Walked) : ([q].getD (x % max 1 [q].length) ⟨0, 0, 0⟩) = q := by simp [Nat.mod_one]

/-- What is left of an HCLR, as `left` says, and its next clear. -/
def hclrB (left : Nat) : Bool :=
  let s := she.setEng .he { she.eng .he with tits := Map.put (she.eng .he).tits 256 [BitVec.ofNat 64 left] }
  let n := (s.slot 0).l * 2 ^ (s.slot 0).b
  okAnd (s.headOf 0) (fun r =>
    let s2 := r.2.takeNat.2.widen (fun x => x.own r.2.cur 6 && x.path == 3) r.1.scp
    r.2.toClear n == [left] && okAnd (if left = n then s2.clearFields r.1 else s2.putBucket r.1 (r.1.sq + 64 * left) 0) (fun _ => true))

/-- The engine at a unit of its command, with a number kept. -/
def heAt (k kept : Nat) : Chain := { she.eng .he with aprg := BitVec.ofNat 64 (2 ^ 63 + kept * 2 ^ 31 + k + 1) }

theorem wit_HashCommands :
    ((she.eng .he).aprg ≠ 0 ∧ (she.eng .he).unitAt = 0) ∧
    okAnd (she.hprjHead { kw with count := 4, arg := 0x10000 }) (fun r => okAnd (r.2.signArray r.1) (fun _ => true)) = true ∧
    okAnd (she.headFull (hkeySlot wh)) (fun r => with2 (r.2.2.2.namedAll .he [wh.ta, wh.tb]) (fun a b =>
      okAnd (r.2.2.2.hkeyRows r.1 a b r.2.1 r.2.2.1 (16 * hkeyRb wh) 7) (fun _ => true) &&
      okAnd (r.2.2.2.rowValues a (16 * hkeyRb wh)) (fun q => okAnd (q.2.insertId r.1 0 ((she.slot 0).bucket q.1 0) 7) (fun _ => true)))) = true ∧
    ((sheAt 0 0 []).gather.step = 0 ∧ okAnd ((sheAt 0 0 []).gatherStep wg) (fun _ => true) = true) ∧
    (let g := (sheAt 2 3 []).gather
     g.step < g.total ∧ g.step ≠ 0 ∧ g.step + 1 = g.total ∧ okAnd ((sheAt 2 3 []).gatherStep wg) (fun _ => true) = true) ∧
    ((sheAt 2 2 []).gather.step ≠ 0 ∧ (sheAt 2 2 []).gather.total ≤ (sheAt 2 2 []).gather.step) ∧
    (∀ link ∈ [0, 1], let s := sheAt 1 3 [(300, [BitVec.ofNat 64 (Walked.code ⟨0, link, 1⟩)])]
      s.gather.step = 1 ∧ 3 ≤ s.gather.total ∧ okAnd (s.headFull (hgatSlot wg)) (fun r =>
        let s1 := r.2.2.2
        s1.walks == [⟨0, link, 1⟩] && with2 (s1.namedAll .he (hgatIds wg)) (fun a _ => (hgatRows wg a).getD 0 0 == 0 &&
          if link = 0 then okAnd (s1.takeNat.2.rowValues a (16 * hgatRb wg + 0)) (fun v =>
            okAnd (v.2.readBucket r.1 (r.1.sq + 64 * ((v.2.slot (hgatSlot wg)).bucket v.1 0)) 1) (fun _ => true))
          else okAnd (s1.takeNat.2.readBucket r.1 (r.1.pool + 64 * (link - 1)) 1) (fun _ => true))) = true) ∧
    (∀ step ∈ [2, 3, 4, 5], ∀ hit ∈ [([] : List Dword), [5]], let s := sheAt step 21 [(257, hit)]
      2 ≤ s.gather.step ∧ s.gather.step < s.gather.total ∧ s.gather.step = step ∧ hgatFk wgf = true ∧
      okAnd (s.headFull (hgatSlot wgf)) (fun r => r.1.m == 1 && s.gatherList 1 == hit.map BitVec.toNat &&
        okAnd (r.2.2.2.namedAll .he (hgatIds wgf)) (fun _ => true)) = true ∧ okAnd (s.gatherStep wgf) (fun _ => true) = true) ∧
    (hclrB 3 = true ∧ hclrB ((she.slot 0).l * 2 ^ (she.slot 0).b) = true) ∧
    okAnd (she.headOf 0) (fun r => okAnd (r.2.homeBytes (r.1.addr + 56) 24 1) (fun _ => true) &&
      !exceeds 0x3F800000 r.1.budget) = true ∧
    ((she.eng .he).kept ≠ 1 ∧ (she.slot 0).l * 2 ^ (she.slot 0).b ≠ 0 ∧
      ((she.setEng .he { she.eng .he with aprg := 1 + BitVec.ofNat 64 ((she.slot 0).l * 2 ^ (she.slot 0).b) }).eng .he).unitAt =
        (she.slot 0).l * 2 ^ (she.slot 0).b ∧
      (∀ k ∈ [0, 1], (heAt k 1).kept = 1 ∧ (heAt k 1).unitAt = k)) ∧
    she.tp.usable (bits (hstsVal { kw with arg := 0x80400 <<< 32 }) 0 21) 32 = true := by decide +kernel


/-! ### Media, launches, tasks -/

/-- Power states. -/
def inPst (p : BitVec 3) : State := { s0 with mod := { s0.mod with pst := p, perst := false } }

/-- The CE with a media command of stream 3, bound to VDE 5; T9 is a row of 64 of UINT8 in an operand bank. -/
def sm : State := { (s0.changeTask 1 (fun k => { k with tit := [(9, entry 6 0x100000 1 64 64)] })).setEng .ce { walked with
    act := 0x70 <<< 120 ||| 5 <<< 64 ||| 3 <<< 32 ||| 4, actAddr := 0x80000, actId := 1, av := true
    tits := [(9, entry 6 0x100000 1 64 64), (256, [64, 0])] } with
  mem := [(0x20016, 1)]
  mod := { s0.mod with vdes := [(0, 5)], cmes := [(0, 2)] }
  streams := [(3, { ctx := 0, record := 0x20000, vde := ⟨false, 0, 5⟩, codec := .h264 })] }
def wm : KWord := { kw with ta := 9, count := 5, arg := 0x300000004 }
def wcm : KWord := { kw with count := 2, arg := 0x300080000 }
def wmd : KWord := { wcm with count := 5 }
/-- The VDE with that command begun, in flight on the CE. -/
def mcmd : MediaCmd :=
  { eng := ⟨false, 0, 5⟩, tp := 0, entry := (sm.eng .ce).act, addr := 0x80000, task := sm.work .ce, id := 1
    tensor := entry 6 0x100000 1 64 64, begun := true }
/-- A command of a locked stream before it. -/
def mlocked : MediaCmd := { mcmd with id := 2, begun := false, entry := 0x71 <<< 120 ||| 5 <<< 64 ||| 4 <<< 32 }
def smb : State := { sm.setEng .ce { sm.eng .ce with av := false, infl := [{ inFlight with media := true, mid := 1 }] } with media := [mcmd] }

theorem wit_MediaCommands :
    (okAnd (sm.mediaIssue wm false [wm.ta] (msubCheck wm) (msubCost wm)) (fun _ => true) &&
      okAnd (sm.mediaIssue wmd false [] (mdecCheck wmd) (mdecCost wmd)) (fun _ => true) &&
      okAnd (sm.mediaIssue wcm true [] freeCheck (cmblCost wcm)) (fun _ => true) &&
      okAnd (sm.mediaIssue wcm true [] freeCheck (fun _ => 256)) (fun _ => true) &&
      okAnd (sm.mediaIssue wcm true [] (fun s _ => s.reportBlock wcm) (fun _ => 256)) (fun _ => true)) = true ∧
    (smb.media = [mcmd] ∧ mcmd.tp = smb.cur ∧ mcmd.stalled = false ∧ mcmd.trapped = false ∧ mcmd.begun = true ∧
      bits mcmd.entry.toNat 120 8 = 0x70 ∧ smb.tp.images = [] ∧
      ((Map.find smb.streams (ssidOf mcmd.entry.toNat)).any (fun st =>
        let t := Tensor.ofDwords mcmd.tensor
        let len := bits mcmd.entry.toNat 0 32
        st.ctx == mcmd.task.ctx && st.boundTo mcmd && t.kind == 2 && t.fmt == .uint8 && t.rows == 1 && t.planes == 1 &&
          len ≤ t.cols && len ≤ st.freeBytes && !smb.tp.bankPoisoned t.addr len &&
          smb.tp.ce.infl.any (fun f => f.mid == mcmd.id))) = true) ∧
    (let s : State := { smb with media := [mlocked, mcmd], streams := smb.streams ++
        [(4, { ctx := 0, record := 0x20000, vde := ⟨false, 0, 5⟩, codec := .h264, locked := true })] }
     mlocked.eng = mcmd.eng ∧ mlocked.begun = false ∧ (Map.find s.streams (ssidOf mlocked.entry.toNat)).any Stream.locked = true ∧
       mlocked.raised = false ∧ mcmd.raised = false ∧ (s.weak.all (fun x => x.own mcmd.tp (mediaCode mcmd.eng) == false)) = true ∧
       okAnd (((s.beginMedia mcmd).changeMedia mcmd.id (fun x => { x with passed := 0 })).mediaWork mcmd) (fun t => t.cur == s.cur) = true) ∧
    (let report : MediaCmd := { mlocked with id := 3, raised := true }
     let s : State := { smb with media := [report, mcmd] }
     let c : Chain := { s.eng .ce with trec := some [0x83], infl := [{ inFlight with media := true, mid := 3 }, { inFlight with media := true, mid := 1 }] }
     report.raised = true ∧ (s.setEng .ce c).ceTrapped report = true ∧ s.ceTrapped report = false) := by decide +kernel

/-- A table of space 0 of context 0 (R228): 0x10000 has a page there, 0x20000 an entry with M = 1, 0x30000 none. -/
def tableMem : Memory :=
  [(0x40000, 0x50001), (0x50000, 0x60001), (0x60000, 0x70001), (0x70000, 0x80001), (0x80008, 0x1010F), (0x80010, 0x40)].foldl
    (fun (m : Memory) (e : Nat × Nat) => Memory.write m e.1 8 e.2) []
/-- A record at 0x10000, a task header at 0x10100, a queue's descriptor at 0x12000 (R77, R80, R91). -/
def workMem : Memory :=
  [(0x10010, 0x10100), (0x10018, 0x10140), (0x10100, 0x1234), (0x10118, 0xAAAAAAAA55550000), (0x10120, 1), (0x12000, 0x10000),
    (0x12008, 0x100)].foldl (fun (m : Memory) (e : Nat × Nat) => Memory.write m e.1 8 e.2) tableMem
def tabled (s : State) : State :=
  { s with mem := workMem, tracked := [(4, 5)], ctxs := Map.put s.ctxs 0 { s.getCtx 0 with root := 0x40000 } }
def pawnOf (cls : Nat) : Pawn := { p0 := BitVec.ofNat 64 (0x10100 + 32 * cls), p1 := 0x10140 }
/-- A launch under way, with the queue 4095 that it came from; a pile bound to its context. -/
def launch : Launch :=
  { lid := 0, ctx := 0, queue := 4095, index := 0, dwords := [0, 0, 0x10100, 0x10140, 0, 0, 0x10200, 7], tcounts := [], hdr := [], hasD := false
    dn := 1, cn := 1, nd := 1, home := 0, next0 := 0, next1 := 0, live := 1 }
def sl : State := { tabled sp with queues := [(4095, { ctx := 0, desc := 0x12000, widx := 1 })], launches := [launch] }
/-- The same TP idle, with a pawn on its pile. -/
def idle (s : State) : State := { s with tp := { s.tp with cur := 0, tasks := [], bulk := { ctx := some 0, chip := [{ pawn := pawnOf 0, ctx := 0 }] } } }

/-- The start of a launch, as far as its choice and its record. -/
def startsB (s : State) : Bool :=
  let s0 := s.queues.foldl (fun s e => s.cutIdle e.1) s
  match s0.readyQueues with
  | (back, none) =>
    let s1 := s0.countPassed back
    (s1.roundDue back).isNone &&
    match s1.chooseStart back with
    | some (r, _) => okAnd (s1.nextRecord r.queue) (fun d => okAnd (d.2.resolveLaunch r.num r.queue r.dwords) (fun _ => true))
    | _ => false
  | _ => false
/-- A round of stream queues is due. -/
def roundB (s : State) : Bool :=
  let s0 := s.queues.foldl (fun s e => s.cutIdle e.1) s
  match s0.readyQueues with
  | (back, none) => ((s0.countPassed back).roundDue back).isSome
  | _ => false
/-- The same queue, bound to stream 3 of weight 1, whose deficit is 0. -/
def slr : State :=
  { sl with mem := Memory.write (Memory.write sl.mem 0x12008 8 0x380100) 0x20017 1 1, launches := []
            streams := [(3, { ctx := 0, record := 0x20000, vde := ⟨false, 0, 5⟩, codec := .h264 })] }

/-- The same queue with no launch to start, while its stream's deficit is 5. -/
def sidle : State :=
  { slr with mem := Memory.write slr.mem 0x20038 4 5, queues := [(4095, { ctx := 0, desc := 0x12000, widx := 0 })] }

/-- A task that may start: its pawn and its header. -/
def taskB (s : State) (cls : Nat) : Bool :=
  match s.takeClass 1, s.takeClass 0 with
  | x, y =>
    (if cls = 1 then x.isSome else x.isNone) &&
    match (if cls = 1 then x else y) with
    | none => false
    | some (e, s1) =>
      okAnd (s1.pieces true e.ctx 0 1 65 e.pawn.taskh 64) (fun r =>
        match r.1 with
        | [] => false
        | p :: _ =>
          !p.zero && okAnd (r.2.deviceLoad e.ctx p.place 64) (fun q =>
            let h := dwordsOf 8 (leBytes 64 q.1)
            headerOk h && !badBrr (h.getD 3 0)))

/-- Two registrations of one launch: the second held, for regions that do not meet. -/
def region (seq base : Nat) (held : Option (Entry × Nat)) : Region :=
  { die := 0, lid := 0, ctx := 0, seq := seq, decls := [⟨base, 0, 64, 1, true⟩], serial := false, held := held, slots := [0] }
def heldPawn : Entry := { pawn := pawnOf 0, ctx := 0, region := 6 }
def sreg : State :=
  { s0 with regions := [region 5 0x10000 none, region 6 0x10040 (some (heldPawn, 0))]
            tp := { s0.tp with bulk := { ctx := some 0, chip := [{ pawn := pawnOf 0, ctx := 0, region := 5 }] } } }
def watch (fired : Bool) : Watch := { die := 0, tp := 0, place := 0x10000, value := 0, entry := { pawn := pawnOf 0, ctx := 0 }, fired := fired }

theorem wit_LaunchAndTaskEvents :
    (Map.find sl.queues ((0xFFF : BitVec 32).toNat % 4096) = some { ctx := 0, desc := 0x12000, widx := 1 } ∧ (sl.ctx? 0).isSome = true ∧
      (sl.getCtx 0).tenant = (0 : BitVec 4).toNat ∧ sl.unreadable 0x12000 40 = false ∧ sl.mod.host.insecure.contains 0 = false ∧ Map.find sl.queues ((0x1000 : BitVec 32).toNat % 4096) = none ∧
      sl.idleCredit 4095 { ctx := 0, desc := 0x12000, widx := 1 } = false ∧
      sidle.idleCredit 4095 { ctx := 0, desc := 0x12000, widx := 0 } = true ∧
      sidle.queueStream { ctx := 0, desc := 0x12000, widx := 0 } = some 3 ∧ (inPst 2).mod.pst ≠ 3 ∧ (inPst 2).mod.pst ≠ 4 ∧ (inPst 2).mod.pst ≠ 5) ∧
    (sl.mod.pst = 4 ∧ startsB sl = true ∧ slr.mod.pst = 4 ∧ roundB slr = true) ∧
    ((sl.dealable 0)[sl.turn.pick % max 1 (sl.dealable 0).length]? = some (launch, 0, 0) ∧ sl.regions = [] ∧
      (let s := { sl with nextRegion := 6, regions := [{ region 5 0x10000 none with serial := true, decls := [] }], tp :=
          { sl.tp with bulk := { ctx := some 0, chip := [{ pawn := pawnOf 0, ctx := 0, region := 5 }] } } }
       let e : Entry := { pawn := launch.pawn 0, ctx := 0, bridged := true }
       (s.dealable 0)[s.turn.pick % max 1 (s.dealable 0).length]? = some (launch, 0, 0) ∧
         (s.dropEnded 0).serialStands 0 e.launchKey s.nextRegion = true)) ∧
    (let l := { launch with live := 0 }
     let s := idle { sl with launches := [l] }
     let s := { s with tp := { s.tp with bulk := {} } }
     s.launches.find? (fun l => l.lid == (0 : BitVec 16).toNat) = some l ∧ l.faulted = false ∧ s.launchDone l = true ∧
       (match (s.drain (fun w => w.lid == l.lid && w.ctx == l.ctx)).completionWrites l with
       | .ok t => okAnd (t.endReadable l) (fun _ => true)
       | .error _ => false) = true) := by decide +kernel

theorem wit_LaunchAndTaskEvents_tasks :
    ((idle sl).hasTask = false ∧ (idle sl).inService (idle sl).cur = true ∧ taskB (idle sl) 0 = true ∧
      taskB { idle sl with tp := { (idle sl).tp with bulk := {}, frame := { ctx := some 0, chip := [{ pawn := pawnOf 1, ctx := 0 }] } } } 1 = true) ∧
    ((sreg.dropEnded 0).regions = [region 5 0x10000 none] ++ region 6 0x10040 (some (heldPawn, 0)) :: [] ∧
      ∀ q ∈ (sreg.dropEnded 0).regions, q.die = 0 → q.lid = 0 → q.seq < 6 →
        q.holdsBack false [⟨0x10040, 0, 64, 1, true⟩] = false) ∧
    (let s := { sp with watches := [watch true, watch false] }
     s.watches[0]? = some (watch true) ∧ s.watches[1]? = some (watch false) ∧ ((s.getTp 0).pile (pawnOf 0).cls).ctx = some 0 ∧
       ((s.getTp 0).pile (pawnOf 0).cls).chip.length < 64 ∧ s.regions = []) ∧
    (let w : Watch := { watch true with seq := 6 }
     let s : State := { sreg with watches := [w], regions := [{ region 5 0x10000 none with serial := true }] }
     let s' : State := { s with watches := s.watches.eraseIdx 0 }
     s.watches[0]? = some w ∧ w.fired = true ∧ s.regions ≠ [] ∧
       (s'.dropEnded (dieOf w.tp)).serialStands (dieOf w.tp) w.entry.launchKey w.seq = true) ∧
    ((s0.ctx? (0 : BitVec 8).toNat).isSome = true ∧ (s0.getCtx 0).stopped = false ∧ s0.mod.tps.contains 0 = true ∧
      (s0.getTp 0).mayBind 1 0 = true ∧ s0.homeless = [] ∧ ((idle sl).getTp 0).mayBind 0 255 = false) := by decide +kernel

/-! ### Role changes, pre-emption, translation -/

/-- The TP with a role change under way, 4.0 µs after the hold. -/
def srole (start : Bool) : State := { s0 with time := 4000, tp := { s0.tp with role := some ⟨0xAAAAAAAA55550004, start⟩ } }
def spre (s : State) : State := { s with time := 4000, tp := { s.tp with preempt := some .quota } }
/-- An image that waits on an idle TP. -/
def simg : State := { idle s0 with tp := { (idle s0).tp with bulk := { ctx := some 0 }, images := [((spre s0).imageNow (spre s0).task)] } }

theorem wit_RoleChangesAndPreemption :
    bits (1 : Dword).toNat 0 2 ≠ 0 ∧ bits (0xC000000000000000 : Dword).toNat (2 * 31) 2 = 3 ∧ bits (0xC000000000000000 : Dword).toNat 0 2 = 0 ∧
    (badBrr 0xAAAAAAAA55550000 = false ∧ s0.tp.brr = 0xAAAAAAAA55550000 ∧ badBrr 0xAAAAAAAA55550004 = false) ∧
    ((srole false).roleDrained false = true ∧
      (let s := (srole false).setEng .ce { walked with infl := [inFlight] }
       (s.tp.role = some ⟨0xAAAAAAAA55550004, false⟩ ∧ s.roleDrained false = false))) ∧
    (s0.mod.arith = 0 ∧ ({ s0 with mod := { s0.mod with arith := 3 } } : State).mod.arith = 3) ∧
    ((srole false).timeUp (srole false).roleLimit = true ∧ s0.timeUp s0.roleLimit = false ∧
      (spre s0).tp.holdAt + 4000 ≤ (spre s0).time ∧ (spre s0).tp.role = none ∧ (spre s0).tp.preempt = some .quota) ∧
    ({ s0 with time := 3999 } : State).time < s0.tp.holdAt + 4000 ∧
    ((0x7F : Dword).toNat < 256 ∧ (∀ q : Nat, q < 8 → s0.eToA q = bitAt (0xFF : Dword).toNat q ∨ s0.queueLen q = 0) ∧ 256 ≤ (0x100 : Dword).toNat ∧
      (let s := { s0 with tp := { s0.tp with queues := { scalar := [(0, [5])] } } }
       s.eToA 0 ≠ bitAt (0x89 : Dword).toNat 0 ∧ s.queueLen 0 ≠ 0)) ∧
    (s0.hasTask = true ∧ s0.tp.preempt = none ∧ (idle s0).hasTask = false ∧ (spre s0).tp.preempt ≠ none) ∧
    ((spre s0).tp.ac.phase ≠ .replay ∧ (spre s0).saveReady = true ∧
      (let s := (spre s0).setEng .ce { walked with infl := [inFlight] }
       s.tp.ac.phase ≠ .replay ∧ s.saveReady = false) ∧
      (let s := (spre sr).changeCtx 0 (fun c => { c with e0 := 0x100000 })
       s.tp.ac.phase = .replay ∧ s.byReplay s.task.ctx = true ∧ s.hasTask = true ∧ s.tp.role = none)) ∧
    (simg.imageNext = some ((spre s0).imageNow (spre s0).task) ∧ simg.tp.vacant = true ∧ simg.inService simg.cur = true) := by decide +kernel

theorem wit_RoleChangesAndPreemption_bank : InBank s0 (0x8FFF8 : Dword).toNat 8 := inBank_of (by decide +kernel)

/-- A pending handle of space 0 at an address. -/
def spend (va : Nat) : State := (tabled s0).setHandle 15 { st := .pending, space := 0, va := va }
/-- What a walk of its table gives. -/
def walkB (s : State) : Nat :=
  match walk s s.task.ctx (s.getHandle 15).va with
  | (.page _, _) => 0
  | (.fault _, _) => 1
  | (.again, _) => 2
  | _ => 3

/-- A translation fault of the task of TP 0. -/
def sfault (cause : Nat) : FaultRec :=
  { tp := 0, record := mkRecord { ctx := 0, unit := 1, die := 0, tile := 0, cause := cause } 0, ctx := 0, cause := cause, space := 1, va := 0x1000, unit := 1 }
/-- Vector 63 of tenant 0 is pending. -/
def spba : State := s0.setTenant 0 { s0.getTenant 0 with pba := 0x8000000000000000, msixOn := true, msix := [] }

/-- The outside's business: requests and faults that stand. -/
def sreq : State :=
  { s0 with requests := [(1, .ats 0 0x1000 0 0), (2, .pri 0 0x1000 0 true false),
    (3, .nonPosted .host 0 0x1000 .translated 0), (4, .nonPosted .peer 0 0x1000 .peer 0)] }

theorem wit_TranslationAndFaultEvents :
    ([0x10000, 0x30000, 0x20000].map (fun va => walkB (spend va)) = [0, 1, 2] ∧
      [0x10000, 0x30000, 0x20000].all (fun va => (spend va).hasTask && (spend va).getHandle 15 == { st := .pending, space := 0, va := va }) = true) ∧
    (sreq.atsOut (0 : BitVec 20).toNat (0x1FFF : Dword).toNat = some (1, 0, 0) ∧ sreq.atsOut 0 0x2000 = none ∧
      sreq.hostTalks = true ∧ ({ sreq with mod := { sreq.mod with pst := 2 } } : State).hostTalks = false ∧
      sreq.ctxsOf 0 = [0] ∧ ({ va := 0x1000, size := 4096, place := hostBase } : Page).holds 0x1FFF = true) ∧
    ((∀ s ∈ [({ s0 with invalidations := List.replicate 31 (0, 0, 0xFFF) } : State)], s.hostTalks = true ∧ s.invalidations.length < 32) ∧
      32 ≤ ({ s0 with invalidations := List.replicate 32 (0, 0, 0xFFF) } : State).invalidations.length ∧ s0.hostTalks = true ∧
      { s0 with invalidations := [(0, 0, 0xFFF)] }.requests = [] ∧ (3, Request.nonPosted .host 0 0x1000 .translated 0) ∈ sreq.requests) ∧
    (let s := { sreq with faults := [sfault 0x09] }
     s.priOut 0 0x1000 = some ⟨2, 0, true, false⟩ ∧ s.priFaults ⟨2, 0, true, false⟩ 0x1000 = [sfault 0x09] ∧ (sfault 0x09).pawn = none) ∧
    (let s := { sreq with faults := [sfault 0x01] }
     s.faultAt .aStream = some (sfault 0x01) ∧ (sfault 0x01).cause ≠ 0x09 ∧ resolvable (sfault 0x01).cause = true) ∧
    (let s := { sreq with faults := [sfault 0x02] }
     s.faultAt .aStream = some (sfault 0x02) ∧ resolvable (sfault 0x02).cause = false) ∧
    (Map.find sreq.requests 3 = some (.nonPosted .host 0 0x1000 .translated 0) ∧
      Map.find sreq.requests 4 = some (.nonPosted .peer 0 0x1000 .peer 0) ∧ Map.find sreq.requests 1 = some (.ats 0 0x1000 0 0) ∧
      sreq.mod.host.insecure.contains 0 = false ∧
      ({ sreq with mod := { sreq.mod with host := { sreq.mod.host with insecure := [0] } } } : State).mod.host.insecure.contains 0 = true) ∧
    (let s := s0.changeCtx 0 (fun c => { c with stopped := true, owed := true, fatal := some [0x63] })
     (∃ x, s.ctx? 0 = some x ∧ x.stopped = true ∧ x.owed = true ∧ x.fatal = some [0x63]) ∧
     (spba.getTenant (spba.getCtx 0).tenant).masked (spba.getTenant (spba.getCtx 0).tenant).faultVec = false ∧ spba.mod.host.insecure = []) ∧
    (∃ x, s0.ctx? 0 = some x ∧ x.stopped = false) :=
  ⟨by decide +kernel, by decide +kernel, by decide +kernel, by decide +kernel, by decide +kernel, by decide +kernel, by decide +kernel,
    ⟨⟨_, rfl, by decide +kernel⟩, by decide +kernel⟩, _, rfl, by decide +kernel⟩

/-! ### The ports, the module, the supervisor -/


theorem wit_PortEvents :
    (s0.takes .host = true ∧ (s0.getTenant (0 : BitVec 4).toNat).base = 0 ∧ (s0.getTenant 0).limit = 0x100000 ∧
      0xFFFF8 + ([1, 2, 3, 4, 5, 6, 7, 8] : List Byte).length ≤ (s0.getTenant 0).limit ∧ s0.offDie 0xFFFF8 8 = false ∧ s0.unreadable 0xFFFF8 8 = false) ∧
    (s0.getTenant 0).limit - (s0.getTenant 0).base < 0xFFFF9 + 8 ∧
    ((inPst 1).awake = false ∧ (inPst 2).awake = false ∧ (inPst 3).mod.pst ≠ 4 ∧ s0.awake = true ∧
      0 ∈ ({ s0 with mod := { s0.mod with host := { s0.mod.host with insecure := [0] } } } : State).mod.host.insecure ∧
      (inPst 2).takes (portOf .physBar0) = false ∧ (inPst 3).takes (portOf (.peerBar2 0)) = false) ∧
    (atomicSize .cas 16 = true ∧ 0xFFFF0 % 16 = 0 ∧ s0.windowPlace (.bar2 0) 0xFFFF0 16 = some 0xFFFF0 ∧ s0.unreadable 0xFFFF0 16 = false ∧
      atomicSize .fetchAdd 4 = true ∧ atomicSize .swap 8 = true) ∧
    ((inPst 2).mod.pst = 2 ∧ (inPst 2).mod.perst = false) ∧
    (s0.ctxsOn .host 0 = [] ∧ s0.ctxsOn .peer 5 = [] ∧ sreq.ctxsOn .host 0 = [0] ∧ (sreq.ctx? 0).isSome = true) ∧
    (inPst 2).mod.pst ≠ 1 ∧
    ((16 : BitVec 5) ≠ 0 ∧ (16 : BitVec 5).toNat ≤ 16 ∧ (s0.ctxs.map (fun e => e.1)).Nodup ∧
      (s0.getCtx 0).tenant = (1 : BitVec 5).toNat - 1 ∧ (s0.getCtx 0).tenant ≠ (16 : BitVec 5).toNat - 1) ∧
    (bitAt (s0.getTenant (0 : BitVec 4).toNat).pba.toNat (63 : BitVec 6).toNat = false ∧
      bitAt (spba.getTenant (0 : BitVec 4).toNat).pba.toNat (63 : BitVec 6).toNat = true ∧
      (spba.getTenant 0).msixOn = true ∧ (spba.getTenant 0).msixMask = false ∧ spba.mod.host.insecure.contains 0 = false) ∧
    ((inPst 4).mod.pst ≠ 1 ∧ (inPst 4).mod.peer.gts = 0) := by decide +kernel

theorem wit_PortEvents_untracked : s0.Untracked 0xFFFF8 8 ∧ s0.Untracked 0xFFFF0 16 :=
  ⟨untracked_of (by decide +kernel), untracked_of (by decide +kernel)⟩

theorem wit_PowerEvents :
    (let s := { s0 with mod := { s0.mod with pst := 1, perst := true } }
     s.mod.pst = 1 ∧ s.mod.perst = true) ∧
    (inPst 4).mod.pst ≠ 1 ∧ (let s := { inPst 2 with mod := { (inPst 2).mod with host := { gts := 64 } } }
      s.mod.pst = 2 ∧ s.mod.perst = false ∧ s.mod.host.gts ≠ 0 ∧ (∃ i, i < 64 ∧ i ∈ [63])) ∧ ((inPst 3).mod.pst ≠ 2 ∧ (inPst 2).mod.host.gts = 0) ∧
    ((inPst 3).mod.pst = 3 ∧ (List.range 64).filter ([0].contains) ≠ [] ∧ (List.range 64).filter ([63].contains) ≠ []) ∧
    (inPst 5).mod.pst = 5 ∧ (true && false) = false ∧ (inPst 4).mod.pst = 4 ∧ (inPst 3).mod.pst ≠ 4 ∧ (s0.ctx? 0).isSome = true ∧
    ((inPst 4).getCtx 0).stopped = false := by
  refine ⟨by decide +kernel, by decide +kernel, ⟨by decide +kernel, by decide +kernel, by decide +kernel, 63, by decide +kernel, by decide +kernel⟩,
    by decide +kernel, ?_⟩
  decide +kernel

/-- A context with a quota of 5 whose period of 100 µs has passed, and a tenant whose window of 1,000 µs has. -/
def squota (bal : Int) : State :=
  { (s0.changeCtx 0 (fun c => { c with e0 := 0x500000064, bal := bal })).setTenant 0 { s0.getTenant 0 with v0 := 1000 } with time := 1000000 }

theorem wit_EnergyAndTimeEvents :
    ((s0.getTp (0 : BitVec 7).toNat).be.lastCtx = none ∧
      ((s0.setBe { s0.tp.be with lastCtx := some 0 }).getTp (0 : BitVec 7).toNat).be.lastCtx = some 0 ∧ (s0.ctx? 0).isSome = true ∧
      (s0.getCtx 0).stopped = false ∧ mayChange (inPst 4).mod.arithAt (inPst 4).time = true ∧ mayChange (some 5) 6 = false ∧ (inPst 4).mod.pst = 4 ∧ (inPst 4).mod.maxArith ≤ (0 : BitVec 2).toNat ∧ (inPst 3).mod.pst ≠ 4) ∧
    (let s := { inPst 4 with mod := { (inPst 4).mod with maxArith := 2, maxFabric := 1 } }
     (1 : BitVec 2).toNat < s.mod.maxArith ∧ (0 : BitVec 2).toNat < s.mod.maxFabric) ∧
    (∃ x, (squota (-1)).ctx? (0 : BitVec 8).toNat = some x ∧ x.stopped = false ∧ x.e0Next = none ∧ x.quota ≠ 0 ∧ x.bal < 0 ∧
      nextBoundary x.period x.lastEnd ≤ (squota (-1)).time) ∧
    (boundaryPassed 10000 (s0.getTp 0).meterAt 9999 = false ∧ boundaryPassed 10000 (s0.getTp 0).meterAt 1000000 = true ∧
      (s0.getTp 0).cur ≠ 0 ∧ ((s0.getTp 0).taskOf (s0.getTp 0).cur).ctx = 0) ∧
    (∃ x, ((squota 0).changeCtx 0 (fun c => { c with e0 := 100, e0Next := some (0x500000064, 0) })).ctx? (0 : BitVec 8).toNat = some x ∧
      x.e0Next = some (0x500000064, 0) ∧ x.quota = 0 ∧ nextBoundary (bits (0x500000064 : Dword).toNat 0 20 * 1000) 0 ≤ (squota 0).time) ∧
    (∃ x, Map.find (squota 0).tenants (0 : BitVec 4).toNat = some x ∧ boundaryPassed x.window x.lastEnd (squota 0).time = true) ∧
    (boundaryPassed 20000 (squota 0).lcAt (squota 0).time = true ∧ boundaryPassed 20000 s0.lcAt 19999 = false ∧ boundaryPassed 20000 0 20000 = true) ∧
    (((Map.find s0.mod.hbmStacks (7 : BitVec 3).toNat).getD {}).row < rowOf (some 105) ∧ rowOf (some 105) = 3 ∧
      ((Map.find s0.mod.hbmStacks 0).getD {}).row < rowOf (some 85) ∧ rowOf (some 85) ≠ 3) := by
  refine ⟨by decide +kernel, by decide +kernel, ⟨_, rfl, by decide +kernel⟩, by decide +kernel, ⟨_, rfl, by decide +kernel⟩,
    ⟨_, rfl, by decide +kernel⟩, by decide +kernel, by decide +kernel⟩

/-- A delayed write of a special function is due in cycle 9. -/
def sspec : State := s0.setEc { s0.tp.ec with clock := 9, spec := [⟨9, 3, 3, []⟩] }

theorem wit_SupervisorAndSoftErrors :
    s0.Untracked 0x10003 ([1, 2, 3] : List Byte).length ∧
    (s0.coreWorks 0 = true ∧ (inPst 2).coreWorks 0 = false ∧ s0.offDie 0x10003 3 = false ∧ s0.unreadable 0x10003 3 = false ∧
      lineOf (0x10003 + 3 - 1) = lineOf 0x10003 ∧ s0.awake = true ∧ (inPst 2).awake = false) ∧
    (let s := s0.setScalarQ 7 [5]
     0 < s.queueLen (3 : BitVec 3).toNat ∨ 0 < (s0.setScalarQ 3 [5]).queueLen (3 : BitVec 3).toNat) ∧
    (s0.ctx? (255 : BitVec 8).toNat = none ∧ s0.ctx? (0 : BitVec 8).toNat ≠ none ∧ goodE0 0x100064 = true ∧ goodE0 0x63 = false) ∧
    (inHbm 0x5FFFFFFFFF = true ∧ 0x1FFFFF < 0x200000) ∧
    (sspec.tp.ec.pushes = [] ∧ sspec.tp.ec.spec = [⟨9, 3, 3, []⟩] ∧ 9 ≤ sspec.tp.ec.clock) :=
  ⟨untracked_of (by decide +kernel), by decide +kernel, by decide +kernel, by decide +kernel, by decide +kernel, by decide +kernel⟩

/-! ### The whole machine -/

/-- A staged word's hypotheses. -/
def stA (bs : List Byte) : State := State.reset.stage .a bs
def stE (bs : List Byte) : State := State.reset.stage .e bs
def stB (bs : List Byte) : State := State.reset.stage .b bs
def focused (s : State) : State := s.focus (s.turn.tp % 128)

theorem wit_StepRunsDecoded_a :
    let f := focused (stA (leBytes 4 0x00310133))
    (stA (leBytes 4 0x00310133)).turn.agent = .ac ∧ f.powered = true ∧ f.hasTask = true ∧ f.tp.parity = false ∧ f.tp.holding = false ∧
    f.isStalled 1 = false ∧ f.tp.ac.status = .running ∧ f.oldestTrap = none ∧ f.tp.ac.svcReq = false ∧ f.ownUnits = [] ∧
    okAnd (f.fetch f.task f.tp.ac.pc.toNat 2) (fun r => leValue r.1 % 4 == 3 && okAnd (r.2.fetch r.2.task (f.tp.ac.pc.toNat + 2) 2) (fun q =>
      match Decode.decode .a (r.1 ++ q.1) with
      | .ok _ => true
      | .error _ => false)) = true ∧
    (let g := focused (stA [0, 0])
     okAnd (g.fetch g.task g.tp.ac.pc.toNat 2) (fun r => leValue r.1 % 4 != 3 && match Decode.decode .a r.1 with
       | .ok _ => false
       | .error _ => true) = true) ∧
    (let g := focused (stA [0x2E, 0x85])
     okAnd (g.fetch g.task g.tp.ac.pc.toNat 2) (fun r => leValue r.1 % 4 != 3 && match Decode.decode .a r.1 with
       | .ok _ => true
       | .error _ => false) = true) := by decide +kernel

theorem wit_StepRunsDecoded_eb :
    (let s := stE (leBytes 8 0x010006080001FFFB)
     let f := focused s
     let g := f.settleE
     s.turn.agent = .ec ∧ f.powered = true ∧ g.isStalled 2 = false ∧ g.tp.holding = false ∧ g.lateTask 2 g.tp.ec.idle = none ∧
     g.tp.ec.status = .running ∧ g.tp.atWatermark 2 g.tp.ec.since = false ∧ blocked g.tp.ec.clock g.tp.ec.pushes = false ∧
     g.tp.ec.pc.toNat % 8 = 0 ∧ g.tp.ec.a1 = false ∧ okAnd (g.fetch (g.tp.taskOf g.tp.ec.task) g.tp.ec.pc.toNat 8) (fun r => match Decode.decode .e r.1 with
       | .ok _ => true
       | .error _ => false) = true) ∧
    (let s := stB (leBytes 12 0x100506098800000000000000)
     let f := focused s
     let g := f.settleB
     s.turn.agent = .be ∧ f.powered = true ∧ g.isStalled 3 = false ∧ g.tp.holding = false ∧ g.tp.atWatermark 3 g.tp.be.since = false ∧
     g.lateTask 3 g.tp.be.idle = none ∧ g.tp.be.status = .running ∧ blocked 0 g.tp.be.pushes = false ∧
     okAnd (g.fetch (g.tp.taskOf g.tp.be.task) g.tp.be.pc.toNat 12) (fun r => r.2.tp.be.skip == 0 && match Decode.decode .b r.1 with
       | .ok _ => true
       | .error _ => false) = true) := by decide +kernel

theorem wit_StepRunsDecoded_chain :
    let s := State.reset.stage (.chain .ce) (leBytes 16 (0x20 <<< 120))
    let f := (focused s).settleHe
    let r := State.reset.stage (.chain .ce) (leBytes 16 0)
    let g := (focused r).settleHe
    s.turn.agent = ChainUnit.agent .ce ∧ f.powered = true ∧ (f.eng .ce).av = true ∧
    (match (f.chainPlans .ce)[s.turn.pick % max 1 (f.chainPlans .ce).length]? with
      | some (.run i _) => some i == Decode.decodeChain .ce (f.eng .ce).act
      | _ => false) = true ∧
    (Decode.decodeChain .ce (f.eng .ce).act).isSome = true ∧ r.turn.agent = ChainUnit.agent .ce ∧
    (g.eng .ce).running = none ∧ (g.eng .ce).blocks = [] ∧ (g.eng .ce).heads = [(0x80000, 1)] ∧ (g.eng .ce).walking = true ∧
    g.tp.usable ((g.eng .ce).ent.toNat * 16) 16 = true ∧ g.tp.bankPoisoned ((g.eng .ce).ent.toNat * 16) 16 = false ∧
    (match (g.eng .ce).ahead with
      | some (w, _) => w == 0
      | none => false) = true ∧ ((g.setEng .ce { g.eng .ce with ahead := none }).eng .ce).ahead = none ∧
    (match (g.chainPlans .ce)[r.turn.pick % max 1 (g.chainPlans .ce).length]?, g.walkEntry .ce (g.tp.taskOf 1) 0 ((g.eng .ce).ent.toNat * 16) with
      | some (.run i _), some (.run j _) => i == j
      | _, _ => false) = true ∧
    g.walkTokens .ce (g.tp.taskOf 1) 0 = true ∧ g.walkRoom .ce (g.tp.taskOf 1) 0 = true ∧ isControl 0 = true ∧ (Decode.decodeChain .ce 0).isSome = true := by
  decide +kernel

theorem wit_StepRunsDecoded_events :
    (let s := { State.reset with inputs := [.powerGood] }
     s.turn.agent = .outside ∧ s.inputs = .powerGood :: [] ∧ WellFormed.isEvent .powerGood = true) ∧
    (let s := { sl with turn := { agent := .device } }
     (focused s).deviceEvents[s.turn.pick % max 1 (focused s).deviceEvents.length]? = some .launchStart) ∧
    (let s := { smb with turn := { agent := .media } }
     (focused s).media[s.turn.pick % max 1 (focused s).media.length]? = some mcmd) := by decide +kernel

theorem wit_StepAnswersNext : ∃ t, step State.reset = .next t := ⟨_, rfl⟩

theorem wit_XenxisMajorOpcodes : Decode.decodeA32 0x146382FB = some (.hcas 1 1 6 7 5) := rfl

theorem wit_DecodeReadsEncoded :
    WellFormed.instr (.kloop { kw with count := 0xFFFF, arg := 0x80020 }) = true ∧ WellFormed.isEvent (.kloop kw) = false ∧
    (Decode.kParts (.kloop { kw with tkw := 5 })).isSome = true ∧ Decode.runsOn .ce (.kloop kw) = true ∧ Decode.tokSelf .ce (.kloop kw) = false ∧
    (5 : BitVec 3) ≠ Decode.unitCode .ce ∧ WellFormed.instr (.hcas 1 1 6 7 5) = true ∧ (Decode.eParts (.eAdd ew)).isSome = true ∧
    (Decode.bParts (.bstg bw)).isSome = true := by decide +kernel

theorem wit_StepKeepsMemoryCanonical : State.reset.MemoryOk ∧ ∃ t, step State.reset = .next t := ⟨rfl, _, rfl⟩

/-! ### Clauses of the statements with hypotheses of their own -/

/-- A join record at 0x10000 with a count of 1 and a continuation at 0x10020. -/
def sjc : State := { sj with mem := [(0x10000, 1), (0x10008, 0x20), (0x1000A, 1)] }

theorem wit_JoinDecrementsCount_continuation :
    okAnd (sjc.pieces true sjc.task.ctx 0 4 17 (sjc.getX 12).toNat 16) (fun r => match r.1 with
      | p :: _ => okAnd (((r.2.unmarked.drain (fun w => w.tp == sjc.cur && w.agent < 8 && bitAt sjc.tmask (w.agent - 1))).beforeStore
          [(p.place, List.replicate 16 0)]).homeRead sjc.task.ctx p.place 16) (fun x =>
          untrackedB x.2 p.place 4 && bits x.1 0 32 == 1 && x.1 / 2 ^ 64 == 0x10020 && okAnd (x.2.readSpace (x.1 / 2 ^ 64) 32) (fun _ => true))
      | [] => false) = true ∧
    (let k := sp.task
     let e : Entry := { pawn := (pawnOf 0).continuation k.entry.pawn.cls k.lid, ctx := k.ctx, bind := k.entry.bind, bridged := true }
     sp.serialStands (dieOf sp.cur) e.launchKey sp.nextRegion = false ∧ (sp.tp.pile k.entry.pawn.cls).ctx = some k.ctx ∧
       (sp.tp.pile k.entry.pawn.cls).chip.length < 64) := by decide +kernel

/-- A task whose pawn has a join record. -/
def stj : State := (sj.changeTask 1 (fun k => { k with entry := { k.entry with pawn := { k.entry.pawn with p2 := 0x10000 } } }))

theorem wit_TendEndsTask_join : let s := { stj with mem := [(0x10000, 2)] }
    s.tp.ac.sup = false ∧ s.tp.ac.phase ≠ .replay ∧ s.tp.maskDone s.tmask s.tp.cur = true ∧ s.task.entry.pawn.jrec ≠ 0 ∧
    okAnd ((s.setAc { s.tp.ac with decls := [] }).joinAt s.task.entry.pawn.jrec) (fun _ => true) = true := by decide +kernel

theorem wit_LaunchAndTrig_enqueue :
    let lq : LaunchQueue := { ctx := 0, desc := 0x12000 }
    let s := { s0.setX 5 0x80000 with queues := [(0, lq)], mem := Memory.write [] 0x12000 8 0x10000 }
    let n := 2 ^ bits (Memory.read s.mem (lq.desc + 8) 8) 8 5
    let widx := Memory.read s.mem (lq.desc + 16) 4
    (s.getX 5).toNat % 8 = 0 ∧ inBankB s (s.getX 5).toNat 128 = true ∧ s.tp.bankPoisoned (s.getX 5).toNat 128 = false ∧
    Map.find s.queues (s.getX 6).toNat = some lq ∧ lq.ctx = s.task.ctx ∧ s.unreadable lq.desc 64 = false ∧
    (widx + 2 ^ 32 - Memory.read s.mem (lq.desc + 24) 4) % 2 ^ 32 < n ∧ s.weak = [] ∧
    okAnd (s.pieces true s.task.ctx 0 2 129 ((Memory.read s.mem lq.desc 8 + 128 * (widx % n)) % 2 ^ 64) 128) (fun r => match r.1 with
      | [p] => s.portOpen s.task.ctx p.place && p.place + 128 ≤ lq.desc && p.len == 128
      | _ => false) = true ∧
    (({ lq with ctx := 1 } : LaunchQueue).ctx ≠ s.task.ctx ∧ Map.find s0.queues (s0.getX 6).toNat = none) := by decide +kernel

/-- An AC whose path-P writes have reached a peer, and a CE whose command a translation fault stalls. -/
def sreach : State := { s0 with tp := { s0.tp with peersReached := [(2, peerBase)] } }

theorem wit_FencesOrder_paths :
    (bitAt (33 : BitVec 6).toNat 5 = true ∧ 7 ≤ (7 : BitVec 4).toNat ∧ sreach.tp.peersReached ≠ [] ∧
      okAnd sreach.sendZeroReads (fun _ => true) = true) ∧
    (let s := { s0.setEng .ce { walked with act := 0x20 <<< 120, av := true } with faults := [{ sfault 0x09 with unit := 4 }] }
     s.pathStalled 2 = true ∧ s.pathStalled 1 = false) ∧
    bitAt (2 : BitVec 6).toNat 0 = false ∧ s0.pathStalled 2 = false := by decide +kernel

theorem wit_EStreamWords_trap :
    (se.tp.ec.task = se.tp.cur ∧ se.tp.ec.spec = [] ∧ se.tp.ec.pushes = [] ∧
      okAnd (se.eReadyScalar { ew with i := 1, imm := 5 } [] none) (fun _ => true) = true) ∧
    sspec.tp.ec.spec ≠ [] ∧ (0 ≤ se.tp.ec.clock ∧ se.tokens 2 1 < 15) := by decide +kernel

theorem wit_SpecialFunctionsWriteLate_due :
    sspec.tp.ec.spec = [⟨9, 3, 3, []⟩] ∧ 9 ≤ sspec.tp.ec.clock ∧
    (let s := s0.setEc { s0.tp.ec with clock := 8, spec := [⟨9, 3, 3, []⟩] }
     s.tp.ec.spec = [⟨9, 3, 3, []⟩] ∧ s.tp.ec.clock < 9) := by decide +kernel

/-- The tensors of the tile-level BSTG above. -/
def stile : State := (sb.changeTask 1 (fun k => { k with tit := [(5, entry 5 0x100000 32 64 64), (6, entry 5 0x180000 16 64 64),
  (9, entry 5 0x104000 32 64 64)] })).setSd 0 1

theorem wit_TileAndAccumulatorWords_pairs : let w : BWord := { ws with lvl := 1 }
    okAnd (stile.bReadyTile w) (fun r => match r.1.tin, r.1.twt, r.1.tout with
      | some a, some t, some o =>
        let d := (r.2.getSd (w.str.toNat % 8)).toNat
        0 < d && a.tiles % (2 * d) == 0 && a.tiles / 2 == 1 && okAnd (r.2.tilePair w a t o 0 0 1) (fun _ => true) &&
          okAnd (r.2.bankTile a 0 64) (fun _ => true) && okAnd (r.2.bankTile a 1 64) (fun _ => true) &&
          okAnd (r.2.stageWeights t (w.woff.toNat + 4 * 0) 256) (fun _ => true)
      | _, _, _ => false) = true ∧
    (let o := Tensor.ofDwords (entry 8 0x104000 16 64 256)
     o.fmt.width = 32 ∧ 4 * o.cols ≤ o.rstr ∧ (o.tileAt 0).2.1 + 1023 / 64 < o.rows ∧ (o.tileAt 0).2.2 + 1023 % 64 < o.cols) := by
  decide +kernel

/-- T8, T9 as squares of 64 words, to be transposed. -/
def sxps : State := s0.setEng .ce { sc.eng .ce with tits := [(8, entry 8 0x108000 64 64 256), (9, entry 8 0x100000 64 64 256)] }

theorem wit_CopyCommands_bytes :
    (let t := Tensor.ofDwords (entry 8 0x100000 16 64 256)
     t.spm ≠ 5 ∧ t.kind = 2 ∧ t.fcode = 8) ∧
    with2 (sxps.namedAll .ce [9, 8]) (fun a b =>
      let w : KWord := { kw with ta := 9, tb := 8, count := 1 }
      let from_ := b.rowStart 0 (cxpsRow w) + 4 * cxpsCol w
      let to_ (c : Nat) : Nat := a.rowStart 0 (cxpsCol w + c) + 4 * cxpsRow w
      localB sxps a && localB sxps b && 0 < b.planes * 128 && 0 < a.planes && cxpsRow w < b.rows && cxpsCol w + 32 ≤ b.cols &&
        cxpsCol w + 32 ≤ a.rows && cxpsRow w < a.cols && 4 * a.cols ≤ a.rstr && sxps.tp.usable from_ 128 &&
        !sxps.tp.bankPoisoned from_ 128 && (cxpsSource w b).all (fun r => (List.range 32).all (fun c =>
          to_ c + 12 ≤ r.1 / 8 * 8 || r.1 + r.2 + 8 ≤ to_ c))) = true := by decide +kernel

/-- A list of the motion-compensated copy: T8 and T9 lie in the store of stream 3 (KIND 3, R161). -/
def smot : State :=
  let far (a : Nat) : List Dword :=
    [BitVec.ofNat 64 (8 + 3 * 16 + 3 * 2 ^ 44), BitVec.ofNat 64 a, 0x1000000040, BitVec.ofNat 64 (2 ^ 48 + 256), 0, 0x3F800000, 0, 0]
  let s := s0.changeTask 1 (fun k => { k with strm := some (3, 0) })
  { s.setEng .ce { sc.eng .ce with tits := [(8, far 0), (9, far 0x1000), (256, [4, 4])] } with
    mem := Memory.write (Memory.write [] 0x20000 8 0x11000) 0x20010 8 0x4000
    streams := [(3, { ctx := 0, record := 0x20000, vde := ⟨false, 0, 5⟩, codec := .h264 })] }

theorem wit_CopyCommands_motion :
    with2 (smot.namedAll .ce [9, 8]) (fun a b =>
      let e := ListEntry.ofArg 0
      match e.source ⟨4, 4⟩ 0 0 with
      | some (sx, sy) =>
        let m : LayerMap := ⟨4, 4⟩
        let ts := sy.toNat / 4 * m.ntx + sx.toNat / 4
        let td := e.yt * m.ntx + e.xt
        let from_ := b.rowStart (b.tileAt ts).1 ((b.tileAt ts).2.1 + (4 * (sy.toNat % 4) + sx.toNat % 4)) + 4 * (b.tileAt ts).2.2
        let to_ := a.rowStart (a.tileAt td).1 (a.tileAt td).2.1 + 4 * (a.tileAt td).2.2
        [a, b].all (fun t => t.kind == 3 && t.fcode == 8 && t.spm != 5 && t.aspace == 0) &&
          b.inside (b.tileAt ts).1 ((b.tileAt ts).2.1 + (4 * (sy.toNat % 4) + sx.toNat % 4)) (b.tileAt ts).2.2 32 == 32 &&
          a.inside (a.tileAt td).1 (a.tileAt td).2.1 (a.tileAt td).2.2 32 == 32 && smot.tp.stale == [] &&
          okAnd (smot.pieces true (smot.work .ce).ctx 0 1 129 (from_ % 2 ^ 64) 128) (fun r => match r.1 with
            | [src] => src.len == 128 && !src.zero && inHbm src.place && !smot.unreadable src.place 128 &&
              okAnd (r.2.pieces true (smot.work .ce).ctx 0 2 129 (to_ % 2 ^ 64) 128) (fun q => match q.1 with
                | [dst] => dst.len == 128 && inHbm dst.place
                | _ => false)
            | _ => false)
      | none => false) = true := by decide +kernel

/-- Two indices 0, and the second unit of a command of two; ISCA's first and second unit. -/
def siAt (k : Nat) (kept : List Dword) (more : List (Nat × List Dword)) : State := si.setEng .ie { si.eng .ie with
  aprg := BitVec.ofNat 64 (k + 1), tits := more.foldl (fun m e => Map.put m e.1 e.2) (Map.put (si.eng .ie).tits 256 kept) }
def wi2 : KWord := { wi with count := 2 }

theorem wit_IndexCommands_scatter :
    (let s := siAt 1 [] []
     (s.eng .ie).unitAt = 1 ∧ with3 (s.namedAll .ie [wi2.ta, wi2.tb, wi2.tc]) (fun a b c =>
       okAnd (s.indexAt whoI wi2 c a 1) (fun r => r.1 == some 0 && okAnd (r.2.namedBefore whoI wi2 c 0 1) (fun x => x) &&
         okAnd (r.2.takeBool.2.getElem whoI b (voffOf wi2 + 1)) (fun q => okAnd (q.2.putElem whoI a 0 q.1) (fun _ => true)))) = true) ∧
    (let s := (siAt 0 [] []).writeBank 0x108000 [0xFF, 0xFF, 0xFF, 0xFF]
     with3 (s.namedAll .ie [wi.ta, wi.tb, wi.tc]) (fun a _ c => okAnd (s.indexAt whoI wi c a 0) (fun r => r.1 == none)) = true) ∧
    (let s := siAt 0 [] []
     (s.eng .ie).unitAt % 2 = 0 ∧ (s.eng .ie).unitAt < 2 * wi.count.toNat ∧
     with3 (s.namedAll .ie [wi.ta, wi.tb, wi.tc]) (fun a _ c => localB s a && localB s c && ioffOf wi + 0 < c.elements &&
       leValue (s.shownBank (wordAt c (ioffOf wi + 0)) 4) == 0 && 0 < a.elements) = true) ∧
    (∀ kept ∈ [([] : List Dword), [1, 7]], let s := siAt 1 kept []
     (s.eng .ie).unitAt % 2 = 1 ∧ (s.eng .ie).unitAt < 2 * wi.count.toNat ∧ s.scaKept 0 = (if kept = [] then 0 else 0 + 1) ∧
     with3 (s.namedAll .ie [wi.ta, wi.tb, wi.tc]) (fun a b _ => localB s a && localB s b && voffOf wi + 0 < b.elements &&
       0 < a.elements) = true) ∧
    (let s := siAt 1 [1] [(6, [0x18, 0x10000, 0x1000000040, 0x1000000000100, 0, 0x3F800000, 0, 0])]
     let w : KWord := { wi with ta := 6, arg := 0x5000000000000000 }
     with3 (s.namedAll .ie [w.ta, w.tb, w.tc]) (fun a b _ => a.kind != 2 && s.scaKept 0 == 0 + 1 &&
       okAnd (s.getElem whoI b (voffOf w + 0)) (fun r => okAnd (r.2.addHome whoI (bits w.arg.toNat 60 4) a 0 r.1) (fun _ => true))) = true) := by
  decide +kernel

theorem wit_EnergyAndTimeEvents_shares :
    (fillerOn 260 0 [0] = [] ∧ fillerOn 260 100 [0] = [(0, 100)] ∧ 100 ≤ 260 * [0].length ∧
      ((s0.setBe { s0.tp.be with lastCtx := some 0 }).getTp 0).be.lastCtx = some 0) ∧
    ((1 : BitVec 2) ≠ 3 ∧ (inPst 4).mod.maxFabric ≤ (1 : BitVec 2).toNat ∧ mayChange (inPst 4).mod.fabricAt (inPst 4).time = true) ∧
    (∀ ran ∈ [([] : List Nat), [0], [0, 1]], let s : State := { s0 with
        time := 1000000, tp := { s0.tp with ran := ran }, ctxs := Map.put s0.ctxs 1 (s0.getCtx 0) }
      boundaryPassed 10000 (s.getTp 0).meterAt s.time = true ∧ (s.getTp 0).ran = ran ∧
        ran.all (fun c => (s.ctx? c).any (fun x => !x.stopped)) = true) := by decide +kernel

theorem wit_SupervisorAndSoftErrors_core :
    (s0.coreWorks 3 = true ∧ s0.offDie 0x10004 8 = false ∧ (unitsOf 0x10004 (List.replicate 8 (0 : Byte))).length = 2 ∧
      (unitsOf 0x10000 (List.replicate 8 (0 : Byte))).length ≤ 1 ∧ s0.weak = []) ∧
    (let s := s0.changeCtx 0 (fun c => { c with stopped := true, owed := true, fatal := some [0x63] })
     ∃ x, s.ctx? 0 = some x ∧ x.owed = true ∧ x.fatal = some [0x63]) ∧
    (∃ x, s0.ctx? 0 = some x ∧ (x.upToDate s0.time).quota = 0) ∧ s0.awake = true ∧
    (∀ d ∈ s0.tp.ec.spec, d.due ≤ s0.tp.ec.clock) := by
  refine ⟨by decide +kernel, ⟨_, rfl, by decide +kernel⟩, ⟨_, rfl, by decide +kernel⟩, by decide +kernel, by decide +kernel⟩

/-- A store of the AC with two units still to perform, and an engine that walks what the banks held when its window closed. -/
def sown : State := { stA [] with weak := [{ tp := 0, agent := 1, path := 0, ctx := 0, lid := 0, place := 0x10000, bytes := [1] }] }

theorem wit_StepRunsDecoded_more :
    (let f := focused sown
     sown.turn.agent = .ac ∧ f.powered = true ∧ f.tp.parity = false ∧ f.ownUnits ≠ []) ∧
    (let f := focused ((stA []).setAc { (stA []).tp.ac with rows := [[]] })
     f.tp.ac.atBoundary = false) ∧
    (let r := State.reset.stage (.chain .ce) (leBytes 16 0)
     let r := r.setEng .ce { r.eng .ce with ahead := none, closed := some r.tp.banks }
     let g := (focused r).settleHe
     (g.eng .ce).ahead = none ∧ (g.eng .ce).closed = some r.tp.banks ∧ (g.eng .ce).running = none ∧ (g.eng .ce).walking = true ∧
       (g.eng .ce).heads = [(0x80000, 1)]) ∧
    (let s := { (sl.changeCtx 0 (fun c => { c with owed := true, stopped := true, fatal := some [] })) with turn := ⟨0, .device, 0⟩ }
     (focused s).owing[s.turn.pick % max 1 ((focused s).owing.length + (focused s).deviceEvents.length)]? = some 0) ∧
    (let s := { sl with turn := ⟨0, .device, 0⟩ }
     (focused s).owing = [] ∧ (focused s).deviceEvents[s.turn.pick % max 1 (0 + (focused s).deviceEvents.length) - 0]? = some .launchStart) := by
  decide +kernel

end Sys2Proof.Tests
end

section
/-!
PROOF. What leaves the module at a save. A write behind a port leaves it as a posted write when it is performed (R226), and a
save performs the pending writes of its TP before it reports the context saved (R223, R261): where one of them lies behind a
port, the report is not all that leaves.
-/
namespace Sys2Proof.Machine
namespace State

/-! ## What leaves the module -/

theorem out_of_calm {s t : State} (h : t.calm = s.calm) : t.out = s.out := congrArg (fun x => x.out) h

theorem putBytes_out (s : State) (p : Nat) (bs : List Byte) : (s.putBytes p bs).out = s.out := by
  unfold putBytes
  dsimp only
  split <;> rfl

theorem performWeak_out (s : State) (p : Nat) (bs : List Byte) : (s.performWeak p bs).out = s.out := putBytes_out s p bs

theorem sendPosted_out_of_port (s : State) (ctx space p n : Nat) (h : inHbm p = false) :
    (s.sendPosted ctx space p n).out = s.out ++ [.posted (s.attrOf ctx space p) (s.linkOf ctx space) p n] := by
  simp [sendPosted, h, emit]

/-- A write of a path other than C to a place behind a port leaves the module when it is performed (R226). -/
theorem performOne_out_of_port (s : State) (w : WeakWrite) (hpath : w.path ≠ 0) (hport : inHbm w.place = false) :
    ∃ attr link, (s.performOne w).out = s.out ++ [.posted attr link w.place w.bytes.length] := by
  have hrevoked : ((s.trackedLines w.place w.bytes.length).foldl revokeLine s).out = s.out :=
    foldl_keeps (fun t => t.out = s.out) revokeLine (fun _ _ h => h) _ s rfl
  unfold performOne
  dsimp only
  rw [if_pos (bne_iff_ne.mpr hpath)]
  exact ⟨_, _, (sendPosted_out_of_port _ _ _ _ _ hport).trans (congrArg (· ++ _) ((performWeak_out _ _ _).trans hrevoked))⟩

/-- The only pending write is performed by a drain that asks for it, whether or not its lines are tracked (R224). -/
theorem drain_of_single (s : State) (w : WeakWrite) (f : WeakWrite → Bool) (hweak : s.weak = [w]) (hw : f w = true) :
    s.drain f = ({ s with weak := [] } : State).performOne w := by
  have hsplit : splitWeak f s.weak = ([w], []) := by simp [splitWeak, hweak, hw]
  unfold drain
  dsimp only
  rw [hsplit, hweak, if_neg (by simp), ite_self]
  rfl

theorem evictAll_calm (s : State) (f : CLine → Bool) : (s.evictAll f).calm = s.calm := foldl_calm evict evict_calm _ s

/-- A save sends what its pending writes send, and then reports the context saved (R261). -/
theorem save_out (s : State) (k : Task) :
    (s.save k).out = (s.drain (fun w => w.tp == s.cur && w.agent < 8)).out ++
      [.saved (s.drain (fun w => w.tp == s.cur && w.agent < 8)).cur k.ctx] := by
  have hcalm := evictAll_calm (s.drain (fun w => w.tp == s.cur && w.agent < 8)) (fun _ => true)
  rw [← out_of_calm hcalm, ← cur_of_calm hcalm]
  rfl

/-- The running task is saved once its units stand, past its commit point (R260, R261). -/
theorem contextSaved_of_saveReady (s : State) (htask : s.hasTask = true) (hask : s.tp.preempt ≠ none) (hrole : s.tp.role = none)
    (hphase : s.tp.ac.phase ≠ .replay) (hready : s.saveReady = true) : exec .contextSaved s = .next (s.save s.task) := by
  show execContextSaved s = _
  simp [execContextSaved, saveTask, htask, hask, hrole, hphase, hready]

end State

/-! ## A save with a write to the host pending -/

/-- A task of context 0 past its commit point that has been asked to give way, and whose copy engine has written a byte to a
host address (`State.weakWrite`, as `State.gWrite` has it after the translation): the write is still pending, and no unit has
anything left to do. -/
def hostWritePending : State :=
  let s := State.reset.ready []
  let s : State := { s with tp := { s.tp with preempt := some .quota } }
  s.weakWrite (s.whoOf .ce s.task 1) hostBase [1] 1

/-- The write that is pending there. -/
def hostWrite : WeakWrite := { tp := 0, agent := 4, path := 1, ctx := 0, lid := 0, place := hostBase, bytes := [1], space := 1 }

theorem hostWritePending_weak : hostWritePending.weak = [hostWrite] := by decide +kernel

theorem hostWritePending_ready : hostWritePending.hasTask = true ∧ hostWritePending.tp.preempt ≠ none ∧
    hostWritePending.tp.role = none ∧ hostWritePending.tp.ac.phase ≠ .replay ∧ hostWritePending.saveReady = true := by
  decide +kernel

/-- The save sends the write to the host before the report. -/
theorem save_hostWritePending_out : ∃ attr link tp, (hostWritePending.save hostWritePending.task).out =
    hostWritePending.out ++ [.posted attr link hostBase 1] ++ [.saved tp hostWritePending.task.ctx] := by
  obtain ⟨attr, link, hout⟩ := State.performOne_out_of_port { hostWritePending with weak := [] } hostWrite (by decide) (by decide)
  rw [State.save_out, State.drain_of_single _ _ _ hostWritePending_weak (by decide +kernel), hout]
  exact ⟨attr, link, _, rfl⟩

/-- Refutes O48: the statement says that the report of the save is all that leaves the module, `t.out = s.out ++ [.saved …]`.
In `hostWritePending` the save performs the copy engine's pending write to the host, as R223 and R261 ask, and that write leaves
as a posted write before the report (R226). -/
theorem not_roleChangesAndPreemption : ¬ Obligations.RoleChangesAndPreemption := by
  unfold Obligations.RoleChangesAndPreemption
  intro h
  obtain ⟨-, -, -, -, -, -, -, -, -, -, -, -, -, -, hsave, -⟩ := h hostWritePending 0 .ce
  obtain ⟨htask, hask, hrole, hphase, hready⟩ := hostWritePending_ready
  obtain ⟨-, -, hsaved⟩ := hsave htask hask hrole
  obtain ⟨t, i, hexec, -, -, -, -, -, -, -, -, -, -, -, -, -, hreport⟩ := hsaved hphase hready
  rw [State.contextSaved_of_saveReady _ htask hask hrole hphase hready] at hexec
  cases hexec
  obtain ⟨attr, link, tp, hout⟩ := save_hostWritePending_out
  have hlength := congrArg List.length (hreport.symm.trans hout)
  simp at hlength

end Sys2Proof.Machine
end

section
/-!
PROOF. Token FIFOs (R111): what a push and a pop do to the FIFO that they name and what they leave, the token words of the
A stream by them (R427), and the numbering of the FIFOs.
-/
namespace Sys2Proof.Machine

/-! ## The numbering of the FIFOs -/

/-- An ordered pair of distinct units joined by a FIFO. -/
structure FifoPair (p c : Nat) : Prop where
  producer_pos : 1 ≤ p
  producer_le : p ≤ 6
  consumer_pos : 1 ≤ c
  consumer_le : c ≤ 6
  distinct : p ≠ c

theorem tokenIndex_lt {p c : Nat} (h : FifoPair p c) : tokenIndex p c < 30 := by
  obtain ⟨hp, hp6, hc, hc6, hne⟩ := h
  unfold tokenIndex
  split <;> omega

/-- A producer's five FIFOs stand together in the order of their consumers, so that the index tells both. -/
theorem tokenIndex_inj {p c q d : Nat} (h : FifoPair p c) (h' : FifoPair q d) (heq : tokenIndex q d = tokenIndex p c) :
    q = p ∧ d = c := by
  obtain ⟨hp, hp6, hc, hc6, hne⟩ := h
  obtain ⟨hq, hq6, hd, hd6, hne'⟩ := h'
  unfold tokenIndex at heq
  split at heq <;> split at heq <;> omega

namespace State

/-! ## Setting the count of one FIFO -/

theorem tokens_le (s : State) (p c : Nat) : s.tokens p c ≤ 15 := Nat.le_of_lt_succ (BitVec.isLt _)

theorem tokens_setTokens_self (s : State) (p c : Nat) {n : Nat} (h : n ≤ 15) : (s.setTokens p c n).tokens p c = n := by
  rw [tokens, setTokens_tp_tokens, Sparse.get_set_self, BitVec.toNat_ofNat]
  exact Nat.mod_eq_of_lt (Nat.lt_succ_of_le h)

theorem tokens_setTokens_ne (s : State) {p c q d : Nat} (n : Nat) (h : tokenIndex q d ≠ tokenIndex p c) :
    (s.setTokens p c n).tokens q d = s.tokens q d := by
  rw [tokens, setTokens_tp_tokens, Sparse.get_set_ne _ _ _ _ h, tokens]

end State

/-- The access core is unchanged when its record is, the count of TOKP's pushes still to make aside. -/
theorem sameAc_of_ac {s t : State} (k : Nat) (h : t.tp.ac = { s.tp.ac with tokpLeft := k }) : SameAc s t [] := by
  constructor <;> simp [State.getX, State.getF, h]

/-- What a token operation of the A stream does: the FIFO from `p` to `c` holds `n` tokens after it, and every other FIFO, the
access core's registers and pc, memory and the banks are as before. -/
structure FifoSet (s t : State) (p c n : Nat) : Prop where
  held : t.tokens p c = n
  others : ∀ q d, tokenIndex q d ≠ tokenIndex p c → t.tokens q d = s.tokens q d
  pc : t.tp.ac.pc = s.tp.ac.pc
  ac : SameAc s t []
  mem : SameMemory s t
  banks : t.tp.banks = s.tp.banks

namespace FifoSet

theorem trans {s t u : State} {p c m n : Nat} (h1 : FifoSet s t p c m) (h2 : FifoSet t u p c n) : FifoSet s u p c n where
  held := h2.held
  others q d h := (h2.others q d h).trans (h1.others q d h)
  pc := h2.pc.trans h1.pc
  ac := h1.ac.trans h2.ac
  mem a := (h2.mem a).trans (h1.mem a)
  banks := h2.banks.trans h1.banks

end FifoSet

namespace State

/-! ## Pushes and pops -/

theorem fifoSet_refl (s : State) (p c : Nat) : FifoSet s s p c (s.tokens p c) :=
  ⟨rfl, fun _ _ _ => rfl, rfl, sameAc_of_ac _ rfl, fun _ => rfl, rfl⟩

theorem fifoSet_setTokens (s : State) (p c : Nat) {n : Nat} (h : n ≤ 15) : FifoSet s (s.setTokens p c n) p c n :=
  ⟨s.tokens_setTokens_self p c h, fun _ _ => s.tokens_setTokens_ne n, rfl, sameAc_of_ac _ rfl, fun _ => rfl, rfl⟩

/-- A pop counts down, and besides only ends the earlier values of the banks that its consumer may have seen (R114). -/
theorem fifoSet_takeTokens (s : State) (p c n : Nat) : FifoSet s (s.takeTokens p c n) p c (s.tokens p c - n) := by
  obtain ⟨held, others, pc, ac, mem, banks⟩ := s.fifoSet_setTokens p c (Nat.le_trans (Nat.sub_le _ n) (s.tokens_le p c))
  exact ⟨held, others, pc, sameAc_of_ac _ rfl, mem, banks⟩

theorem fifoSet_setTokpLeft (s : State) (p c k : Nat) :
    FifoSet s (s.setAc { s.tp.ac with tokpLeft := k }) p c (s.tokens p c) :=
  ⟨rfl, fun _ _ _ => rfl, rfl, sameAc_of_ac k rfl, fun _ => rfl, rfl⟩

/-- Where 15 hold them, all the pushes are made at once. -/
theorem pushTokens_of_room {p c n : Nat} (s : State) (h : s.tokens p c + n ≤ 15) :
    ∃ t, s.pushTokens p c n = (t, 0) ∧ FifoSet s t p c (s.tokens p c + n) := by
  induction n generalizing s with
  | zero => exact ⟨s, rfl, s.fifoSet_refl p c⟩
  | succ n ih =>
    have hset := s.fifoSet_setTokens p c (n := s.tokens p c + 1) (by omega)
    obtain ⟨t, hpush, ht⟩ := ih (s.setTokens p c (s.tokens p c + 1)) (by rw [hset.held]; omega)
    rw [hset.held, Nat.add_right_comm, Nat.add_assoc] at ht
    refine ⟨t, ?_, hset.trans ht⟩
    have hone : s.pushToken p c = some (s.setTokens p c (s.tokens p c + 1)) := if_pos (by omega)
    rw [pushTokens, hone]
    exact hpush

/-- The A stream's work is always the running task's, so that its pops wait for tokens alone (R115). -/
theorem popTokens_access (s : State) (p n : Nat) :
    s.popTokens p 1 n = if n ≤ s.tokens p 1 then .ok (s.takeTokens p 1 n) else .error .wait := by
  simp [popTokens, Tp.ownStream, Tp.streamOf]

/-! ## The token words of the A stream (R427) -/

theorem exec_tokp_of_room (s : State) (u : BitVec 3) (n : BitVec 4) (hleft : s.tp.ac.tokpLeft = 0)
    (hroom : s.tokens 1 u.toNat + n.toNat ≤ 15) :
    ∃ t, exec (.tokp u n) s = .next (t.setPc (t.tp.ac.pc + 4)) ∧
      FifoSet s t 1 u.toNat (s.tokens 1 u.toNat + n.toNat) := by
  obtain ⟨t, hpush, ht⟩ := s.pushTokens_of_room hroom
  have hclear := t.fifoSet_setTokpLeft 1 u.toNat 0
  rw [ht.held] at hclear
  refine ⟨_, ?_, ht.trans hclear⟩
  show execTokp u n s = _
  simp [execTokp, acStep, hleft, hpush]

theorem exec_tokw_of_held (s : State) (u : BitVec 3) (n : BitVec 4) (h : n.toNat ≤ s.tokens u.toNat 1) :
    exec (.tokw u n) s = .next ((s.takeTokens u.toNat 1 n.toNat).setPc ((s.takeTokens u.toNat 1 n.toNat).tp.ac.pc + 4)) := by
  show execTokw u n s = _
  simp [execTokw, acStep, popTokens_access, h]

theorem exec_tokw_waits (s : State) (u : BitVec 3) (n : BitVec 4) (h : s.tokens u.toNat 1 < n.toNat) :
    exec (.tokw u n) s = .next s := by
  show execTokw u n s = _
  simp [execTokw, acStep, popTokens_access, stopUnit, Nat.not_le.mpr h]

end State

/-- A word that sets the count of one FIFO and goes on to the next word of 32 bits, as a statement tells it. -/
theorem FifoSet.next {i : Instr} {s t : State} {p c n : Nat} (h : FifoSet s t p c n) (hpair : FifoPair p c)
    (hexec : exec i s = .next (t.setPc (t.tp.ac.pc + 4))) :
    ∃ t, exec i s = .next t ∧ t.tokens p c = n ∧
      (∀ q d, 1 ≤ q → q ≤ 6 → 1 ≤ d → d ≤ 6 → q ≠ d → (q, d) ≠ (p, c) → t.tokens q d = s.tokens q d) ∧
      t.tp.ac.pc = s.tp.ac.pc + 4 ∧ SameAc s t [] ∧ SameMemory s t ∧ t.tp.banks = s.tp.banks := by
  refine ⟨_, hexec, h.held, ?_, congrArg (· + 4) h.pc, h.ac.trans (sameAc_setPc _ _), h.mem, h.banks⟩
  intro q d hq hq6 hd hd6 hne hother
  refine h.others q d (fun heq => hother ?_)
  obtain ⟨hproducer, hconsumer⟩ := tokenIndex_inj hpair ⟨hq, hq6, hd, hd6, hne⟩ heq
  rw [hproducer, hconsumer]

/-- Settles O22: each token word sets the count of the FIFO that it names (`FifoSet`), and the index tells the FIFOs apart. -/
theorem tokensOfAStream : Obligations.TokensOfAStream := by
  unfold Obligations.TokensOfAStream
  refine ⟨fun u n s hu hu6 => ⟨fun hleft hroom => ?_, fun hheld => ?_, s.exec_tokw_waits u n⟩, ?_⟩
  · obtain ⟨t, hexec, ht⟩ := s.exec_tokp_of_room u n hleft hroom
    exact ht.next ⟨Nat.le_refl 1, by omega, by omega, hu6, by omega⟩ hexec
  · exact (s.fifoSet_takeTokens u.toNat 1 n.toNat).next ⟨by omega, hu6, Nat.le_refl 1, by omega, by omega⟩ (s.exec_tokw_of_held u n hheld)
  · intro p c hp hp6 hc hc6 hne
    have hpair : FifoPair p c := ⟨hp, hp6, hc, hc6, hne⟩
    exact ⟨rfl, tokenIndex_lt hpair, fun s => s.tokens_le p c,
      fun q d hq hq6 hd hd6 hne' => tokenIndex_inj hpair ⟨hq, hq6, hd, hd6, hne'⟩⟩

end Sys2Proof.Machine
end

section
/-!
PROOF. The custom major opcodes (R303): what stands under each of them in a word of 32 bits that decodes.
-/
namespace Sys2Proof.Decode

/-! ## What the statement tells apart -/

def IsHld (i : Instr) : Prop := ∃ hn imm rs1 wd rd, i = .hld hn imm rs1 wd rd
def IsHst (i : Instr) : Prop := ∃ hn imm rs1 rs2 wd, i = .hst hn imm rs1 rs2 wd ∨ i = .hstRl hn imm rs1 rs2 wd
def IsHamo (i : Instr) : Prop := ∃ o ty hn rs2 rs1 rd, i = .hamo o ty hn rs2 rs1 rd
def IsRiscV (i : Instr) : Prop := i = .sret ∨ ∃ v, i = .rv64gc v

/-- The custom major opcode that R303 gives to a Xenxis mnemonic; a RISC-V word has none. It is asked of A-stream words of 32 bits
only, of which custom-3 takes what the rest of the table leaves. -/
def customOpcode : Instr → Option (BitVec 7)
  | .hld .. => some 0b0001011
  | .hst .. | .hstRl .. => some 0b0101011
  | .hamo .. => some 0b1011011
  | .sret | .rv64gc _ => none
  | _ => some 0b1111011

theorem IsHld.opcode {i : Instr} (h : IsHld i) : customOpcode i = some 0b0001011 := by
  obtain ⟨_, _, _, _, _, rfl⟩ := h
  rfl

theorem IsHst.opcode {i : Instr} (h : IsHst i) : customOpcode i = some 0b0101011 := by
  obtain ⟨_, _, _, _, _, rfl | rfl⟩ := h <;> rfl

theorem IsHamo.opcode {i : Instr} (h : IsHamo i) : customOpcode i = some 0b1011011 := by
  obtain ⟨_, _, _, _, _, _, rfl⟩ := h
  rfl

theorem IsRiscV.opcode {i : Instr} (h : IsRiscV i) : customOpcode i = none := by
  obtain rfl | ⟨_, rfl⟩ := h <;> rfl

/-! ## The custom-3 words -/

/-- A form whose fields are checked. -/
theorem eq_of_ite_some {b : Bool} {i j : Instr} (h : (if b then some j else none) = some i) : j = i :=
  Option.some.inj (Option.ite_none_right_eq_some.mp h).2

/-- Every form of the groups of R306 is a custom-3 mnemonic: the decoder takes the group by funct3, then the form by the
group's selector. -/
theorem customOpcode_of_decodeCustom3 {w : BitVec 32} {i : Instr} (h : decodeCustom3 w = some i) :
    customOpcode i = some 0b1111011 := by
  unfold decodeCustom3 at h
  dsimp only at h
  split at h
  -- HCAS; then the group in which every selector has a form
  case h_1 => cases eq_of_ite_some h; rfl
  case h_2 => split at h <;> cases eq_of_ite_some h <;> rfl
  -- the work group, whose selector 0 is CHAIN with the unit in its own field
  case h_4 =>
    split at h
    case h_1 =>
      split at h
      · split at h <;> cases h <;> rfl
      · cases h
    case h_11 => cases h
    all_goals cases eq_of_ite_some h; rfl
  case h_7 => cases h
  -- the groups with checked forms and reserved selectors
  all_goals
    split at h <;> simp only [Option.ite_none_right_eq_some, Option.some.injEq, reduceCtorEq] at h
    all_goals
      obtain ⟨-, rfl⟩ := h
      rfl

/-! ## Words of 32 bits -/

/-- The decoder's choice by major opcode, before the check of the fields. -/
theorem decodeRaw32_cases {w : BitVec 32} {i : Instr} (h : decodeRaw32 w = some i) :
    (fld w 0 7 = 0b0001011 ∧ IsHld i) ∨ (fld w 0 7 = 0b0101011 ∧ IsHst i) ∨ (fld w 0 7 = 0b1011011 ∧ IsHamo i) ∨
      (fld w 0 7 = 0b1111011 ∧ customOpcode i = some 0b1111011) ∨
      (fld w 0 7 ≠ 0b0001011 ∧ fld w 0 7 ≠ 0b0101011 ∧ fld w 0 7 ≠ 0b1011011 ∧ fld w 0 7 ≠ 0b1111011) ∧ IsRiscV i := by
  unfold decodeRaw32 at h
  split at h
  next hop =>
    cases h
    exact .inl ⟨BitVec.eq_of_toNat_eq hop, _, _, _, _, _, rfl⟩
  next hop =>
    refine .inr (.inl ⟨BitVec.eq_of_toNat_eq hop, ?_⟩)
    dsimp only at h
    split at h <;> cases h
    · exact ⟨_, _, _, _, _, .inr rfl⟩
    · exact ⟨_, _, _, _, _, .inl rfl⟩
  next hop =>
    cases h
    exact .inr (.inr (.inl ⟨BitVec.eq_of_toNat_eq hop, _, _, _, _, _, _, rfl⟩))
  next hop => exact .inr (.inr (.inr (.inl ⟨BitVec.eq_of_toNat_eq hop, customOpcode_of_decodeCustom3 h⟩)))
  next h0 h1 h2 h3 =>
    refine .inr (.inr (.inr (.inr ⟨⟨mt (congrArg _) h0, mt (congrArg _) h1, mt (congrArg _) h2, mt (congrArg _) h3⟩, ?_⟩)))
    split at h
    · cases h
      exact .inl rfl
    · obtain ⟨v, -, rfl⟩ := Option.map_eq_some_iff.mp h
      exact .inr ⟨_, rfl⟩

theorem decodeRaw32_of_decodeA32 {w : BitVec 32} {i : Instr} (h : decodeA32 w = some i) : decodeRaw32 w = some i := by
  unfold decodeA32 checked at h
  split at h
  next hraw => exact hraw.trans (Option.ite_none_right_eq_some.mp h).2
  next => cases h

/-- Settles O58: the decoder chooses by the major opcode (`decodeRaw32_cases`), and no mnemonic stands under two of them. -/
theorem xenxisMajorOpcodes : Obligations.XenxisMajorOpcodes := by
  unfold Obligations.XenxisMajorOpcodes
  intro w i h
  show (fld w 0 7 = _ ↔ IsHld i) ∧ (fld w 0 7 = _ ↔ IsHst i) ∧ (fld w 0 7 = _ ↔ IsHamo i) ∧
    (fld w 0 7 = _ ↔ ¬IsHld i ∧ ¬IsHst i ∧ ¬IsHamo i ∧ ¬IsRiscV i)
  obtain ⟨hop, hi⟩ | ⟨hop, hi⟩ | ⟨hop, hi⟩ | ⟨hop, hi⟩ | ⟨hop, hi⟩ :=
    decodeRaw32_cases (decodeRaw32_of_decodeA32 h)
  · simp [hop, hi, hi.opcode, mt IsHst.opcode, mt IsHamo.opcode]
  · simp [hop, hi, hi.opcode, mt IsHld.opcode, mt IsHamo.opcode]
  · simp [hop, hi, hi.opcode, mt IsHld.opcode, mt IsHst.opcode]
  · simp [hop, hi, mt IsHld.opcode, mt IsHst.opcode, mt IsHamo.opcode, mt IsRiscV.opcode]
  · simpa [hi, hi.opcode, mt IsHld.opcode, mt IsHst.opcode, mt IsHamo.opcode] using hop

end Sys2Proof.Decode
end

section
/-!
PROOF. The scalar and predicate words of the E stream that issue (R316): how such a word ends, what it writes under the guard of
cell (0, 0) (R313), and the function of each word.
-/
namespace Sys2Proof.Machine

/-! ## The advance of the triple -/

/-- The end of a loop turns the numbering and writes a predicate, but no e or tile register (R126). -/
theorem Ec.loopEnd_advance_keeps (ec : Ec) : (ec.loopEnd Ec.advance).e = ec.e ∧ (ec.loopEnd Ec.advance).w = ec.w := by
  unfold Ec.loopEnd
  split
  case h_1 =>
    split
    case isTrue =>
      dsimp only
      split <;> exact ⟨rfl, rfl⟩
    case isFalse => exact ⟨rfl, rfl⟩
  case h_2 => exact ⟨rfl, rfl⟩

theorem Ec.loopEnd_of_not_atLend {ec : Ec} (out : Ec → Ec) (h : ec.atLend = false) : ec.loopEnd out = out ec := by
  unfold Ec.atLend at h
  unfold Ec.loopEnd
  split
  next l hloop =>
    rw [hloop] at h
    exact if_neg (by simpa using h)
  next => rfl

theorem EcKept.atLend {s t : State} (h : EcKept s t) : t.tp.ec.atLend = s.tp.ec.atLend := by
  unfold Ec.atLend
  rw [h.loop, h.pc]

/-- How a word that takes no branch leaves the state `u` in which it has had its effect: registers, memory and banks stay, and
outside the last word of a loop the predicates do and the triple moves on (R121). -/
structure WordEnds (u t : State) : Prop where
  e : t.tp.ec.e = u.tp.ec.e
  w : t.tp.ec.w = u.tp.ec.w
  mem : t.mem = u.mem
  banks : t.tp.banks = u.tp.banks
  acx : t.tp.ac.x = u.tp.ac.x
  p : u.tp.ec.atLend = false → t.tp.ec.p = u.tp.ec.p
  prb : u.tp.ec.atLend = false → t.tp.ec.prb = u.tp.ec.prb
  triple : u.tp.ec.atLend = false → t.tp.ec.pc = u.tp.ec.npc ∧ t.tp.ec.npc = u.tp.ec.nnpc ∧ t.tp.ec.nnpc = u.tp.ec.nnpc + 8

namespace State

theorem eNext_of_not_atLend {s : State} (h : s.tp.ec.atLend = false) : s.eNext = s.setEc s.tp.ec.advance :=
  congrArg s.setEc (Ec.loopEnd_of_not_atLend Ec.advance h)

theorem eDone_wordEnds (u : State) (w : EWord) (n occ lat : Nat) (dst : Option Nat) :
    WordEnds u (u.eNext.eDone w n occ lat dst) where
  e := u.tp.ec.loopEnd_advance_keeps.1
  w := u.tp.ec.loopEnd_advance_keeps.2
  mem := rfl
  banks := rfl
  acx := rfl
  p h := by rw [eNext_of_not_atLend h]; rfl
  prb h := by rw [eNext_of_not_atLend h]; rfl
  triple h := by rw [eNext_of_not_atLend h]; exact ⟨rfl, rfl, rfl⟩

/-! ## Scalars and predicates by their names -/

theorem getE_congr {s t : State} (he : t.tp.ec.e = s.tp.ec.e) (r : Nat) : t.getE r = s.getE r := by
  unfold getE
  rw [he]

theorem getP_congr {s t : State} (hp : t.tp.ec.p = s.tp.ec.p) (hprb : t.tp.ec.prb = s.tp.ec.prb) (n : Nat) :
    t.getP n = s.getP n := by
  unfold getP Ec.predReg
  rw [hp, hprb]

@[simp] theorem getE_setE_self (s : State) (d : Nat) (v : Dword) : (s.setE d v).getE d = if d = 0 then 0 else v := by
  unfold getE setE
  by_cases hd : d = 0
  · rw [if_pos hd, if_pos hd]
  · rw [if_neg hd, if_neg hd, if_neg hd]
    exact Sparse.get_set_self _ _ _

theorem getE_setE_ne (s : State) {d r : Nat} (v : Dword) (h : r ≠ d) : (s.setE d v).getE r = s.getE r := by
  by_cases hd : d = 0
  · rw [setE, if_pos hd]
  · rw [setE, if_neg hd, getE, getE]
    exact congrArg (ite (r = 0) 0) (Sparse.get_set_ne _ _ _ _ h)

@[simp] theorem getP_setP_self (s : State) (d : Nat) (v : BitVec 1024) :
    (s.setP d v).getP d = if d = 0 then BitVec.allOnes 1024 else v := by
  unfold getP setP
  by_cases hd : d = 0
  · simp only [if_pos hd]
  · rw [if_neg hd, if_neg hd, if_neg hd]
    exact Sparse.get_set_self _ _ _

/-! ## Writes under the guard of cell (0, 0) (R313) -/

/-- The effect of a word that writes a scalar. -/
def guardedE (s : State) (w : EWord) (v : Dword) : State := if s.guard0 w then s.setE w.d.toNat v else s

/-- The effect of a word that writes a whole predicate. -/
def guardedP (s : State) (w : EWord) (v : BitVec 1024) : State := if s.guard0 w then s.setP w.d.toNat v else s

/-- Where the guard does not hold, the word does what a write to e0 does. -/
theorem guardedE_eq_setE (s : State) (w : EWord) (v : Dword) :
    s.guardedE w v = s.setE (if s.guard0 w then w.d.toNat else 0) v := by
  unfold guardedE
  cases s.guard0 w <;> rfl

/-- Where the guard does not hold, the word does what a write to p0 does. -/
theorem guardedP_eq_setP (s : State) (w : EWord) (v : BitVec 1024) :
    s.guardedP w v = s.setP (if s.guard0 w then w.d.toNat else 0) v := by
  unfold guardedP
  cases s.guard0 w <;> rfl

theorem getE_guardedE (s : State) (w : EWord) (v : Dword) :
    (s.guardedE w v).getE w.d.toNat = if w.d.toNat = 0 then 0 else if s.guard0 w then v else s.getE w.d.toNat := by
  unfold guardedE
  cases s.guard0 w
  case true => exact s.getE_setE_self _ v
  case false => by_cases hd : w.d.toNat = 0 <;> simp [getE, hd]

theorem getE_guardedE_ne (s : State) (w : EWord) {r : Nat} (v : Dword) (h : r ≠ w.d.toNat) :
    (s.guardedE w v).getE r = s.getE r := by
  unfold guardedE
  cases s.guard0 w
  case true => exact s.getE_setE_ne v h
  case false => rfl

theorem getP_guardedP (s : State) (w : EWord) (v : BitVec 1024) :
    (s.guardedP w v).getP w.d.toNat =
      if w.d.toNat = 0 then BitVec.allOnes 1024 else if s.guard0 w then v else s.getP w.d.toNat := by
  unfold guardedP
  cases s.guard0 w
  case true => exact s.getP_setP_self _ v
  case false => by_cases hd : w.d.toNat = 0 <;> simp [getP, hd]

theorem atLend_guardedE (s : State) (w : EWord) (v : Dword) : (s.guardedE w v).tp.ec.atLend = s.tp.ec.atLend := by
  simp [guardedE_eq_setE, Ec.atLend]

theorem atLend_guardedP (s : State) (w : EWord) (v : BitVec 1024) : (s.guardedP w v).tp.ec.atLend = s.tp.ec.atLend := by
  simp [guardedP_eq_setP, Ec.atLend]

end State

/-! ## Words that are ready -/

/-- A scalar or predicate word that is ready has its effect, and ends. -/
theorem eScalarWord_of_ready {s s1 u : State} {w : EWord} {codes : List (BitVec 6)} {keys : List Nat} {dst : Option Nat}
    {act : List Dword → State → Try State} {v : List Dword}
    (hready : s.eReady w 6 (scalarKeys codes ++ s.tp.ec.keyP w.pg.toNat :: keys) dst (fun s => s.readScalars codes) = .ok (v, s1))
    (hact : act v s1 = .ok u) :
    EcKept s s1 ∧ ∃ t, eScalarWord s w codes keys dst act = .next t ∧ WordEnds u t := by
  refine ⟨State.ecKept_eReady _ _ _ _ _ _ _ _ (fun s v t => State.ecKept_readScalars s t codes v) hready, ?_⟩
  suffices h : eScalarWord s w codes keys dst act = .next (u.eNext.eDone w (s.tp.ec.issueAt
      (scalarKeys codes ++ s.tp.ec.keyP w.pg.toNat :: keys) dst) 1 1 dst) from ⟨_, h, u.eDone_wordEnds ..⟩
  unfold eScalarWord ecStep
  dsimp only
  rw [State.eIssue_of_ready _ _ _ _ _ _ _ _ _ _ _ hready, hact]

theorem eToScalar_eq_guardedE (s : State) (w : EWord) (codes : List (BitVec 6)) (f : List Dword → Dword) :
    eToScalar s w codes f =
      eScalarWord s w codes [] (some (keyE w.d.toNat)) (fun v s => .ok (s.guardedE w (f v))) := rfl

theorem eToPred_eq_guardedP (s : State) (w : EWord) (codes preds : List (BitVec 6)) (f : List Dword → State → BitVec 1024) :
    eToPred s w codes preds f =
      eScalarWord s w codes (preds.map (fun p => s.tp.ec.keyP p.toNat)) (some (s.tp.ec.keyP w.d.toNat))
        (fun v s => .ok (s.guardedP w (f v s))) := rfl

/-- A word that writes a scalar: D under the guard, and nothing else but the triple. -/
theorem eToScalar_of_ready {s s1 : State} {w : EWord} {codes : List (BitVec 6)} {v : List Dword} (f : List Dword → Dword)
    (hready : s.eReadyScalar w codes (some (keyE w.d.toNat)) = .ok (v, s1)) :
    ∃ t, eToScalar s w codes f = .next t ∧
      t.getE w.d.toNat = (if w.d.toNat = 0 then 0 else if s1.guard0 w then f v else s.getE w.d.toNat) ∧
      (∀ r, r ≠ w.d.toNat → t.getE r = s.getE r) ∧ t.tp.ec.w = s1.tp.ec.w ∧ SameMemory s t ∧ t.tp.banks = s.tp.banks ∧
      t.tp.ac.x = s.tp.ac.x ∧ (s.tp.ec.atLend = false → t.tp.ec.p = s.tp.ec.p ∧ t.tp.ec.pc = s.tp.ec.npc ∧
        t.tp.ec.npc = s.tp.ec.nnpc ∧ t.tp.ec.nnpc = s.tp.ec.nnpc + 8) := by
  rw [eToScalar_eq_guardedE]
  obtain ⟨hkept, t, hexec, hends⟩ := eScalarWord_of_ready
    (act := fun v s => .ok (s.guardedE w (f v))) (u := s1.guardedE w (f v)) hready rfl
  refine ⟨t, hexec, ?_, fun r hr => ?_, ?_, fun a => ?_, ?_, ?_, fun hlast => ?_⟩
  · rw [State.getE_congr hends.e, State.getE_guardedE, State.getE_congr hkept.e]
  · rw [State.getE_congr hends.e, State.getE_guardedE_ne _ _ _ hr, State.getE_congr hkept.e]
  · simp [hends.w, State.guardedE_eq_setE]
  · simp [hends.mem, State.guardedE_eq_setE, hkept.mem]
  · simp [hends.banks, State.guardedE_eq_setE, hkept.banks]
  · simp [hends.acx, State.guardedE_eq_setE, hkept.acx]
  · have hlast1 : (s1.guardedE w (f v)).tp.ec.atLend = false := by rw [State.atLend_guardedE, hkept.atLend, hlast]
    simp [hends.p hlast1, hends.triple hlast1, State.guardedE_eq_setE, hkept.p, hkept.npc, hkept.nnpc]

/-- A word that writes a predicate: the whole of D under the guard; scalars, memory and banks stay. -/
theorem eToPred_of_ready {s s1 : State} {w : EWord} {codes preds : List (BitVec 6)} {v : List Dword}
    (f : List Dword → State → BitVec 1024) (hready : s.eReadyPred w codes preds = .ok (v, s1)) :
    EcKept s s1 ∧ ∃ t, eToPred s w codes preds f = .next t ∧ t.tp.ec.e = s.tp.ec.e ∧ SameMemory s t ∧
      t.tp.banks = s.tp.banks ∧ (s.tp.ec.atLend = false → t.getP w.d.toNat = if w.d.toNat = 0 then BitVec.allOnes 1024
        else if s1.guard0 w then f v s1 else s.getP w.d.toNat) := by
  rw [eToPred_eq_guardedP]
  obtain ⟨hkept, t, hexec, hends⟩ := eScalarWord_of_ready
    (act := fun v s => .ok (s.guardedP w (f v s))) (u := s1.guardedP w (f v s1)) hready rfl
  refine ⟨hkept, t, hexec, ?_, fun a => ?_, ?_, fun hlast => ?_⟩
  · simp [hends.e, State.guardedP_eq_setP, hkept.e]
  · simp [hends.mem, State.guardedP_eq_setP, hkept.mem]
  · simp [hends.banks, State.guardedP_eq_setP, hkept.banks]
  · have hlast1 : (s1.guardedP w (f v s1)).tp.ec.atLend = false := by rw [State.atLend_guardedP, hkept.atLend, hlast]
    rw [State.getP_congr (hends.p hlast1) (hends.prb hlast1), State.getP_guardedP, State.getP_congr hkept.p hkept.prb]

/-! ## The function of each scalar word (R337, R403, R418) -/

theorem add_eq_ofInt (a b : Dword) : a + b = BitVec.ofInt 64 (a.toInt + b.toInt) := by
  rw [BitVec.ofInt_add, BitVec.ofInt_toInt, BitVec.ofInt_toInt]

theorem sub_eq_ofInt (a b : Dword) : a - b = BitVec.ofInt 64 (a.toInt - b.toInt) := by
  rw [Int.sub_eq_add_neg, BitVec.ofInt_add, BitVec.ofInt_neg, BitVec.ofInt_toInt, BitVec.ofInt_toInt, BitVec.sub_eq_add_neg]

theorem mul_eq_ofInt (a b : Dword) : a * b = BitVec.ofInt 64 (a.toInt * b.toInt) := by
  rw [BitVec.ofInt_mul, BitVec.ofInt_toInt, BitVec.ofInt_toInt]

theorem shiftLeft_eq_ofNat_mul (a : Dword) (n : Nat) : a <<< n = BitVec.ofNat 64 (a.toNat * 2 ^ n) :=
  BitVec.eq_of_toNat_eq (by rw [BitVec.toNat_shiftLeft, Nat.shiftLeft_eq, BitVec.toNat_ofNat])

theorem ushiftRight_eq_ofNat_div (a : Dword) (n : Nat) : a >>> n = BitVec.ofNat 64 (a.toNat / 2 ^ n) := by
  rw [← Nat.shiftRight_eq_div_pow, ← BitVec.toNat_ushiftRight, BitVec.ofNat_toNat, BitVec.setWidth_eq]

theorem sshiftRight_eq_ofInt_div (a : Dword) (n : Nat) : a.sshiftRight n = BitVec.ofInt 64 (a.toInt / 2 ^ n) := by
  rw [← BitVec.ofInt_toInt (x := a.sshiftRight n), BitVec.toInt_sshiftRight, Int.shiftRight_eq_div_pow]
  rfl

theorem min_eq_ite_toInt_le (a b : Dword) : (if b.slt a then b else a) = if a.toInt ≤ b.toInt then a else b := by
  simp only [BitVec.slt_iff_toInt_lt, ← Int.not_le, ite_not]

/-- At equal values the operands are one, so that either of them is the maximum. -/
theorem max_eq_ite_toInt_le (a b : Dword) : (if a.slt b then b else a) = if a.toInt ≤ b.toInt then b else a := by
  simp only [BitVec.slt_iff_toInt_lt]
  obtain hlt | heq | hgt := Int.lt_trichotomy a.toInt b.toInt
  · rw [if_pos hlt, if_pos (Int.le_of_lt hlt)]
  · rw [BitVec.toInt_inj.mp heq, ite_self, ite_self]
  · rw [if_neg (Int.lt_asymm hgt), if_neg (Int.not_le.mpr hgt)]

theorem eAluWord_eq_eToScalar (w : EWord) (s : State) {g f : Dword → Dword → Dword} (h : ∀ a b, g a b = f a b) :
    eAluWord w s g = eToScalar s w (if w.i = 1 then [w.a] else [w.a, w.b])
      (fun v => f (v.getD 0 0) (v.getD 1 (w.imm.signExtend 64))) := by
  obtain rfl : g = f := funext fun a => funext fun b => h a b
  rfl

/-- Every row of the table is what its word does. -/
theorem exec_eScalarTable (w : EWord) (s : State) :
    ∀ row ∈ eScalarTable w, exec row.1 s = eToScalar s w row.2.1 row.2.2 := by
  have hli : exec (.eLi w) s = eToScalar s w [w.a]
      (fun v => BitVec.ofNat 64 ((v.getD 0 0).toNat * 65536) + w.imm.signExtend 64) :=
    congrArg (eToScalar s w [w.a]) (funext fun v => congrArg (· + w.immS) (shiftLeft_eq_ofNat_mul (v.getD 0 0) 16))
  have hsel : exec (.eSel w) s = eToScalar s w [w.a, w.b, w.c]
      (fun v => if v.getD 2 0 = 0 then v.getD 1 0 else v.getD 0 0) :=
    congrArg (eToScalar s w [w.a, w.b, w.c]) (funext fun v => by simp)
  simp only [eScalarTable, List.forall_mem_cons]
  -- the rows in their order in the table; AND, OR, XOR and QIN stand there as the model has them
  exact ⟨(eAluWord_eq_eToScalar w s add_eq_ofInt :), (eAluWord_eq_eToScalar w s sub_eq_ofInt :),
    (eAluWord_eq_eToScalar w s mul_eq_ofInt :), rfl, rfl, rfl,
    (eAluWord_eq_eToScalar w s (fun a b => shiftLeft_eq_ofNat_mul a (b.toNat % 64)) :),
    (eAluWord_eq_eToScalar w s (fun a b => ushiftRight_eq_ofNat_div a (b.toNat % 64)) :),
    (eAluWord_eq_eToScalar w s (fun a b => sshiftRight_eq_ofInt_div a (b.toNat % 64)) :),
    (eAluWord_eq_eToScalar w s min_eq_ite_toInt_le :), (eAluWord_eq_eToScalar w s max_eq_ite_toInt_le :), hli, hsel, rfl,
    fun _ h => (List.not_mem_nil h).elim⟩

/-! ## The fields of LI and PMOV (R403, R411) -/

theorem wellFormed_eLi (w : EWord) : WellFormed.instr (.eLi w) =
    (w.fmt == 0 && WellFormed.eTok w && WellFormed.dstE w.d && WellFormed.srcE w.a && w.b == 0 && w.c == 0 && w.i == 1) := rfl

theorem wellFormed_ePmov (w : EWord) : WellFormed.instr (.ePmov w) =
    (WellFormed.eReg w 1 && WellFormed.isP w.d && WellFormed.isP w.a && w.b == 0 && w.c == 0) := rfl

theorem eLi_fields {w : EWord} (h : WellFormed.instr (.eLi w) = true) :
    w.i = 1 ∧ w.d.toNat < 32 ∧ w.b = 0 ∧ w.c = 0 ∧ w.fmt = 0 := by
  simp only [wellFormed_eLi, Bool.and_eq_true, beq_iff_eq, WellFormed.dstE, decide_eq_true_eq] at h
  obtain ⟨⟨⟨⟨⟨⟨hfmt, -⟩, hd⟩, -⟩, hb⟩, hc⟩, hi⟩ := h
  exact ⟨hi, hd, hb, hc, hfmt⟩

/-- A word without an immediate and without a function has MOD16 zero (R314). -/
theorem fields_of_eReg_one {w : EWord} (h : WellFormed.eReg w 1 = true) : w.fmt = 0 ∧ w.i = 0 ∧ w.imm = 0 := by
  simp only [WellFormed.eReg, WellFormed.zeroAt, WellFormed.fnOf, Bool.and_eq_true, beq_iff_eq] at h
  obtain ⟨⟨⟨⟨hfmt, hi⟩, hlow⟩, hfn⟩, -⟩ := h
  refine ⟨hfmt, hi, BitVec.eq_of_toNat_eq ?_⟩
  have hlow : w.imm.toNat % 256 = 0 := by simpa using congrArg BitVec.toNat hlow
  have hhigh : w.imm.toNat / 256 % 256 = 0 := by simpa [Nat.shiftRight_eq_div_pow] using hfn
  have hlt := w.imm.isLt
  show w.imm.toNat = 0
  omega

theorem ePmov_fields {w : EWord} (h : WellFormed.instr (.ePmov w) = true) :
    w.i = 0 ∧ w.b = 0 ∧ w.c = 0 ∧ w.fmt = 0 ∧ w.imm = 0 ∧ w.d.toNat < 16 ∧ w.a.toNat < 16 := by
  simp only [wellFormed_ePmov, Bool.and_eq_true, beq_iff_eq, WellFormed.isP, decide_eq_true_eq] at h
  obtain ⟨⟨⟨⟨hreg, hd⟩, ha⟩, hb⟩, hc⟩ := h
  obtain ⟨hfmt, hi, himm⟩ := fields_of_eReg_one hreg
  exact ⟨hi, hb, hc, hfmt, himm, hd, ha⟩

/-- Settles O28: each row of the table is a word that writes its function to D (`exec_eScalarTable`), and such a word that is
ready does that under the guard and nothing else (`eToScalar_of_ready`). -/
theorem eScalarResults : Obligations.EScalarResults := by
  unfold Obligations.EScalarResults
  refine ⟨fun w s codes v s1 i f hrow hready => ?_, fun _ => eLi_fields⟩
  rw [exec_eScalarTable w s (i, codes, f) hrow]
  exact eToScalar_of_ready f hready

/-- Settles O29: each of the words writes a predicate (`eToPred_of_ready`); the predicates that PLOG and PMOV read after the issue
are those before it (`EcKept`). -/
theorem ePredicateWords : Obligations.EPredicateWords := by
  unfold Obligations.EPredicateWords
  refine ⟨fun w s => ⟨fun v s1 cond hready hcond => ?cmp, fun v s1 hready => ?pset, fun v s1 hready => ?plog,
    fun v s1 hready => ?pmov⟩, fun _ => ePmov_fields⟩
  case cmp =>
    subst hcond
    exact (eToPred_of_ready _ hready).2
  case pset => exact (eToPred_of_ready _ hready).2
  case plog =>
    obtain ⟨hkept, hwrites⟩ := eToPred_of_ready
      (fun _ s => logicOp w.fn (s.getP w.a.toNat) (s.getP w.b.toNat)) hready
    simp only [State.getP_congr hkept.p hkept.prb] at hwrites
    exact hwrites
  case pmov =>
    obtain ⟨hkept, hwrites⟩ := eToPred_of_ready (fun _ s => s.getP w.a.toNat) hready
    simp only [State.getP_congr hkept.p hkept.prb] at hwrites
    exact hwrites

end Sys2Proof.Machine
end

section
/-!
PROOF. The tile words of the E stream that issue (R431, R432): what such a word writes to D under its guard and ZM, what it
leaves, and the function of each word on the cells of its sources (R435 to R450).
-/
namespace Sys2Proof.Machine

/-! ## Tile registers by their names -/

/-- Rotation is a bijection of the names 16 to 31 on the registers 16 to 31, and no name below 16 meets them (R126). -/
theorem Ec.tileReg_ne (ec : Ec) {n d : Nat} (hn : n < 32) (hd : d < 32) (h : n ≠ d) : ec.tileReg n ≠ ec.tileReg d := by
  unfold Ec.tileReg
  split <;> split <;> omega

theorem bitAt_toNat {n : Nat} (x : BitVec n) (c : Nat) : bitAt x.toNat c = x.getLsbD c := by
  rw [← BitVec.testBit_toNat, Nat.testBit_eq_decide_div_mod_eq, bitAt]
  rfl

namespace State

theorem getW_congr {s t : State} (hw : t.tp.ec.w = s.tp.ec.w) (hrrb : t.tp.ec.rrb = s.tp.ec.rrb) (n : Nat) :
    t.getW n = s.getW n := by
  unfold getW Ec.tileReg
  rw [hw, hrrb]

theorem writeW_tp_ec_w (s : State) (r : Nat) (on : Nat → Bool) (v : Nat → Word) : (s.writeW r on v).tp.ec.w =
    Map.put s.tp.ec.w r
      (Sparse.ofFn 1024 (fun c => if on c then v c else Sparse.get ((Map.find s.tp.ec.w r).getD []) c)) := by
  unfold writeW
  dsimp only
  split <;> rfl

theorem writeW_tileReg (s : State) (r : Nat) (on : Nat → Bool) (v : Nat → Word) (n : Nat) :
    (s.writeW r on v).tp.ec.tileReg n = s.tp.ec.tileReg n := by
  unfold Ec.tileReg
  rw [(s.ecKept_writeW r on v).rrb]

theorem get_getW_writeW (s : State) (d : Nat) (on : Nat → Bool) (v : Nat → Word) {c : Nat} (hc : c < 1024) :
    Sparse.get ((s.writeW (s.tp.ec.tileReg d) on v).getW d) c = if on c then v c else Sparse.get (s.getW d) c := by
  rw [getW, writeW_tileReg, writeW_tp_ec_w, Map.find_put, Option.getD_some, Sparse.get_ofFn, if_pos hc, getW]

theorem getW_writeW_ne (s : State) {d n : Nat} (on : Nat → Bool) (v : Nat → Word) (hn : n < 32) (hd : d < 32) (h : n ≠ d) :
    (s.writeW (s.tp.ec.tileReg d) on v).getW n = s.getW n := by
  rw [getW, writeW_tileReg, writeW_tp_ec_w, Map.find_put_ne _ _ _ _ (s.tp.ec.tileReg_ne hn hd h), getW]

/-! ## Writes under the guard of each cell (R313, R432) -/

/-- The effect of a word that writes a tile register with the cells `x`. -/
def guardedW (s : State) (w : EWord) (x : Nat → Nat) : State :=
  let on (c : Nat) : Bool := bitAt (s.guard w).toNat c
  s.writeW (s.tp.ec.tileReg w.d.toNat) (fun c => on c || w.zm) (fun c => if on c then BitVec.ofNat 32 (x c) else 0)

theorem ecKept_guardedW (s : State) (w : EWord) (x : Nat → Nat) : EcKept s (s.guardedW w x) := s.ecKept_writeW _ _ _

theorem get_getW_guardedW (s : State) (w : EWord) (x : Nat → Nat) {c : Nat} (hc : c < 1024) :
    Sparse.get ((s.guardedW w x).getW w.d.toNat) c =
      if (s.guard w).getLsbD c then BitVec.ofNat 32 (x c) else if w.zm then 0 else Sparse.get (s.getW w.d.toNat) c := by
  rw [guardedW, get_getW_writeW _ _ _ _ hc]
  simp only [bitAt_toNat]
  cases (s.guard w).getLsbD c <;> rfl

theorem getW_guardedW_ne (s : State) (w : EWord) (x : Nat → Nat) {n : Nat} (hn : n < 32) (hd : w.d.toNat < 32)
    (h : n ≠ w.d.toNat) : (s.guardedW w x).getW n = s.getW n :=
  s.getW_writeW_ne _ _ hn hd h

/-- Only the end of a loop turns the numbering of tile registers (R126). -/
theorem eDone_rrb_of_not_atLend {u : State} (w : EWord) (n occ lat : Nat) (dst : Option Nat) (h : u.tp.ec.atLend = false) :
    (u.eNext.eDone w n occ lat dst).tp.ec.rrb = u.tp.ec.rrb := by
  rw [eNext_of_not_atLend h]
  rfl

end State

/-! ## Tile words that are ready -/

/-- A tile word that is ready writes D under its guard, and ends. -/
theorem eTileWord_of_ready {s s1 : State} {w : EWord} {codes : List (BitVec 6)} {keys : List Nat} {v : List Tile} (lat : Nat)
    (f : State → List Tile → Nat → Nat) (hready : s.eReadyTile w codes keys (some (s.tp.ec.keyW w.d.toNat)) = .ok (v, s1)) :
    EcKept s s1 ∧ ∃ n, eTileWord s w codes keys lat f =
      .next ((s1.guardedW w (f s1 v)).eNext.eDone w n 4 lat (some (s.tp.ec.keyW w.d.toNat))) := by
  unfold State.eReadyTile at hready
  refine ⟨State.ecKept_eReady _ _ _ _ _ _ _ _ (fun s v t => State.ecKept_readTiles s t codes v) hready,
    s.tp.ec.issueAt (s.tp.ec.tileKeys codes ++ s.tp.ec.keyP w.pg.toNat :: keys) (some (s.tp.ec.keyW w.d.toNat)), ?_⟩
  unfold eTileWord ecStep
  dsimp only
  rw [State.eIssue_of_ready _ _ _ _ _ _ _ _ _ _ _ hready]
  rfl

/-! ## The elements that an elementwise word takes (R38, R435) -/

/-- The elements at cell `c` of the first `n` sources, an immediate among them. -/
def sourceElems (w : EWord) (v : List Tile) (n c : Nat) : List Nat :=
  (List.range n).map (fun k => elem w.format (w.source v k c))

theorem getElem?_sourceElems (w : EWord) (v : List Tile) {n k : Nat} (c : Nat) (hk : k < n) :
    (sourceElems w v n c)[k]? = some (elem w.format (w.source v k c)) := by
  rw [sourceElems, List.getElem?_map, List.getElem?_range hk, Option.map_some]

theorem natAt_sourceElems (w : EWord) (v : List Tile) {n k : Nat} (more c : Nat) (hk : k < n) :
    natAt (sourceElems w v (n + more) c) k = elem w.format (w.source v k c) := by
  rw [natAt, getElem?_sourceElems w v c (Nat.lt_add_right more hk), Option.getD_some]

/-- An immediate stands for the last source, so that the count of elements is the same with it and without. -/
theorem length_tileCodes (w : EWord) (first : List (BitVec 6)) (last : BitVec 6) :
    (w.tileCodes first last).length + (if w.i = 1 then 1 else 0) = first.length + 1 := by
  unfold EWord.tileCodes
  split <;> simp

/-- A word on elements is a tile word of latency 4 with the cells `g`. -/
theorem eElem_eq_eTileWord (w : EWord) (s : State) (codes : List (BitVec 6)) (keys : List Nat)
    {f : State → Nat → List Nat → Nat} {g : State → List Tile → Nat → Nat}
    (h : ∀ s v c, f s c (sourceElems w v (codes.length + if w.i = 1 then 1 else 0) c) = g s v c) :
    eElem w s codes keys f = eTileWord s w codes keys 4 g := by
  obtain rfl := funext fun s => funext fun v => funext fun c => h s v c
  rfl

/-- A word whose last source an immediate may replace. -/
theorem eElem_tileCodes (w : EWord) (s : State) (first : List (BitVec 6)) (last : BitVec 6) (f : List Nat → Nat) :
    eElem w s (w.tileCodes first last) [] (fun _ _ => f) =
      eTileWord s w (w.tileCodes first last) [] 4 (fun _ v c => f (sourceElems w v (first.length + 1) c)) :=
  eElem_eq_eTileWord w s _ _ fun _ v c => by rw [length_tileCodes w]

/-- Arithmetic on the one element of A. -/
theorem eElem_arith_one (w : EWord) (s : State) (flt : Val → Val) (int : Int → Int) :
    eElem w s [w.a] [] (fun _ _ => eArith w (fun l => flt (valAt l 0)) (fun l => int (intAt l 0))) =
      eTileWord s w [w.a] [] 4 (fun _ v c =>
        eArith w (fun l => flt (valAt l 0)) (fun l => int (intAt l 0)) (sourceElems w v 1 c)) :=
  eElem_eq_eTileWord w s _ _ fun _ v c => by
    have hfirst (more : Nat) : (sourceElems w v (1 + more) c)[0]? = some (elem w.format (w.source v 0 c)) :=
      getElem?_sourceElems w v c (Nat.lt_add_right more Nat.one_pos)
    simp only [eArith, valAt, intAt, List.getElem?_map, List.length_singleton, hfirst,
      getElem?_sourceElems w v c Nat.one_pos]

/-- A word on the element of A. -/
theorem eElem_one (w : EWord) (s : State) (f : Nat → Nat) : eElem w s [w.a] [] (fun _ _ l => f (natAt l 0)) =
    eTileWord s w [w.a] [] 4 (fun _ v c => f (elem w.format (w.source v 0 c))) :=
  eElem_eq_eTileWord w s _ _ fun _ v c => congrArg f (natAt_sourceElems w v _ c Nat.one_pos)

/-- A word on the elements of A and B. -/
theorem eElem_two (w : EWord) (s : State) (keys : List Nat) (f : State → Nat → Nat → Nat → Nat) :
    eElem w s [w.a, w.b] keys (fun s c l => f s c (natAt l 0) (natAt l 1)) = eTileWord s w [w.a, w.b] keys 4
      (fun s v c => f s c (elem w.format (w.source v 0 c)) (elem w.format (w.source v 1 c))) :=
  eElem_eq_eTileWord w s _ _ fun s v c =>
    congr (congrArg (f s c) (natAt_sourceElems w v _ c Nat.two_pos)) (natAt_sourceElems w v _ c Nat.one_lt_two)

/-- A word on the element of A and that of B or the immediate. -/
theorem eElem_tileCodes_two (w : EWord) (s : State) (f : Nat → Nat → Nat) :
    eElem w s (w.tileCodes [w.a] w.b) [] (fun _ _ l => f (natAt l 0) (natAt l 1)) = eTileWord s w (w.tileCodes [w.a] w.b) [] 4
      (fun _ v c => f (elem w.format (w.source v 0 c)) (elem w.format (w.source v 1 c))) :=
  eElem_tileCodes w s [w.a] w.b _

/-! ## The function of each tile word (R435 to R450) -/

/-- Every row of the table is what its word does. -/
theorem exec_tileTable (w : EWord) (s : State) : ∀ row ∈ tileTable w, exec row.1 s =
    eTileWord s w row.2.1 (row.2.2.1.map (fun p => s.tp.ec.keyP p.toNat)) row.2.2.2.1 row.2.2.2.2 := by
  simp only [tileTable, List.forall_mem_cons]
  -- the rows in their order in the table; from VLI to VQIN they stand there as the model has them
  exact ⟨eElem_tileCodes w s [w.a] w.b _, eElem_tileCodes w s [w.a] w.b _, eElem_tileCodes w s [w.a] w.b _,
    eElem_tileCodes w s [w.a, w.b] w.c _, eElem_tileCodes w s [w.a] w.b _, eElem_tileCodes w s [w.a] w.b _,
    eElem_arith_one w s absV (fun a => a.natAbs), eElem_arith_one w s negV (fun a => -a),
    eElem_two w s [] (fun _ _ a b => elem w.format (logicOp w.fn (BitVec.ofNat 32 a) (BitVec.ofNat 32 b)).toNat),
    eElem_two w s [s.tp.ec.keyP w.c.toNat] (fun s c a b => if (s.getP w.c.toNat).getLsbD c then a else b),
    eElem_one w s (fun a => a), eElem_one w s (fun a => popcount a (eCountWidth w)),
    eElem_one w s (fun a => if a = 0 then eCountWidth w else eCountWidth w - 1 - a.log2),
    eElem_tileCodes_two w s (fun a b => shiftElem w.fn w.format.width a (signedOf b w.format.width)),
    rfl, rfl, rfl, rfl, rfl, rfl, rfl, rfl, rfl, rfl, rfl, rfl, rfl, rfl, fun _ h => (List.not_mem_nil h).elim⟩

/-- Settles O33: each row of the table is a word that writes its cells to D (`exec_tileTable`), and such a word that is ready
writes them under the guard and nothing else (`eTileWord_of_ready`). -/
theorem tileWordsWriteCells : Obligations.TileWordsWriteCells := by
  unfold Obligations.TileWordsWriteCells
  intro w s i codes preds lat f v s1 hrow hd hready
  rw [exec_tileTable w s _ hrow]
  obtain ⟨hissue, n, hexec⟩ := eTileWord_of_ready lat f hready
  have hkept : EcKept s (s1.guardedW w (f s1 v)) := hissue.trans (s1.ecKept_guardedW w _)
  obtain ⟨he, hw, hmem, hbanks, hacx, hp, -, htriple⟩ :=
    State.eDone_wordEnds (s1.guardedW w (f s1 v)) w n 4 lat (some (s.tp.ec.keyW w.d.toNat))
  refine ⟨_, hexec, he.trans hkept.e, fun a => by rw [hmem, hkept.mem], hbanks.trans hkept.banks, hacx.trans hkept.acx,
    fun hlast => ?_⟩
  have hlast : (s1.guardedW w (f s1 v)).tp.ec.atLend = false := hkept.atLend.trans hlast
  have hgetW := State.getW_congr hw (State.eDone_rrb_of_not_atLend w _ 4 lat _ hlast)
  refine ⟨(hp hlast).trans hkept.p, (htriple hlast).1.trans hkept.npc, fun c hc => ?_, fun n hn hne => ?_⟩
  · rw [hgetW, s1.get_getW_guardedW w _ hc]
  · rw [hgetW, s1.getW_guardedW_ne w _ hn hd hne]

end Sys2Proof.Machine
end
